-- ==== Sys2Proof/Word.lean ====
section
/-! DEFINITION. The word types of Swiura (R5, R6): a byte is 8 bits, a half 16, a word 32, a doubleword 64, an
instruction word 96 (R57), and one bit per lane of a strand 1,024 (R21, R28). -/

namespace Sys2Proof

/-- R6: a byte. -/
abbrev Byte := BitVec 8

/-- R6: a word, the width of a vector register (R25). -/
abbrev Word := BitVec 32

/-- R6: a doubleword, the width of a scalar register (R26). -/
abbrev Dword := BitVec 64

/-- R57: an instruction word. -/
abbrev IWord := BitVec 96

/-- R28: a hierarchical mask. Bit l is lane l of the strand: bit l mod 32 of word W(l div 32). The summary S is
derived, so it is never stored. -/
abbrev Mask := BitVec 1024

end Sys2Proof
end

