-- ==== Sys2Proof/Config.lean ====
section
/-! DEFINITION. The free values: what the manual leaves unspecified (R14) or does not give at all. Each is an opaque
constant, so no proof can see a value of it; most are applied to the counter `State.free`, which every use advances. -/

namespace Sys2Proof.Config

/-- A fresh unspecified 64-bit value (R14). Assumption 3. -/
opaque freeWord : Nat → BitVec 64

/-- A fresh unspecified natural number, used for choices among listed outcomes (R14). Assumption 3. -/
opaque freeNat : Nat → Nat

/-- Whether a stale translation or a stale fetched unit is used in place of memory (R345, R346). Assumption 3. -/
opaque freeBool : Nat → Bool

/-- A choice that an operation makes, by its issue order and the index of the choice (R14). Assumption 3. -/
opaque opChoice : Nat → Nat → Nat

/-- R273: the errors of a K-step on the operand bus that no program injects, as (beat, wire): data wires 0 to 6,143, check wires
from 6,144; a beat number past the step's last names a word of its header. Assumption 96. -/
opaque busErrors : Nat → List (Nat × Nat)

/-- R407: the power the Kettle's model predicts, from the measured power and the throttle depths. Assumption 17. -/
opaque predictedPower : Nat → List Nat → Nat

/-- R389: whether the authentication tag of a frame verifies under a port's session key. Assumption 18. -/
opaque tagOk : Nat → List (BitVec 8) → BitVec 128 → Bool

/-- R389: the authentication tag of a frame that the device sends under a session key, over its header and payload. Assumption 18. -/
opaque frameTag : Nat → List (BitVec 64) → BitVec 128

/-- R395: whether an answer's signature verifies over the challenge with a key among those enrolled. Assumption 18. -/
opaque answerOk : List Nat → List (BitVec 8) → BitVec 16 → List (BitVec 8) → Bool

/-- R395: the session key that an answer agrees for its port. Assumption 18. -/
opaque sessionKey : List (BitVec 8) → BitVec 16 → Nat

/-- R395: the bytes of the n-th challenge. Assumption 18. -/
opaque challenge : Nat → List (BitVec 8)

/-- R417: whether both signatures of a firmware image verify. Assumption 18. -/
opaque imageOk : List (BitVec 8) → Bool

/-- R417: the security version of a firmware image. Assumption 18. -/
opaque imageVersion : List (BitVec 8) → Nat

/-- R417: the firmware image that module flash holds when the device leaves its factory. Assumption 9. -/
opaque factoryImage : List (BitVec 8)

/-- R419: the SHA-384 digest of some bytes, as six doublewords. Assumption 18. -/
opaque sha384 : List (BitVec 8) → List (BitVec 64)

/-- R419: the ECDSA signature of a report by the identity key. Assumption 18. -/
opaque identitySign : List (BitVec 64) → List (BitVec 64)

/-- R419: the LMS signature of a report by a leaf of the attestation key. Assumption 18. -/
opaque lmsSign : Nat → List (BitVec 64) → List (BitVec 64)

/-- R312: the retention bin that a boot measures for a row of the stacked tier. Assumption 97. -/
opaque bootBin : Nat → Nat → Nat

/-- R312: the spare rows that a boot uses in a bank. Assumption 97. -/
opaque bootSpares : Nat → Nat → Nat

/-- R312: the rows that a boot leaves without a spare, as (64 KiB page, bank). Assumption 97. -/
opaque bootRetires : Nat → List (Nat × Nat)

/-- R412: the estimated energy of some events of an operating point, in microjoules, as (kind, count). Assumption 91. -/
opaque energyEstimate : List (Nat × Nat) → Nat

/-- R407, R313: how long before the end of its 24 hours a line is about to pass them. Assumption 98. -/
opaque patrolMargin : Nat

/-- R414: physical address of the region table in the device register window, which the manual does not give.
Assumption 19. -/
opaque regionTableBase : Nat

/-- R416: physical address of RTCOMMIT in the device register window, which the manual does not give. Assumption 19. -/
opaque rtCommitAddr : Nat

/-- R381: the private byte image of a slot's control state. Assumption 20. -/
opaque controlImage : Nat → List (BitVec 8)

/-- R397: the UALink port over which a peer device is reached. Assumption 21. -/
opaque peerPort : Nat → Nat

/-- R398: whether the region table of another device allows a request: the peer address, and 0 for a read, 1 for a write,
2 for an atomic. Assumption 21. -/
opaque peerAllows : Nat → Nat → Bool

end Sys2Proof.Config
end

