-- ==== Sys2Proof/Syntax.lean ====
section
/-! DEFINITION. The syntax of the part's steps: every row of the opcode table is one constructor of `Instr`. The
constructors of instructions hold the fields of their extension form (R59 to R77); the constructors of device steps and
events hold the numbers that name the unit they concern, or the frame that carries them (R389). -/

namespace Sys2Proof

/-- R71: type codes. `b8 u f p` is the binary8 family: unsigned, finite, precision 1..7. -/
inductive Ty where
  | none | i4 | i8 | i16 | i24 | i32 | i64 | n8 | n16 | n32 | n64 | f16 | bf16 | f32 | f64
  | b8 (u f : Bool) (p : BitVec 3)
  deriving DecidableEq, Repr

/-- R70: rounding codes; `dyn` is FPSR.RM. -/
inductive Rnd where
  | dyn | rn | rz | rd | ru
  deriving DecidableEq, Repr

/-- R59: the operand encoding. -/
inductive Opnd where
  | v (r : BitVec 8) | s (r : BitVec 6) | spr (r : BitVec 7) | p (r : BitVec 3) | c (r : BitVec 3) | k (r : BitVec 3)
  | h (r : BitVec 4) | imm (x : BitVec 8)
  deriving DecidableEq, Repr

/-- R57, R62, R63: guard (negate, index), lookahead count, yield hint. -/
structure Hdr where
  neg : Bool
  gi : BitVec 3
  la : BitVec 4
  y : Bool
  deriving DecidableEq, Repr

/-- R69: the T3 form. -/
structure T3 where
  hd : Hdr
  d : Opnd
  a : Opnd
  b : Opnd
  c : Opnd
  ty : Ty
  rnd : Rnd
  sat : Bool
  opx : BitVec 24
  deriving DecidableEq, Repr

/-- R72: the I32 form. -/
structure I32 where
  hd : Hdr
  d : Opnd
  a : Opnd
  b : Opnd
  ty : Ty
  opx : BitVec 6
  imm : BitVec 32
  deriving DecidableEq, Repr

/-- R75: the L form. -/
structure LForm where
  hd : Hdr
  d : Opnd
  lit : BitVec 64
  deriving DecidableEq, Repr

/-- R73: the M form. -/
structure MForm where
  hd : Hdr
  d : Opnd
  a : Opnd
  b : Opnd
  rd : BitVec 3
  sz : BitVec 3
  sem : BitVec 2
  scope : BitVec 3
  ix : Bool
  opx : BitVec 8
  imm : BitVec 24
  deriving DecidableEq, Repr

/-- R74: the MT form. -/
structure MTForm where
  hd : Hdr
  d : Opnd
  a : Opnd
  b : Opnd
  rd : BitVec 3
  nc : BitVec 3
  k1 : Opnd
  k2 : Opnd
  k3 : Opnd
  opx : BitVec 8
  deriving DecidableEq, Repr

/-- R76: the E form. -/
structure EForm where
  hd : Hdr
  d : Opnd
  a : Opnd
  b : Opnd
  prio : BitVec 2
  fact : BitVec 2
  det : Bool
  pd : Bool
  c : Opnd
  eng : BitVec 28
  deriving DecidableEq, Repr

/-- R77: one half-op of a pair. -/
structure HalfOp where
  sop : BitVec 7
  sm : BitVec 3
  d : BitVec 7
  a : BitVec 7
  b : BitVec 7
  c : BitVec 7
  deriving DecidableEq, Repr

/-- R77: the paired form. -/
structure PairForm where
  hd : Hdr
  op1 : HalfOp
  op0 : HalfOp
  deriving DecidableEq, Repr

/-- R389: an Oroson frame as it arrives on a host port. `pa` is the physical address that a MEMRD or a MEMWR names: the header map
has no field for it, and a payload of 4,096 bytes leaves it no room (assumption 24). -/
structure Frame where
  port : Nat
  typ : BitVec 8
  rpl : Bool
  len : BitVec 16
  seq : BitVec 32
  node : BitVec 16
  ctxid : BitVec 16
  rsvd : Bool
  pa : BitVec 64
  payload : List Byte
  tag : BitVec 128
  deriving DecidableEq, Repr

/-- R397, R398: an incoming UALink request: the requesting device, the physical address, and for a write or an atomic
the bytes and the byte mask or operation. `op` and `dwide` are read by atomics only. -/
structure PeerReq where
  src : Nat
  addr : Nat
  size : Nat
  data : List Byte
  mask : List Bool
  op : Nat
  dwide : Bool
  deriving DecidableEq, Repr

/-- The rows of the opcode table, in its order. -/
inductive Instr where
  | add (f : T3)
  | addI32 (f : I32)
  | sub (f : T3)
  | mul (f : T3)
  | mulI32 (f : I32)
  | mulh (f : T3)
  | mad (f : T3)
  | abs (f : T3)
  | neg (f : T3)
  | min (f : T3)
  | max (f : T3)
  | and (f : T3)
  | andI32 (f : I32)
  | or (f : T3)
  | orI32 (f : I32)
  | xor (f : T3)
  | xorI32 (f : I32)
  | andn (f : T3)
  | shl (f : T3)
  | shr (f : T3)
  | sar (f : T3)
  | bfx (f : T3)
  | bfi (f : T3)
  | popc (f : T3)
  | clz (f : T3)
  | brev (f : T3)
  | cmp (f : T3)
  | cmpI32 (f : I32)
  | sel (f : T3)
  | mov (f : T3)
  | movI32 (f : I32)
  | movl (f : LForm)
  | lea (f : T3)
  | leaI32 (f : I32)
  | maddm (f : T3)
  | msubm (f : T3)
  | mmulm (f : T3)
  | mmacm (f : T3)
  | mred (f : T3)
  | rspl (f : T3)
  | rmrc (f : T3)
  | fadd (f : T3)
  | fsub (f : T3)
  | fmul (f : T3)
  | ffma (f : T3)
  | fmin (f : T3)
  | fmax (f : T3)
  | fcmp (f : T3)
  | fclass (f : T3)
  | frcp (f : T3)
  | frsq (f : T3)
  | fexp2 (f : T3)
  | flog2 (f : T3)
  | fsin (f : T3)
  | fcos (f : T3)
  | cvt (f : T3)
  | cvts (f : T3)
  | part (f : T3)
  | shfl (f : T3)
  | perm (f : T3)
  | vote (f : T3)
  | matchLanes (f : T3)
  | redux (f : T3)
  | scan (f : T3)
  | topk (f : T3)
  | bcast (f : T3)
  | vget (f : T3)
  | vset (f : T3)
  | bra (f : I32)
  | braDiv (f : I32)
  | brx (f : T3)
  | brxDiv (f : T3)
  | call (f : I32)
  | ret (f : T3)
  | rcv (f : T3)
  | loop (f : I32)
  | lbrk (f : T3)
  | exit (f : T3)
  | nop (f : T3)
  | trap (f : I32)
  | tret (f : T3)
  | yield (f : T3)
  | grow (f : T3)
  | shrnk (f : T3)
  | ld (f : MForm)
  | st (f : MForm)
  | lds (f : MForm)
  | sts (f : MForm)
  | ldt (f : MTForm)
  | stt (f : MTForm)
  | atom (f : MForm)
  | red (f : MForm)
  | pref (f : MForm)
  | fence (f : T3)
  | ifence (f : T3)
  | mop (f : EForm)
  | hld (f : MForm)
  | hset (f : T3)
  | hget (f : T3)
  | bar (f : T3)
  | bara (f : T3)
  | syncg (f : T3)
  | waitt (f : T3)
  | waitk (f : T3)
  | waitc (f : T3)
  | cpl (f : EForm)
  | cpt (f : EForm)
  | cpg (f : EForm)
  | cvb (f : EForm)
  | mma (f : EForm)
  | mms (f : EForm)
  | mzero (f : EForm)
  | mdr (f : EForm)
  | mrs (f : EForm)
  | mrl (f : EForm)
  | coll (f : EForm)
  | relay (f : EForm)
  | detach (f : T3)
  | adopt (f : T3)
  | cancel (f : T3)
  | prio (f : T3)
  | tstat (f : T3)
  | suspend (f : T3)
  | qpush (f : T3)
  | qpop (f : T3)
  | spawn (f : T3)
  | csrr (f : I32)
  | csrw (f : I32)
  | swap (f : T3)
  | clkr (f : T3)
  | einj (f : T3)
  | pair (f : PairForm)
  | basinstWrite (f : I32)
  | rcrClear (f : I32)
  | chselWrite (f : I32)
  | invcmdWrite (f : I32)
  | ringTailWrite (f : I32)
  | persistentMarkSet (f : I32)
  | rtcommit
  | rtcommitComplete
  | longLatencyComplete (core strid n : Nat)
  | growGrant (core slot : Nat)
  | growFail (core : Nat)
  | waittEnd (core strid : Nat)
  | waitkEnd (core strid : Nat)
  | waitcEnd (core strid : Nat)
  | cancelWaitEnd (core strid : Nat)
  | spawnReadDone (core strid : Nat)
  | operationStart (core idx : Nat)
  | sequencerAcceptMzero (core idx : Nat)
  | sequencerAcceptMrl (core idx : Nat)
  | sequencerAcceptMma (core idx : Nat)
  | sequencerAcceptMdr (core idx : Nat)
  | sequencerAcceptMrs (core idx : Nat)
  | sequencerAcceptEinj (core n : Nat)
  | kStep (core idx : Nat)
  | obusWireCountFull (core wire : Nat)
  | drainBeat (core idx : Nat)
  | drainWireCountFull (core ch wire : Nat)
  | copyLine (core idx : Nat)
  | conversionBlock (core idx : Nat)
  | mopBlock (core idx : Nat)
  | relayoutUnit (core idx : Nat)
  | chunkStep (core idx : Nat) (data : List Byte)
  | operationDone (core idx : Nat)
  | operationFault (core idx : Nat)
  | operationCancelled (core idx : Nat)
  | continuationPush (core idx : Nat)
  | teamRetire (core tslot : Nat)
  | contextTeardownEnd (core slot : Nat)
  | queueRefill (cluster q : Nat)
  | ringRoomPush (cluster q : Nat)
  | dispatchChoice (cluster q : Nat)
  | taskStrandStart (cluster q : Nat)
  | teamPlacement (launch : Nat)
  | ldone (launch : Nat)
  | issueSelect (core islot : Nat)
  | powerAllowanceRefill (cluster : Nat)
  | withholdTimeout (cluster : Nat)
  | clusterGate (cluster : Nat)
  | heatRefill (core : Nat)
  | barWatchdog (core tslot bar : Nat)
  | haltCause (ctx : Nat)
  | haltLineArrival (core slot : Nat)
  | slotHalted (core slot : Nat)
  | stopTimeout (ctx : Nat)
  | slotSave (core slot : Nat)
  | pfail
  | pfailDrain (core slot : Nat)
  | powerReturn
  | deviceReset
  | imageUpload (image : List Byte)
  | launch (fr : Frame)
  | resume (fr : Frame)
  | kill (fr : Frame)
  | memrd (fr : Frame)
  | memwr (fr : Frame)
  | time (fr : Frame)
  | beat (fr : Frame)
  | release (fr : Frame)
  | claim (fr : Frame)
  | answer (fr : Frame)
  | unassignedType (fr : Frame)
  | create (fr : Frame)
  | place (fr : Frame)
  | csrset (fr : Frame)
  | teardown (fr : Frame)
  | inval (fr : Frame)
  | invalidationComplete (ticket : Nat)
  | quiesce (fr : Frame)
  | pcopy (fr : Frame)
  | freeze (fr : Frame)
  | restore (fr : Frame)
  | qbind (fr : Frame)
  | qunbind (fr : Frame)
  | policy (fr : Frame)
  | devnum (fr : Frame)
  | powercap (fr : Frame)
  | stepcap (fr : Frame)
  | ballastRead (fr : Frame)
  | ballastWrite (fr : Frame)
  | energy (fr : Frame)
  | attest (fr : Frame)
  | fuseup (fr : Frame)
  | mgmtUnknownCode (fr : Frame)
  | linkDrop (host : Bool) (port : Nat)
  | linkReturn (host : Bool) (port : Nat)
  | linkLost (port : Nat)
  | peerRead (rq : PeerReq)
  | peerWrite (rq : PeerReq)
  | peerAtomic (rq : PeerReq)
  | abortReceived (gid seq origin : Nat)
  | abortExpiry (gid seq : Nat)
  | peerDown (core idx peer : Nat)
  | stepPinChange (code : BitVec 3)
  | kettleTick (watts : Nat)
  | temperatureSample (temps : List (Nat × Nat))
  | ballastDummyStep (core : Nat)
  | energyInterval (measured : Nat) (traffic : List (Nat × Nat))
  | hotPageDecay (die : Nat)
  | refresh (row domain : Nat)
  | patrol (line : Nat) (uncorrectable : Bool) (row : Option (Nat × Nat × Nat))
  | quiesceComplete (ticket : Nat)
  | pcopyComplete (ticket : Nat)
  | holdUpRunsOut
  deriving DecidableEq, Repr

end Sys2Proof
end

