-- ==== Sys2Proof/WellFormed.lean ====
section
/-! DEFINITION. Which instructions are well formed: the checks of R82 that the word alone decides. `resOk` is the
second check (ILL_RES) and `opndOk` the part of the third (ILL_OPND) that does not depend on the register budget. -/

namespace Sys2Proof

/-- R82: the decode causes a word can raise by itself. -/
inductive DecodeCause where
  | illOp | illRes | illOpnd
  deriving DecidableEq, Repr

/-! ## Types (R71, R91, R94, R99) -/

namespace Ty

/-- R91: signed integer formats. -/
def isSigned : Ty → Bool
  | .i4 | .i8 | .i16 | .i24 | .i32 | .i64 => true
  | _ => false

def isUnsigned : Ty → Bool
  | .n8 | .n16 | .n32 | .n64 => true
  | _ => false

def isInt (t : Ty) : Bool := t.isSigned || t.isUnsigned

/-- R94: the IEEE-style formats. -/
def isIeee : Ty → Bool
  | .f16 | .bf16 | .f32 | .f64 => true
  | _ => false

def isB8 : Ty → Bool
  | .b8 _ _ _ => true
  | _ => false

def isFloat (t : Ty) : Bool := t.isIeee || t.isB8

/-- Width in bits; `none` counts as 32 (R121). -/
def bits : Ty → Nat
  | .none | .i32 | .n32 | .f32 => 32
  | .i4 => 4
  | .i8 | .n8 | .b8 _ _ _ => 8
  | .i16 | .n16 | .f16 | .bf16 => 16
  | .i24 => 24
  | .i64 | .n64 | .f64 => 64

/-- R25: how many vector registers a value takes. -/
def vregs (t : Ty) : Nat := if t.bits = 64 then 2 else 1

/-- R71: precision 0 of the binary8 family is reserved. -/
def assigned : Ty → Bool
  | .b8 _ _ p => p != 0
  | _ => true

/-- R122: T_int. -/
def inTint (t : Ty) : Bool := t == .none || (t.isInt && t != .i4)

/-- R122: T_sig. -/
def inTsig (t : Ty) : Bool := t == .none || (t.isSigned && t != .i4)

/-- R122: T_w. -/
def inTw : Ty → Bool
  | .none | .i32 | .n32 | .i64 | .n64 => true
  | _ => false

/-- R146: T_mv. -/
def inTmv : Ty → Bool
  | .none | .i32 | .n32 | .f32 | .i64 | .n64 | .f64 => true
  | _ => false

end Ty

/-! ## Operands (R59 to R61) -/

/-- R30: the special registers of the table, by width: 0 for a mask, 1 for a queue port. -/
def sprWidth (r : Nat) : Option Nat :=
  if r ≤ 0x11 then some 32
  else if 0x20 ≤ r ∧ r ≤ 0x22 then some 32
  else if r = 0x23 then some 64
  else if r = 0x24 ∨ r = 0x25 then some 0
  else if r = 0x26 then some 32
  else if r = 0x27 then some 64
  else if r = 0x28 ∨ r = 0x29 then some 32
  else if r = 0x2A ∨ r = 0x2B then some 64
  else if 0x30 ≤ r ∧ r ≤ 0x3B then some 32
  else if 0x40 ≤ r ∧ r ≤ 0x43 then some 1
  else none

/-- R30: LANEID, GRPID, SLANE and TLANE are per lane. -/
def sprIsLane (r : Nat) : Bool := r ≤ 3

namespace Opnd

/-- The all-zero encoding, which a field that the instruction does not use must hold (R60). -/
def zero : Opnd := .v 0

def isV : Opnd → Bool
  | .v _ => true
  | _ => false
def isS : Opnd → Bool
  | .s _ => true
  | _ => false
def isP : Opnd → Bool
  | .p _ => true
  | _ => false
def isC : Opnd → Bool
  | .c _ => true
  | _ => false
def isK : Opnd → Bool
  | .k _ => true
  | _ => false
def isH : Opnd → Bool
  | .h _ => true
  | _ => false
def isImm : Opnd → Bool
  | .imm _ => true
  | _ => false
def isSpr : Opnd → Bool
  | .spr _ => true
  | _ => false

/-- R37: a queue port. -/
def isQp : Opnd → Bool
  | .spr r => sprWidth r.toNat == some 1
  | _ => false

/-- R31: AMASK or LMASK. -/
def isMaskSpr : Opnd → Bool
  | .spr r => sprWidth r.toNat == some 0
  | _ => false

/-- R31: a special register with a value of 32 or 64 bits, which may be a source of a lane instruction. -/
def isLaneSpr : Opnd → Bool
  | .spr r => sprWidth r.toNat == some 32 || sprWidth r.toNat == some 64
  | _ => false

/-- R31: a strand or core special register with a value of 32 or 64 bits. -/
def isStrandSpr : Opnd → Bool
  | .spr r => (sprWidth r.toNat == some 32 || sprWidth r.toNat == some 64) && !sprIsLane r.toNat
  | _ => false

/-- R31: a 64-bit special register. -/
def isWideSpr : Opnd → Bool
  | .spr r => sprWidth r.toNat == some 64
  | _ => false

/-- R61: a source of a lane instruction whose result holds `n` vector registers a lane. -/
def laneSrc (n : Nat) (o : Opnd) : Bool :=
  o.isV || o.isS || o.isImm || (o.isLaneSpr && (n == 2 || !o.isWideSpr))

/-- R61: a source of a strand-uniform instruction. -/
def uniSrc (o : Opnd) : Bool := o.isS || o.isImm || o.isStrandSpr

/-- The immediate of an operand field, read as a signed number (R59). -/
def immInt : Opnd → Int
  | .imm x => x.toInt
  | _ => 0

/-- An immediate, when the operand is one, lies in `lo..hi`. -/
def immIn (lo hi : Int) : Opnd → Bool
  | .imm x => decide (lo ≤ x.toInt) && decide (x.toInt ≤ hi)
  | _ => true

end Opnd

/-- R62: G = 0b1111 is reserved. -/
def Hdr.ok (h : Hdr) : Bool := !(h.neg && h.gi == 7)

/-! ## Forms: the second check -/

/-- R60, R69: the fields a T3 entry uses; every other field must be zero. -/
structure T3Use where
  d : Bool := false
  a : Bool := false
  b : Bool := false
  c : Bool := false
  rnd : Bool := false
  sat : Bool := false

/-- R82 check 2 on a T3 word: header, unused fields, type, rounding, saturation, modifiers. -/
def T3.res (f : T3) (u : T3Use) (ty opx : Bool) : Bool :=
  f.hd.ok && (u.d || f.d == .zero) && (u.a || f.a == .zero) && (u.b || f.b == .zero) && (u.c || f.c == .zero)
    && f.ty.assigned && ty && (u.rnd || f.rnd == .dyn) && (u.sat || !f.sat) && opx

/-- A T3 word that uses no type, no rounding, no saturation (the system, control and memory entries). -/
def T3.plain (f : T3) (u : T3Use) (opx : Bool) : Bool := f.res u (f.ty == .none) opx

/-- R82 check 2 on an I32 word. -/
def I32.res (f : I32) (d a : Bool) (ty opx : Bool) : Bool :=
  f.hd.ok && (d || f.d == .zero) && (a || f.a == .zero) && f.b == .zero && f.ty.assigned && ty && opx

/-- R73: size, scope and index checks that every M-form entry shares. -/
def MForm.res (f : MForm) (sz sem : Bool) (rd0 : Bool) : Bool :=
  f.hd.ok && sz && sem && f.scope.toNat ≤ 5 && (!rd0 || f.rd == 0) && (f.ix || f.b == .zero)

/-- R76: the E-form fields before ENG. -/
def EForm.res (f : EForm) (a b : Bool) : Bool :=
  f.hd.ok && (a || f.a == .zero) && (b || f.b == .zero) && f.fact != 3 && (f.pd || f.c == .zero)

/-- R228: SR, the first register of the parameter block. -/
def EForm.sr (f : EForm) : Nat := (f.eng.extractLsb' 22 6).toNat

/-- R228: OPS. -/
def EForm.ops (f : EForm) : BitVec 22 := f.eng.extractLsb' 0 22

/-- R228: SR is even and the block of `k` registers ends at or below s63. -/
def EForm.srOk (f : EForm) (k : Nat) : Bool := f.sr % 2 == 0 && decide (f.sr + k - 1 ≤ 63)

/-- Bits `lo..lo+n-1` of a field, as a number. -/
def bitsOf {w : Nat} (x : BitVec w) (lo n : Nat) : Nat := (x.extractLsb' lo n).toNat

/-- Bits `lo` and above are zero. -/
def zeroFrom {w : Nat} (x : BitVec w) (lo : Nat) : Bool := (x >>> lo) == 0

/-- R128, R138: combine and relation codes, with `n` relations. -/
def relOk {w : Nat} (x : BitVec w) (n : Nat) : Bool :=
  zeroFrom x 6 && bitsOf x 4 2 != 3 && decide (bitsOf x 0 4 < n)

/-- R126: the OPX field of BFX and BFI. -/
def bfOpx (f : T3) : Bool :=
  if f.opx.getLsbD 23 then bitsOf f.opx 15 8 == 0 && !f.opx.getLsbD 7 && f.b == .zero else f.opx == 0

/-- R71: the type that a code names, or none for a reserved code. -/
def Ty.ofCode (x : Nat) : Option Ty :=
  match x with
  | 0x00 => some .none | 0x01 => some .i4 | 0x02 => some .i8 | 0x03 => some .i16 | 0x04 => some .i24
  | 0x05 => some .i32 | 0x06 => some .i64 | 0x09 => some .n8 | 0x0A => some .n16 | 0x0B => some .n32
  | 0x0C => some .n64 | 0x10 => some .f16 | 0x11 => some .bf16 | 0x12 => some .f32 | 0x13 => some .f64
  | n => if 0x20 ≤ n ∧ n < 0x40 ∧ n % 8 ≠ 0 then
      some (.b8 (decide (0x30 ≤ n)) (decide (n / 8 % 2 = 1)) (BitVec.ofNat 3 (n % 8)))
    else .none

/-- R141, R142: the second type of CVT and CVTS, in OPX[5:0]. -/
def T3.srcTy (f : T3) : Option Ty := Ty.ofCode (bitsOf f.opx 0 6)

/-- R107: the integer element formats that have a lane form. -/
def Ty.laneInt : Ty → Bool
  | .i4 | .i8 | .n8 | .i16 | .i24 => true
  | _ => false

/-- R142: the pairs of types CVTS accepts: dequantise or quantise. -/
def cvtsTypes (dst src : Ty) : Bool :=
  ((src.laneInt || src.isB8) && dst.isIeee) || (src.isIeee && (dst.isInt || dst.isB8))

/-- R132: the modulus selector of the modular instructions; `third` is MMACM, whose C is the addend. -/
def modOpx (f : T3) (third : Bool) : Bool :=
  zeroFrom f.opx 8 &&
    (if f.opx.getLsbD 7 then decide (bitsOf f.opx 0 4 ≤ 9) && (third || f.c == .zero)
     else !third && bitsOf f.opx 0 7 == 0)

/-- R153: operation code and type of REDUX and SCAN agree, and RND and SAT stand only where R146 allows them. -/
def reduxOk (f : T3) (ex : Bool) : Bool :=
  let op := bitsOf f.opx 0 4
  zeroFrom f.opx (if ex then 5 else 4) && decide (op ≤ 8)
    && (if op ≤ 5 then f.ty == .none || f.ty == .i32 || f.ty == .n32 || f.ty == .i64 || f.ty == .n64 else f.ty.isIeee)
    && (op == 6 || f.rnd == .dyn) && (op == 0 || !f.sat)

/-- R191: the field rules of ATOM and RED. -/
def atomOk (f : MForm) (red : Bool) : Bool :=
  let aop := bitsOf f.opx 4 4
  let u := f.opx.getLsbD 3
  let nr := f.opx.getLsbD 2
  let loc := f.opx.getLsbD 1
  let sx := f.opx.getLsbD 0
  decide (aop ≤ 10) && (!u || aop == 1 || aop == 2) && (!red || !nr)
    && (!sx || (!red && !nr && f.sz == 2 && f.d.isS))
    && !(red && (aop == 6 || aop == 7)) && !(loc && decide (8 ≤ aop) && !(aop == 8 && f.sz == 2))
    && !(loc && (f.sem != 0 || f.scope != 0)) && !(red && (f.sem == 1 || f.sem == 3))

/-- R264: the assigned CSR indexes. -/
def csrAssigned (i : Nat) : Bool :=
  i == 0x000 || (0x010 ≤ i && i ≤ 0x017) || i == 0x020 || i == 0x022 || i == 0x023 || (0x030 ≤ i && i ≤ 0x034)
    || (0x038 ≤ i && i ≤ 0x03B) || (0x040 ≤ i && i ≤ 0x042) || (0x048 ≤ i && i ≤ 0x057) || i == 0x060
    || (0x070 ≤ i && i ≤ 0x074) || i == 0x078 || i == 0x080 || i == 0x081

/-- R250: the CSR index of CSRR and CSRW. -/
def I32.csr (f : I32) : Nat := bitsOf f.imm 0 12

def csrRes (f : I32) (d a : Bool) : Bool :=
  f.res d a (f.ty == .none) (f.opx == 0) && zeroFrom f.imm 12 && csrAssigned f.csr

/-- The row of the table a CSRW word belongs to, by the register it names (R264). -/
inductive CsrwRow where
  | plain | basinst | rcr | chsel | invcmd | ringTail | ctxcfg
  deriving DecidableEq, Repr

def csrwRow (i : Nat) : CsrwRow :=
  if i = 0x000 then .basinst else if i = 0x020 then .rcr else if i = 0x022 then .chsel
  else if i = 0x081 then .invcmd else if i = 0x033 ∨ i = 0x03B then .ringTail else if i = 0x073 then .ctxcfg
  else .plain

/-! ### Pairs (R77, R78, R80) -/

/-- R80: sources that a short opcode uses (0 none, 1 A, 2 A and B, 3 A, B and C), or none when it is unassigned. -/
def sopUses (s : Nat) : Option Nat :=
  if s = 0x00 ∨ s = 0x40 then some 0
  else if (0x01 ≤ s ∧ s ≤ 0x0B) ∨ s = 0x0D ∨ s = 0x10 ∨ s = 0x11 then some 2
  else if s = 0x0C ∨ s = 0x0E ∨ s = 0x0F then some 1
  else if s = 0x41 ∨ s = 0x42 ∨ (0x44 ≤ s ∧ s ≤ 0x46) then some 2
  else if s = 0x43 ∨ s = 0x47 then some 3
  else if 0x48 ≤ s ∧ s ≤ 0x4B then some 1
  else none

namespace HalfOp

def uses (h : HalfOp) : Nat := (sopUses h.sop.toNat).getD 0
def isNop (h : HalfOp) : Bool := h.sop == 0x00 || h.sop == 0x40

/-- R80: the ALU class holds the short opcodes below 0x40. -/
def isAlu (h : HalfOp) : Bool := decide (h.sop.toNat < 0x40)

/-- R80: the meaning of SM: rounding, the unsigned form, a predicate, or zero. -/
def smOk (h : HalfOp) : Bool :=
  let s := h.sop.toNat
  if 0x44 ≤ s ∧ s ≤ 0x4B then decide (h.sm.toNat ≤ 4)
  else if s = 0x03 ∨ s = 0x04 ∨ s = 0x42 then decide (h.sm.toNat ≤ 1)
  else if s = 0x0D then true
  else h.sm == 0

/-- R78: unused source fields, unused SM bits and the D field of a NOP are zero. -/
def res (h : HalfOp) : Bool :=
  (decide (1 ≤ h.uses) || h.a == 0) && (decide (2 ≤ h.uses) || h.b == 0) && (decide (3 ≤ h.uses) || h.c == 0)
    && (!h.isNop || h.d == 0) && h.smOk

def srcs (h : HalfOp) : List (BitVec 7) := [h.a, h.b, h.c].take h.uses

end HalfOp

/-- R78: both short opcodes are assigned and come from different classes (ILL_OP otherwise). -/
def PairForm.assigned (f : PairForm) : Bool :=
  (sopUses f.op0.sop.toNat).isSome && (sopUses f.op1.sop.toNat).isSome && (f.op0.isAlu != f.op1.isAlu)

def PairForm.res (f : PairForm) : Bool := f.hd.ok && f.assigned && f.op0.res && f.op1.res

/-- R78: different banks, and at most three distinct sources. -/
def PairForm.opnd (f : PairForm) : Bool :=
  (f.op0.isNop || f.op1.isNop || f.op0.d.toNat % 4 != f.op1.d.toNat % 4)
    && decide ((f.op0.srcs ++ f.op1.srcs).eraseDups.length ≤ 3)

/-! ## Host frames (R389 to R392) -/

/-- Little-endian doubleword `i` of a byte list; missing bytes read zero. -/
def dwordAt (bs : List Byte) (i : Nat) : BitVec 64 :=
  ((bs.drop (8 * i)).take 8).foldr (fun b acc => (acc <<< 8) ||| b.setWidth 64) 0

/-- R391: CODE and SARG of a MGMT request. -/
def Frame.mgmtCode (f : Frame) : Nat := bitsOf (dwordAt f.payload 0) 0 16
def Frame.sarg (f : Frame) : Nat := bitsOf (dwordAt f.payload 0) 16 16

def Frame.isMgmt (f : Frame) (code : Nat) : Bool := f.typ == 0x04 && f.mgmtCode == code

/-- R390: types that a node may send. -/
def assignedType (t : Nat) : Bool := 1 ≤ t && t ≤ 0x0B

/-- R392: assigned request codes. -/
def assignedCode (c : Nat) : Bool :=
  (1 ≤ c && c ≤ 4) || (0x10 ≤ c && c ≤ 0x12) || c == 0x20 || c == 0x21 || c == 0x30 || c == 0x31 || c == 0x40
    || (0x100 ≤ c && c ≤ 0x103) || c == 0x110 || c == 0x111

/-! ## The two checks -/

/-- R82, second check (ILL_RES); for a host request, that the frame carries the row's type and code. -/
def Instr.resOk : Instr → Bool
  | .add f | .sub f | .mul f => f.res { d := true, a := true, b := true, sat := true } f.ty.inTint (f.opx == 0)
  | .addI32 f | .mulI32 f => f.res true true f.ty.inTint (f.opx == 0)
  | .mulh f | .min f | .max f => f.res { d := true, a := true, b := true } f.ty.inTint (f.opx == 0)
  | .mad f => f.res { d := true, a := true, b := true, c := true, sat := true } f.ty.inTint (f.opx == 0)
  | .abs f | .neg f => f.res { d := true, a := true, sat := true } f.ty.inTsig (f.opx == 0)
  | .and f | .or f | .xor f | .andn f =>
    f.res { d := true, a := true, b := true }
      (if f.d.isP || f.d.isC || f.d.isK then f.ty == .none else f.ty.inTw) (f.opx == 0)
  | .andI32 f | .orI32 f | .xorI32 f =>
    f.res true true (if f.d.isP || f.d.isC || f.d.isK then f.ty == .none else f.ty.inTw) (f.opx == 0)
  | .shl f | .shr f | .sar f => f.res { d := true, a := true, b := true } f.ty.inTw (f.opx == 0)
  | .bfx f => f.res { d := true, a := true, b := true } f.ty.inTw (bfOpx f)
  | .bfi f => f.res { d := true, a := true, b := true, c := true } f.ty.inTw (bfOpx f)
  | .popc f | .clz f | .brev f => f.res { d := true, a := true } f.ty.inTw (f.opx == 0)
  | .cmp f => f.res { d := true, a := true, b := true } f.ty.inTint (relOk f.opx 6)
  | .cmpI32 f => f.res true true f.ty.inTint (relOk f.opx 6)
  | .sel f => f.res { d := true, a := true, b := true, c := true } f.ty.inTw (f.opx == 0)
  | .mov f => f.res { d := true, a := true } f.ty.inTw (f.opx == 0)
  | .movI32 f => f.res true false f.ty.inTw (f.opx == 0)
  | .movl f => f.hd.ok
  | .lea f => f.plain { d := true, a := true, b := true } (zeroFrom f.opx 4)
  | .leaI32 f => f.res true true (f.ty == .none) (f.opx == 0)
  | .maddm f | .msubm f | .mmulm f => f.plain { d := true, a := true, b := true, c := true } (modOpx f false)
  | .mmacm f => f.plain { d := true, a := true, b := true, c := true } (modOpx f true)
  | .mred f => f.res { d := true, a := true, c := true } f.ty.inTw (modOpx f false)
  | .rspl f =>
    f.res { d := true, a := true } (f.ty == .none || f.ty == .i32 || f.ty == .i64)
      (zeroFrom f.opx 8 && f.opx.getLsbD 7 && bitsOf f.opx 0 4 == 0)
  | .rmrc f => f.plain { d := true, a := true } (zeroFrom f.opx 11 && f.opx.getLsbD 7 && bitsOf f.opx 0 4 == 0)
  | .fadd f | .fsub f | .fmul f =>
    f.res { d := true, a := true, b := true, rnd := true, sat := true } f.ty.isIeee (f.opx == 0)
  | .ffma f => f.res { d := true, a := true, b := true, c := true, rnd := true, sat := true } f.ty.isIeee (f.opx == 0)
  | .fmin f | .fmax f => f.res { d := true, a := true, b := true } f.ty.isIeee (f.opx == 0)
  | .fcmp f => f.res { d := true, a := true, b := true } f.ty.isIeee (relOk f.opx 8)
  | .fclass f => f.res { d := true, a := true } f.ty.isFloat (f.opx == 0)
  | .frcp f | .frsq f | .fexp2 f | .flog2 f | .fsin f | .fcos f =>
    f.res { d := true, a := true, rnd := true } (f.ty == .f32) (f.opx == 0) && (f.rnd == .dyn || f.rnd == .rn)
  | .cvt f =>
    f.res { d := true, a := true, rnd := true, sat := true } (f.ty != .none)
      (zeroFrom f.opx 6 && (match f.srcTy with | some t => t != .none | none => false))
  | .cvts f =>
    f.res { d := true, a := true, b := true, rnd := true, sat := true } (f.ty != .none)
      (zeroFrom f.opx 6 && (match f.srcTy with | some t => cvtsTypes f.ty t | none => false))
  | .part f => f.plain { d := true, a := true } (zeroFrom f.opx 2 && bitsOf f.opx 0 2 != 3)
  | .shfl f => f.res { d := true, a := true, b := true } f.ty.inTmv (zeroFrom f.opx 2)
  | .perm f => f.res { d := true, a := true, b := true } f.ty.inTmv (f.opx == 0)
  | .vote f => f.plain { d := true, a := true } (zeroFrom f.opx 2)
  | .matchLanes f => f.res { d := true, a := true } f.ty.inTmv (zeroFrom f.opx 11 && bitsOf f.opx 0 8 == 0)
  | .redux f => f.res { d := true, a := true, rnd := true, sat := true } true (reduxOk f false)
  | .scan f => f.res { d := true, a := true, rnd := true, sat := true } true (reduxOk f true)
  | .topk f =>
    f.res { d := true, a := true, b := true }
      (f.ty == .none || f.ty == .i32 || f.ty == .n32 || f.ty == .f16 || f.ty == .bf16 || f.ty == .f32)
      (zeroFrom f.opx 11 && bitsOf f.opx 1 7 == 0)
  | .bcast f =>
    f.res { d := true, a := true, b := true } f.ty.inTmv (zeroFrom f.opx 1 && (!f.opx.getLsbD 0 || f.b == .zero))
  | .vget f =>
    f.res { d := true, a := true, b := true } (if f.a.isP then f.ty == .none else f.ty.inTmv) (f.opx == 0)
  | .vset f =>
    f.res { d := true, a := true, b := true } (if f.d.isP then f.ty == .none else f.ty.inTmv) (f.opx == 0)
  | .bra f => f.res false false (f.ty == .none) (f.opx == 0)
  | .braDiv f => f.res false false (f.ty == .none) (f.opx == 1)
  | .brx f => f.plain { a := true } (f.opx == 0) && !f.a.isV
  | .brxDiv f => f.plain { a := true } (zeroFrom f.opx 16) && f.a.isV
  | .call f => f.res true false (f.ty == .none) (f.opx == 0)
  | .ret f => f.plain { a := true } (f.opx == 0)
  | .loop f =>
    f.res false true (f.ty == .none) (f.opx == 0) && decide (1 ≤ f.imm.toInt) && f.a.immIn 0 127
  | .lbrk f => f.plain {} (zeroFrom f.opx 1)
  | .rcv f | .exit f | .nop f | .yield f | .tret f => f.plain {} (f.opx == 0)
  | .trap f => f.res false false (f.ty == .none) (f.opx == 0)
  | .grow f => f.plain { d := true } (zeroFrom f.opx 6 && 1 ≤ bitsOf f.opx 0 6 && bitsOf f.opx 0 6 ≤ 32)
  | .shrnk f => f.plain {} (zeroFrom f.opx 6 && 1 ≤ bitsOf f.opx 0 6 && bitsOf f.opx 0 6 ≤ 32)
  | .ld f =>
    f.res (decide (f.sz.toNat ≤ 4)) (f.sem == 0 || f.sem == 1) false && (f.sem != 0 || f.scope == 0) && zeroFrom f.opx 1
  | .lds f =>
    f.res (decide (f.sz.toNat ≤ 4)) (f.sem == 0 || f.sem == 1) true && (f.sem != 0 || f.scope == 0) && zeroFrom f.opx 1
  | .st f | .sts f =>
    f.res (decide (f.sz.toNat ≤ 4)) (f.sem == 0 || f.sem == 2) true && (f.sem != 0 || f.scope == 0) && f.opx == 0
  | .ldt f =>
    f.hd.ok && f.nc != 0 && (2 ≤ f.nc.toNat || f.k1 == .zero) && (3 ≤ f.nc.toNat || f.k2 == .zero)
      && (4 ≤ f.nc.toNat || f.k3 == .zero) && f.opx == 0
  | .stt f =>
    f.hd.ok && f.nc != 0 && (2 ≤ f.nc.toNat || f.k1 == .zero) && (3 ≤ f.nc.toNat || f.k2 == .zero)
      && (4 ≤ f.nc.toNat || f.k3 == .zero) && zeroFrom f.opx 1 && f.rd == 0
  | .atom f => f.res (f.sz == 2 || f.sz == 3) true true && atomOk f false
  | .red f => f.res (f.sz == 2 || f.sz == 3) true true && atomOk f true
  | .pref f => f.res (f.sz == 0) (f.sem == 0) false && f.scope == 0 && f.opx == 0 && f.d == .zero
  | .fence f => f.plain {} (zeroFrom f.opx 6 && !f.opx.getLsbD 3 && bitsOf f.opx 0 3 ≤ 5)
  | .ifence f => f.plain {} (zeroFrom f.opx 3 && bitsOf f.opx 0 3 ≤ 5)
  | .mop f =>
    f.res true true && bitsOf f.eng 24 4 ≤ 5 && !f.eng.getLsbD 23 && bitsOf f.eng 17 6 % 2 == 0
      && bitsOf f.eng 17 6 ≤ 60 && (!f.eng.getLsbD 16 || bitsOf f.eng 24 4 == 4)
  | .hld f => f.res (f.sz == 0) (f.sem == 0 || f.sem == 1) false && f.opx == 0
  | .hset f => f.plain { d := true, a := true } (f.opx == 0) && f.a.immIn 0 0
  | .hget f => f.plain { d := true, a := true, b := true } (f.opx == 0) && f.b.immIn 0 17
  | .bar f | .bara f =>
    f.plain { a := true, b := true } (f.opx == 0) && f.a.immIn 0 15 && f.b.immIn 1 63
  | .syncg f => f.plain { a := true } (f.opx == 0)
  | .waitt f => f.plain { d := true, a := true } (f.opx == 0)
  | .waitk f => f.plain { a := true } (zeroFrom f.opx 4 && bitsOf f.opx 0 4 < 7) && f.a.immIn 0 127
  | .waitc f => f.plain { a := true, b := true } (zeroFrom f.opx 3 && bitsOf f.opx 0 3 ≤ 5) && f.b.immIn 0 127
  | .cpl f =>
    f.res true true && f.srOk 2 && bitsOf f.ops 18 3 ≤ 5 && (!f.ops.getLsbD 21 || bitsOf f.ops 15 3 == 0)
      && bitsOf f.ops 0 15 == 0
  | .cpt f => f.res true true && f.srOk 7 && bitsOf f.ops 0 15 == 0
  | .cpg f =>
    f.res true true && f.srOk 4 && bitsOf f.ops 17 4 ≤ 7 && bitsOf f.ops 13 4 ≤ 7 && bitsOf f.ops 0 10 == 0
  | .cvb f =>
    f.res true true && f.srOk 3 && bitsOf f.ops 20 2 != 3 && 2 ≤ bitsOf f.ops 15 5 && bitsOf f.ops 15 5 ≤ 24
      && bitsOf f.ops 0 10 == 0
      && (bitsOf f.ops 20 2 != 2 || (bitsOf f.ops 15 5 == 18 && bitsOf f.ops 10 4 ≤ 13
        && (match f.a with | .h r => decide (r.toNat ≤ 13) | _ => true)))
  | .mma f | .mms f =>
    f.res true true && f.srOk 4 && bitsOf f.ops 14 6 != 0 && (f.ops.getLsbD 5 || bitsOf f.ops 10 4 == 0)
      && (f.ops.getLsbD 4 || bitsOf f.ops 6 4 == 0) && bitsOf f.ops 2 2 != 3 && bitsOf f.ops 0 2 != 3
      && (bitsOf f.ops 2 2 != 0 || bitsOf f.ops 0 2 == 0)
  | .mzero f => f.res false false && f.srOk 2 && bitsOf f.ops 0 7 == 0
  | .mdr f =>
    f.res true (bitsOf f.ops 11 3 == 1) && f.srOk 4 && bitsOf f.ops 11 3 ≤ 4 && bitsOf f.ops 0 9 == 0
      && (match Ty.ofCode (bitsOf f.ops 14 6) with
          | some t => t == .none || t == .i8 || t == .i16 || t == .i32 || t == .i64 || t.isFloat
          | none => false)
  | .mrs f => f.res true false && f.srOk 3 && bitsOf f.ops 0 20 == 0
  | .mrl f => f.res true false && f.srOk 3 && bitsOf f.ops 0 10 == 0
  | .coll f =>
    f.res true true && f.srOk 4 && bitsOf f.ops 19 3 ≤ 4 && bitsOf f.ops 16 3 ≤ 3
      && (bitsOf f.ops 19 3 < 2 || bitsOf f.ops 16 3 == 0) && bitsOf f.ops 0 16 == 0
  | .relay f => f.res true false && f.srOk 5 && f.ops == 0
  | .detach f => f.plain { d := true, a := true } (f.opx == 0)
  | .adopt f => f.plain { d := true } (f.opx == 0)
  | .cancel f => f.plain { d := true, a := true } (zeroFrom f.opx 1)
  | .prio f => f.plain { d := true, a := true, b := true } (f.opx == 0) && f.b.immIn 0 3
  | .tstat f => f.plain { d := true, a := true } (zeroFrom f.opx 3 && bitsOf f.opx 0 3 ≤ 4)
  | .suspend f =>
    f.plain { a := true, b := true } (zeroFrom f.opx 18) && (bitsOf f.opx 0 16 != 0 || f.b == .zero)
  | .qpush f | .qpop f | .spawn f => f.plain { d := true, a := true } (f.opx == 0)
  | .csrr f => csrRes f true false
  | .csrw f => csrRes f false true && csrwRow f.csr == .plain
  | .basinstWrite f => csrRes f false true && csrwRow f.csr == .basinst
  | .rcrClear f => csrRes f false true && csrwRow f.csr == .rcr
  | .chselWrite f => csrRes f false true && csrwRow f.csr == .chsel
  | .invcmdWrite f => csrRes f false true && csrwRow f.csr == .invcmd
  | .ringTailWrite f => csrRes f false true && csrwRow f.csr == .ringTail
  | .persistentMarkSet f => csrRes f false true && csrwRow f.csr == .ctxcfg
  | .swap f => f.plain {} (f.opx == 0)
  | .clkr f => f.plain { d := true } (zeroFrom f.opx 1)
  | .einj f => f.plain { a := true } (zeroFrom f.opx 4 && bitsOf f.opx 0 2 != 3)
  | .pair f => f.res
  | .launch fr => fr.typ == 0x01 | .resume fr => fr.typ == 0x02 | .kill fr => fr.typ == 0x03
  | .memrd fr => fr.typ == 0x05 | .memwr fr => fr.typ == 0x06 | .time fr => fr.typ == 0x07
  | .beat fr => fr.typ == 0x08 | .release fr => fr.typ == 0x09 | .claim fr => fr.typ == 0x0A
  | .answer fr => fr.typ == 0x0B | .unassignedType fr => !assignedType fr.typ.toNat
  | .create fr => fr.isMgmt 0x0001 | .place fr => fr.isMgmt 0x0002 | .csrset fr => fr.isMgmt 0x0003
  | .teardown fr => fr.isMgmt 0x0004 | .inval fr => fr.isMgmt 0x0010 | .quiesce fr => fr.isMgmt 0x0011
  | .pcopy fr => fr.isMgmt 0x0012 | .freeze fr => fr.isMgmt 0x0020 | .restore fr => fr.isMgmt 0x0021
  | .qbind fr => fr.isMgmt 0x0030 && fr.sarg / 8 % 2 == 0 | .qunbind fr => fr.isMgmt 0x0030 && fr.sarg / 8 % 2 == 1
  | .policy fr => fr.isMgmt 0x0031 | .devnum fr => fr.isMgmt 0x0040 | .powercap fr => fr.isMgmt 0x0100
  | .stepcap fr => fr.isMgmt 0x0101 | .ballastRead fr => fr.isMgmt 0x0102 && fr.sarg == 0
  | .ballastWrite fr => fr.isMgmt 0x0102 && fr.sarg != 0 | .energy fr => fr.isMgmt 0x0103
  | .attest fr => fr.isMgmt 0x0110 | .fuseup fr => fr.isMgmt 0x0111
  | .mgmtUnknownCode fr => fr.typ == 0x04 && !assignedCode fr.mgmtCode
  | .rtcommit | .rtcommitComplete | .longLatencyComplete _ _ _ | .growGrant _ _ | .growFail _ | .waittEnd _ _
  | .waitkEnd _ _ | .waitcEnd _ _ | .cancelWaitEnd _ _ | .spawnReadDone _ _ | .operationStart _ _
  | .sequencerAcceptMzero _ _ | .sequencerAcceptMrl _ _ | .sequencerAcceptMma _ _ | .sequencerAcceptMdr _ _
  | .sequencerAcceptMrs _ _ | .sequencerAcceptEinj _ _ | .kStep _ _ | .obusWireCountFull _ _ | .drainBeat _ _
  | .drainWireCountFull _ _ _ | .copyLine _ _ | .conversionBlock _ _ | .mopBlock _ _ | .relayoutUnit _ _
  | .chunkStep _ _ _ | .operationDone _ _ | .operationFault _ _ | .operationCancelled _ _ | .continuationPush _ _
  | .teamRetire _ _ | .contextTeardownEnd _ _ | .queueRefill _ _ | .ringRoomPush _ _ | .dispatchChoice _ _
  | .taskStrandStart _ _ | .teamPlacement _ | .ldone _ | .issueSelect _ _ | .powerAllowanceRefill _
  | .withholdTimeout _ | .clusterGate _ | .heatRefill _ | .barWatchdog _ _ _ | .haltCause _ | .haltLineArrival _ _
  | .slotHalted _ _ | .stopTimeout _ | .slotSave _ _ | .pfail | .pfailDrain _ _ | .powerReturn | .deviceReset
  | .imageUpload _ | .invalidationComplete _ | .linkDrop _ _ | .linkReturn _ _ | .linkLost _ | .peerRead _
  | .peerWrite _ | .peerAtomic _ | .abortReceived _ _ _ | .abortExpiry _ _ | .peerDown _ _ _ | .stepPinChange _
  | .kettleTick _ | .temperatureSample _ | .ballastDummyStep _ | .energyInterval _ _ | .hotPageDecay _ | .refresh _ _
  | .patrol _ _ _ | .quiesceComplete _ | .pcopyComplete _ | .holdUpRunsOut => true

/-- R121: a value operand of type `t` with `n` = registers it takes, when it is a vector register: (operand,
alignment, extent). Other classes take no vector register. -/
def vUse (o : Opnd) (al n : Nat) : List (Opnd × Nat × Nat) := if o.isV then [(o, al, n)] else []

/-- R25, R78, R133, R185, R192: the vector registers an instruction names, with the alignment each needs and how many
consecutive registers it covers. -/
def Instr.vUses : Instr → List (Opnd × Nat × Nat)
  | .add f | .sub f | .mul f | .mulh f | .mad f | .abs f | .neg f | .min f | .max f | .and f | .or f | .xor f | .andn f
  | .popc f | .clz f | .brev f | .cmp f | .sel f | .fadd f | .fsub f | .fmul f | .ffma f | .fmin f | .fmax f | .fcmp f
  | .redux f | .scan f =>
    let n := f.ty.vregs
    vUse f.d n n ++ vUse f.a n n ++ vUse f.b n n ++ vUse f.c n n
  | .addI32 f | .mulI32 f | .andI32 f | .orI32 f | .xorI32 f | .cmpI32 f | .movI32 f =>
    let n := f.ty.vregs
    vUse f.d n n ++ vUse f.a n n
  | .shl f | .shr f | .sar f | .bfx f | .bfi f | .shfl f | .perm f | .bcast f =>
    let n := f.ty.vregs
    vUse f.d n n ++ vUse f.a n n ++ vUse f.b 1 1 ++ vUse f.c n n
  | .mov f =>
    if f.d.isQp then vUse f.a 8 8
    else if f.a.isQp then vUse f.d 8 8
    else
      let n := f.ty.vregs
      vUse f.d n n ++ vUse f.a n n
  | .movl f => vUse f.d 2 2
  | .lea f => vUse f.d 2 2 ++ vUse f.a 2 2 ++ vUse f.b 1 1
  | .leaI32 f => vUse f.d 2 2 ++ vUse f.a 2 2
  | .maddm f | .msubm f | .mmulm f | .mmacm f => vUse f.d 1 1 ++ vUse f.a 1 1 ++ vUse f.b 1 1 ++ vUse f.c 1 1
  | .mred f => vUse f.d 1 1 ++ vUse f.a f.ty.vregs f.ty.vregs ++ vUse f.c 1 1
  | .rspl f => vUse f.d 4 4 ++ vUse f.a f.ty.vregs f.ty.vregs
  | .rmrc f => vUse f.d 2 2 ++ vUse f.a 4 3
  | .fclass f => vUse f.d 1 1 ++ vUse f.a f.ty.vregs f.ty.vregs
  | .frcp f | .frsq f | .fexp2 f | .flog2 f | .fsin f | .fcos f => vUse f.d 1 1 ++ vUse f.a 1 1
  | .cvt f | .cvts f =>
    let m := (f.srcTy.getD .none).vregs
    vUse f.d f.ty.vregs f.ty.vregs ++ vUse f.a m m ++ vUse f.b 1 1
  | .part f | .vote f | .topk f => vUse f.d 1 1 ++ vUse f.a 1 1
  | .matchLanes f => vUse f.d 1 1 ++ vUse f.a f.ty.vregs f.ty.vregs
  | .vget f => vUse f.a f.ty.vregs f.ty.vregs
  | .vset f => vUse f.d f.ty.vregs f.ty.vregs
  | .brxDiv f => vUse f.a 1 1
  | .ld f | .st f =>
    let n := if f.sz == 3 then 2 else if f.sz == 4 then 4 else 1
    vUse f.d n n ++ vUse f.a 2 2 ++ (if f.ix then vUse f.b 1 1 else [])
  | .lds f | .sts f =>
    let n := if f.sz == 3 then 2 else if f.sz == 4 then 4 else 1
    vUse f.d n n ++ vUse f.a 1 1 ++ (if f.ix then vUse f.b 1 1 else [])
  | .atom f | .red f =>
    let n := (if f.sz == 3 then 2 else 1) * (if bitsOf f.opx 4 4 == 7 then 2 else 1)
    let m := if f.opx.getLsbD 1 then 1 else 2
    vUse f.d n n ++ vUse f.a m m ++ (if f.ix then vUse f.b 1 1 else [])
  | .pref f => vUse f.a 2 2 ++ (if f.ix then vUse f.b 1 1 else [])
  | .ldt f | .stt f =>
    vUse f.b 1 1 ++ (if 2 ≤ f.nc.toNat then vUse f.k1 1 1 else []) ++ (if 3 ≤ f.nc.toNat then vUse f.k2 1 1 else [])
      ++ (if 4 ≤ f.nc.toNat then vUse f.k3 1 (f.nc.toNat - 3) else [])
  | .cpl f => vUse f.a 2 2 ++ vUse f.b 1 1
  | .suspend f => if bitsOf f.opx 0 16 == 0 then [] else vUse f.b 1 ((bitsOf f.opx 0 16).log2 + 1)
  | .qpush f => vUse f.a 8 8
  | .qpop f => vUse f.d 8 8
  | .pair f =>
    let use (h : HalfOp) : List (Opnd × Nat × Nat) :=
      (if h.isNop then [] else [(.v (h.d.setWidth 8), 1, 1)]) ++ h.srcs.map fun r => (.v (r.setWidth 8), 1, 1)
    use f.op0 ++ use f.op1
  | _ => []

/-- R25: the vector registers named are aligned as their entry needs. -/
def Instr.vAligned (i : Instr) : Bool :=
  i.vUses.all fun u => match u.1 with | .v r => r.toNat % u.2.1 == 0 | _ => true

/-- R61: the sources of an instruction whose kind is set by its destination. -/
def byDest (d : Opnd) (n : Nat) (srcs : List Opnd) : Bool :=
  if d.isS || d.isC then srcs.all Opnd.uniSrc
  else if d.isV || d.isP then srcs.all (Opnd.laneSrc n)
  else false

/-- R124: the logical instructions on predicates, conditions, masks and registers. -/
def logicOpnd (f : T3) : Bool :=
  match f.d with
  | .p _ => f.a.isP && f.b.isP
  | .c _ => f.a.isC && f.b.isC
  | .k _ => (f.a.isK || f.a.isMaskSpr) && (f.b.isK || f.b.isMaskSpr)
  | .v _ | .s _ => byDest f.d f.ty.vregs [f.a, f.b]
  | _ => false

/-- R130: the pairings MOV accepts. CLK, which is a register of the core, is read into vector registers as R31 says, though the
first row of R130 names lane and strand registers only (assumption 107). -/
def movOpnd (f : T3) : Bool :=
  match f.d with
  | .v _ => f.a.isP || f.a.isQp || f.a.laneSrc f.ty.vregs
  | .s _ => f.a.isC || f.a.uniSrc
  | .p _ => f.a.isV || f.a.isP
  | .c _ => f.a.isS || f.a.isC
  | .k _ => f.a.isK || f.a.isMaskSpr
  | .spr r => if f.d.isQp then f.a.isV
    else (sprWidth r.toNat).isSome && !f.d.isMaskSpr && (f.a.isS || f.a.isImm)
  | _ => false

/-- R185, R191: base and index of a flat or scratchpad access whose data register is `d`. -/
def addrOpnd (d a b : Opnd) (ix : Bool) : Bool :=
  if d.isS then a.isS && (!ix || b.isS) else (a.isS || a.isV) && (!ix || b.isS || b.isV)

/-- R74: coordinate operands of LDT and STT, and the registers that follow K3. -/
def coordOpnd (f : MTForm) : Bool :=
  let co (o : Opnd) : Bool := o.isV || o.isS || o.isImm
  f.a.isH && !f.d.isImm && (match f.d with | .spr _ => false | _ => true) && co f.b
    && (f.nc.toNat < 2 || co f.k1) && (f.nc.toNat < 3 || co f.k2) && (f.nc.toNat < 4 || co f.k3)
    && (f.nc.toNat ≤ 4 ||
      (match f.k3 with
       | .v r => decide (r.toNat + (f.nc.toNat - 4) ≤ 255)
       | .s r => decide (r.toNat + (f.nc.toNat - 4) ≤ 63)
       | _ => false))

/-- R76: the operands every E-form entry shares. -/
def EForm.opnd (f : EForm) : Bool := f.d.isS && (!f.pd || f.c.isS)

/-- R82, third check (ILL_OPND), as far as the word decides it. -/
def Instr.classOk : Instr → Bool
  | .add f | .sub f | .mul f | .mulh f | .min f | .max f | .shl f | .shr f | .sar f =>
    (f.d.isV || f.d.isS) && byDest f.d f.ty.vregs [f.a, f.b]
  | .addI32 f | .mulI32 f | .andI32 f | .orI32 f | .xorI32 f => (f.d.isV || f.d.isS) && byDest f.d f.ty.vregs [f.a]
  | .mad f => (f.d.isV || f.d.isS) && byDest f.d f.ty.vregs [f.a, f.b, f.c]
  | .abs f | .neg f | .popc f | .clz f | .brev f => (f.d.isV || f.d.isS) && byDest f.d f.ty.vregs [f.a]
  | .and f | .or f | .xor f | .andn f => logicOpnd f
  | .bfx f => (f.d.isV || f.d.isS) && byDest f.d f.ty.vregs ([f.a] ++ if f.opx.getLsbD 23 then [] else [f.b])
  | .bfi f => (f.d.isV || f.d.isS) && byDest f.d f.ty.vregs ([f.a, f.c] ++ if f.opx.getLsbD 23 then [] else [f.b])
  | .cmp f => (f.d.isP || f.d.isC) && byDest f.d f.ty.vregs [f.a, f.b]
  | .cmpI32 f => (f.d.isP || f.d.isC) && byDest f.d f.ty.vregs [f.a]
  | .sel f => (f.d.isV || f.d.isS) && byDest f.d f.ty.vregs [f.a, f.b] && (f.c.isC || (f.d.isV && f.c.isP))
  | .mov f => movOpnd f
  | .movI32 f => f.d.isV || f.d.isS
  | .movl f => f.d.isV || f.d.isS
  | .lea f => if f.d.isS then f.a.isS && f.b.uniSrc else f.d.isV && (f.a.isV || f.a.isS) && f.b.laneSrc 2
  | .leaI32 f => if f.d.isS then f.a.isS else f.d.isV && (f.a.isV || f.a.isS)
  | .maddm f | .msubm f | .mmulm f =>
    f.d.isV && f.a.laneSrc 1 && f.b.laneSrc 1 && (f.opx.getLsbD 7 || f.c.laneSrc 1)
  | .mmacm f => f.d.isV && f.a.laneSrc 1 && f.b.laneSrc 1 && f.c.laneSrc 1
  | .mred f => f.d.isV && f.a.laneSrc f.ty.vregs && (f.opx.getLsbD 7 || f.c.laneSrc 1)
  | .rspl f => f.d.isV && f.a.laneSrc f.ty.vregs
  | .rmrc f => f.d.isV && f.a.isV
  | .fadd f | .fsub f | .fmul f | .fmin f | .fmax f => f.d.isV && f.a.laneSrc f.ty.vregs && f.b.laneSrc f.ty.vregs
  | .ffma f => f.d.isV && f.a.laneSrc f.ty.vregs && f.b.laneSrc f.ty.vregs && f.c.laneSrc f.ty.vregs
  | .fcmp f => f.d.isP && f.a.laneSrc f.ty.vregs && f.b.laneSrc f.ty.vregs
  | .fclass f => f.d.isV && f.a.laneSrc f.ty.vregs
  | .frcp f | .frsq f | .fexp2 f | .flog2 f | .fsin f | .fcos f => f.d.isV && f.a.laneSrc 1
  | .cvt f => f.d.isV && f.a.laneSrc (f.srcTy.getD .none).vregs
  | .cvts f => f.d.isV && f.a.laneSrc (f.srcTy.getD .none).vregs && (f.b.isV || f.b.isS || f.b.isImm)
  | .part f => f.d.isV && (f.a.isP || f.a.isV)
  | .shfl f | .perm f => f.d.isV && f.a.isV && (f.b.isV || f.b.isS || f.b.isImm)
  | .vote f =>
    f.a.isP && (((f.d.isP || f.d.isC) && bitsOf f.opx 0 2 != 3) || ((f.d.isV || f.d.isK) && bitsOf f.opx 0 2 == 3))
  | .matchLanes f | .redux f | .scan f => f.d.isV && f.a.isV
  | .topk f => f.d.isV && f.a.isV && (f.b.isS || f.b.isImm)
  | .bcast f => f.d.isV && f.a.isV && (f.opx.getLsbD 0 || f.b.isS || f.b.isImm)
  | .vget f => f.d.isS && (f.a.isV || f.a.isP) && (f.b.isS || f.b.isImm)
  | .vset f => (f.d.isV || f.d.isP) && (f.a.isS || f.a.isImm) && (f.b.isS || f.b.isImm)
  | .bra _ | .braDiv _ | .rcv _ | .lbrk _ | .exit _ | .nop _ | .trap _ | .tret _ | .yield _ | .shrnk _ | .swap _ => true
  | .brx f | .ret f => f.a.isS
  | .brxDiv f => f.a.isV
  | .call f => f.d.isS
  | .loop f => f.a.isS || f.a.isImm
  | .grow f => f.d.isC
  | .ld f | .st f => (f.d.isV || (f.d.isS && f.sz != 4)) && addrOpnd f.d f.a f.b f.ix
  | .lds f | .sts f => f.d.isV && addrOpnd f.d f.a f.b f.ix
  | .ldt f | .stt f => coordOpnd f
  | .atom f =>
    (f.d.isV || (match f.d with | .s r => bitsOf f.opx 4 4 != 7 || r.toNat % 2 == 0 | _ => false))
      && addrOpnd f.d f.a f.b f.ix
  | .red f => f.d.isV && addrOpnd f.d f.a f.b f.ix
  | .pref f => (f.a.isS || f.a.isV) && (!f.ix || f.b.isS || f.b.isV)
  | .fence _ | .ifence _ => true
  | .mop f => f.opnd && f.a.isH && f.b.isH
  | .hld f => f.d.isH && f.a.isS && (!f.ix || f.b.isS)
  | .hset f => f.d.isH && (f.a.isS || f.a.isH || f.a.isImm)
  | .hget f => f.d.isS && f.a.isH && (f.b.isS || f.b.isImm)
  | .bar f | .bara f => (f.a.isS || f.a.isImm) && (f.b.isS || f.b.isImm)
  | .syncg f => f.a.isK
  | .waitt f => f.d.isC && f.a.isS
  | .waitk f => f.a.isS || f.a.isImm
  | .waitc f => f.a.isS && (f.b.isS || f.b.isImm)
  | .cpl f => f.opnd && f.a.isV && f.b.isV
  | .cpt f | .cpg f | .cvb f | .mma f | .mms f | .coll f => f.opnd && f.a.isH && f.b.isH
  | .mzero f => f.opnd
  | .mdr f => f.opnd && f.a.isH && (bitsOf f.ops 11 3 != 1 || f.b.isH)
  | .mrs f | .mrl f | .relay f => f.opnd && f.a.isH
  | .detach f | .cancel f => f.d.isC && f.a.isS
  | .adopt f => f.d.isS
  | .prio f => f.d.isC && f.a.isS && (f.b.isS || f.b.isImm)
  | .tstat f => f.d.isS && f.a.isS
  | .suspend f => f.a.isS && f.b.isV
  | .qpush f => f.d.isQp && f.a.isV
  | .qpop f => f.d.isV && f.a.isQp
  | .spawn f => f.d.isC && f.a.isS
  | .csrr f => f.d.isS
  | .csrw f | .basinstWrite f | .rcrClear f | .chselWrite f | .invcmdWrite f | .ringTailWrite f
  | .persistentMarkSet f => f.a.isS || f.a.isImm
  | .clkr f => match f.d with | .s r => !f.opx.getLsbD 0 || r.toNat % 2 == 0 | _ => false
  | .einj f => f.a.isS
  | .pair f => f.opnd
  | _ => true

def Instr.opndOk (i : Instr) : Bool := i.classOk && i.vAligned

/-- R82: the word of the instruction passes the checks that the word alone decides. -/
def Instr.wellFormed (i : Instr) : Bool := i.resOk && i.opndOk

/-- R82: the first static decode cause of an instruction, in the order of the table. -/
def Instr.staticCause (i : Instr) : Option DecodeCause :=
  if i.resOk then (if i.opndOk then none else some .illOpnd) else some .illRes

/-- R61: lane instructions. For the kinds set by the destination, a v or p destination makes the instruction a lane
instruction; an instruction that names a queue port in MOV is one too (R37). -/
def Instr.isLane : Instr → Bool
  | .add f | .sub f | .mul f | .mulh f | .mad f | .abs f | .neg f | .min f | .max f | .and f | .or f | .xor f | .andn f
  | .shl f | .shr f | .sar f | .bfx f | .bfi f | .popc f | .clz f | .brev f | .cmp f | .sel f | .lea f =>
    f.d.isV || f.d.isP
  | .mov f => f.d.isV || f.d.isP || f.d.isQp
  | .addI32 f | .mulI32 f | .andI32 f | .orI32 f | .xorI32 f | .cmpI32 f | .movI32 f | .leaI32 f => f.d.isV || f.d.isP
  | .movl f => f.d.isV
  | .maddm _ | .msubm _ | .mmulm _ | .mmacm _ | .mred _ | .rspl _ | .rmrc _ | .fadd _ | .fsub _ | .fmul _ | .ffma _
  | .fmin _ | .fmax _ | .fcmp _ | .fclass _ | .frcp _ | .frsq _ | .fexp2 _ | .flog2 _ | .fsin _ | .fcos _ | .cvt _
  | .cvts _ | .part _ | .shfl _ | .perm _ | .vote _ | .matchLanes _ | .redux _ | .scan _ | .topk _ | .bcast _
  | .braDiv _ | .brxDiv _ | .exit _ | .lds _ | .sts _ | .ldt _ | .stt _ | .red _ | .pref _ | .pair _ => true
  | .ld f | .st f | .atom f => f.d.isV
  | _ => false

/-- The program's instructions; the other rows are steps of the device and requests from outside. -/
def Instr.isProgram : Instr → Bool
  | .launch _ | .resume _ | .kill _ | .memrd _ | .memwr _ | .time _ | .beat _ | .release _ | .claim _ | .answer _
  | .unassignedType _ | .create _ | .place _ | .csrset _ | .teardown _ | .inval _ | .quiesce _ | .pcopy _ | .freeze _
  | .restore _ | .qbind _ | .qunbind _ | .policy _ | .devnum _ | .powercap _ | .stepcap _ | .ballastRead _
  | .ballastWrite _ | .energy _ | .attest _ | .fuseup _ | .mgmtUnknownCode _
  | .rtcommit | .rtcommitComplete | .longLatencyComplete _ _ _ | .growGrant _ _ | .growFail _ | .waittEnd _ _
  | .waitkEnd _ _ | .waitcEnd _ _ | .cancelWaitEnd _ _ | .spawnReadDone _ _ | .operationStart _ _
  | .sequencerAcceptMzero _ _ | .sequencerAcceptMrl _ _ | .sequencerAcceptMma _ _ | .sequencerAcceptMdr _ _
  | .sequencerAcceptMrs _ _ | .sequencerAcceptEinj _ _ | .kStep _ _ | .obusWireCountFull _ _ | .drainBeat _ _
  | .drainWireCountFull _ _ _ | .copyLine _ _ | .conversionBlock _ _ | .mopBlock _ _ | .relayoutUnit _ _
  | .chunkStep _ _ _ | .operationDone _ _ | .operationFault _ _ | .operationCancelled _ _ | .continuationPush _ _
  | .teamRetire _ _ | .contextTeardownEnd _ _ | .queueRefill _ _ | .ringRoomPush _ _ | .dispatchChoice _ _
  | .taskStrandStart _ _ | .teamPlacement _ | .ldone _ | .issueSelect _ _ | .powerAllowanceRefill _
  | .withholdTimeout _ | .clusterGate _ | .heatRefill _ | .barWatchdog _ _ _ | .haltCause _ | .haltLineArrival _ _
  | .slotHalted _ _ | .stopTimeout _ | .slotSave _ _ | .pfail | .pfailDrain _ _ | .powerReturn | .deviceReset
  | .imageUpload _ | .invalidationComplete _ | .linkDrop _ _ | .linkReturn _ _ | .linkLost _ | .peerRead _
  | .peerWrite _ | .peerAtomic _ | .abortReceived _ _ _ | .abortExpiry _ _ | .peerDown _ _ _ | .stepPinChange _
  | .kettleTick _ | .temperatureSample _ | .ballastDummyStep _ | .energyInterval _ _ | .hotPageDecay _ | .refresh _ _
  | .patrol _ _ _ | .quiesceComplete _ | .pcopyComplete _ | .holdUpRunsOut => false
  | _ => true

end Sys2Proof
end

