-- ==== Sys2Proof/Decode.lean ====
section
/-! DEFINITION. Decoding and encoding of instruction words (R57 to R82). `decode` is total: it gives the instruction or
the first decode cause of R82 that the word itself decides. `encode` is written from the same tables. -/

namespace Sys2Proof

/-! ## Field codes -/

/-- R59: the operand a 10-bit field holds, or none for a reserved code. -/
def Opnd.ofBits (x : BitVec 10) : Option Opnd :=
  let lo := x.extractLsb' 0 8
  match (x.extractLsb' 8 2).toNat with
  | 0 => some (.v lo)
  | 1 => if lo.getLsbD 7 then some (.spr (lo.extractLsb' 0 7))
         else if lo.getLsbD 6 then none else some (.s (lo.extractLsb' 0 6))
  | 2 => match (lo.extractLsb' 6 2).toNat with
         | 0 => if lo.extractLsb' 3 3 = 0 then some (.p (lo.extractLsb' 0 3)) else none
         | 1 => if lo.extractLsb' 3 3 = 0 then some (.c (lo.extractLsb' 0 3)) else none
         | 2 => if lo.extractLsb' 3 3 = 0 then some (.k (lo.extractLsb' 0 3)) else none
         | _ => if lo.extractLsb' 4 2 = 0 then some (.h (lo.extractLsb' 0 4)) else none
  | _ => some (.imm lo)

/-- R59: the field of an operand. -/
def Opnd.toBits : Opnd → BitVec 10
  | .v r => 0b00#2 ++ r
  | .s r => 0b01#2 ++ 0b00#2 ++ r
  | .spr r => 0b01#2 ++ 0b1#1 ++ r
  | .p r => 0b10#2 ++ 0b00000#5 ++ r
  | .c r => 0b10#2 ++ 0b01000#5 ++ r
  | .k r => 0b10#2 ++ 0b10000#5 ++ r
  | .h r => 0b10#2 ++ 0b1100#4 ++ r
  | .imm x => 0b11#2 ++ x

/-- R70: the rounding a code names; 101 to 111 are reserved. -/
def Rnd.ofBits (x : BitVec 3) : Option Rnd :=
  match x.toNat with
  | 0 => some .dyn | 1 => some .rn | 2 => some .rz | 3 => some .rd | 4 => some .ru | _ => none

def Rnd.toBits : Rnd → BitVec 3
  | .dyn => 0 | .rn => 1 | .rz => 2 | .rd => 3 | .ru => 4

/-- R71: the code of a type. -/
def Ty.toBits : Ty → BitVec 6
  | .none => 0x00 | .i4 => 0x01 | .i8 => 0x02 | .i16 => 0x03 | .i24 => 0x04 | .i32 => 0x05 | .i64 => 0x06
  | .n8 => 0x09 | .n16 => 0x0A | .n32 => 0x0B | .n64 => 0x0C | .f16 => 0x10 | .bf16 => 0x11 | .f32 => 0x12
  | .f64 => 0x13
  | .b8 u f p => 0b1#1 ++ BitVec.ofBool u ++ BitVec.ofBool f ++ p

/-! ## Forms -/

/-- R57, R62, R63: G, LA and Y. -/
def Hdr.ofWord (w : IWord) : Hdr :=
  { neg := w.getLsbD 85, gi := w.extractLsb' 82 3, la := w.extractLsb' 78 4, y := w.getLsbD 77 }

/-- R57: bits [95:77]: OP, G, LA, Y. -/
def Hdr.toBits (h : Hdr) (op : Nat) : BitVec 19 :=
  BitVec.ofNat 10 op ++ BitVec.ofBool h.neg ++ h.gi ++ h.la ++ BitVec.ofBool h.y

/-- R57: bits [76:74] of every form but the pair. -/
def mbz (w : IWord) : Bool := w.extractLsb' 74 3 == 0

/-- An operand field of the word. -/
def opndAt (w : IWord) (lo : Nat) : Option Opnd := Opnd.ofBits (w.extractLsb' lo 10)

/-- R69: the T3 form, or none when a field holds a reserved code. -/
def T3.ofWord (w : IWord) : Option T3 :=
  if mbz w then do
    let d ← opndAt w 64
    let a ← opndAt w 54
    let b ← opndAt w 44
    let c ← opndAt w 34
    let ty ← Ty.ofCode (w.extractLsb' 28 6).toNat
    let rnd ← Rnd.ofBits (w.extractLsb' 25 3)
    pure { hd := Hdr.ofWord w, d, a, b, c, ty, rnd, sat := w.getLsbD 24, opx := w.extractLsb' 0 24 }
  else none

def T3.toWord (f : T3) (op : Nat) : IWord :=
  f.hd.toBits op ++ 0#3 ++ f.d.toBits ++ f.a.toBits ++ f.b.toBits ++ f.c.toBits ++ f.ty.toBits ++ f.rnd.toBits
    ++ BitVec.ofBool f.sat ++ f.opx

/-- R72: the I32 form. -/
def I32.ofWord (w : IWord) : Option I32 :=
  if mbz w then do
    let d ← opndAt w 64
    let a ← opndAt w 54
    let b ← opndAt w 44
    let ty ← Ty.ofCode (w.extractLsb' 38 6).toNat
    pure { hd := Hdr.ofWord w, d, a, b, ty, opx := w.extractLsb' 32 6, imm := w.extractLsb' 0 32 }
  else none

def I32.toWord (f : I32) (op : Nat) : IWord :=
  f.hd.toBits op ++ 0#3 ++ f.d.toBits ++ f.a.toBits ++ f.b.toBits ++ f.ty.toBits ++ f.opx ++ f.imm

/-- R75: the L form. -/
def LForm.ofWord (w : IWord) : Option LForm :=
  if mbz w then do
    let d ← opndAt w 64
    pure { hd := Hdr.ofWord w, d, lit := w.extractLsb' 0 64 }
  else none

def LForm.toWord (f : LForm) (op : Nat) : IWord := f.hd.toBits op ++ 0#3 ++ f.d.toBits ++ f.lit

/-- R73: the M form. -/
def MForm.ofWord (w : IWord) : Option MForm :=
  if mbz w then do
    let d ← opndAt w 64
    let a ← opndAt w 54
    let b ← opndAt w 44
    pure { hd := Hdr.ofWord w, d, a, b, rd := w.extractLsb' 41 3, sz := w.extractLsb' 38 3, sem := w.extractLsb' 36 2,
           scope := w.extractLsb' 33 3, ix := w.getLsbD 32, opx := w.extractLsb' 24 8, imm := w.extractLsb' 0 24 }
  else none

def MForm.toWord (f : MForm) (op : Nat) : IWord :=
  f.hd.toBits op ++ 0#3 ++ f.d.toBits ++ f.a.toBits ++ f.b.toBits ++ f.rd ++ f.sz ++ f.sem ++ f.scope
    ++ BitVec.ofBool f.ix ++ f.opx ++ f.imm

/-- R74: the MT form. -/
def MTForm.ofWord (w : IWord) : Option MTForm :=
  if mbz w then do
    let d ← opndAt w 64
    let a ← opndAt w 54
    let b ← opndAt w 44
    let k1 ← opndAt w 28
    let k2 ← opndAt w 18
    let k3 ← opndAt w 8
    pure { hd := Hdr.ofWord w, d, a, b, rd := w.extractLsb' 41 3, nc := w.extractLsb' 38 3, k1, k2, k3,
           opx := w.extractLsb' 0 8 }
  else none

def MTForm.toWord (f : MTForm) (op : Nat) : IWord :=
  f.hd.toBits op ++ 0#3 ++ f.d.toBits ++ f.a.toBits ++ f.b.toBits ++ f.rd ++ f.nc ++ f.k1.toBits ++ f.k2.toBits
    ++ f.k3.toBits ++ f.opx

/-- R76: the E form. -/
def EForm.ofWord (w : IWord) : Option EForm :=
  if mbz w then do
    let d ← opndAt w 64
    let a ← opndAt w 54
    let b ← opndAt w 44
    let c ← opndAt w 28
    pure { hd := Hdr.ofWord w, d, a, b, prio := w.extractLsb' 42 2, fact := w.extractLsb' 40 2, det := w.getLsbD 39,
           pd := w.getLsbD 38, c, eng := w.extractLsb' 0 28 }
  else none

def EForm.toWord (f : EForm) (op : Nat) : IWord :=
  f.hd.toBits op ++ 0#3 ++ f.d.toBits ++ f.a.toBits ++ f.b.toBits ++ f.prio ++ f.fact ++ BitVec.ofBool f.det
    ++ BitVec.ofBool f.pd ++ f.c.toBits ++ f.eng

/-- R77: a half-op from its 38 bits. -/
def HalfOp.ofBits (x : BitVec 38) : HalfOp :=
  { sop := x.extractLsb' 31 7, sm := x.extractLsb' 28 3, d := x.extractLsb' 21 7, a := x.extractLsb' 14 7,
    b := x.extractLsb' 7 7, c := x.extractLsb' 0 7 }

def HalfOp.toBits (h : HalfOp) : BitVec 38 := h.sop ++ h.sm ++ h.d ++ h.a ++ h.b ++ h.c

/-- R77: the pair. -/
def PairForm.ofWord (w : IWord) : PairForm :=
  { hd := Hdr.ofWord w, op1 := HalfOp.ofBits (w.extractLsb' 38 38), op0 := HalfOp.ofBits (w.extractLsb' 0 38) }

def PairForm.toWord (f : PairForm) (op : Nat) : IWord := f.hd.toBits op ++ 0#1 ++ f.op1.toBits ++ f.op0.toBits

/-! ## The opcode map (R81) -/

/-- What an opcode selects: the form of the word and the instruction made of it. -/
inductive OpForm where
  | t3 (k : T3 → Instr) | i32 (k : I32 → Instr) | l (k : LForm → Instr) | m (k : MForm → Instr)
  | mt (k : MTForm → Instr) | e (k : EForm → Instr)

/-- R264: the rows of CSRW, by the register named. -/
def csrwInstr (f : I32) : Instr :=
  match csrwRow f.csr with
  | .plain => .csrw f | .basinst => .basinstWrite f | .rcr => .rcrClear f | .chsel => .chselWrite f
  | .invcmd => .invcmdWrite f | .ringTail => .ringTailWrite f | .ctxcfg => .persistentMarkSet f

/-- R81: the assigned opcodes, but for the pair's. -/
def opForm (op : Nat) : Option OpForm :=
  match op with
  | 0x000 => some (.t3 .add) | 0x001 => some (.i32 .addI32) | 0x002 => some (.t3 .sub) | 0x003 => some (.t3 .mul)
  | 0x004 => some (.i32 .mulI32) | 0x005 => some (.t3 .mulh) | 0x006 => some (.t3 .mad) | 0x007 => some (.t3 .abs)
  | 0x008 => some (.t3 .neg) | 0x009 => some (.t3 .min) | 0x00A => some (.t3 .max) | 0x00B => some (.t3 .and)
  | 0x00C => some (.i32 .andI32) | 0x00D => some (.t3 .or) | 0x00E => some (.i32 .orI32) | 0x00F => some (.t3 .xor)
  | 0x010 => some (.i32 .xorI32) | 0x011 => some (.t3 .andn) | 0x012 => some (.t3 .shl) | 0x013 => some (.t3 .shr)
  | 0x014 => some (.t3 .sar) | 0x015 => some (.t3 .bfx) | 0x016 => some (.t3 .bfi) | 0x017 => some (.t3 .popc)
  | 0x018 => some (.t3 .clz) | 0x019 => some (.t3 .brev) | 0x01A => some (.t3 .cmp) | 0x01B => some (.i32 .cmpI32)
  | 0x01C => some (.t3 .sel) | 0x040 => some (.t3 .mov) | 0x041 => some (.i32 .movI32) | 0x042 => some (.l .movl)
  | 0x043 => some (.t3 .lea) | 0x044 => some (.i32 .leaI32) | 0x080 => some (.t3 .maddm) | 0x081 => some (.t3 .msubm)
  | 0x082 => some (.t3 .mmulm) | 0x083 => some (.t3 .mmacm) | 0x084 => some (.t3 .mred) | 0x085 => some (.t3 .rspl)
  | 0x086 => some (.t3 .rmrc) | 0x0C0 => some (.t3 .fadd) | 0x0C1 => some (.t3 .fsub) | 0x0C2 => some (.t3 .fmul)
  | 0x0C3 => some (.t3 .ffma) | 0x0C4 => some (.t3 .fmin) | 0x0C5 => some (.t3 .fmax) | 0x0C6 => some (.t3 .fcmp)
  | 0x0C7 => some (.t3 .fclass) | 0x100 => some (.t3 .frcp) | 0x101 => some (.t3 .frsq) | 0x102 => some (.t3 .fexp2)
  | 0x103 => some (.t3 .flog2) | 0x104 => some (.t3 .fsin) | 0x105 => some (.t3 .fcos) | 0x110 => some (.t3 .cvt)
  | 0x111 => some (.t3 .cvts) | 0x140 => some (.t3 .part) | 0x141 => some (.t3 .shfl) | 0x142 => some (.t3 .perm)
  | 0x143 => some (.t3 .vote) | 0x144 => some (.t3 .matchLanes) | 0x145 => some (.t3 .redux)
  | 0x146 => some (.t3 .scan) | 0x147 => some (.t3 .topk) | 0x148 => some (.t3 .bcast) | 0x149 => some (.t3 .vget)
  | 0x14A => some (.t3 .vset) | 0x180 => some (.i32 fun f => if f.opx.getLsbD 0 then .braDiv f else .bra f)
  | 0x181 => some (.t3 fun f => if f.a.isV then .brxDiv f else .brx f) | 0x182 => some (.i32 .call)
  | 0x183 => some (.t3 .ret) | 0x184 => some (.t3 .rcv) | 0x185 => some (.i32 .loop) | 0x186 => some (.t3 .lbrk)
  | 0x187 => some (.t3 .exit) | 0x188 => some (.t3 .nop) | 0x189 => some (.i32 .trap) | 0x18A => some (.t3 .tret)
  | 0x18B => some (.t3 .yield) | 0x18C => some (.t3 .grow) | 0x18D => some (.t3 .shrnk) | 0x1C0 => some (.m .ld)
  | 0x1C1 => some (.m .st) | 0x1C2 => some (.m .lds) | 0x1C3 => some (.m .sts) | 0x1C4 => some (.mt .ldt)
  | 0x1C5 => some (.mt .stt) | 0x1C6 => some (.m .atom) | 0x1C7 => some (.m .red) | 0x1C8 => some (.m .pref)
  | 0x1C9 => some (.t3 .fence) | 0x1CA => some (.t3 .ifence) | 0x1CB => some (.e .mop) | 0x1CC => some (.m .hld)
  | 0x1CD => some (.t3 .hset) | 0x1CE => some (.t3 .hget) | 0x200 => some (.t3 .bar) | 0x201 => some (.t3 .bara)
  | 0x202 => some (.t3 .syncg) | 0x203 => some (.t3 .waitt) | 0x204 => some (.t3 .waitk) | 0x205 => some (.t3 .waitc)
  | 0x240 => some (.e .cpl) | 0x241 => some (.e .cpt) | 0x242 => some (.e .cpg) | 0x243 => some (.e .cvb)
  | 0x244 => some (.e .mma) | 0x245 => some (.e .mms) | 0x246 => some (.e .mzero) | 0x247 => some (.e .mdr)
  | 0x248 => some (.e .mrs) | 0x249 => some (.e .mrl) | 0x24A => some (.e .coll) | 0x24B => some (.e .relay)
  | 0x280 => some (.t3 .detach) | 0x281 => some (.t3 .adopt) | 0x282 => some (.t3 .cancel) | 0x283 => some (.t3 .prio)
  | 0x284 => some (.t3 .tstat) | 0x285 => some (.t3 .suspend) | 0x286 => some (.t3 .qpush) | 0x287 => some (.t3 .qpop)
  | 0x288 => some (.t3 .spawn) | 0x2C0 => some (.i32 .csrr) | 0x2C1 => some (.i32 csrwInstr)
  | 0x2C2 => some (.t3 .swap) | 0x2C3 => some (.t3 .clkr) | 0x2C4 => some (.t3 .einj)
  | _ => none

/-- The form that an instruction is encoded in, with its opcode. -/
inductive Form where
  | t3 (f : T3) | i32 (f : I32) | l (f : LForm) | m (f : MForm) | mt (f : MTForm) | e (f : EForm) | pair (f : PairForm)
  deriving DecidableEq, Repr

/-- R81: opcode and form of a program instruction; the device's own steps have none. -/
def Instr.form : Instr → Option (Nat × Form)
  | .add f => some (0x000, .t3 f) | .addI32 f => some (0x001, .i32 f) | .sub f => some (0x002, .t3 f)
  | .mul f => some (0x003, .t3 f) | .mulI32 f => some (0x004, .i32 f) | .mulh f => some (0x005, .t3 f)
  | .mad f => some (0x006, .t3 f) | .abs f => some (0x007, .t3 f) | .neg f => some (0x008, .t3 f)
  | .min f => some (0x009, .t3 f) | .max f => some (0x00A, .t3 f) | .and f => some (0x00B, .t3 f)
  | .andI32 f => some (0x00C, .i32 f) | .or f => some (0x00D, .t3 f) | .orI32 f => some (0x00E, .i32 f)
  | .xor f => some (0x00F, .t3 f) | .xorI32 f => some (0x010, .i32 f) | .andn f => some (0x011, .t3 f)
  | .shl f => some (0x012, .t3 f) | .shr f => some (0x013, .t3 f) | .sar f => some (0x014, .t3 f)
  | .bfx f => some (0x015, .t3 f) | .bfi f => some (0x016, .t3 f) | .popc f => some (0x017, .t3 f)
  | .clz f => some (0x018, .t3 f) | .brev f => some (0x019, .t3 f) | .cmp f => some (0x01A, .t3 f)
  | .cmpI32 f => some (0x01B, .i32 f) | .sel f => some (0x01C, .t3 f) | .mov f => some (0x040, .t3 f)
  | .movI32 f => some (0x041, .i32 f) | .movl f => some (0x042, .l f) | .lea f => some (0x043, .t3 f)
  | .leaI32 f => some (0x044, .i32 f) | .maddm f => some (0x080, .t3 f) | .msubm f => some (0x081, .t3 f)
  | .mmulm f => some (0x082, .t3 f) | .mmacm f => some (0x083, .t3 f) | .mred f => some (0x084, .t3 f)
  | .rspl f => some (0x085, .t3 f) | .rmrc f => some (0x086, .t3 f) | .fadd f => some (0x0C0, .t3 f)
  | .fsub f => some (0x0C1, .t3 f) | .fmul f => some (0x0C2, .t3 f) | .ffma f => some (0x0C3, .t3 f)
  | .fmin f => some (0x0C4, .t3 f) | .fmax f => some (0x0C5, .t3 f) | .fcmp f => some (0x0C6, .t3 f)
  | .fclass f => some (0x0C7, .t3 f) | .frcp f => some (0x100, .t3 f) | .frsq f => some (0x101, .t3 f)
  | .fexp2 f => some (0x102, .t3 f) | .flog2 f => some (0x103, .t3 f) | .fsin f => some (0x104, .t3 f)
  | .fcos f => some (0x105, .t3 f) | .cvt f => some (0x110, .t3 f) | .cvts f => some (0x111, .t3 f)
  | .part f => some (0x140, .t3 f) | .shfl f => some (0x141, .t3 f) | .perm f => some (0x142, .t3 f)
  | .vote f => some (0x143, .t3 f) | .matchLanes f => some (0x144, .t3 f) | .redux f => some (0x145, .t3 f)
  | .scan f => some (0x146, .t3 f) | .topk f => some (0x147, .t3 f) | .bcast f => some (0x148, .t3 f)
  | .vget f => some (0x149, .t3 f) | .vset f => some (0x14A, .t3 f) | .bra f | .braDiv f => some (0x180, .i32 f)
  | .brx f | .brxDiv f => some (0x181, .t3 f) | .call f => some (0x182, .i32 f) | .ret f => some (0x183, .t3 f)
  | .rcv f => some (0x184, .t3 f) | .loop f => some (0x185, .i32 f) | .lbrk f => some (0x186, .t3 f)
  | .exit f => some (0x187, .t3 f) | .nop f => some (0x188, .t3 f) | .trap f => some (0x189, .i32 f)
  | .tret f => some (0x18A, .t3 f) | .yield f => some (0x18B, .t3 f) | .grow f => some (0x18C, .t3 f)
  | .shrnk f => some (0x18D, .t3 f) | .ld f => some (0x1C0, .m f) | .st f => some (0x1C1, .m f)
  | .lds f => some (0x1C2, .m f) | .sts f => some (0x1C3, .m f) | .ldt f => some (0x1C4, .mt f)
  | .stt f => some (0x1C5, .mt f) | .atom f => some (0x1C6, .m f) | .red f => some (0x1C7, .m f)
  | .pref f => some (0x1C8, .m f) | .fence f => some (0x1C9, .t3 f) | .ifence f => some (0x1CA, .t3 f)
  | .mop f => some (0x1CB, .e f) | .hld f => some (0x1CC, .m f) | .hset f => some (0x1CD, .t3 f)
  | .hget f => some (0x1CE, .t3 f) | .bar f => some (0x200, .t3 f) | .bara f => some (0x201, .t3 f)
  | .syncg f => some (0x202, .t3 f) | .waitt f => some (0x203, .t3 f) | .waitk f => some (0x204, .t3 f)
  | .waitc f => some (0x205, .t3 f) | .cpl f => some (0x240, .e f) | .cpt f => some (0x241, .e f)
  | .cpg f => some (0x242, .e f) | .cvb f => some (0x243, .e f) | .mma f => some (0x244, .e f)
  | .mms f => some (0x245, .e f) | .mzero f => some (0x246, .e f) | .mdr f => some (0x247, .e f)
  | .mrs f => some (0x248, .e f) | .mrl f => some (0x249, .e f) | .coll f => some (0x24A, .e f)
  | .relay f => some (0x24B, .e f) | .detach f => some (0x280, .t3 f) | .adopt f => some (0x281, .t3 f)
  | .cancel f => some (0x282, .t3 f) | .prio f => some (0x283, .t3 f) | .tstat f => some (0x284, .t3 f)
  | .suspend f => some (0x285, .t3 f) | .qpush f => some (0x286, .t3 f) | .qpop f => some (0x287, .t3 f)
  | .spawn f => some (0x288, .t3 f) | .csrr f => some (0x2C0, .i32 f)
  | .csrw f | .basinstWrite f | .rcrClear f | .chselWrite f | .invcmdWrite f | .ringTailWrite f
  | .persistentMarkSet f => some (0x2C1, .i32 f)
  | .swap f => some (0x2C2, .t3 f) | .clkr f => some (0x2C3, .t3 f) | .einj f => some (0x2C4, .t3 f)
  | .pair f => some (0x3C0, .pair f)
  | .launch _ | .resume _ | .kill _ | .memrd _ | .memwr _ | .time _ | .beat _ | .release _ | .claim _ | .answer _
  | .unassignedType _ | .create _ | .place _ | .csrset _ | .teardown _ | .inval _ | .quiesce _ | .pcopy _ | .freeze _
  | .restore _ | .qbind _ | .qunbind _ | .policy _ | .devnum _ | .powercap _ | .stepcap _ | .ballastRead _
  | .ballastWrite _ | .energy _ | .attest _ | .fuseup _ | .mgmtUnknownCode _
  | .rtcommit | .rtcommitComplete | .longLatencyComplete _ _ _ | .growGrant _ _ | .growFail _ | .waittEnd _ _
  | .waitkEnd _ _ | .waitcEnd _ _ | .cancelWaitEnd _ _ | .spawnReadDone _ _ | .operationStart _ _
  | .sequencerAcceptMzero _ _ | .sequencerAcceptMrl _ _ | .sequencerAcceptMma _ _ | .sequencerAcceptMdr _ _
  | .sequencerAcceptMrs _ _ | .sequencerAcceptEinj _ _ | .kStep _ _ | .obusWireCountFull _ _ | .drainBeat _ _
  | .drainWireCountFull _ _ _ | .copyLine _ _ | .conversionBlock _ _ | .mopBlock _ _ | .relayoutUnit _ _
  | .chunkStep _ _ _ | .operationDone _ _ | .operationFault _ _ | .operationCancelled _ _ | .continuationPush _ _
  | .teamRetire _ _ | .contextTeardownEnd _ _ | .queueRefill _ _ | .ringRoomPush _ _ | .dispatchChoice _ _
  | .taskStrandStart _ _ | .teamPlacement _ | .ldone _ | .issueSelect _ _ | .powerAllowanceRefill _
  | .withholdTimeout _ | .clusterGate _ | .heatRefill _ | .barWatchdog _ _ _ | .haltCause _ | .haltLineArrival _ _
  | .slotHalted _ _ | .stopTimeout _ | .slotSave _ _ | .pfail | .pfailDrain _ _ | .powerReturn | .deviceReset
  | .imageUpload _ | .invalidationComplete _ | .linkDrop _ _ | .linkReturn _ _ | .linkLost _ | .peerRead _
  | .peerWrite _ | .peerAtomic _ | .abortReceived _ _ _ | .abortExpiry _ _ | .peerDown _ _ _ | .stepPinChange _
  | .kettleTick _ | .temperatureSample _ | .ballastDummyStep _ | .energyInterval _ _ | .hotPageDecay _ | .refresh _ _
  | .patrol _ _ _ | .quiesceComplete _ | .pcopyComplete _ | .holdUpRunsOut => none

/-! ## Decoding -/

/-- The instruction that a word of an assigned opcode stands for, or none when a field holds a reserved code. -/
def OpForm.ofWord (k : OpForm) (w : IWord) : Option Instr :=
  match k with
  | .t3 k => (T3.ofWord w).map k
  | .i32 k => (I32.ofWord w).map k
  | .l k => (LForm.ofWord w).map k
  | .m k => (MForm.ofWord w).map k
  | .mt k => (MTForm.ofWord w).map k
  | .e k => (EForm.ofWord w).map k

/-- R82: the instruction, unless its own checks name a cause. -/
def checked (i : Instr) : Except DecodeCause Instr :=
  match i.staticCause with
  | some c => .error c
  | none => .ok i

/-- R57: OP. -/
def opcodeOf (w : IWord) : Nat := (w.extractLsb' 86 10).toNat

/-- R82: the instruction of a word, or the first of the causes ILL_OP, ILL_RES, ILL_OPND whose condition the word itself
meets. The budget (ILL_OPND) and the privilege (PRIV) depend on the strand and are checked at issue. -/
def decode (w : IWord) : Except DecodeCause Instr :=
  if opcodeOf w = 0x3C0 then
    if !(PairForm.ofWord w).assigned then .error .illOp
    else if w.getLsbD 76 then .error .illRes
    else checked (.pair (PairForm.ofWord w))
  else
    match opForm (opcodeOf w) with
    | none => .error .illOp
    | some k =>
      match k.ofWord w with
      | none => .error .illRes
      | some i => checked i

/-- The word of a form with its opcode. -/
def Form.toWord (f : Form) (op : Nat) : IWord :=
  match f with
  | .t3 f => f.toWord op | .i32 f => f.toWord op | .l f => f.toWord op | .m f => f.toWord op | .mt f => f.toWord op
  | .e f => f.toWord op | .pair f => f.toWord op

/-- The word of a program instruction; zero for a step of the device, which has none. -/
def encode (i : Instr) : IWord :=
  match i.form with
  | some (op, f) => f.toWord op
  | none => 0

/-- R6, R57: a word as its 12 bytes, lowest address first. -/
def wordBytes (w : IWord) : List Byte := (List.range 12).map fun k => w.extractLsb' (8 * k) 8

/-- R6: bytes, lowest address first, as a number. -/
def leNat : List Byte → Nat
  | [] => 0
  | b :: bs => b.toNat + 256 * leNat bs

/-- R57: the word that 12 bytes hold. -/
def bytesWord (bs : List Byte) : IWord := BitVec.ofNat 96 (leNat bs)

/-- The decoder on bytes as the code region holds them. -/
def decodeBytes (bs : List Byte) : Except DecodeCause Instr := decode (bytesWord bs)

/-- The instruction that the decoder reads from a word whose bits are numbered from the least significant bit of the
first byte; bits at `nbits` and above are zero. -/
def decodeTableWord (nbits w : Nat) : Option Instr :=
  (decodeBytes (wordBytes (BitVec.ofNat 96 (w % 2 ^ nbits)))).toOption

/-! ## Host requests (R390 to R392) -/

/-- The row a management request belongs to. -/
def mgmtInstr (fr : Frame) : Instr :=
  match fr.mgmtCode with
  | 0x0001 => .create fr | 0x0002 => .place fr | 0x0003 => .csrset fr | 0x0004 => .teardown fr | 0x0010 => .inval fr
  | 0x0011 => .quiesce fr | 0x0012 => .pcopy fr | 0x0020 => .freeze fr | 0x0021 => .restore fr
  | 0x0030 => if fr.sarg / 8 % 2 == 0 then .qbind fr else .qunbind fr
  | 0x0031 => .policy fr | 0x0040 => .devnum fr | 0x0100 => .powercap fr | 0x0101 => .stepcap fr
  | 0x0102 => if fr.sarg == 0 then .ballastRead fr else .ballastWrite fr
  | 0x0103 => .energy fr | 0x0110 => .attest fr | 0x0111 => .fuseup fr
  | _ => .mgmtUnknownCode fr

/-- The row a frame that arrives on a host port belongs to. -/
def frameInstr (fr : Frame) : Instr :=
  match fr.typ.toNat with
  | 0x01 => .launch fr | 0x02 => .resume fr | 0x03 => .kill fr | 0x04 => mgmtInstr fr | 0x05 => .memrd fr
  | 0x06 => .memwr fr | 0x07 => .time fr | 0x08 => .beat fr | 0x09 => .release fr | 0x0A => .claim fr
  | 0x0B => .answer fr
  | _ => .unassignedType fr

end Sys2Proof
end

