-- ==== Sys2Proof/Machine/Map.lean ====
section
/-! DEFINITION. Finite maps as lists of keyed entries. `mput` keeps a key-ordered list and replaces an entry; `cput`
also drops an entry equal to what an unlisted key reads as, so that equal byte memories are equal lists. -/

namespace Sys2Proof.Machine

/-- A map from numbers: the first entry of a key counts. -/
abbrev Map (α : Type) := List (Nat × α)

section
variable {α : Type}

def mfind (m : Map α) (k : Nat) : Option α :=
  match m with
  | [] => none
  | (j, x) :: r => if j = k then some x else mfind r k

/-- The entry of key `k`, or `d` when there is none. -/
def mget (d : α) (m : Map α) (k : Nat) : α := (mfind m k).getD d

def mput (m : Map α) (k : Nat) (x : α) : Map α :=
  match m with
  | [] => [(k, x)]
  | (j, y) :: r => if j = k then (k, x) :: r else if k < j then (k, x) :: (j, y) :: r else (j, y) :: mput r k x

def mdel (m : Map α) (k : Nat) : Map α :=
  match m with
  | [] => []
  | (j, y) :: r => if j = k then mdel r k else (j, y) :: mdel r k

def mhas (m : Map α) (k : Nat) : Bool := (mfind m k).isSome

/-- Change the entry of key `k`, when there is one. -/
def mmod (m : Map α) (k : Nat) (f : α → α) : Map α :=
  match mfind m k with
  | none => m
  | some x => mput m k (f x)

/-- Write `x` at key `k` of a map whose unlisted keys read as `d`. -/
def cput [DecidableEq α] (d : α) (m : Map α) (k : Nat) (x : α) : Map α :=
  if x = d then mdel m k else mput m k x

end

/-- The canonical form of a byte memory whose unlisted bytes read zero: addresses strictly rising from `lo`, no zero
byte listed. -/
def Memory.wfFrom (lo : Nat) : Map Byte → Bool
  | [] => true
  | (a, b) :: r => decide (lo ≤ a) && b != 0 && Memory.wfFrom (a + 1) r

/-- The canonical form. -/
def Memory.wf (m : Map Byte) : Bool := Memory.wfFrom 0 m

/-- What the byte at `a` of a memory reads as. An unlisted byte reads zero (assumption 4). -/
def Memory.byte (m : Map Byte) (a : Nat) : Byte := mget 0 m a

def Memory.put (m : Map Byte) (a : Nat) (b : Byte) : Map Byte := cput 0 m a b

/-- R6: `n` bytes from address `a`, lowest first. -/
def Memory.bytes (m : Map Byte) (a n : Nat) : List Byte := (List.range n).map fun i => Memory.byte m (a + i)

def Memory.putBytes (m : Map Byte) (a : Nat) (bs : List Byte) : Map Byte :=
  match bs with
  | [] => m
  | b :: r => Memory.putBytes (Memory.put m a b) (a + 1) r

/-- R6: the little-endian number of `n` bytes from `a`. -/
def Memory.nat (m : Map Byte) (a n : Nat) : Nat := leNat (Memory.bytes m a n)

/-- R6: the `n` bytes of a number, lowest first. -/
def natBytes (n x : Nat) : List Byte :=
  match n with
  | 0 => []
  | k + 1 => BitVec.ofNat 8 x :: natBytes k (x / 256)

def Memory.putNat (m : Map Byte) (a n x : Nat) : Map Byte := Memory.putBytes m a (natBytes n x)

end Sys2Proof.Machine
end

