-- ==== Sys2Proof/Machine/Cause.lean ====
section
/-! DEFINITION. The cause codes of R370 and R12. -/

namespace Sys2Proof.Machine

/-- R370: every cause the machine produces. -/
inductive Cause where
  | illOp | illRes | illOpnd | priv | illTret | swTrap | fpTrap | syncMask | badSpr | loopOverflow | tokenFault
  | misalign | spRange
  | badHandle | badTensor | badRank | badFormat | badShape | badPlace | badParam | badCounter | streamDesync | relayBusy
  | badBasis | basisBusy | badBar | badTask | badLaunch | badCsr | badQueue | queueFull | contFull | swapState
  | pcRange | rstkOverflow | rstkSpill | badSsw | hmLane | nestedTrap | vaRange | pageNp | pagePerm | atomTarget | ptBad
  | memUnc | barWatchdog | kill | pfail | stopTimeout
  | predFault | counterFault | mopTarget | mcastTarget | scaleOrder | badScale | badLane | maskDense | operandBus
  | residueOvf | residueUnc | scaleRange | accInvalid | channelErased | columnDown | peerAbort | peerDown
  deriving DecidableEq, Repr

/-- R370: the number of a cause. -/
def Cause.code : Cause → Nat
  | .illOp => 0x0001 | .illRes => 0x0002 | .illOpnd => 0x0003 | .priv => 0x0004 | .illTret => 0x0005
  | .swTrap => 0x0006 | .fpTrap => 0x0007 | .syncMask => 0x0008 | .badSpr => 0x0009 | .loopOverflow => 0x000A
  | .tokenFault => 0x000B | .misalign => 0x000C | .spRange => 0x000D | .badHandle => 0x000E | .badTensor => 0x000F
  | .badRank => 0x0010 | .badFormat => 0x0011 | .badShape => 0x0012 | .badPlace => 0x0013 | .badParam => 0x0014
  | .badCounter => 0x0015 | .streamDesync => 0x0016 | .relayBusy => 0x0017 | .badBasis => 0x0018
  | .basisBusy => 0x0019 | .badBar => 0x001A | .badTask => 0x001B | .badLaunch => 0x001C | .badCsr => 0x001D
  | .badQueue => 0x001E | .queueFull => 0x001F | .contFull => 0x0020 | .swapState => 0x0021
  | .pcRange => 0x0100 | .rstkOverflow => 0x0101 | .rstkSpill => 0x0102 | .badSsw => 0x0103 | .hmLane => 0x0104
  | .nestedTrap => 0x0105 | .vaRange => 0x0106 | .pageNp => 0x0107 | .pagePerm => 0x0108 | .atomTarget => 0x0109
  | .ptBad => 0x010A | .memUnc => 0x010B | .barWatchdog => 0x010C | .kill => 0x010D | .pfail => 0x010E
  | .stopTimeout => 0x010F
  | .predFault => 0x0200 | .counterFault => 0x0201 | .mopTarget => 0x0202 | .mcastTarget => 0x0203
  | .scaleOrder => 0x0204 | .badScale => 0x0205 | .badLane => 0x0206 | .maskDense => 0x0207 | .operandBus => 0x0208
  | .residueOvf => 0x0209 | .residueUnc => 0x020A | .scaleRange => 0x020B | .accInvalid => 0x020C
  | .channelErased => 0x020D | .columnDown => 0x020E | .peerAbort => 0x0300 | .peerDown => 0x0301

/-- R370: every cause, in the order of the numbers. -/
def Cause.all : List Cause :=
  [ .illOp, .illRes, .illOpnd, .priv, .illTret, .swTrap, .fpTrap, .syncMask, .badSpr, .loopOverflow,
    .tokenFault, .misalign, .spRange, .badHandle, .badTensor, .badRank, .badFormat, .badShape, .badPlace,
    .badParam, .badCounter, .streamDesync, .relayBusy, .badBasis, .basisBusy, .badBar, .badTask, .badLaunch,
    .badCsr, .badQueue, .queueFull, .contFull, .swapState, .pcRange, .rstkOverflow, .rstkSpill, .badSsw,
    .hmLane, .nestedTrap, .vaRange, .pageNp, .pagePerm, .atomTarget, .ptBad, .memUnc, .barWatchdog, .kill,
    .pfail, .stopTimeout, .predFault, .counterFault, .mopTarget, .mcastTarget, .scaleOrder, .badScale,
    .badLane, .maskDense, .operandBus, .residueOvf, .residueUnc, .scaleRange, .accInvalid, .channelErased,
    .columnDown, .peerAbort, .peerDown ]

/-- R370: the cause of a number. -/
def Cause.ofCode (n : Nat) : Option Cause := Cause.all.find? fun c => c.code == n

/-- R370: whether a halt with this cause is resumable. `dm` is the DM bit of the leaf concerned; `persistent` the mark
of the context (R387). A BAR_WATCHDOG halt is resumable at the host's choice (R377). -/
def Cause.resumable (c : Cause) (dm persistent : Bool) : Bool :=
  match c with
  | .pageNp => true
  | .pagePerm => dm
  | .barWatchdog => true
  | .pfail => persistent
  | _ => false

/-- R82: the causes of decoding. -/
def decodeCause : DecodeCause → Cause
  | .illOp => .illOp | .illRes => .illRes | .illOpnd => .illOpnd

end Sys2Proof.Machine
end

