-- ==== Sys2Proof/Machine/State.lean ====
section
/-! DEFINITION. The state of the device as plain data (R19 to R56 and the chapters named at each field), the reasons a
step can stop, and the state after reset. Numbers that the manual never shifts or masks are naturals. -/

namespace Sys2Proof.Machine

/-! ## Strands -/

/-- A strand of the device: its core and its STRID (R30). -/
structure Ref where
  core : Nat
  strid : Nat
  deriving DecidableEq, Repr

/-- R29: a handle register: the valid bit, the record's address, and the cached copy of the record (sixteen
doublewords, with the physical address they were read at; none until the first use). -/
structure Handle where
  valid : Bool
  addr : Nat
  cache : Option (Nat × List (BitVec 64))
  deriving DecidableEq, Repr

def Handle.invalid : Handle := { valid := false, addr := 0, cache := none }

/-- R39: an entry of the reconvergence stack. -/
inductive RsEntry where
  | div (rpc : Nat) (mask : Mask) (dpc : Nat) (dmask : Mask)
  | trap (tpc : Word) (mask : Mask) (tssw : Word)
  deriving DecidableEq, Repr

/-- R41: an entry of the loop stack. -/
structure LoopEntry where
  start : Word
  last : Word
  count : Word
  deriving DecidableEq, Repr

/-- A register write that a long-latency instruction still owes (R66). -/
inductive RegW where
  | v (lane reg : Nat) (x : Word)
  | s (reg : Nat) (x : Dword)
  | p (lane reg : Nat) (x : Bool)
  | h (reg : Nat) (x : Handle)
  deriving DecidableEq, Repr

/-- One lane's access: its address or its coordinates, and the values it stores or combines (R179, R189, R192). -/
structure LaneAcc where
  lane : Nat
  ea : Nat
  coords : List Int
  data : Nat
  data2 : Nat
  deriving DecidableEq, Repr

/-- R64 to R68: an outstanding long-latency instruction. `left` counts the instructions its window still covers;
`due` is the first cycle in which its result can have returned (R355), and `arrived` tells that it has, while the window
keeps its registers from being written (R66). `mask` is the active mask it was issued under, `todo` the lane accesses not yet
made (R68, R334), `pops` the lanes that still wait for a refill (R37), `trap` the trap owed at completion (R197). `replay` tells
that it belongs to a strand restored after a halt, in which it is no outstanding instruction but an access to replay (R68). -/
structure LongOp where
  pc : Nat
  instr : Instr
  mask : Mask
  left : Nat
  due : Nat
  arrived : Bool
  writes : List RegW
  flags : BitVec 6
  todo : List LaneAcc
  tn : Option (Nat × Nat × List (BitVec 64))
  pops : List Nat
  trap : Option (Cause × Dword)
  replay : Bool
  deriving DecidableEq, Repr

/-- R68, R334, R335: the lane accesses of an instruction of fixed latency that have not been made: the memory model lets
later accesses pass them, or a halt left them unperformed. `mask` is the active mask it was issued under; `rmw` tells that an
access of it reads as well (R333). -/
structure Held where
  pc : Nat
  instr : Instr
  mask : Mask
  todo : List LaneAcc
  tn : Option (Nat × Nat × List (BitVec 64))
  rmw : Bool
  deriving DecidableEq, Repr

/-- What a strand waits for: the waits that set SSW.WT (R32). `stamp` orders the pending GROWs of a slot (R176). -/
inductive Wait where
  | none
  | token (tok : Word) (d : Opnd)
  | count (cls thr : Nat)
  | counter (va target : Nat)
  | bar (b : Nat) (phase : Bool)
  | cancel (tok : Word) (d : Opnd)
  | spawn (record : List Byte) (d : Opnd)
  | grow (regs : Nat) (d : Opnd) (stamp : Nat)
  | push (q : Nat) (recs : List (List Word))
  | inval (ticket : Nat)
  | syncg
  deriving DecidableEq, Repr

/-- R205: a pending SYNCG. -/
structure SyncRec where
  pc : Nat
  k : Mask
  arr : Mask
  deriving DecidableEq, Repr

/-- R20 to R42, R55: a resident strand. `serial` tells it from every other strand that has borne its number; `withheldAt` is
the cycle since which the power allowance has withheld its next instruction (R358); `defer` the traps owed, oldest first, and
`rewait` tells that they wait for the end of a wait that is executed again (R34); `dbl` holds the vector registers with a double
error (R297), as lane × 256 + register. -/
structure Strand where
  ctx : Nat
  slot : Nat
  tslot : Nat
  role : Nat
  ngrp : Nat
  budget : Nat
  laneBase : Nat
  teamX : Nat
  teamY : Nat
  teamZ : Nat
  gridX : Nat
  gridY : Nat
  gridZ : Nat
  lbasis : Nat
  pc : Nat
  live : Mask
  active : Mask
  v : Map Word
  s : Map Dword
  p : Map Mask
  c : Map Bool
  k : Map Mask
  h : Map Handle
  lpr : Word
  fpsr : Word
  hm : Bool
  pl : BitVec 2
  sec : Bool
  tcause : Word
  tinfo : Dword
  tpc : Word
  tssw : Word
  rstk : List RsEntry
  lstk : List LoopEntry
  acnt : Map Nat
  long : List LongOp
  held : List Held
  wait : Wait
  syncg : Option SyncRec
  owed : List (Word × Nat)
  defer : List (Cause × Dword)
  rewait : Bool
  stopped : Bool
  stinfo : Dword
  age : Nat
  waits : Nat
  islot : Nat
  notBefore : Nat
  avail : List (Opnd × Nat)
  withheldAt : Option Nat
  serial : Nat
  dbl : List Nat
  deriving DecidableEq, Repr

/-- R202, R203: a barrier of a team. `first` is the cycle of the phase's first arrival. -/
structure Bar where
  phase : Bool
  expected : Nat
  arrivals : Nat
  roles : BitVec 4
  first : Nat
  deriving DecidableEq, Repr

def Bar.zero : Bar := { phase := false, expected := 0, arrivals := 0, roles := 0, first := 0 }

/-- R21: a resident team. `members` are its strands in role order; `launch` is the launch it belongs to, none for a
task group (R365); `rfHeld` the register-file bytes it keeps until it has retired (R220). -/
structure Team where
  ctx : Nat
  slot : Nat
  members : List Nat
  adopter : Nat
  bars : Map Bar
  spt : Nat
  act : Nat
  linear : Nat
  launch : Option Nat
  rfHeld : Nat
  deriving DecidableEq, Repr

/-! ## Context slots -/

/-- R24: the states of a context slot. -/
inductive SlotSt where
  | empty | shadow | running | frozen | halted
  deriving DecidableEq, Repr

/-- R43: ST, the state of an accumulator slot. -/
inductive AccSt where
  | invalid | live | held
  deriving DecidableEq, Repr

/-- R43: an accumulator slot. `res` holds the residue of element (i, c) in channel h at key 8192 h + 64 i + c; `arm` the
armed .wire injections as (key, delta) (R270). -/
structure AccSlot where
  gb : Nat
  eacc : Int
  bid : Nat
  span : Nat
  gt : Bool
  st : AccSt
  tok : Nat
  res : Map Nat
  arm : List (Nat × Nat)
  deriving DecidableEq, Repr

def AccSlot.reset : AccSlot :=
  { gb := 0, eacc := 0, bid := 0, span := 0, gt := false, st := .invalid, tok := 0, res := [], arm := [] }

/-- R222: a registered range. `space` is 1 for the scratchpad and 2 for the accumulator store; `kind` is 0 copy,
1 matrix, 2 drain, 3 relayout; `seq` is the issue order of the operation at table index `idx`. -/
structure Range where
  idx : Nat
  kind : Nat
  space : Nat
  lo : Nat
  hi : Nat
  wr : Bool
  seq : Nat
  deriving DecidableEq, Repr

/-- R24, R293 to R297, R381: a context slot. `line` is set once the halt line has arrived; `freezing` once a freeze has
taken effect; `dbl` holds the pool words with a double error (space × 2^32 + word address); `lineOps` the operations not
terminal when the halt line arrived (R374); `marked` the cause of a halt that reached the slot
frozen or saved, with the DM bit of the leaf concerned (R370, R380); `actedAt` one more than the last cycle in which a SWAP or
a trap took effect in the slot (R380); `pausedAt` the cycle in which a freeze took effect (R204). -/
structure Slot where
  st : SlotSt
  ctx : Nat
  pbase : Nat
  psize : Nat
  rf : Nat
  sp : Nat
  acc : Nat
  savebase : Nat
  scratch : Map Byte
  accst : Map Byte
  accs : Map AccSlot
  ranges : List Range
  line : Bool
  freezing : Bool
  saves : Nat
  dbl : List Nat
  lineOps : List Nat
  marked : Option (Cause × Bool)
  actedAt : Nat
  pausedAt : Nat
  deriving DecidableEq, Repr

def Slot.reset : Slot :=
  { st := .empty, ctx := 0, pbase := 0, psize := 0, rf := 0, sp := 0, acc := 0, savebase := 0, scratch := [],
    accst := [], accs := [], ranges := [], line := false, freezing := false, saves := 0, dbl := [],
    lineOps := [], marked := none, actedAt := 0, pausedAt := 0 }

/-! ## Tokens and child operations -/

/-- R52: STATE of a token-table entry. -/
inductive TokSt where
  | free | pending | running | done | faulted | cancelled | parked
  deriving DecidableEq, Repr

/-- R29: a tensor as an operation captured it: the record's virtual and physical address, and its doublewords, first as
they now stand for the operation (a relayout changes them), then as they stood at issue. -/
structure Tn where
  va : Nat
  pa : Nat
  dw : List (BitVec 64)
  dw0 : List (BitVec 64)
  deriving DecidableEq, Repr

/-- The operation a token names, with the operands captured at issue (R212). -/
inductive Op where
  | none
  | cpl (st : Bool) (sz rd : Nat) (pieces : List (Nat × Nat))
  | cpt (dst src : Tn) (so dor : List Int) (box : List Nat) (mc : Nat)
  | cpg (scatter : Bool) (br bc : Nat) (dst src : Tn) (list count : Nat)
  | cvb (mode w : Nat) (square : Bool) (dst : List Tn) (src : Tn) (scale : List Tn) (area : Nat)
  | mzero (acc bid : Nat) (eacc : Int)
  | mrl (acc : Nat) (eacc : Int) (src : Tn) (gb : Nat)
  | mma (neg : Bool) (acc n : Nat) (a b : Tn) (sa sb : Option Tn) (sparse nc wa wb mask : Nat)
  | mdr (acc fmt epi : Nat) (sat z : Bool) (dst : Tn) (bias : Option Tn) (par : BitVec 64) (row0 col0 : Int)
  | mrs (acc : Nat) (dst : Tn) (area : Nat)
  | coll (kind rop : Nat) (dst src : Tn) (desc root : Nat)
  | relay (t : Tn) (base tag map : Nat) (resume : Bool)
  | mop (code : Nat) (y x : Tn) (par : Word) (cx : Bool)
  deriving DecidableEq, Repr

/-- What an operation has done so far: units performed, running counts (CVB, MDR, MOP), the first failure, whether it
has been accepted by the sequencer, the group of a collective (GID, sequence, P, ME, members) and the fault an engine
has met and not yet reported. `done` holds the parts of elements that a copy or a bank-side operation has moved, `moved` the
64-byte pieces they lay in (R330), `flight` the cycle in which the K-step in flight ends (R241, R373), `met` the members
whose first message has been compared (R400), `got` the parts of elements that it has read for its present step (at 16 × element +
part), `pend` the elements that it has still to write, as (tensor, coordinates, value), `heard` the time or cycle of its start or
acceptance, and `hear` when each member of a group was last heard of (R401). -/
structure Work where
  prog : Nat
  done : List Nat
  moved : List Nat
  flight : Option Nat
  met : List Nat
  got : Map Nat
  pend : List (Nat × List Int × Nat)
  counts : List Nat
  first : Option Nat
  accepted : Bool
  group : List Nat
  buf : Map Nat
  fault : Option (Cause × Dword × Bool)
  heard : Nat
  hear : Map Nat
  deriving DecidableEq, Repr

def Work.zero : Work :=
  { prog := 0, done := [], moved := [], flight := none, met := [], got := [], pend := [], counts := [], first := none, accepted := false, group := [], buf := [],
    fault := none, heard := 0, hear := [] }

/-- R52: a token-table entry, with its context, issue order, level (R447), the team of its issuing strand, whether its
orphan record has been pushed (R220), the serial number of that strand (R214), and its operation. `started` tells that it has
made its first access (R214); `stuck` that an access of it has halted the context and waits for the resume (R297, R399). -/
structure Token where
  tag : BitVec 16
  pred : Word
  caddr : Dword
  cinc : Word
  cause : Nat
  gen : Nat
  cslot : Nat
  owner : Nat
  prio : BitVec 2
  det : Bool
  orph : Bool
  fact : BitVec 2
  cls : Nat
  st : TokSt
  ctx : Nat
  pl : BitVec 2
  seq : Nat
  started : Bool
  stuck : Bool
  skips : Nat
  cancel : Bool
  detail : Dword
  dm : Bool
  ended : Nat
  cluster : Nat
  team : Nat
  ringed : Bool
  issuer : Nat
  op : Op
  work : Work
  deriving DecidableEq, Repr

def Token.free : Token :=
  { tag := 0, pred := 0, caddr := 0, cinc := 0, cause := 0, gen := 0, cslot := 0, owner := 0, prio := 0, det := false,
    orph := false, fact := 0, cls := 0, st := .free, ctx := 0, pl := 0, seq := 0, started := false, stuck := false, skips := 0,
    cancel := false, detail := 0, dm := false, ended := 0, cluster := 0, team := 0, ringed := false, issuer := 0, op := .none, work := Work.zero }

/-! ## Cores and clusters -/

/-- R270: an EINJ .acc or .wire that waits for the matrix sequencer. -/
structure Einj where
  owner : Nat
  cslot : Nat
  seq : Nat
  wire : Bool
  acc : Nat
  key : Nat
  chan : Nat
  delta : Nat
  deriving DecidableEq, Repr

/-- R273, R281 to R289: the column over a core. `wires` counts attributed corrections at key 144 × channel + 9 × digit
slot + bit; `pendSpare` the wires to be mapped and `pendErase` the channels to be erased at the next drain; `obPend` the
operand-bus wires to be mapped at the next K-step, `obWires` the counts of corrections of its wires; `armed` the .obus
injections; `turn` the slot that had the last turn, and `stalled` the operation whose step waits for heat tokens (R289, R290). -/
structure Column where
  erased : List Nat
  pendErase : List Nat
  down : Bool
  spares : Map Nat
  pendSpare : List (Nat × Nat)
  wires : Map Nat
  chCnt : Map Nat
  obSpares : Nat
  obPend : List Nat
  obWires : Map Nat
  obCnt : Nat
  heat : Nat
  heatAt : Nat
  turn : Option Nat
  stalled : Option Nat
  armed : List (Nat × Bool)
  dummy : Bool
  deriving DecidableEq, Repr

/-- R285: the residue containment register, but for the fields derived from the column. -/
structure Rcr where
  v : Bool
  ovf : Bool
  unc : Bool
  multi : Bool
  fch : Nat
  ccnt : Nat
  ucnt : Nat
  ftok : Nat
  facc : Nat
  fslot : Nat
  deriving DecidableEq, Repr

def Rcr.reset : Rcr :=
  { v := false, ovf := false, unc := false, multi := false, fch := 0xF, ccnt := 0, ucnt := 0, ftok := 0, facc := 0,
    fslot := 0 }

/-- R356: an issue slot. It is held until cycle `hold`; `worked` is one more than the cycle of its last choice. -/
structure ISlot where
  hold : Nat
  worked : Nat
  greedy : Option Nat
  last : Option Nat
  order : List Nat
  deriving DecidableEq, Repr

def ISlot.reset : ISlot := { hold := 0, worked := 0, greedy := none, last := none, order := [] }

/-- R306: a cached leaf: the context, the page base and size, and the leaf entry. -/
structure TlbE where
  ctx : Nat
  base : Nat
  size : Nat
  leaf : BitVec 64
  deriving DecidableEq, Repr

/-- R301: a line of the instruction cache: its units of 4 bytes, by physical address div 4 (R345). -/
structure ILine where
  units : List (Nat × BitVec 32)
  deriving DecidableEq, Repr

/-- R19 to R55: a core. `tlb` is its L1 TLB (R306), `icache` its instruction cache, newest line first (R298). `rr` is the issue policy in force, `rrNext` one that waits for both issue slots (R356). -/
structure Core where
  strands : Map Strand
  teams : Map Team
  slots : Map Slot
  tokens : Map Token
  einjq : List Einj
  col : Column
  rcr : Rcr
  chsel : Dword
  invbase : Dword
  invcmd : Dword
  timeHost : Dword
  timeClk : Dword
  rr : Bool
  rrNext : Option Bool
  islots : Map ISlot
  tlb : List TlbE
  icache : List ILine
  deriving DecidableEq, Repr

/-- R281 to R289: a column at reset. The heat bucket is full (assumption 12). -/
def Column.reset : Column :=
  { erased := [], pendErase := [], down := false, spares := [], pendSpare := [], wires := [], chCnt := [], obSpares := 0,
    obPend := [], obWires := [], obCnt := 0, heat := 4096, heatAt := 0, turn := none, stalled := none, armed := [], dummy := false }

def Core.reset : Core :=
  { strands := [], teams := [], slots := [], tokens := [], einjq := [], col := Column.reset,
    rcr := Rcr.reset, chsel := 0, invbase := 0, invcmd := 0, timeHost := 0, timeClk := 0, rr := false, rrNext := none, islots := [],
    tlb := [], icache := [] }

/-- R364: a forming task group: its entry PC, target core and the records taken, oldest first. -/
structure Group where
  epc : Nat
  core : Nat
  recs : List (List Word)
  closed : Bool
  at_ : Nat
  deriving DecidableEq, Repr

/-- R362: a push that waits for ring room: a continuation of a context with its core and token (R260), or the records that a
QPUSH of the strand with a serial number still owes. -/
inductive Pusher where
  | cont (ctx core : Nat) (tok : Word) (rec : List Word)
  | strand (serial : Nat)
  deriving DecidableEq, Repr

/-- R361 to R364: a hardware task queue. Each record carries its pass-overs. `claims` are the pops that claimed ring
records, oldest first (R37); `stuck` a ring access that met a fault and is replayed at resume. `pushedAt` is one more than the
cycle of the last push, `refillAt` the first cycle in which a refill can be made (R362). -/
structure Queue where
  owner : Option Nat
  dispatch : Bool
  recs : List (List Word × Nat)
  base : Nat
  size : Nat
  head : Nat
  tail : Nat
  waiting : List Pusher
  claims : List (Ref × Nat × Nat)
  forming : List Group
  stuck : Bool
  pushedAt : Nat
  refillAt : Nat
  deriving DecidableEq, Repr

def Queue.reset : Queue :=
  { owner := none, dispatch := false, recs := [], base := 0, size := 0, head := 0, tail := 0, waiting := [],
    claims := [], forming := [], stuck := false, pushedAt := 0, refillAt := 0 }

/-- R358 to R364: a cluster. `busyAt` is the wall-clock time up to which it was last at work, `gatedAt` one more than the cycle in
which it was gated, `wakeTime` the time before which no strand of it issues (R359), and `dispatchAt` one more than the cycle of
the dispatcher's last choice (R364). -/
structure Cluster where
  queues : Map Queue
  pa : Int
  paAt : Nat
  owed : Option Ref
  gated : Bool
  gatedAt : Nat
  wakeTime : Nat
  busyAt : Nat
  dispatchAt : Nat
  lastCore : Nat
  lastQueue : Nat
  deriving DecidableEq, Repr

/-- R358, R364: a cluster at reset, with a full allowance (assumption 14), whose dispatcher begins at core 0 and queue 0 (assumption
116). -/
def Cluster.reset : Cluster :=
  { queues := [], pa := 2048, paAt := 0, owed := none, gated := false, gatedAt := 0, wakeTime := 0, busyAt := 0,
    dispatchAt := 0, lastCore := 3,
    lastQueue := 3 }

/-! ## Contexts -/

/-- R46: a basis: the primaries and the two redundant moduli. -/
structure Basis where
  prim : List Nat
  q0 : Nat
  q1 : Nat
  deriving DecidableEq, Repr

/-- R352: a pair of a placement set with its pool part and save area. -/
structure Pair where
  core : Nat
  slot : Nat
  pbase : Nat
  psize : Nat
  savebase : Nat
  deriving DecidableEq, Repr

/-- R371, R375: a halt cause on its way to the halt controller, with the strand that met it, if one did, and the time at which it
arose (R372). -/
structure HaltReq where
  cause : Cause
  tinfo : Dword
  src : Nat
  core : Nat
  slot : Nat
  dm : Bool
  strid : Option Nat := none
  at_ : Nat := 0
  deriving DecidableEq, Repr

/-- R371, R374: a halt in force; `since` is the time of its first cause (R372). -/
structure HaltInfo where
  cause : Cause
  tinfo : Dword
  src : Nat
  core : Nat
  slot : Nat
  dm : Bool
  strid : Option Nat := none
  later : Nat
  fatal : Bool
  since : Nat
  deriving DecidableEq, Repr

/-- R257, R259: the continuations of one SUSPEND: its core and slot, the token, the queue of the suspending core's cluster, the
PC, and the blocks in ascending SLANE order. A number of `slot` above 1 names the image of a saved slot. -/
structure Susp where
  core : Nat
  slot : Nat
  tok : Word
  queue : Nat
  rpc : Nat
  blocks : List Nat
  deriving DecidableEq, Repr

/-- R223: a ring record held on chip because its write met a fault. `orphan` selects the ring. -/
structure HeldRec where
  orphan : Bool
  bytes : List Byte
  deriving DecidableEq, Repr

/-- R23, R264 to R266: a context. -/
structure Ctx where
  secure : Bool
  level : BitVec 2
  persistent : Bool
  codebase : Nat
  root : Nat
  handler : Dword
  bases : Map Basis
  frbase : Nat
  frsize : Nat
  frhead : Nat
  frtail : Nat
  frlost : Nat
  orbase : Nat
  orsize : Nat
  orhead : Nat
  ortail : Nat
  contbase : Nat
  contsize : Nat
  tbud : Nat
  bwdog : Nat
  pairs : List Pair
  lastPair : Option (Nat × Nat)
  haltQ : List HaltReq
  halt : Option HaltInfo
  susp : List Susp
  heldRecs : List HeldRec
  ending : Option Nat
  killed : Bool
  energy : Nat
  deriving DecidableEq, Repr

/-- R349, R351: an accepted launch: its record, the linear index of the next team, and the teams placed and not yet
retired. -/
structure Launch where
  ctx : Nat
  record : List (BitVec 64)
  next : Nat
  teams : Nat
  deriving DecidableEq, Repr

/-! ## The device -/

/-- R389, R390: a frame sent: the port, the header's fields, the payload in doublewords and the tag. A message to a peer device has
`port` = 3. -/
structure Msg where
  port : Nat
  typ : Nat
  rpl : Bool
  len : Nat
  seq : Nat
  node : Nat
  ctxid : Nat
  body : List (BitVec 64)
  tag : BitVec 128
  deriving DecidableEq, Repr

/-- R389: the header of a frame, as two doublewords. -/
def Msg.header (m : Msg) : List (BitVec 64) :=
  [BitVec.ofNat 64 (m.typ * 2 ^ 56 + m.rpl.toNat * 2 ^ 48 + m.len * 2 ^ 32 + m.seq),
   BitVec.ofNat 64 (m.node * 2 ^ 48 + m.ctxid * 2 ^ 32)]

/-- R389: a frame of the device under a session key, with a payload of `len` bytes. -/
def Msg.sealed (key port typ : Nat) (rpl : Bool) (seq ctxid len : Nat) (body : List (BitVec 64)) : Msg :=
  let m : Msg := { port := port, typ := typ, rpl := rpl, len := len, seq := seq, node := 0xFFFF, ctxid := ctxid, body := body, tag := 0 }
  { m with tag := Config.frameTag key (m.header ++ body) }

/-- R389, R395: a host port: the challenge it was last sent, the node authenticated on it and the session key, the next
SEQ of each direction, the frames dropped because their tag failed, the SEQs from which the device has asked for retransmission,
and the MGMT requests that wait (R391). -/
structure Port where
  up : Bool
  chal : Nat
  node : Option Nat
  key : Nat
  rx : Nat
  tx : Nat
  dropped : Nat
  asked : List Nat
  later : List Frame
  deriving DecidableEq, Repr

/-- R391: a management request that has not replied yet. -/
structure Mgmt where
  ticket : Nat
  port : Nat
  seq : Nat
  head : BitVec 64
  ctx : Nat
  core : Nat
  slot : Nat
  args : List Nat
  deriving DecidableEq, Repr

/-- R307: an invalidation under way. -/
structure Inval where
  ticket : Nat
  ctx : Nat
  base : Nat
  pages : Nat
  by_ : Option Ref
  deriving DecidableEq, Repr

/-- R414: an entry of the region table: its two doublewords. -/
structure Region where
  d0 : BitVec 64
  d1 : BitVec 64
  deriving DecidableEq, Repr

/-- R381, R385: what a saved slot holds beside the bytes in memory: the private control image, named by core, slot and
the count of saves in the image word. `bases` is the context's basis table (R381), `susps` the SUSPENDs of the slot whose
continuations are owed (R260). -/
structure Image where
  core : Nat
  slot : Nat
  count : Nat
  ctx : Nat
  strands : Map Strand
  teams : Map Team
  tokens : Map Token
  data : Slot
  einj : List Einj
  bases : Map Basis
  susps : List Susp
  deriving DecidableEq, Repr

/-- R385: a power-fail image in module flash, with the bytes of the slot's halt area. -/
structure Flash where
  core : Nat
  slot : Nat
  valid : Bool
  halt : List Byte
  img : Image
  deriving DecidableEq, Repr

/-- R399: a UALink port. -/
inductive LinkSt where
  | up | retraining (since : Nat) | lost
  deriving DecidableEq, Repr

/-- R405 to R411: the Kettle. `depths` are the applied depths of steps 1 to 8; `saved` the depths that stood when a
critical response began; `coolAt` when the samples last began to be cool; `lowAt` when the power last began to be low. `pin` is the
code of the power-step pins that stood before their last change, `pinNext` the code they have shown since `pinAt` (R405). -/
structure Kettle where
  cport : Nat
  caps : Map Nat
  pin : BitVec 3
  pinNext : BitVec 3
  pinAt : Nat
  depths : Map Nat
  saved : Option (Map Nat)
  coolAt : Option Nat
  lowAt : Option Nat
  power : Nat
  temps : Map Nat
  hotPosted : List Nat
  ballastEn : Bool
  ballastFloor : Nat
  tickAt : Nat
  energySys : Nat
  energyAt : Nat
  deriving DecidableEq, Repr

/-- R402: an abort kept for a collective not yet started. -/
structure Abort where
  gid : Nat
  seq : Nat
  origin : Nat
  at_ : Nat
  deriving DecidableEq, Repr

/-- The device. `cycle` is CLK of every core (R35), `time` wall-clock time in units of 1/128.7 GHz (R9, R404). `sel` is
the strand just selected to issue, `cur` the strand that the instruction under execution belongs to, `energyUse` the energy
events of the present interval, at key 16 × CTXID + kind (R412), `agenda` the events still to be presented with their cycles, `rtAt` the time of the last RTCOMMIT (R416), and `free` the counter of the free values: the model's own (assumptions 2, 3). -/
structure State where
  cycle : Nat
  time : Nat
  sel : Option Ref
  cur : Ref
  agenda : List (Nat × Instr)
  free : Nat
  mem : Map Byte
  unc : List Nat
  tlb : Map (List TlbE)
  invals : List Inval
  hot : Map Nat
  hotTick : Nat
  hotAt : Map Nat
  energyUse : Map Nat
  refreshed : Map Nat
  boots : Nat
  rowBin : Map Nat
  spareRows : Map Nat
  patrolled : Map Nat
  regions : Map Region
  regionsOld : Map Region
  regionsPending : Map Region
  rtBusy : Bool
  rtAt : Nat
  secure : List Nat
  devnum : Nat
  cores : Map Core
  clusters : Map Cluster
  ctxs : Map Ctx
  launches : Map Launch
  placedAt : Map Nat
  nextId : Nat
  out : List Msg
  ports : Map Port
  owner : Option Nat
  lastBeat : Nat
  nodeKeys : List Nat
  lmsIndex : Nat
  fuses : Nat
  fwVersion : Nat
  fwImage : Option (List Byte)
  booted : Bool
  mgmt : List Mgmt
  images : List Image
  links : Map LinkSt
  aborts : List Abort
  kettle : Kettle
  pfail : Bool
  holdUp : Bool
  flash : List Flash
  drained : List (Nat × Nat)
  deriving DecidableEq, Repr

/-- Why a step stops with a fault. The manual gives every instruction an effect, a trap, a halt or a token fault on every operand, so
no step ends in a fault: the type has no constructor. -/
inductive Fault where
  deriving DecidableEq, Repr

/-- Why a step gives no meaning. -/
inductive Refusal where
  /-- The instruction has no meaning yet. Raised by the dispatcher only. Safe. -/
  | notModelled (mnemonic : String)
  /-- An instruction word is executed and there is no strand to execute it. Raised by the meaning of every instruction of
  a strand. Safe: no hardware behaviour corresponds to it. -/
  | noIssuingStrand
  deriving DecidableEq, Repr

/-- R405: the Kettle at reset; temperatures 25 (assumption 11). -/
def Kettle.reset : Kettle :=
  { cport := 3000, caps := [(1, 2400), (2, 2000), (3, 1600), (4, 1400), (5, 1200), (6, 1000), (7, 800)], pin := 0, pinNext := 0, pinAt := 0,
    depths := [], saved := none, coolAt := none, lowAt := none, power := 0, temps := [], hotPosted := [],
    ballastEn := false, ballastFloor := 0, tickAt := 0, energySys := 0, energyAt := 0 }

def Port.reset (chal : Nat) : Port :=
  { up := true, chal := chal, node := none, key := 0, rx := 0, tx := 1, dropped := 0, asked := [], later := [] }

/-- R395: the challenge sent on each port after reset. -/
def chalMsg (port : Nat) : Msg :=
  Msg.sealed 0 port 0x86 false 0 0 48 ((List.range 6).map fun i => dwordAt (Config.challenge port) i)

/-- The device right after reset: every slot EMPTY, no context, CLK zero, every region entry cleared, and a challenge
sent on both host ports (R35, R395, R416). -/
def State.reset : State :=
  { cycle := 0, time := 0, sel := none, cur := { core := 0, strid := 0 }, agenda := [], free := 0, mem := [], unc := [],
    tlb := [], invals := [], hot := [], hotTick := 0, hotAt := [], energyUse := [], refreshed := [], boots := 0, rowBin := [], spareRows := [],
    patrolled := [], regions := [], regionsOld := [], regionsPending := [], rtBusy := false, rtAt := 0, secure := [], devnum := 0,
    cores := [], clusters := [], ctxs := [], launches := [], placedAt := [], nextId := 0, out := [chalMsg 0, chalMsg 1],
    ports := [(0, Port.reset 0), (1, Port.reset 1)], owner := none, lastBeat := 0, nodeKeys := [], lmsIndex := 0,
    fuses := 0, fwVersion := Config.imageVersion Config.factoryImage, fwImage := none, booted := true, mgmt := [], images := [], links := [], aborts := [],
    kettle := Kettle.reset, pfail := false, holdUp := true, flash := [], drained := [] }

end Sys2Proof.Machine
end

