-- ==== Sys2Proof/Machine/Access.lean ====
section
/-! DEFINITION. Reading and writing the parts of the state: cores, slots, strands, contexts, tokens, and the registers of
a strand (R19 to R31). Every read and write of a register goes through these. -/

namespace Sys2Proof.Machine

/-! ## Parts of the device -/

namespace State

def core (s : State) (c : Nat) : Core := mget Core.reset s.cores c
def setCore (s : State) (c : Nat) (x : Core) : State := { s with cores := mput s.cores c x }
def modCore (s : State) (c : Nat) (f : Core → Core) : State := s.setCore c (f (s.core c))

def strand? (s : State) (r : Ref) : Option Strand := mfind (s.core r.core).strands r.strid
def setStrand (s : State) (r : Ref) (x : Strand) : State :=
  s.modCore r.core fun k => { k with strands := mput k.strands r.strid x }
def delStrand (s : State) (r : Ref) : State :=
  s.modCore r.core fun k => { k with strands := mdel k.strands r.strid }
def modStrand (s : State) (r : Ref) (f : Strand → Strand) : State :=
  match s.strand? r with
  | none => s
  | some x => s.setStrand r (f x)

def slot (s : State) (c k : Nat) : Slot := mget Slot.reset (s.core c).slots k
def setSlot (s : State) (c k : Nat) (x : Slot) : State :=
  s.modCore c fun q => { q with slots := mput q.slots k x }
def modSlot (s : State) (c k : Nat) (f : Slot → Slot) : State := s.setSlot c k (f (s.slot c k))

def token (s : State) (c i : Nat) : Token := mget Token.free (s.core c).tokens i
def setToken (s : State) (c i : Nat) (x : Token) : State :=
  s.modCore c fun q => { q with tokens := mput q.tokens i x }
def modToken (s : State) (c i : Nat) (f : Token → Token) : State := s.setToken c i (f (s.token c i))

def team? (s : State) (c t : Nat) : Option Team := mfind (s.core c).teams t
def modTeam (s : State) (c t : Nat) (f : Team → Team) : State :=
  s.modCore c fun q => { q with teams := mmod q.teams t f }

def ctx? (s : State) (i : Nat) : Option Ctx := mfind s.ctxs i
def setCtx (s : State) (i : Nat) (x : Ctx) : State := { s with ctxs := mput s.ctxs i x }
def modCtx (s : State) (i : Nat) (f : Ctx → Ctx) : State := { s with ctxs := mmod s.ctxs i f }

def cluster (s : State) (c : Nat) : Cluster := mget Cluster.reset s.clusters c
def setCluster (s : State) (c : Nat) (x : Cluster) : State := { s with clusters := mput s.clusters c x }
def modCluster (s : State) (c : Nat) (f : Cluster → Cluster) : State := s.setCluster c (f (s.cluster c))

def queue (s : State) (c q : Nat) : Queue := mget Queue.reset (s.cluster c).queues q
def modQueue (s : State) (c q : Nat) (f : Queue → Queue) : State :=
  s.modCluster c fun k => { k with queues := mput k.queues q (f (mget Queue.reset k.queues q)) }

/-- R51, R252: the context a strand belongs to. -/
def ctxOf (s : State) (x : Strand) : Option Ctx := s.ctx? x.ctx

end State

/-- R20: the cluster of a core. -/
def clusterOf (core : Nat) : Nat := core / 4

/-- R300: the die of a core. -/
def dieOf (core : Nat) : Nat := core / 96

/-- R264: slot state as a number. -/
def SlotSt.code : SlotSt → Nat
  | .empty => 0 | .shadow => 1 | .running => 2 | .frozen => 3 | .halted => 4

/-- R52: STATE as a number. -/
def TokSt.code : TokSt → Nat
  | .free => 0 | .pending => 1 | .running => 2 | .done => 3 | .faulted => 4 | .cancelled => 5 | .parked => 6

/-- R213: the terminal states. -/
def TokSt.terminal : TokSt → Bool
  | .done | .faulted | .cancelled => true
  | _ => false

/-! ## Lanes and masks (R21, R28) -/

namespace Mask

/-- Bit `l`. -/
def bit (m : Mask) (l : Nat) : Bool := m.getLsbD l

def set (m : Mask) (l : Nat) (b : Bool) : Mask :=
  if b then m ||| (1#1024 <<< l) else m &&& ~~~(1#1024 <<< l)

/-- R28: word Wi. -/
def word (m : Mask) (i : Nat) : Word := m.extractLsb' (32 * i) 32

/-- R28: the summary word: bit i is 1 exactly when Wi is nonzero. -/
def summary (m : Mask) : Word :=
  (List.range 32).foldl (fun acc i => if word m i = 0 then acc else acc ||| (1#32 <<< i)) 0

/-- R28: the lanes of the first `g` groups. -/
def groups (g : Nat) : Mask := (1#1024 <<< (32 * g)) - 1

/-- The lanes of a mask among the first `n`, ascending. -/
def lanes (m : Mask) (n : Nat) : List Nat := (List.range n).filter fun l => bit m l

/-- R355: the number of nonempty groups. -/
def passes (m : Mask) (g : Nat) : Nat := ((List.range g).filter fun i => word m i ≠ 0).length

/-- The mask of the lanes below `n` that satisfy `f`. -/
def ofPred (n : Nat) (f : Nat → Bool) : Mask :=
  (List.range n).foldl (fun acc l => if f l then set acc l true else acc) 0

end Mask

/-! ## Registers of a strand -/

namespace Strand

/-- R21: the lanes a strand can have. -/
def nlanes (x : Strand) : Nat := 32 * x.ngrp

/-- R25: vector register `r` of lane `l`. -/
def vreg (x : Strand) (l r : Nat) : Word := mget 0 x.v (l * 256 + r)
/-- R25, R297: a write replaces the word with its check bits. -/
def setV (x : Strand) (l r : Nat) (w : Word) : Strand :=
  { x with v := mput x.v (l * 256 + r) w, dbl := x.dbl.filter fun k => k != l * 256 + r }

/-- R25: the pair at `r`: the low word in the even register. -/
def vpair (x : Strand) (l r : Nat) : Dword := x.vreg l (r + 1) ++ x.vreg l r
def setPair (x : Strand) (l r : Nat) (d : Dword) : Strand :=
  (x.setV l r (d.extractLsb' 0 32)).setV l (r + 1) (d.extractLsb' 32 32)

/-- R26: scalar register `r`. -/
def sreg (x : Strand) (r : Nat) : Dword := mget 0 x.s r
def setS (x : Strand) (r : Nat) (d : Dword) : Strand := { x with s := mput x.s r d }

/-- R27: predicate `r` of all lanes; p7 reads 1. -/
def preg (x : Strand) (r : Nat) : Mask := if r = 7 then BitVec.allOnes 1024 else mget 0 x.p r
/-- R27: a write to p7 is discarded. -/
def setPreg (x : Strand) (r : Nat) (m : Mask) : Strand := if r = 7 then x else { x with p := mput x.p r m }
def pbit (x : Strand) (l r : Nat) : Bool := Mask.bit (x.preg r) l
def setPbit (x : Strand) (l r : Nat) (b : Bool) : Strand := x.setPreg r (Mask.set (x.preg r) l b)

/-- R27: condition `r`; c7 reads 1, and a write to it is discarded. -/
def creg (x : Strand) (r : Nat) : Bool := if r = 7 then true else mget false x.c r
def setC (x : Strand) (r : Nat) (b : Bool) : Strand := if r = 7 then x else { x with c := mput x.c r b }

/-- R28: mask register `r`; words beyond the strand's groups read zero, and writes to them are discarded. -/
def kreg (x : Strand) (r : Nat) : Mask := mget 0 x.k r
def setK (x : Strand) (r : Nat) (m : Mask) : Strand := { x with k := mput x.k r (m &&& Mask.groups x.ngrp) }

/-- R29: handle register `r`. -/
def hreg (x : Strand) (r : Nat) : Handle := mget Handle.invalid x.h r
def setH (x : Strand) (r : Nat) (h : Handle) : Strand := { x with h := mput x.h r h }

/-- R54: attached tokens of a class that are not terminal. -/
def count (x : Strand) (cls : Nat) : Nat := mget 0 x.acnt cls
def addCount (x : Strand) (cls n : Nat) : Strand := { x with acnt := mput x.acnt cls (x.count cls + n) }
def subCount (x : Strand) (cls n : Nat) : Strand := { x with acnt := mput x.acnt cls (x.count cls - n) }

/-- R20: the lanes that are active. -/
def activeLanes (x : Strand) : List Nat := Mask.lanes x.active x.nlanes

/-- R32: SSW.GP. -/
def gp (x : Strand) : Bool := match x.wait with | .grow _ _ _ => true | _ => false
/-- R32: SSW.WT. -/
def wt (x : Strand) : Bool := match x.wait with | .none => false | _ => true

/-- R32, R67: SSW.LLO, the long-latency instructions whose results have not returned. -/
def llo (x : Strand) : Nat := (x.long.filter fun o => !o.arrived && !o.replay).length

/-- R32: the strand status word. -/
def ssw (x : Strand) : Word :=
  0#6 ++ BitVec.ofNat 6 x.rstk.length ++ BitVec.ofNat 3 x.lstk.length ++ BitVec.ofNat 4 x.llo
    ++ BitVec.ofBool x.hm ++ x.pl ++ BitVec.ofBool x.sec ++ BitVec.ofBool x.wt ++ BitVec.ofBool x.gp ++ 0#7

/-- R36, R39: the innermost TRAP entry. -/
def trapEntry (x : Strand) : Option (Word × Word) :=
  x.rstk.findSome? fun e => match e with | .trap t _ w => some (t, w) | .div _ _ _ _ => none

/-- R36: TPC as it reads. -/
def readTpc (x : Strand) : Word :=
  if x.hm then (match x.trapEntry with | some e => e.1 | none => x.tpc) else x.tpc
def readTssw (x : Strand) : Word :=
  if x.hm then (match x.trapEntry with | some e => e.2 | none => x.tssw) else x.tssw

/-- R36: a write to TPC or TSSW in handler mode changes the innermost entry. -/
def modTrap (f : Word → Word → Word × Word) : List RsEntry → List RsEntry
  | [] => []
  | .trap t m w :: r => .trap (f t w).1 m (f t w).2 :: r
  | e :: r => e :: modTrap f r

/-- R33: the tile size T. -/
def tile (x : Strand) : Nat := 32 / 2 ^ (x.lpr.extractLsb' 0 3).toNat

/-- R41: entry `j` of the loop stack, entry 0 at the bottom; the list holds the top first. -/
def loopEntry (x : Strand) (j : Nat) : Option LoopEntry :=
  if j < x.lstk.length then x.lstk[x.lstk.length - 1 - j]? else none

end Strand

/-! ## Special registers (R30, R31) -/

/-- R54: four counts of 16 bits. -/
def packCounts (x : Strand) (lo n : Nat) : Dword :=
  BitVec.ofNat 64 ((List.range n).foldl (fun acc i => acc + (x.count (lo + i)) % 65536 * 2 ^ (16 * i)) 0)

/-- R30: what special register `r` reads in lane `l` of strand `x`; masks and queue ports are read elsewhere. -/
def sprRead (s : State) (ref : Ref) (x : Strand) (l r : Nat) : Dword :=
  let n (k : Nat) : Dword := BitVec.ofNat 64 k
  let w (k : Word) : Dword := k.setWidth 64
  let loopF (j : Nat) (f : LoopEntry → Word) : Dword := match x.loopEntry j with | some e => w (f e) | none => 0
  match r with
  | 0x00 => n (l % 32) | 0x01 => n (l / 32) | 0x02 => n l | 0x03 => n (x.laneBase + l) | 0x04 => n ref.strid
  | 0x05 => n x.role | 0x06 => n x.ngrp | 0x07 => n x.teamX | 0x08 => n x.teamY | 0x09 => n x.teamZ
  | 0x0A => n x.gridX | 0x0B => n x.gridY | 0x0C => n x.gridZ | 0x0D => n x.tslot | 0x0E => n ref.core
  | 0x0F => n x.ctx | 0x10 => n x.slot | 0x11 => n x.lbasis
  | 0x20 => w x.ssw | 0x21 => w x.lpr | 0x22 => w x.fpsr | 0x23 => n s.cycle
  | 0x26 => w x.tcause | 0x27 => x.tinfo | 0x28 => w x.readTpc | 0x29 => w x.readTssw
  | 0x2A => packCounts x 0 4 | 0x2B => packCounts x 4 3
  | 0x30 => loopF 0 (·.start) | 0x31 => loopF 1 (·.start) | 0x32 => loopF 2 (·.start) | 0x33 => loopF 3 (·.start)
  | 0x34 => loopF 0 (·.last) | 0x35 => loopF 1 (·.last) | 0x36 => loopF 2 (·.last) | 0x37 => loopF 3 (·.last)
  | 0x38 => loopF 0 (·.count) | 0x39 => loopF 1 (·.count) | 0x3A => loopF 2 (·.count) | 0x3B => loopF 3 (·.count)
  | _ => 0

/-- Change loop entry `j`, counted from the bottom (R41); an entry at or above LSD stays absent. -/
def modLoop (x : Strand) (j : Nat) (f : LoopEntry → LoopEntry) : Strand :=
  if j < x.lstk.length then { x with lstk := x.lstk.modify (x.lstk.length - 1 - j) f } else x

/-- R31, R33, R34, R36, R41: a write of `d` to special register `r`: the strand after it, or none when LPR or FPSR would
take a reserved bit or code (BAD_SPR). A write to a read-only register, or outside handler mode to a register writable
only there, is discarded. -/
def sprWrite (x : Strand) (r : Nat) (d : Dword) : Option Strand :=
  let w : Word := d.setWidth 32
  if r = 0x21 then
    if (w >>> 3) != 0 || decide (5 ≤ (w.extractLsb' 0 3).toNat) then none else some { x with lpr := w }
  else if r = 0x22 then
    if (w &&& 0xFFE0FCC0#32) != 0 then none else some { x with fpsr := w }
  else if !x.hm then some x
  else if r = 0x28 then some { x with rstk := Strand.modTrap (fun _ b => (w, b)) x.rstk, tpc := w }
  else if r = 0x29 then some { x with rstk := Strand.modTrap (fun a _ => (a, w)) x.rstk, tssw := w }
  else if 0x30 ≤ r ∧ r ≤ 0x33 then some (modLoop x (r - 0x30) fun e => { e with start := w })
  else if 0x34 ≤ r ∧ r ≤ 0x37 then some (modLoop x (r - 0x34) fun e => { e with last := w })
  else if 0x38 ≤ r ∧ r ≤ 0x3B then some (modLoop x (r - 0x38) fun e => { e with count := w })
  else some x

end Sys2Proof.Machine
end

