-- ==== Sys2Proof/Machine/Num.lean ====
section
/-! DEFINITION. Number formats: integers (R91 to R93), floating point and binary8 (R94 to R104), affine scales (R105 to
R107), and the special functions (R140). A finite floating value is an exact dyadic number, rounded once. -/

namespace Sys2Proof.Machine

/-! ## Integers -/

/-- R91: the ends of the range of an integer type. -/
def intLo (t : Ty) : Int := if t.isUnsigned then 0 else -(2 ^ (t.bits - 1) : Nat)
def intHi (t : Ty) : Int := if t.isUnsigned then (2 ^ t.bits : Nat) - 1 else (2 ^ (t.bits - 1) : Nat) - 1

/-- R92: the low bits of `w` read as `t`; code 0x00 reads as .i32 (R121). -/
def intRead (t : Ty) (w : Nat) : Int :=
  let n := w % 2 ^ t.bits
  if t.isUnsigned then n else if n < 2 ^ (t.bits - 1) then n else (n : Int) - (2 ^ t.bits : Nat)

/-- R93: the low bits of `x`, as an unsigned number of the type's width. -/
def intBits (t : Ty) (x : Int) : Nat := (x % (2 ^ t.bits : Nat)).toNat

/-- R93, R123: fit an exact result to the type: the value, and whether it saturated. -/
def intFit (t : Ty) (sat : Bool) (x : Int) : Int × Bool :=
  if intLo t ≤ x ∧ x ≤ intHi t then (x, false)
  else if sat then (if x < intLo t then intLo t else intHi t, true)
  else (intRead t (intBits t x), false)

/-- R92, R121: a value of `t` as a register of 64 bits holds it: sign-extended for a signed type. A vector register keeps
the low 32 bits. -/
def intReg (x : Int) : Dword := BitVec.ofInt 64 x

/-! ## Flags (R34) -/

def fIV : BitVec 6 := 1
def fDZ : BitVec 6 := 2
def fOF : BitVec 6 := 4
def fUF : BitVec 6 := 8
def fNX : BitVec 6 := 16
def fSAT : BitVec 6 := 32

/-- R70: rounding modes in force. -/
inductive RMode where
  | ne | tz | dn | up
  deriving DecidableEq, Repr

/-- R34, R70: the mode an instruction rounds by. -/
def rmode (r : Rnd) (fpsr : Word) : RMode :=
  match r with
  | .rn => .ne | .rz => .tz | .rd => .dn | .ru => .up
  | .dyn => match (fpsr.extractLsb' 8 2).toNat with | 0 => .ne | 1 => .tz | 2 => .dn | _ => .up

/-! ## Formats (R94, R98, R99) -/

/-- A floating format: `t` fraction bits, bias `b`, magnitude bits `k`, the code of the largest finite magnitude, that of
infinity if there is one, whether it has a sign, and whether it is IEEE-style. -/
structure Fmt where
  t : Nat
  b : Int
  k : Nat
  maxK : Nat
  infK : Option Nat
  signed : Bool
  ieee : Bool
  deriving DecidableEq, Repr

/-- The format of a floating type. -/
def fmtOf : Ty → Fmt
  | .f16 => { t := 10, b := 15, k := 15, maxK := 0x7BFF, infK := some 0x7C00, signed := true, ieee := true }
  | .bf16 => { t := 7, b := 127, k := 15, maxK := 0x7F7F, infK := some 0x7F80, signed := true, ieee := true }
  | .f64 =>
    { t := 52, b := 1023, k := 63, maxK := 0x7FEFFFFFFFFFFFFF, infK := some 0x7FF0000000000000, signed := true,
      ieee := true }
  | .b8 u f p =>
    let t := p.toNat - 1
    if u then
      { t, b := 2 ^ (8 - p.toNat), k := 8, maxK := if f then 0xFE else 0xFD, infK := if f then none else some 0xFE,
        signed := false, ieee := false }
    else
      { t, b := 2 ^ (7 - p.toNat), k := 7, maxK := if f then 0x7F else 0x7E, infK := if f then none else some 0x7F,
        signed := true, ieee := false }
  | _ => { t := 23, b := 127, k := 31, maxK := 0x7F7FFFFF, infK := some 0x7F800000, signed := true, ieee := true }

/-- The exponent of the subnormal spacing. -/
def Fmt.qmin (f : Fmt) : Int := 1 - f.b - f.t

/-- What a code stands for: a signed zero, the number m × 2^e (m ≠ 0), an infinity, or a NaN (signalling or quiet). -/
inductive Fp where
  | zero (neg : Bool)
  | fin (m : Int) (e : Int)
  | inf (neg : Bool)
  | nan (sig : Bool)
  deriving DecidableEq, Repr

/-- The magnitude n × 2^q of a magnitude code (R94, R98). -/
def Fmt.mag (f : Fmt) (k : Nat) : Nat × Int :=
  let e := k / 2 ^ f.t
  let t := k % 2 ^ f.t
  if e = 0 then (t, f.qmin) else (2 ^ f.t + t, f.qmin + e - 1)

/-- R94, R98, R99: the value of a code. -/
def Fmt.decode (f : Fmt) (x : Nat) : Fp :=
  let k := x % 2 ^ f.k
  let neg := f.signed && decide (x / 2 ^ f.k % 2 = 1)
  if f.ieee then
    match f.infK with
    | some i =>
      if k = i then .inf neg
      else if i < k then .nan (decide (k / 2 ^ (f.t - 1) % 2 = 0))
      else if k = 0 then .zero neg
      else let (n, q) := f.mag k; .fin (if neg then -n else n) q
    | none => .zero false
  else if f.signed && x % 256 == 0x80 || !f.signed && x % 256 == 0xFF then .nan false
  else if f.infK = some k then .inf neg
  else if k = 0 then .zero false
  else let (n, q) := f.mag k; .fin (if neg then -n else n) q

/-- R94, R98, R99: the canonical NaN. -/
def Fmt.nan (f : Fmt) : Nat :=
  if f.ieee then (f.infK.getD 0) + 2 ^ (f.t - 1) else if f.signed then 0x80 else 0xFF

/-- The code of a magnitude with its sign. -/
def Fmt.code (f : Fmt) (neg : Bool) (k : Nat) : Nat := if neg && f.signed then 2 ^ f.k + k else k

/-- A zero: signed in an IEEE format, 0x00 in binary8 (R104). -/
def Fmt.zero (f : Fmt) (neg : Bool) : Nat := if f.ieee then f.code neg 0 else 0

/-! ## Rounding (R103, R104) -/

/-- floor(log2 n) for n > 0. -/
def flog2 (n : Nat) : Nat := n.log2

/-- Round m × 2^e to a multiple of 2^q under a mode: the multiple, and whether it is exact. `p1` tells a format of
precision 1, whose ties go to the even exponent field; `ef` is the parity of the field of 2^q. -/
def roundAt (mode : RMode) (neg : Bool) (m : Nat) (e q : Int) (p1 : Bool) (ef : Bool) : Nat × Bool :=
  if q ≤ e then (m * 2 ^ (e - q).toNat, true)
  else
    let d := (q - e).toNat
    let n := m / 2 ^ d
    let r := m % 2 ^ d
    let half := 2 ^ (d - 1)
    let tieUp := if p1 && n = 1 then ef else n % 2 = 1
    let up := match mode with
      | .ne => decide (half < r) || (r == half && tieUp)
      | .tz => false
      | .dn => neg && r != 0
      | .up => !neg && r != 0
    (if up then n + 1 else n, r == 0)

/-- The magnitude code of n × 2^q, where n is at most 2^(t+1) (R98). The code grows without bound. -/
def Fmt.toK (f : Fmt) (n : Nat) (q : Int) : Nat :=
  let (n, q) := if n = 2 ^ (f.t + 1) then (2 ^ f.t, q + 1) else (n, q)
  if n < 2 ^ f.t then n else ((q - f.qmin).toNat + 1) * 2 ^ f.t + (n - 2 ^ f.t)

/-- R97, R103, R104: round the nonzero number (−1)^neg × m × 2^e into a format: the code and the flags raised. -/
def Fmt.round (f : Fmt) (mode : RMode) (sat : Bool) (neg : Bool) (m : Nat) (e : Int) : Nat × BitVec 6 :=
  let top := e + (flog2 m : Nat)
  let qn := top - f.t
  let q := if qn < f.qmin then f.qmin else qn
  let ef := decide ((q - f.qmin + 1) % 2 = 1)
  let (n, exact) := roundAt mode neg m e q (f.t == 0) ef
  let k := f.toK n q
  let (n', _) := roundAt mode neg m e qn (f.t == 0) (decide ((qn - f.qmin + 1) % 2 = 1))
  let tiny := decide (qn + (flog2 (max n' 1) : Nat) < f.qmin + f.t)
  let nx : BitVec 6 := if exact then 0 else fNX
  if f.maxK < k then
    if neg && !f.signed then (if sat then (0, fSAT) else (f.nan, fIV))
    else if sat then (f.code neg f.maxK, fSAT ||| fNX)
    else match f.infK with
      | some i =>
        let toInf := match mode with | .ne => true | .tz => false | .dn => neg | .up => !neg
        (f.code neg (if toInf then i else f.maxK), fOF ||| fNX)
      | none => (f.nan, fOF ||| fNX)
  else if k = 0 then (f.zero neg, nx ||| (if !exact then fUF else 0))
  else if neg && !f.signed then (if sat then (0, fSAT) else (f.nan, fIV))
  else (f.code neg k, nx ||| (if tiny && !exact then fUF else 0))

/-- R104: a value into a format. -/
def Fmt.ofFp (f : Fmt) (mode : RMode) (sat : Bool) (x : Fp) : Nat × BitVec 6 :=
  match x with
  | .zero neg => (f.zero neg, 0)
  | .fin m e => f.round mode sat (decide (m < 0)) m.natAbs e
  | .inf neg =>
    if neg && !f.signed then (if sat then (0, fSAT) else (f.nan, fIV))
    else match f.infK with
      | some i => (f.code neg i, 0)
      | none => if sat then (f.code neg f.maxK, fSAT) else (f.nan, fIV)
  | .nan sig => (f.nan, if sig then fIV else 0)

/-- m × 2^e rounded to an integer, and whether it is exact. -/
def roundInt (mode : RMode) (m : Int) (e : Int) : Int × Bool :=
  let (n, ex) := roundAt mode (decide (m < 0)) m.natAbs e 0 false false
  (if m < 0 then -(n : Int) else n, ex)

/-- R104: a floating value into an integer type, with its flags. -/
def intOfFp (t : Ty) (mode : RMode) (x : Fp) : Int × BitVec 6 :=
  match x with
  | .zero _ => (0, 0)
  | .nan _ => (0, fIV)
  | .inf neg => (if neg then intLo t else intHi t, fIV ||| fSAT)
  | .fin m e =>
    let (n, ex) := roundInt mode m e
    if n < intLo t then (intLo t, fIV ||| fSAT)
    else if intHi t < n then (intHi t, fIV ||| fSAT)
    else (n, if ex then 0 else fNX)

/-! ## Arithmetic (R136, R137) -/

def Fp.isSnan : Fp → Bool
  | .nan s => s
  | _ => false
def Fp.isNan : Fp → Bool
  | .nan _ => true
  | _ => false
def Fp.neg : Fp → Bool
  | .zero n | .inf n => n
  | .fin m _ => decide (m < 0)
  | .nan _ => false

/-- An integer as an exact value. -/
def Fp.ofInt (x : Int) : Fp := if x = 0 then .zero false else .fin x 0

/-- The value with its sign changed. -/
def Fp.negate : Fp → Fp
  | .zero n => .zero (!n)
  | .inf n => .inf (!n)
  | .fin m e => .fin (-m) e
  | .nan s => .nan s

/-- R96: the flags and NaN of operands that hold a NaN. -/
def nanFlags (xs : List Fp) : BitVec 6 := if xs.any Fp.isSnan then fIV else 0

/-- R136: the exact sum. -/
def Fp.add (mode : RMode) (x y : Fp) : Fp × BitVec 6 :=
  if x.isNan || y.isNan then (.nan false, nanFlags [x, y])
  else match x, y with
  | .inf a, .inf b => if a = b then (.inf a, 0) else (.nan false, fIV)
  | .inf a, _ => (.inf a, 0)
  | _, .inf b => (.inf b, 0)
  | .zero a, .zero b => (.zero (if a = b then a else mode == .dn), 0)
  | .zero _, y => (y, 0)
  | x, .zero _ => (x, 0)
  | .fin m e, .fin n d =>
    let q := min e d
    let s := m * 2 ^ (e - q).toNat + n * 2 ^ (d - q).toNat
    if s = 0 then (.zero (mode == .dn), 0) else (.fin s q, 0)
  | _, _ => (.nan false, 0)

/-- R136: the exact product. -/
def Fp.mul (x y : Fp) : Fp × BitVec 6 :=
  if x.isNan || y.isNan then (.nan false, nanFlags [x, y])
  else
    let neg := x.neg != y.neg
    match x, y with
    | .inf _, .zero _ | .zero _, .inf _ => (.nan false, fIV)
    | .inf _, _ | _, .inf _ => (.inf neg, 0)
    | .zero _, _ | _, .zero _ => (.zero neg, 0)
    | .fin m e, .fin n d => (.fin (m * n) (e + d), 0)
    | _, _ => (.nan false, 0)

/-- Round an exact result into a format, with the flags raised so far. -/
def finish (f : Fmt) (mode : RMode) (sat : Bool) (r : Fp × BitVec 6) : Nat × BitVec 6 :=
  let (c, fl) := f.ofFp mode sat r.1
  (c, fl ||| r.2)

/-- R136: FADD, FSUB, FMUL, FFMA on codes. -/
def fadd (f : Fmt) (mode : RMode) (sat : Bool) (a b : Nat) : Nat × BitVec 6 :=
  finish f mode sat (Fp.add mode (f.decode a) (f.decode b))
def fsub (f : Fmt) (mode : RMode) (sat : Bool) (a b : Nat) : Nat × BitVec 6 :=
  finish f mode sat (Fp.add mode (f.decode a) (f.decode b).negate)
def fmul (f : Fmt) (mode : RMode) (sat : Bool) (a b : Nat) : Nat × BitVec 6 :=
  finish f mode sat (Fp.mul (f.decode a) (f.decode b))
def ffma (f : Fmt) (mode : RMode) (sat : Bool) (a b c : Nat) : Nat × BitVec 6 :=
  let x := f.decode a
  let y := f.decode b
  let z := f.decode c
  let (p, fl) := Fp.mul x y
  if p.isNan && !x.isNan && !y.isNan then (f.nan, fIV)
  else if p.isNan || z.isNan then (f.nan, nanFlags [x, y, z])
  else
    let (r, fl2) := Fp.add mode p z
    finish f mode sat (r, fl ||| fl2)

/-- Comparison of two values that are not NaN; −0 equals +0 (R138). -/
def Fp.lt (x y : Fp) : Bool :=
  match x, y with
  | .inf a, .inf b => a && !b
  | .inf a, _ => a
  | _, .inf b => !b
  | .zero _, .zero _ => false
  | .zero _, .fin n _ => decide (0 < n)
  | .fin m _, .zero _ => decide (m < 0)
  | .fin m e, .fin n d =>
    let q := min e d
    decide (m * 2 ^ (e - q).toNat < n * 2 ^ (d - q).toNat)
  | _, _ => false

def Fp.eq (x y : Fp) : Bool := !x.isNan && !y.isNan && !Fp.lt x y && !Fp.lt y x

/-- R137: FMIN (`mx` false) and FMAX. −0 counts as less than +0. -/
def fminmax (f : Fmt) (mx : Bool) (a b : Nat) : Nat × BitVec 6 :=
  let x := f.decode a
  let y := f.decode b
  if x.isSnan || y.isSnan then (f.nan, fIV)
  else if x.isNan && y.isNan then (f.nan, 0)
  else if x.isNan then (b, 0)
  else if y.isNan then (a, 0)
  else
    let less := Fp.lt x y || (Fp.eq x y && x.neg && !y.neg)
    (if less != mx then a else b, 0)

/-- R138: the relation of FCMP, with its flags. -/
def fcmp (f : Fmt) (rel : Nat) (a b : Nat) : Bool × BitVec 6 :=
  let x := f.decode a
  let y := f.decode b
  let un := x.isNan || y.isNan
  let iv := x.isSnan || y.isSnan || (un && decide (2 ≤ rel ∧ rel ≤ 5))
  let r := match rel with
    | 0 => Fp.eq x y
    | 1 => !Fp.eq x y
    | 2 => !un && Fp.lt x y
    | 3 => !un && !Fp.lt y x
    | 4 => !un && Fp.lt y x
    | 5 => !un && !Fp.lt x y
    | 6 => un
    | _ => !un
  (r, if iv then fIV else 0)

/-- R139: the class mask. -/
def fclass (f : Fmt) (a : Nat) : Nat :=
  let sub := decide (a % 2 ^ f.k / 2 ^ f.t = 0)
  match f.decode a with
  | .inf n => if n then 1 else 128
  | .zero n => if n then 8 else 16
  | .nan s => if s then 256 else 512
  | .fin m _ => if m < 0 then (if sub then 4 else 2) else (if sub then 32 else 64)

/-! ## Special functions (R140) -/

/-- An irrational result held in `m` fixed-point units of 2^e: a sticky bit keeps it off every rounding boundary. -/
def sticky (m : Nat) (e : Int) : Nat × Int := (2 * m + 1, e - 1)

/-- The largest r with r × r ≤ n, by Newton's method from above, with fuel. -/
def isqrtGo (fuel n r : Nat) : Nat :=
  match fuel with
  | 0 => r
  | k + 1 => let r' := (r + n / r) / 2; if r' < r then isqrtGo k n r' else r
def isqrt (n : Nat) : Nat := if n = 0 then 0 else isqrtGo (n.log2 + 2) n (2 ^ (n.log2 / 2 + 1))

/-- floor(π × 2^256) and floor(ln 2 × 2^256). -/
def piFix : Nat := 0x3243f6a8885a308d313198a2e03707344a4093822299f31d0082efa98ec4e6c89
def ln2Fix : Nat := 0xb17217f7d1cf79abc9e3b39803f2f6af40f343267298b62d8a0d175b8baafa2b

/-- Taylor terms of exp: term and sum in units of 2^-256. -/
def expGo (fuel i y term sum : Nat) : Nat :=
  match fuel with
  | 0 => sum
  | k + 1 => let t := term * y / 2 ^ 256 / i; if t = 0 then sum else expGo k (i + 1) y t (sum + t)

/-- 2^(f / 2^256) × 2^256 for 0 ≤ f < 2^256. -/
def exp2Fix (f : Nat) : Nat := expGo 100 1 (f * ln2Fix / 2 ^ 256) (2 ^ 256) (2 ^ 256)

/-- Terms of the series of atanh: z^(2i+1) / (2i+1), in units of 2^-256. -/
def atanhGo (fuel i z2 pow sum : Nat) : Nat :=
  match fuel with
  | 0 => sum
  | k + 1 => if pow = 0 then sum else atanhGo k (i + 2) z2 (pow * z2 / 2 ^ 256) (sum + pow / i)

/-- ln(m / 2^256) × 2^256 for 2^256 ≤ m < 2^257. -/
def lnFix (m : Nat) : Nat :=
  let z := (m - 2 ^ 256) * 2 ^ 256 / (m + 2 ^ 256)
  2 * atanhGo 200 1 (z * z / 2 ^ 256) z 0

/-- Alternating series of sin(y) for y in units of 2^-256. -/
def sinGo (fuel i y2 term : Nat) (sum : Int) (neg : Bool) : Int :=
  match fuel with
  | 0 => sum
  | k + 1 =>
    let t := term * y2 / 2 ^ 256 / (i * (i + 1))
    if t = 0 then sum else sinGo k (i + 2) y2 t (if neg then sum - t else sum + t) (!neg)

/-- sin(π x) × 2^256 for x in units of 2^-256, 0 ≤ x ≤ 1/2. -/
def sinPiFix (x : Nat) : Nat :=
  let y := x * piFix / 2 ^ 256
  (sinGo 100 2 (y * y / 2 ^ 256) y y true).toNat

def f32 : Fmt := fmtOf .f32

/-- R140: 1/x. -/
def frcp (a : Nat) : Nat × BitVec 6 :=
  match f32.decode a with
  | .nan s => (f32.nan, if s then fIV else 0)
  | .zero n => (f32.code n 0x7F800000, fDZ)
  | .inf n => (f32.zero n, 0)
  | .fin m e =>
    let d := m.natAbs
    let q := 2 ^ 128 / d
    let r := 2 ^ 128 % d
    f32.round .ne false (decide (m < 0)) (2 * q + (if r = 0 then 0 else 1)) (-129 - e)

/-- R140: 1/√x. -/
def frsq (a : Nat) : Nat × BitVec 6 :=
  match f32.decode a with
  | .nan s => (f32.nan, if s then fIV else 0)
  | .zero n => (f32.code n 0x7F800000, fDZ)
  | .inf n => if n then (f32.nan, fIV) else (0, 0)
  | .fin m e =>
    if m < 0 then (f32.nan, fIV)
    else
      let (d, e) := if e % 2 = 0 then (m.natAbs, e) else (2 * m.natAbs, e - 1)
      let q := isqrt (2 ^ 256 / d)
      f32.round .ne false false (2 * q + (if q * q * d = 2 ^ 256 then 0 else 1)) (-129 - e / 2)

/-- The value m × 2^e in units of 2^-256, rounded down; exact for every .f32 value. -/
def fix256 (m : Int) (e : Int) : Int := m * 2 ^ (e + 256).toNat

/-- R140: 2^x. -/
def fexp2 (a : Nat) : Nat × BitVec 6 :=
  match f32.decode a with
  | .nan s => (f32.nan, if s then fIV else 0)
  | .zero _ => (0x3F800000, 0)
  | .inf n => (if n then 0 else 0x7F800000, 0)
  | .fin m e =>
    let x := fix256 m e
    if 2 ^ 268 ≤ x then f32.round .ne false false 1 4096
    else if x ≤ -(2 ^ 268) then f32.round .ne false false 1 (-4096)
    else
      let n := x / 2 ^ 256
      let f := (x % 2 ^ 256).toNat
      if f = 0 then f32.round .ne false false 1 n
      else let (s, q) := sticky (exp2Fix f) (n - 256); f32.round .ne false false s q

/-- R140: log2 x. -/
def flog2Code (a : Nat) : Nat × BitVec 6 :=
  match f32.decode a with
  | .nan s => (f32.nan, if s then fIV else 0)
  | .zero _ => (f32.code true 0x7F800000, fDZ)
  | .inf n => if n then (f32.nan, fIV) else (0x7F800000, 0)
  | .fin m e =>
    if m < 0 then (f32.nan, fIV)
    else
      let k : Int := e + (flog2 m.natAbs : Nat)
      let frac := m.natAbs * 2 ^ (256 - flog2 m.natAbs)
      if frac = 2 ^ 256 then f32.ofFp .ne false (Fp.ofInt k)
      else
        let y : Int := k * 2 ^ 256 + (lnFix frac * 2 ^ 256 / ln2Fix : Nat)
        let neg := decide (y < 0)
        let (s, q) := sticky (if neg then (-y).toNat - 1 else y.toNat) (-256)
        f32.round .ne false neg s q

/-- sin(π x) for x in units of 2^-256, 0 ≤ x < 2: a code; the zeros and ±1 are exact. `zneg` is the sign of a zero. -/
def sinPiCode (x : Nat) (neg zneg : Bool) : Nat × BitVec 6 :=
  let one := 2 ^ 256
  let neg := if one ≤ x then !neg else neg
  let y := x % one
  let y := if one / 2 < y then one - y else y
  if y = 0 then (f32.zero zneg, 0)
  else if y = one / 2 then (f32.code neg 0x3F800000, 0)
  else let (s, q) := sticky (sinPiFix y) (-256); f32.round .ne false neg s q

/-- R140: sin(π x). An integer gives a zero of the operand's sign. -/
def fsin (a : Nat) : Nat × BitVec 6 :=
  match f32.decode a with
  | .nan s => (f32.nan, if s then fIV else 0)
  | .inf _ => (f32.nan, fIV)
  | .zero n => (f32.zero n, 0)
  | .fin m e => sinPiCode ((fix256 m.natAbs e) % 2 ^ 257).toNat (decide (m < 0)) (decide (m < 0))

/-- R140: cos(π x). A half-integer gives +0. -/
def fcos (a : Nat) : Nat × BitVec 6 :=
  match f32.decode a with
  | .nan s => (f32.nan, if s then fIV else 0)
  | .inf _ => (f32.nan, fIV)
  | .zero _ => (0x3F800000, 0)
  | .fin m e => sinPiCode ((fix256 m.natAbs e + 2 ^ 255) % 2 ^ 257).toNat false false

/-! ## Conversion (R141, R142) -/

/-- The bits of a type's width. -/
def lowBits (t : Ty) (w : Nat) : Nat := w % 2 ^ t.bits

/-- The value that the low bits of a register hold as a type. -/
def valueOf (t : Ty) (w : Nat) : Fp :=
  if t.isFloat then (fmtOf t).decode (lowBits t w) else Fp.ofInt (intRead t w)

/-- R121, R92: a code of a type in a register: floating codes zero-extended, integers extended by sign. -/
def regOf (t : Ty) (code : Nat) : Dword :=
  if t.isFloat then BitVec.ofNat 64 code else intReg (intRead t code)

/-- R104, R141: a value into a type: the code and the flags. -/
def intoTy (t : Ty) (mode : RMode) (sat : Bool) (x : Fp) : Nat × BitVec 6 :=
  if t.isFloat then (fmtOf t).ofFp mode sat x
  else let (n, fl) := intOfFp t mode x; (intBits t n, fl)

/-- R141: CVT of a register value. -/
def cvt (dst src : Ty) (mode : RMode) (sat : Bool) (w : Nat) : Dword × BitVec 6 :=
  if !dst.isFloat && !src.isFloat then
    let (x, st) := intFit dst sat (intRead src w)
    (intReg x, if st then fSAT else 0)
  else
    let (c, fl) := intoTy dst mode sat (valueOf src w)
    (regOf dst c, fl)

/-- R106, R107: log2 u of a format; 0 for the integers. -/
def log2u (t : Ty) : Int := if t.isB8 then (fmtOf t).qmin else 0

/-- R106: L(q) of a finite code. -/
def laneVal (t : Ty) (code : Nat) : Int :=
  if t.isB8 then
    match (fmtOf t).decode code with
    | .fin m e => m * 2 ^ (e - (fmtOf t).qmin).toNat
    | _ => 0
  else intRead t code

/-- R105: ZP as a signed number, and SE. -/
def pairZp (p : Nat) : Int := (BitVec.ofNat 8 p).toInt
def pairSe (p : Nat) : Nat := p / 256 % 256

/-- R142: CVTS of a register value under the pair `p`. -/
def cvts (dst src : Ty) (mode : RMode) (sat : Bool) (w p : Nat) : Dword × BitVec 6 :=
  let se := pairSe p
  let zp := pairZp p
  let deq := dst.isIeee && (!src.isIeee)
  let bad := se == 0xFF || (zp != 0 && (dst.isB8 || src.isB8))
  if bad then (if deq then regOf dst (fmtOf dst).nan else 0, fIV)
  else if deq then
    let v : Fp := match valueOf src w with
      | .nan _ => .nan false
      | .inf n => .inf n
      | _ => match laneVal src (lowBits src w) - zp with
        | 0 => .zero false
        | d => .fin d ((se : Int) - 127 + log2u src)
    let (c, fl) := intoTy dst mode sat v
    (regOf dst c, fl)
  else
    let v : Fp := match valueOf src w with
      | .nan s => .nan s
      | .inf n => .inf n
      | x =>
        let d : Fp := match x with | .fin m e => .fin m (e + 127 - (se : Int)) | z => z
        if zp = 0 then d else (Fp.add .ne d (Fp.ofInt zp)).1
    let (c, fl) := intoTy dst mode sat v
    (regOf dst c, fl)

end Sys2Proof.Machine
end

