-- ==== Sys2Proof/Machine/Operands.lean ====
section
/-! DEFINITION. Operands: which lanes act (R62, R120), what a source operand reads (R60, R61, R121), how a result is written
(R25 to R28, R121), and the address forms of the memory instructions (R180, R181, R189). -/

namespace Sys2Proof

/-- The header of a form (R57). -/
def Form.hdr : Form → Hdr
  | .t3 f => f.hd | .i32 f => f.hd | .l f => f.hd | .m f => f.hd | .mt f => f.hd | .e f => f.hd | .pair f => f.hd

/-- The header of a program instruction. -/
def Instr.hdr (i : Instr) : Hdr :=
  match i.form with
  | some (_, f) => f.hdr
  | none => { neg := false, gi := 7, la := 0, y := false }

namespace Machine

namespace Strand

/-- R62: lane `l` passes the guard. -/
def laneGuard (x : Strand) (hd : Hdr) (l : Nat) : Bool := x.pbit l hd.gi.toNat != hd.neg

/-- R62: the strand passes the guard. -/
def condGuard (x : Strand) (hd : Hdr) : Bool := x.creg hd.gi.toNat != hd.neg

/-- R120: the acting lanes, ascending. -/
def acting (x : Strand) (hd : Hdr) : List Nat := x.activeLanes.filter (x.laneGuard hd)

/-- R62: the instruction has an effect. -/
def passes (x : Strand) (i : Instr) : Bool :=
  if i.isLane then !(x.acting i.hdr).isEmpty else x.condGuard i.hdr

/-- R145: lane `j` of the strand is live. -/
def isLive (x : Strand) (j : Nat) : Bool := decide (j < x.nlanes) && Mask.bit x.live j

end Strand

/-! ## Sources -/

/-- R60, R61: what operand `o` reads in lane `l`, in `n` registers of 32 bits; a vector pair when `n` is 2. -/
def laneOp (s : State) (r : Ref) (x : Strand) (n : Nat) (l : Nat) (o : Opnd) : Nat :=
  match o with
  | .v k => if n = 2 then (x.vpair l k.toNat).toNat else (x.vreg l k.toNat).toNat
  | .s k => (x.sreg k.toNat).toNat % 2 ^ (32 * n)
  | .spr k => (sprRead s r x l k.toNat).toNat % 2 ^ (32 * n)
  | .p k => (x.pbit l k.toNat).toNat
  | .c k => (x.creg k.toNat).toNat
  | .imm k => (k.signExtend (32 * n)).toNat
  | .k _ | .h _ => 0

/-- R60, R61: what operand `o` reads in a strand-uniform instruction, as 64 bits. -/
def uniOp (s : State) (r : Ref) (x : Strand) (o : Opnd) : Nat :=
  match o with
  | .s k => (x.sreg k.toNat).toNat
  | .spr k => (sprRead s r x 0 k.toNat).toNat
  | .c k => (x.creg k.toNat).toNat
  | .imm k => (k.signExtend 64).toNat
  | .v _ | .p _ | .k _ | .h _ => 0

/-- R28, R130: a mask source: a k register, AMASK or LMASK. -/
def maskOp (x : Strand) (o : Opnd) : Mask :=
  match o with
  | .k k => x.kreg k.toNat
  | .spr k => if k.toNat = 0x24 then x.active else x.live
  | _ => 0

/-! ## Destinations -/

/-- Write a lane's result: a register, a pair when `n` is 2, or a predicate. -/
def writeLane (n : Nat) (d : Opnd) (l : Nat) (w : Dword) (x : Strand) : Strand :=
  match d with
  | .v k => if n = 2 then x.setPair l k.toNat w else x.setV l k.toNat (w.setWidth 32)
  | .p k => x.setPbit l k.toNat (w != 0)
  | _ => x

/-- Write a strand-uniform result: a scalar register or a condition. -/
def writeUni (d : Opnd) (w : Dword) (x : Strand) : Strand :=
  match d with
  | .s k => x.setS k.toNat w
  | .c k => x.setC k.toNat (w != 0)
  | _ => x

/-- The lanes' results written one after the other, with their flags. `f` reads the strand as it was before. -/
def perLane (x : Strand) (lanes : List Nat) (n : Nat) (d : Opnd) (f : Nat → Dword × BitVec 6) : Strand × BitVec 6 :=
  lanes.foldl (fun acc l => (writeLane n d l (f l).1 acc.1, acc.2 ||| (f l).2)) (x, 0)

/-- R66: the registers of a result, as the writes a long-latency instruction owes. -/
def laneWrites (n : Nat) (d : Opnd) (l : Nat) (w : Dword) : List RegW :=
  match d with
  | .v k =>
    if n = 2 then [.v l k.toNat (w.extractLsb' 0 32), .v l (k.toNat + 1) (w.extractLsb' 32 32)]
    else [.v l k.toNat (w.setWidth 32)]
  | .p k => [.p l k.toNat (w != 0)]
  | _ => []

/-- R66: perform one owed write. -/
def RegW.apply (w : RegW) (x : Strand) : Strand :=
  match w with
  | .v l r y => x.setV l r y
  | .s r y => x.setS r y
  | .p l r y => x.setPbit l r y
  | .h r y => x.setH r y

/-- What operands read in lane `l`, given how many registers each takes. -/
abbrev Reader := Nat → Opnd → Nat

/-- R60, R61: the reader of a lane. -/
def laneReader (s : State) (r : Ref) (x : Strand) (l : Nat) : Reader := fun n o => laneOp s r x n l o

/-- R60, R61: the reader of a strand-uniform instruction, in `n` words of 32 bits. -/
def uniReader (s : State) (r : Ref) (x : Strand) : Reader := fun n o => uniOp s r x o % 2 ^ (32 * n)

/-- An instruction whose kind is set by its destination (R61): `f` computes the result from the values of its
operands; a lane form acts in each acting lane, a strand-uniform form once. `n` is the number of registers of the
result. -/
def byKind (s : State) (r : Ref) (x : Strand) (lane : Bool) (hd : Hdr) (n : Nat) (d : Opnd)
    (f : Reader → Dword × BitVec 6) : Strand × BitVec 6 :=
  if lane then perLane x (x.acting hd) n d fun l => f (laneReader s r x l)
  else (writeUni d (f (uniReader s r x)).1 x, (f (uniReader s r x)).2)

/-! ## Immediates -/

/-- R122: an I32 immediate: sign-extended, except under an unsigned type. -/
def immI32 (t : Ty) (imm : BitVec 32) : Nat :=
  if t.isUnsigned then imm.toNat else (imm.signExtend 64).toNat

/-! ## Addresses -/

/-- R180: base, index and offset of a flat access, modulo 2^64. -/
def flatSum (base : Nat) (idx : Option Nat) (imm : BitVec 24) : Nat :=
  let i : Int := match idx with | some k => (BitVec.ofNat 32 k).toInt | none => 0
  (((base : Int) + i + imm.toInt) % (2 ^ 64 : Nat)).toNat

/-- R180: the flat address of a lane. -/
def flatEa (s : State) (r : Ref) (x : Strand) (f : MForm) (l : Nat) : Nat :=
  flatSum (laneOp s r x 2 l f.a) (if f.ix then some (laneOp s r x 1 l f.b) else none) f.imm

/-- R180: the flat address of a strand-uniform form. -/
def flatEaU (s : State) (r : Ref) (x : Strand) (f : MForm) : Nat :=
  flatSum (uniOp s r x f.a) (if f.ix then some (uniOp s r x f.b) else none) f.imm

/-- R181: the scratchpad address of a lane. -/
def localEa (s : State) (r : Ref) (x : Strand) (f : MForm) (l : Nat) : Nat :=
  let i : Nat := if f.ix then laneOp s r x 1 l f.b else 0
  (((laneOp s r x 1 l f.a : Int) + i + f.imm.toInt) % (2 ^ 32 : Nat)).toNat

/-- R181: the scratchpad address of a strand-uniform ATOM. -/
def localEaU (s : State) (r : Ref) (x : Strand) (f : MForm) : Nat :=
  let i : Nat := if f.ix then uniOp s r x f.b % 2 ^ 32 else 0
  (((uniOp s r x f.a % 2 ^ 32 : Nat) + i + f.imm.toInt) % (2 ^ 32 : Nat) : Int).toNat

/-- R73: the size in bytes that SZ names. -/
def szBytes (sz : BitVec 3) : Nat := 2 ^ sz.toNat

/-- R180: the virtual address is canonical: bits 63 to 57 equal bit 56. -/
def vaOk (ea : Nat) : Bool := decide (ea < 2 ^ 56) || decide (2 ^ 64 - 2 ^ 56 ≤ ea)

/-- R74, R189: the coordinate operands, coordinates 4 to 6 from the registers that follow K3. -/
def MTForm.coords (f : MTForm) : List Opnd :=
  let after (j : Nat) : Opnd :=
    match f.k3 with
    | .v r => .v (BitVec.ofNat 8 (r.toNat + j))
    | .s r => .s (BitVec.ofNat 6 (r.toNat + j))
    | o => o
  ([f.b, f.k1, f.k2, f.k3, after 1, after 2, after 3]).take f.nc.toNat

/-- R189: a lane's coordinates, read as signed 32-bit integers. -/
def coordsOf (s : State) (r : Ref) (x : Strand) (f : MTForm) (l : Nat) : List Int :=
  (MTForm.coords f).map fun o => (BitVec.ofNat 32 (laneOp s r x 1 l o)).toInt

end Machine
end Sys2Proof
end

