-- ==== Sys2Proof/Machine/Flags.lean ====
section
/-! DEFINITION. The floating-point status register (R34): accumulating flags and the conditions that trap. -/

namespace Sys2Proof.Machine

/-- R34: set sticky flags. -/
def addFlags (fl : BitVec 6) (x : Strand) : Strand := { x with fpsr := x.fpsr ||| fl.setWidth 32 }

/-- R34: the raised conditions among FPSR[4:0]. -/
def conditions (fl : BitVec 6) : BitVec 5 := fl.extractLsb' 0 5

/-- R34: a raised condition's enable bit is set. -/
def fpTraps (x : Strand) (fl : BitVec 6) : Bool := (conditions fl &&& x.fpsr.extractLsb' 16 5) != 0

/-- R34, R370: TINFO of an FP_TRAP raised at `pc`. -/
def fpInfo (pc : Nat) (fl : BitVec 6) : Dword := BitVec.ofNat 64 (pc * 2 ^ 32 + (conditions fl).toNat)

/-- R34, R370: a deferred or immediate FP_TRAP of flags raised at `pc`, when one is due. -/
def fpDue (x : Strand) (pc : Nat) (fl : BitVec 6) : Option (Cause × Dword) :=
  if fpTraps x fl then some (.fpTrap, fpInfo pc fl) else none

end Sys2Proof.Machine
end

