-- ==== Sys2Proof/Machine/Timing.lean ====
section
/-! DEFINITION. What the issue slots need to know of an instruction: long latency (R64), the cycles it holds the slot and
its result latency (R143, R158, R187, R210, R271, R355), its energy class and cost (R358), and the registers it reads
and writes, for the interlocks of R64, R66 and R355. -/

namespace Sys2Proof.Machine

/-- R64: the long-latency instructions. -/
def Instr.isLong : Instr → Bool
  | .ld _ | .lds _ | .ldt _ | .hld _ => true
  | .atom f => !f.opx.getLsbD 2
  | .frcp _ | .frsq _ | .fexp2 _ | .flog2 _ | .fsin _ | .fcos _ => true
  | .matchLanes _ | .redux _ | .scan _ | .topk _ | .qpop _ => true
  | .mov f => f.a.isQp
  | _ => false

/-- R143, R158, R210, R271: cycles per nonempty group, and latency: for an access to memory the least, that of an L1 hit, or of the
scratchpad. -/
def Instr.cycles (i : Instr) : Nat × Nat :=
  let mulC (t : Ty) : Nat × Nat := if t.bits = 64 then (2, 8) else (1, 6)
  let fpC (t u : Ty) : Nat × Nat := if t == .f64 || u == .f64 then (2, 8) else (1, 6)
  let redC (t : Ty) : Nat × Nat := if t.bits = 64 then (4, 28) else (2, 24)
  match i with
  | .mul f | .mulh f | .mad f => mulC f.ty
  | .mulI32 f => mulC f.ty
  | .maddm _ | .msubm _ | .mmulm _ | .mmacm _ | .mred _ => (1, 6)
  | .rspl _ => (2, 8)
  | .rmrc _ => (2, 10)
  | .fadd f | .fsub f | .fmul f | .ffma f | .fmin f | .fmax f | .fcmp f | .fclass f => fpC f.ty f.ty
  | .cvt f | .cvts f => fpC f.ty (f.srcTy.getD .none)
  | .frcp _ | .frsq _ | .fexp2 _ | .flog2 _ | .fsin _ | .fcos _ => (1, 20)
  | .pair _ => (1, 6)
  | .shfl _ | .bcast _ | .vget _ | .vset _ => (1, 6)
  | .perm _ => (1, 8)
  | .matchLanes _ => (2, 24)
  | .redux f | .scan f => redC f.ty
  | .topk _ => (4, 32)
  | .tstat _ => (1, 8)
  | .cancel _ => (1, 8)
  | .csrr _ | .csrw _ | .rcrClear _ | .chselWrite _ | .invcmdWrite _ | .ringTailWrite _ | .persistentMarkSet _ =>
    (1, 12)
  | .basinstWrite _ => (1, 40)
  | .lds _ | .qpop _ => (1, 24)
  | .ld _ | .ldt _ | .hld _ => (1, 48)
  | .atom f => (1, if f.opx.getLsbD 1 then 24 else 48)
  | .mov f => (1, if f.a.isQp then 24 else 4)
  | _ => (1, 4)

/-- R160: the lane control instructions hold the slot once. -/
def Instr.isLaneControl : Instr → Bool
  | .exit _ | .braDiv _ | .brxDiv _ => true
  | _ => false

/-- The acting lanes of group `g`. -/
def groupActing (x : Strand) (hd : Hdr) (g : Nat) : List Nat := (x.acting hd).filter fun l => l / 32 == g

/-- R187: the ways of one group of an access of `size` bytes at the addresses of its acting lanes. -/
def waysOf (size : Nat) (eas : List Nat) : Nat :=
  let words := (eas.flatMap fun ea => (List.range (max 1 (size / 4))).map fun j => ea / 4 + j).eraseDups
  (List.range 32).foldl (fun m b => max m (words.filter fun w => w % 32 == b).length) 1

/-- R355: the groups a lane instruction sweeps. -/
def sweptGroups (x : Strand) : List Nat := (List.range x.ngrp).filter fun g => Mask.word x.active g != 0

/-- R158, R187, R355: cycles that each swept group holds the slot, in ascending group number. A PERM counts every source group that
its lanes name, one that holds no live lane or does not exist among them (assumption 105). -/
def groupCycles (s : State) (r : Ref) (x : Strand) (i : Instr) : List Nat :=
  (sweptGroups x).map fun g =>
    match i with
    | .lds f | .sts f => waysOf (szBytes f.sz) ((groupActing x f.hd g).map (localEa s r x f))
    | .atom f | .red f =>
      if f.opx.getLsbD 1 then waysOf (szBytes f.sz) ((groupActing x f.hd g).map (localEa s r x f)) else (Instr.cycles i).1
    | .perm f =>
      max 1 (((groupActing x f.hd g).map fun l => laneOp s r x 1 l f.b / 32).eraseDups).length
    | _ => (Instr.cycles i).1

/-- R187, R191: the instruction accesses the scratchpad. -/
def Instr.isScratch : Instr → Bool
  | .lds _ | .sts _ => true
  | .atom f | .red f => f.opx.getLsbD 1
  | _ => false

/-- R355: the cycles an instruction holds its issue slot, at least one. -/
def heldCycles (s : State) (r : Ref) (x : Strand) (i : Instr) : Nat :=
  if i.isLane && !Instr.isLaneControl i then max 1 (groupCycles s r x i).sum
  else match i with
    | .qpush _ | .qpop _ => max 1 (sweptGroups x).length
    | _ => 1

/-- R187, R355: cycles from the issue to the return of the result: from the first cycle of the last pass, and for a scratchpad
load `ways` - 1 more. -/
def resultDelay (s : State) (r : Ref) (x : Strand) (i : Instr) : Nat :=
  if i.isLane then
    let cs := groupCycles s r x i
    cs.dropLast.sum + (Instr.cycles i).2 + (if Instr.isScratch i then cs.getLastD 1 - 1 else 0)
  else (Instr.cycles i).2

/-! ## Energy (R358) -/

/-- R358: the energy classes. -/
inductive EClass where
  | e0 | e1 | e2 | e3 | e4
  deriving DecidableEq, Repr

/-- R358: the class of an instruction. -/
def energyClass (i : Instr) : EClass :=
  if !i.isLane || Instr.isLaneControl i then .e0
  else match i with
    | .mul f | .mulh f | .mad f => if f.ty.bits = 64 then .e3 else .e2
    | .mulI32 f => if f.ty.bits = 64 then .e3 else .e2
    | .maddm _ | .msubm _ | .mmulm _ | .mmacm _ | .mred _ | .pair _ => .e2
    | .rspl _ | .rmrc _ => .e3
    | .fadd f | .fsub f | .fmul f | .ffma f | .fmin f | .fmax f | .fcmp f | .fclass f =>
      if f.ty == .f64 then .e3 else .e2
    | .cvt _ | .cvts _ => .e2
    | .frcp _ | .frsq _ | .fexp2 _ | .flog2 _ | .fsin _ | .fcos _ | .perm _ | .matchLanes _ | .redux _ | .scan _
    | .topk _ => .e3
    | .ld _ | .st _ | .lds _ | .sts _ | .ldt _ | .stt _ | .atom _ | .red _ | .pref _ => .e4
    | _ => .e1

/-- R358: the cost of an issue. -/
def energyCost (s : State) (r : Ref) (x : Strand) (i : Instr) : Nat :=
  let n := (sweptGroups x).length
  match energyClass i with
  | .e0 => 1
  | .e1 => 2 * n
  | .e2 => 4 * n
  | .e3 => 6 * n
  | .e4 =>
    3 * n + (if Instr.isScratch i then ((groupCycles s r x i).map fun w => w - 1).sum else 0)

/-- R358: the power allowance withholds an instruction of class `k` and cost `c`. -/
def powerWithheld (pa : Int) (k : EClass) (c : Nat) : Bool :=
  match k with
  | .e0 => false
  | .e3 => decide (pa < 1024) || decide (pa < c)
  | .e2 => decide (pa < 512) || decide (pa < c)
  | _ => decide (pa < c)

/-! ## Registers read and written (R64, R355) -/

/-- The registers an operand field names: a vector register with the extent that the entry gives it (R25). -/
def regsOf (i : Instr) (o : Opnd) : List Opnd :=
  match o with
  | .v r =>
    let n := i.vUses.foldl (fun m u => if u.1 == o then max m u.2.2 else m) 1
    (List.range n).map fun j => .v (BitVec.ofNat 8 (r.toNat + j))
  | .imm _ => []
  | o => [o]

/-- The operand fields, D, A, B and C in turn, that a T3 or I32 entry uses (R60). -/
def Instr.usedFields : Instr → Bool × Bool × Bool × Bool
  | .mad _ | .bfi _ | .sel _ | .maddm _ | .msubm _ | .mmulm _ | .mmacm _ | .ffma _ => (true, true, true, true)
  | .mred _ => (true, true, false, true)
  | .add _ | .sub _ | .mul _ | .mulh _ | .min _ | .max _ | .and _ | .or _ | .xor _ | .andn _ | .shl _ | .shr _ | .sar _
  | .bfx _ | .cmp _ | .lea _ | .fadd _ | .fsub _ | .fmul _ | .fmin _ | .fmax _ | .fcmp _ | .cvts _ | .shfl _ | .perm _
  | .topk _ | .vget _ | .vset _ | .hget _ | .prio _ => (true, true, true, false)
  | .bcast f => (true, true, !f.opx.getLsbD 0, false)
  | .bar _ | .bara _ | .waitc _ => (false, true, true, false)
  | .suspend f => (false, true, bitsOf f.opx 0 16 != 0, false)
  | .brx _ | .brxDiv _ | .ret _ | .syncg _ | .waitk _ | .einj _ | .loop _ => (false, true, false, false)
  | .csrw _ | .basinstWrite _ | .rcrClear _ | .chselWrite _ | .invcmdWrite _ | .ringTailWrite _
  | .persistentMarkSet _ => (false, true, false, false)
  | .movI32 _ | .movl _ | .call _ | .grow _ | .adopt _ | .clkr _ | .csrr _ => (true, false, false, false)
  | .bra _ | .braDiv _ | .trap _ | .lbrk _ | .rcv _ | .exit _ | .nop _ | .yield _ | .tret _ | .shrnk _ | .fence _
  | .ifence _ | .swap _ => (false, false, false, false)
  | _ => (true, true, false, false)

/-- The operands of a list whose fields are used. -/
def usedOnly (l : List (Bool × Opnd)) : List Opnd := (l.filter fun e => e.1).map fun e => e.2

/-- R228, R194: the registers of a parameter block of `k` registers from `sr`. -/
def blockRegs (sr k : Nat) : List Opnd := (List.range k).map fun j => .s (BitVec.ofNat 6 (sr + j))

/-- R228: the length of an engine instruction's parameter block. -/
def blockLen : Instr → Nat
  | .cpt _ => 7 | .cpg _ => 4 | .cvb _ => 3 | .mrl _ | .mrs _ => 3 | .mma _ | .mms _ => 4 | .mdr _ => 4
  | .coll _ => 4 | .relay _ => 5
  | _ => 2

/-- The destination fields and the source fields of a program instruction. -/
def Instr.fields (i : Instr) : List Opnd × List Opnd :=
  let u := Instr.usedFields i
  match i with
  | .st f | .sts f | .red f => ([], f.d :: f.a :: usedOnly [(f.ix, f.b)])
  | .stt f => ([], [f.d] ++ MTForm.coords f)
  | .ldt f => ([f.d], MTForm.coords f)
  | .atom f => ([f.d], f.d :: f.a :: usedOnly [(f.ix, f.b)])
  | .pref f => ([], f.a :: usedOnly [(f.ix, f.b)])
  | .cmp f => ([f.d], [f.a, f.b] ++ if bitsOf f.opx 4 2 = 0 then [] else [f.d])
  | .cmpI32 f => ([f.d], [f.a] ++ if bitsOf f.opx 4 2 = 0 then [] else [f.d])
  | .fcmp f => ([f.d], [f.a, f.b] ++ if bitsOf f.opx 4 2 = 0 then [] else [f.d])
  | .bfx f => ([f.d], f.a :: usedOnly [(!f.opx.getLsbD 23, f.b)])
  | .bfi f => ([f.d], f.a :: f.c :: usedOnly [(!f.opx.getLsbD 23, f.b)])
  | .mop f => ([f.d], [f.a, f.b] ++ (if f.pd then [f.c] else []) ++ blockRegs (bitsOf f.eng 17 6) 3)
  | .pair f =>
    let v (r : BitVec 7) : Opnd := .v (r.setWidth 8)
    ((if f.op0.isNop then [] else [v f.op0.d]) ++ (if f.op1.isNop then [] else [v f.op1.d]),
      (f.op0.srcs ++ f.op1.srcs).map v)
  | i =>
    match i.form with
    | some (_, .t3 f) => (usedOnly [(u.1, f.d)], usedOnly [(u.2.1, f.a), (u.2.2.1, f.b), (u.2.2.2, f.c)])
    | some (_, .i32 f) => (usedOnly [(u.1, f.d)], usedOnly [(u.2.1, f.a)])
    | some (_, .l f) => ([f.d], [])
    | some (_, .m f) => ([f.d], f.a :: usedOnly [(f.ix, f.b)])
    | some (_, .e f) => ([f.d], [f.a, f.b] ++ (if f.pd then [f.c] else []) ++ blockRegs f.sr (blockLen i))
    | _ => ([], [])

/-- The register that the guard reads (R62). -/
def guardReg (i : Instr) : Opnd := if i.isLane then .p i.hdr.gi else .c i.hdr.gi

/-- R271: the instruction writes a control register, whose new value is its result. -/
def Instr.writesCsr : Instr → Bool
  | .csrw _ | .basinstWrite _ | .rcrClear _ | .chselWrite _ | .invcmdWrite _ | .ringTailWrite _ | .persistentMarkSet _ => true
  | _ => false

/-- R271: the instruction uses a control register or the basis table. -/
def Instr.usesCsr (i : Instr) : Bool :=
  Instr.writesCsr i || match i with
    | .csrr _ | .maddm _ | .msubm _ | .mmulm _ | .mmacm _ | .mred _ | .rspl _ | .rmrc _ => true
    | .cpl _ | .cpt _ | .cpg _ | .cvb _ | .mzero _ | .mrl _ | .mma _ | .mms _ | .mdr _ | .mrs _ | .coll _ | .relay _
    | .mop _ => true
    | _ => false

/-- The control registers together, as an operand that no encoding names. -/
def csrOpnd : Opnd := .spr 0x7F

/-- The registers an instruction reads, with its guard. -/
def Instr.reads (i : Instr) : List Opnd :=
  guardReg i :: ((Instr.fields i).2.flatMap (regsOf i) ++ if Instr.usesCsr i then [csrOpnd] else [])

/-- R269: the second register of CLKR with T = 1. -/
def secondOf (f : T3) : List Opnd := match f.d with | .s k => if f.opx.getLsbD 0 then [.s (k + 1)] else [] | _ => []

/-- The registers an instruction writes, with the predicate of RMRC (R134) and the second register of CLKR (R269); p7 and c7 never change (R26, R27). -/
def Instr.writesTo (i : Instr) : List Opnd :=
  ((Instr.fields i).1.flatMap (regsOf i) ++ (match i with | .rmrc f => [.p (f.opx.extractLsb' 8 3)] | .clkr f => secondOf f | _ => []) ++
    if Instr.writesCsr i then [csrOpnd] else []).filter fun o =>
    o != .p 7 && o != .c 7

/-- R29, R197: the handle registers an instruction names. -/
def Instr.handles (i : Instr) : List Nat :=
  ((Instr.fields i).1 ++ (Instr.fields i).2 ++ (match i with | .ldt f | .stt f => [f.a] | _ => [])).filterMap fun o =>
    match o with | .h k => some k.toNat | _ => none

/-- R355: the cycle from which every fixed-latency source of the instruction is available. -/
def availableAt (x : Strand) (i : Instr) : Nat :=
  x.avail.foldl (fun t e => if (Instr.reads i).contains e.1 then max t e.2 else t) 0

/-- R197: HLD, whose handle is always interlocked. -/
def Instr.isHld : Instr → Bool
  | .hld _ => true
  | _ => false

/-- R197: the instruction names a handle that an outstanding HLD writes. -/
def handleBusy (x : Strand) (i : Instr) : Bool :=
  x.long.any fun o =>
    match o.instr with
    | .hld f => match f.d with | .h k => (Instr.handles i).contains k.toNat | _ => false
    | _ => false

end Sys2Proof.Machine
end

