-- ==== Sys2Proof/Machine/Ops.lean ====
section
/-! DEFINITION. The operations every meaning shares: halting a context (R371, R372), settling long-latency instructions
(R66, R68), taking a trap (R368, R369) and returning from it (R42, R175), moving the PC (R161, R166), the checks before an
instruction takes effect (R65, R67, R82, R174), and the frame around every instruction, `issue`. -/

namespace Sys2Proof.Machine

/-- The kinds of access that permissions distinguish (R304, R415). -/
inductive Access where
  | read | write | atomic | fetch
  deriving DecidableEq, Repr

/-! ## The region table (R414 to R416) -/

/-- R415: whether a table allows a non-secure access. -/
def tableAllows (t : Map Region) (k : Access) (peer : Bool) (pa : Nat) : Bool :=
  let unit := pa / 2 ^ 16
  match ((List.range 64).filterMap fun i => mfind t i).find? fun e =>
      e.d1.getLsbD 63 && decide ((e.d0.extractLsb' 16 36).toNat ≤ unit) && decide (unit ≤ (e.d1.extractLsb' 16 36).toNat)
    with
  | none => false
  | some e =>
    let nr := e.d1.getLsbD 61
    let nw := e.d1.getLsbD 60
    !e.d1.getLsbD 62 && (match k with | .read => nr | .write => nw | .atomic => nr && nw | .fetch => e.d1.getLsbD 59)
      && (!peer || e.d1.getLsbD 58)

/-- R416: while a commit is under way the old or the new table decides the whole of an access, which `key` names, by a free choice
(assumption 3). -/
def oldTable (s : State) (key : Nat) : Bool := s.rtBusy && Config.freeBool (s.free * 2 ^ 64 + 2 ^ 63 + key)

/-- R415: the old or the new region table allows the access. -/
def regionAllowsBy (s : State) (old secure : Bool) (k : Access) (peer : Bool) (pa : Nat) : Bool :=
  secure || tableAllows (if old then s.regionsOld else s.regions) k peer pa

/-- R415, R416: the region table allows the access. -/
def regionAllows (s : State) (secure : Bool) (k : Access) (peer : Bool) (pa : Nat) : Bool :=
  regionAllowsBy s (oldTable s pa) secure k peer pa

/-! ## Halts -/

/-- R371: a halt cause starts towards the context's halt controller. -/
def postHalt (s : State) (ctx : Nat) (h : HaltReq) : State :=
  s.modCtx ctx fun c => { c with haltQ := c.haltQ ++ [{ h with at_ := s.time }] }

/-- R297, R370, R374: the cause is a double error in a pool word: TINFO names a local space. -/
def poolError (c : Cause) (info : Dword) : Bool := c == .memUnc && info.extractLsb' 62 2 != 0

/-- R372: the strand stops at its PC, and the context's halt is on its way. `dm` is the DM bit of the leaf concerned. -/
def haltStrand (s : State) (r : Ref) (x : Strand) (c : Cause) (info : Dword) (dm : Bool) : State :=
  postHalt (s.setStrand r { x with stopped := true, stinfo := info }) x.ctx
    { cause := c, tinfo := info, src := if poolError c info then 5 else 0, core := r.core, slot := x.slot, dm := dm,
      strid := some r.strid }

/-! ## Settling (R66, R68) -/

/-- R34, R197: the trap that comes due when the result of an outstanding instruction returns. -/
def arrivalDue (x : Strand) (o : LongOp) : List (Cause × Dword) :=
  match o.trap with | some t => [t] | none => (fpDue x o.pc o.flags).toList

/-- R34, R66: the result of the `n`-th outstanding instruction has returned while its window is open: its trap is due, and its
registers and flags are written when the window has been spent. -/
def arrive (x : Strand) (n : Nat) (o : LongOp) : Strand :=
  { x with long := x.long.set n { o with arrived := true }, defer := x.defer ++ arrivalDue x o }

/-- R66: an outstanding instruction completes: its registers are written last, and its flags and traps come due. -/
def completeOne (x : Strand) (o : LongOp) : Strand :=
  let y := o.writes.foldl (fun y w => w.apply y) x
  { addFlags o.flags y with defer := if o.arrived then y.defer else y.defer ++ arrivalDue y o }

/-- R68, R334: some access of the strand has been issued and not made. -/
def accessesOwed (x : Strand) : Bool := !x.held.isEmpty || x.long.any fun o => !o.todo.isEmpty

/-- R68: every outstanding instruction can complete now: none waits for a refill or for an access. -/
def canSettle (x : Strand) : Bool := !accessesOwed x && x.long.all fun o => o.pops.isEmpty

/-- R68: every outstanding instruction completes. The order, which counts where two of them write one register, is that of their
issue: the model's choice (assumption 104). -/
def settle (x : Strand) : Strand := { x.long.foldl completeOne x with long := [] }

/-- R68, R444: every outstanding instruction can complete, and its latency is over. -/
def settledNow (x : Strand) (cycle : Nat) : Bool := canSettle x && x.long.all fun o => o.arrived || decide (o.due ≤ cycle)

/-- R355, R368: the cycle by which the outstanding instructions have settled. -/
def settledAt (x : Strand) (cycle : Nat) : Nat := x.long.foldl (fun t o => if o.arrived then t else max t o.due) cycle

/-! ## The reconvergence stack (R39, R40) -/

/-- R305: a physical address of this device's memory. -/
def physOk (a : Nat) : Bool :=
  decide (a ≤ 0x2FFFFFFFFF) || decide (0x4000000000 ≤ a ∧ a ≤ 0x6FFFFFFFFF) ||
    decide (0x8000000000 ≤ a ∧ a ≤ 0x87FFFFFFFF)

/-- R40, R381: the address at which entry `k` of a strand's stack lies when it is spilled. -/
def stackAddr (s : State) (r : Ref) (x : Strand) (k : Nat) : Nat :=
  (s.slot r.core x.slot).savebase + 0xA000 + 2048 * r.strid + 64 * k

/-- R40: whether the translation of a stack area's address fails: a free value, since the manual names no tables that map the area
(assumption 38). -/
def spillFaults (s : State) (a : Nat) : Bool := Config.freeBool (s.free * 2 ^ 64 + 2 ^ 63 + 2 ^ 60 + a)

/-- R40, R415: a spill to an address of the stack area succeeds: its translation does not fault, it lies in memory, and the region
table lets the context write it (assumption 38). -/
def spillOk (s : State) (ctx a : Nat) : Bool :=
  physOk a && regionAllows s (match s.ctx? ctx with | some c => c.secure | none => false) .write false a && !spillFaults s a

/-- R39, R40: what stops a push on a stack of the present depth, if anything: overflow, or a spill that fails. -/
def pushFails (s : State) (r : Ref) (x : Strand) : Option (Cause × Dword) :=
  let d := x.rstk.length
  if 32 ≤ d then some (.rstkOverflow, 0)
  else if 4 ≤ d && !spillOk s x.ctx (stackAddr s r x (d - 4)) then
    some (.rstkSpill, BitVec.ofNat 64 (stackAddr s r x (d - 4)))
  else none

/-! ## Traps (R367 to R369) -/

/-- R264, R369: the handler's entry PC, when the context has a handler. -/
def handlerOf (s : State) (x : Strand) : Option Nat :=
  match s.ctx? x.ctx with
  | some c => if c.handler.getLsbD 63 then some (c.handler.extractLsb' 0 32).toNat else none
  | none => none

/-- R368: the state of the strand in its handler. TCAUSE, TINFO and the pushed entry hold the trap; HM is set; the PC is
the handler's, which issues 16 cycles later. -/
def enterHandler (x : Strand) (cycle tpc : Nat) (mask : Mask) (c : Cause) (info : Dword) (pc : Nat) : Strand :=
  { x with
    tcause := BitVec.ofNat 32 c.code, tinfo := info, tpc := BitVec.ofNat 32 tpc, tssw := x.ssw,
    rstk := .trap (BitVec.ofNat 32 tpc) mask x.ssw :: x.rstk, active := mask, hm := true, pc := pc,
    notBefore := cycle + 16 }

/-- R380: a trap or a SWAP takes effect in a slot in this cycle, before any halt line that has not arrived. -/
def actIn (s : State) (core slot : Nat) : State := s.modSlot core slot fun q => { q with actedAt := s.cycle + 1 }

/-- R368, R369: take a trap. In handler mode the context halts with NESTED_TRAP; without a handler it halts with the trap's
cause; otherwise the outstanding instructions settle, the TRAP entry is pushed and the handler starts. While an
outstanding pop waits for its refill, the trap waits and nothing changes. -/
def takeTrap (s : State) (r : Ref) (x : Strand) (tpc : Nat) (mask : Mask) (c : Cause) (info : Dword) : State :=
  if x.hm then haltStrand s r x .nestedTrap (BitVec.ofNat 64 c.code) false
  else match handlerOf s x with
    | none => haltStrand s r x c info false
    | some pc =>
      if !canSettle x then s
      else
        let y := settle x
        match pushFails s r y with
        | some (hc, hi) => haltStrand s r y hc hi false
        | none =>
          actIn (s.setStrand r (enterHandler y (settledAt x s.cycle) tpc mask c info pc)) r.core x.slot

/-- R68: a trap would have to wait for an outstanding pop. -/
def trapWaits (s : State) (x : Strand) : Bool := !x.hm && (handlerOf s x).isSome && !canSettle x

/-- R24: the strand may issue: its slot runs, no halt or freeze has stopped it, and it does not wait (R32). -/
def mayRun (s : State) (r : Ref) (x : Strand) : Bool :=
  let q := s.slot r.core x.slot
  q.st == .running && !q.line && !q.freezing && !x.stopped && !x.wt

/-- R34, R197: take the first of the strand's deferred traps if nothing holds it back: handler mode, a wait, one that has to be
executed again or a halt defer it. -/
def takeDeferred (s : State) (r : Ref) : State :=
  match s.strand? r with
  | none => s
  | some x =>
    match x.defer with
    | [] => s
    | (c, info) :: rest =>
      if x.hm || x.rewait || !mayRun s r x || !canSettle x then s
      else takeTrap s r { x with defer := rest } x.pc x.active c info

/-- R34: the strand takes a deferred trap before it issues anything else. -/
def owesTrap (x : Strand) : Bool := !x.defer.isEmpty && !x.hm && !x.rewait

/-! ## The PC (R57, R161, R166) -/

/-- R57: a PC that lies in the range of the register. -/
def pcOk (p : Int) : Bool := decide (0 ≤ p) && decide (p < 2 ^ 32)

/-- R161: the PC after the instruction at `p`, and the loop stack, top first. -/
def loopNext (p : Nat) : List LoopEntry → Nat × List LoopEntry
  | [] => (p + 1, [])
  | e :: rest =>
    if e.last.toNat = p then
      if e.count = 0 then loopNext p rest
      else (e.start.toNat, { e with count := e.count - 1 } :: rest)
    else (p + 1, e :: rest)

/-- R161: move the PC past the present instruction; none when it would leave the range (R57). -/
def advance (x : Strand) : Option Strand :=
  let n := loopNext x.pc x.lstk
  if n.1 < 2 ^ 32 then some { x with pc := n.1, lstk := n.2 } else none

/-- R160: go to `pc`; the strand is not ready for the next three cycles. -/
def redirect (x : Strand) (cycle pc : Nat) : Strand := { x with pc := pc, notBefore := cycle + 4 }

/-- R165: switch to the deferred path of the top entry, when it has live lanes. -/
def pathSwitch (x : Strand) (cycle : Nat) : Option Strand :=
  match x.rstk with
  | .div rpc m dpc dm :: rest =>
    if dm &&& x.live = 0 then none
    else some (redirect { x with active := dm &&& x.live, rstk := .div rpc m dpc 0 :: rest } cycle dpc)
  | _ => none

/-- R166: the active mask has become empty while lanes live. `none` tells that no entry holds the lanes' reconvergence:
the active mask is then the live mask and the strand goes on at its next PC. Going to the RPC costs the cycles of R160 too
(assumption 99). -/
def leaveEmpty (x : Strand) (cycle : Nat) : Option Strand :=
  match pathSwitch x cycle with
  | some y => some y
  | none =>
    match x.rstk with
    | .div rpc m _ _ :: rest => some (redirect { x with active := m &&& x.live, rstk := rest } cycle rpc)
    | _ => none

/-! ## The frame of an instruction -/

/-- What an instruction that has passed every check does. -/
inductive Res where
  /-- It has completed, raising the flags; the PC moves on under R161. -/
  | done (s : State) (fl : BitVec 6)
  /-- It has completed with a taken branch to a PC (R160). -/
  | jump (s : State) (pc : Int)
  /-- It has completed and has set the PC itself, or left the strand, or waits. -/
  | set (s : State)
  /-- It traps before it has any effect, with TPC at itself. -/
  | trap (c : Cause) (info : Dword)
  /-- It traps with another TPC or mask, after the change given. -/
  | trapAt (s : State) (tpc : Int) (mask : Mask) (c : Cause) (info : Dword)
  /-- It halts the context before it has any effect. -/
  | halt (c : Cause) (info : Dword) (dm : Bool)
  /-- It has issued, and an access of it halts the context: the stop PC is the next instruction. -/
  | haltAfter (s : State) (c : Cause) (info : Dword) (dm : Bool)
  /-- It cannot issue yet. -/
  | stall

/-- R264: the level that a CSR needs. FRHEAD and ORHEAD, whose level R265 leaves out, are read at user level (assumption 114). -/
def csrLevel (i : Nat) : Nat :=
  if i = 0x000 ∨ (0x010 ≤ i ∧ i ≤ 0x017) ∨ i = 0x020 ∨ (0x032 ≤ i ∧ i ≤ 0x034) ∨ i = 0x03A ∨ i = 0x03B ∨ i = 0x074
      ∨ (0x048 ≤ i ∧ i ≤ 0x057 ∧ 2 ≤ i % 4) then 0
  else 1

/-- R82, R250: the privilege level an instruction needs. -/
def levelOf (i : Instr) : Nat :=
  match i with
  | .swap _ => 1
  | .einj _ => 2
  | .csrr f | .csrw f | .basinstWrite f | .rcrClear f | .chselWrite f | .invcmdWrite f | .ringTailWrite f
  | .persistentMarkSet f => csrLevel f.csr
  | _ => 0

/-- R25: every vector register named lies below the budget. -/
def budgetOk (i : Instr) (budget : Nat) : Bool :=
  i.vUses.all fun u => match u.1 with | .v k => decide (k.toNat + u.2.2 ≤ budget) | _ => true

/-- R82: the decode cause of an instruction for this strand. -/
def decodeFault (i : Instr) (x : Strand) : Option Cause :=
  match i.staticCause with
  | some c => some (decodeCause c)
  | none =>
    if !budgetOk i x.budget then some .illOpnd
    else if x.pl.toNat < levelOf i then some .priv
    else none

/-- R83: TINFO of a decode cause: bits [95:32] of the word. -/
def wordInfo (w : IWord) : Dword := w.extractLsb' 32 64

/-! ## Lanes that act and lanes that leave (R163, R171) -/

/-- R163: the mask of the acting lanes. -/
def actingMask (x : Strand) (hd : Hdr) : Mask := Mask.ofPred x.nlanes fun l => Mask.bit x.active l && x.laneGuard hd l

/-- R145: the registers of exited lanes read as zero by the live mask; lanes leave the strand (R22). -/
def removeLanes (x : Strand) (m : Mask) : Strand := { x with live := x.live &&& ~~~m, active := x.active &&& ~~~m }

/-! ## What may not issue yet (R65, R67, R269, R334, R335) -/

/-- R269: the instruction waits for every earlier one. -/
def serialises (i : Instr) : Bool := match i with | .clkr f => !f.opx.getLsbD 0 | _ => false

/-- R73: an access with release semantics, or with acquire semantics. -/
def semOf (i : Instr) : BitVec 2 :=
  match i with | .ld f | .st f | .lds f | .sts f | .atom f | .red f | .hld f => f.sem | _ => 0

/-- R334, R335, R339: every access that the strand has issued precedes this instruction: releases, fences but FENCE.acq, waits,
barriers, engine instructions, queue pushes and pops, SPAWN, SUSPEND, SWAP and control registers. -/
def ordersAll (i : Instr) : Bool :=
  (semOf i).getLsbD 1 || match i with
    | .fence f => bitsOf f.opx 4 2 != 0
    | .bar _ | .bara _ | .waitt _ | .waitk _ | .waitc _ => true
    | .cpl _ | .cpt _ | .cpg _ | .cvb _ | .mzero _ | .mrl _ | .mma _ | .mms _ | .mdr _ | .mrs _ | .coll _ | .relay _
    | .mop _ => true
    | .qpush _ | .qpop _ | .spawn _ | .suspend _ | .swap _ => true
    | .csrw _ | .basinstWrite _ | .rcrClear _ | .chselWrite _ | .invcmdWrite _ | .ringTailWrite _
    | .persistentMarkSet _ => true
    | .mov f => f.d.isQp || f.a.isQp
    | _ => false

/-- R334: an access of another path of an open divergence that has not been made. -/
def pathOwed (x : Strand) : Bool :=
  (x.held.any fun o => o.mask &&& x.active == 0) || x.long.any fun o => !o.todo.isEmpty && o.mask &&& x.active == 0

/-- The top entry of the stack has no live lane on its deferred path, and reconverges at `p` if one is named (R165, R166). -/
def popsTop (x : Strand) (p : Option Nat) : Bool :=
  match x.rstk with
  | .div q _ _ dm :: _ => dm &&& x.live == 0 && (match p with | some p => q == p | none => true)
  | _ => false

/-- R334: the instruction closes a divergence: an RCV that pops its entry, or an EXIT that leaves a path empty and pops it. One that
only switches to the deferred path leaves the divergence open. -/
def closesPaths (x : Strand) (i : Instr) : Bool :=
  match i with
  | .rcv _ => popsTop x (some x.pc)
  | .exit f => let y := removeLanes x (actingMask x f.hd); y.active == 0 && y.live != 0 && popsTop y none
  | _ => false

/-- R334, R335: accesses of the strand that have not been made keep this instruction from issuing, whatever it accesses. A
FENCE.acq waits for the reads before it, those of a read-modify-write among them (R333), and lets the other writes pass; a
strand-uniform acquire orders the paths of a divergence. -/
def orderBlocked (x : Strand) (i : Instr) : Bool :=
  ((ordersAll i || closesPaths x i) && accessesOwed x) || match i with
    | .fence _ => (x.long.any fun o => !o.todo.isEmpty) || x.held.any fun o => o.rmw
    | .ld _ | .atom _ => !i.isLane && (semOf i).getLsbD 0 && pathOwed x
    | _ => false

/-- R65, R67, R197, R269, R335: an outstanding instruction keeps this one from issuing. -/
def windowBlocked (cycle : Nat) (x : Strand) (i : Instr) : Bool :=
  x.long.any (fun o => o.left == 0) || (Instr.isLong i && x.passes i && decide (8 ≤ x.llo)) || handleBusy x i ||
    (serialises i && ((x.long.any fun o => !o.arrived) || x.avail.any fun e => decide (cycle < e.2))) || orderBlocked x i

/-- R358: the power allowance as it stands, brought up to the present cycle with refill `rho`. -/
def paNow (k : Cluster) (rho cycle : Nat) : Int := min 2048 (k.pa + (rho * (cycle - k.paAt) : Nat))

/-- R358, R407, R409: the refill rate: 128, lowered by step 7 of the throttle order, and 8 in a critical response. -/
def rhoOf (s : State) : Nat :=
  if s.kettle.saved.isSome then 8
  else match mget 0 s.kettle.depths 7 with | 0 => 128 | 1 => 64 | 2 => 32 | 3 => 16 | _ => 8

/-- R412: `n` energy events of a kind are charged to a context: kinds 0 to 4 are passes of the energy classes, 5 to 11 engine work by
class, 12 accesses to memory, 13 saves and 14 restores (assumption 91). -/
def charge (s : State) (ctx kind n : Nat) : State :=
  { s with energyUse := mput s.energyUse (16 * ctx + kind) (mget 0 s.energyUse (16 * ctx + kind) + n) }

/-- R358: an issue debits its cost. -/
def debit (s : State) (core cost : Nat) : State :=
  s.modCluster (clusterOf core) fun k =>
    { k with pa := max (-256) (paNow k (rhoOf s) s.cycle - cost), paAt := s.cycle }

/-- R63, R172: the instruction yields. -/
def yields (i : Instr) : Bool := i.hdr.y || match i with | .yield _ => true | _ => false

/-- R356: the issue slot is held, the strand becomes its greedy and its last strand, and a yielding strand goes to the back of
its order. -/
def holdSlot (s : State) (r : Ref) (x : Strand) (i : Instr) : State :=
  s.modCore r.core fun k =>
    let q := mget ISlot.reset k.islots x.islot
    let q := { q with hold := s.cycle + heldCycles s r x i, greedy := some r.strid, last := some r.strid }
    let q := if yields i then
        { q with greedy := none, order := (q.order.filter fun y => y != r.strid) ++ [r.strid] }
      else q
    { k with islots := mput k.islots x.islot q }

/-- R34, R65, R355, R356: the strand once the instruction has issued: one instruction nearer the end of every window, with the
availability of its results, and its wait count zero. -/
def tick (s : State) (r : Ref) (x : Strand) (i : Instr) : Strand :=
  let keep := x.avail.filter fun e => decide (s.cycle < e.2)
  let new := if Instr.isLong i then [] else (Instr.writesTo i).map fun o => (o, s.cycle + resultDelay s r x i)
  { x with
    long := x.long.map fun o => { o with left := o.left - 1 }
    avail := new ++ keep
    rewait := false
    waits := 0
    withheldAt := none
    age := if yields i then s.cycle else x.age }

/-- R412: the kind of energy event of an energy class. -/
def EClass.kind : EClass → Nat
  | .e0 => 0 | .e1 => 1 | .e2 => 2 | .e3 => 3 | .e4 => 4

/-- The device once the instruction has issued, before its own effect. -/
def issued (s : State) (r : Ref) (x : Strand) (i : Instr) : State :=
  charge ((debit (holdSlot s r x i) r.core (energyCost s r x i)).setStrand r (tick s r x i)) x.ctx (EClass.kind (energyClass i))
    (if i.isLane then (sweptGroups x).length else 1)

/-- R34, R161: complete an instruction in state `s1`: flags, PC, and the floating-point trap if one is due. `s` and `x` are
as before the instruction: it halts them when the PC leaves its range (R57). -/
def finishDone (s : State) (x : Strand) (r : Ref) (s1 : State) (fl : BitVec 6) : State :=
  match s1.strand? r with
  | none => s1
  | some y =>
    match advance y with
    | none => haltStrand s r x .pcRange 0 false
    | some z =>
      let w := addFlags fl z
      takeDeferred (s1.setStrand r { w with defer := w.defer ++ (fpDue z x.pc fl).toList }) r

/-- R57: the strand `y` waits in an instruction that moves the PC when the wait ends: the PC it then has must be in range. -/
def startWait (s1 : State) (r : Ref) (y : Strand) : Res :=
  if (advance y).isSome then .set (s1.setStrand r y) else .halt .pcRange 0 false

/-- R160: complete a taken branch. -/
def finishJump (s : State) (x : Strand) (r : Ref) (s1 : State) (pc : Int) : State :=
  if pcOk pc then s1.modStrand r fun y => redirect y s.cycle pc.toNat
  else haltStrand s r x .pcRange 0 false

/-- R68, R372: the strand goes past the instruction and stops there. -/
def finishHalt (s : State) (x : Strand) (r : Ref) (s1 : State) (c : Cause) (info : Dword) (dm : Bool) : State :=
  match s1.strand? r with
  | none => s1
  | some y =>
    match advance y with
    | none => haltStrand s r x .pcRange 0 false
    | some z => haltStrand s1 r z c info dm

/-- The outcome of an instruction whose body has answered. -/
def Res.outcome (s : State) (r : Ref) (x : Strand) (a : Res) : Host.Outcome State Fault Refusal :=
  match a with
  | .done s1 fl => .next (finishDone s x r s1 fl)
  | .jump s1 pc => .next (finishJump s x r s1 pc)
  | .set s1 => .next s1
  | .trap c info => .next (takeTrap s r x x.pc x.active c info)
  | .trapAt s1 tpc m c info =>
    if pcOk tpc then
      match s1.strand? r with
      | none => .next s1
      | some y => if trapWaits s1 y then .next s else .next (takeTrap s1 r y tpc.toNat m c info)
    else .next (haltStrand s r x .pcRange 0 false)
  | .halt c info dm => .next (haltStrand s r x c info dm)
  | .haltAfter s1 c info dm => .next (finishHalt s x r s1 c info dm)
  | .stall => .next s

/-- R297: the lanes whose vector registers an instruction reads: of a shuffle, permute, broadcast or VGET every live one, of another
lane instruction its acting lanes, and of one that is strand-uniform the active lanes (assumption 75). -/
def readLanes (x : Strand) (i : Instr) : List Nat :=
  match i with
  | .shfl _ | .perm _ | .bcast _ | .vget _ => (List.range x.nlanes).filter x.isLive
  | _ => if i.isLane then x.acting i.hdr else (List.range x.nlanes).filter fun l => Mask.bit x.active l

/-- R297: the instruction reads a word of the register file with a double error. -/
def regBad (x : Strand) (i : Instr) : Bool :=
  !x.dbl.isEmpty && x.passes i && (Instr.reads i).any fun o =>
    match o with
    | .v k => (readLanes x i).any fun l => x.dbl.contains (l * 256 + k.toNat)
    | _ => false

/-- R297: a double error in the register file halts the context. R370 gives no detail that names a register: TINFO is a free
value (assumption 75). -/
def haltRegister (s : State) (r : Ref) (x : Strand) : State :=
  let info := Config.freeWord (s.free * 2 ^ 64 + 2 ^ 61)
  postHalt (s.setStrand r { x with stopped := true, stinfo := info }) x.ctx
    { cause := .memUnc, tinfo := info, src := 5, core := r.core, slot := x.slot, dm := false, strid := some r.strid }

/-- The frame of every program instruction, executed for the strand at `cur`. In order: the strand must be able to issue
(R65, R354), a deferred trap is taken first (R34), the decode causes (R82, R83), HM_LANE (R174), the guard (R62), the words of the
register file that it reads (R297), and then
the body, which sees the device as `issued` leaves it. A guarded-off instruction only counts (R62, R161). -/
def issue (i : Instr) (s : State) (body : State → Ref → Strand → Res) : Host.Outcome State Fault Refusal :=
  match s.strand? s.cur with
  | none => .refused .noIssuingStrand
  | some x =>
    let r := s.cur
    if !mayRun s r x then .next s
    else if owesTrap x then .next (takeDeferred s r)
    else if windowBlocked s.cycle x i then .next s
    else match decodeFault i x with
      | some c => .next (takeTrap s r x x.pc x.active c (wordInfo (encode i)))
      | none =>
        if x.hm && i.isLane then .next (haltStrand s r x .hmLane (wordInfo (encode i)) false)
        else if regBad x i then .next (haltRegister s r x)
        else
          let s1 := issued s r x i
          if x.passes i then Res.outcome s r x (body s1 r (tick s r x i))
          else .next (finishDone s x r s1 0)

/-! ## Bodies -/

/-- A body that changes only registers of the strand. -/
def regBody (f : State → Ref → Strand → Strand × BitVec 6) : State → Ref → Strand → Res :=
  fun s r x => .done (s.setStrand r (f s r x).1) (f s r x).2

/-- R64: an outstanding long-latency instruction with the registers it will write, in the device as it has issued. -/
def newLong (i : Instr) (s : State) (r : Ref) (x : Strand) (ws : List RegW) (fl : BitVec 6) : LongOp :=
  { pc := x.pc, instr := i, mask := x.active, left := i.hdr.la.toNat, due := s.cycle + resultDelay s r x i, arrived := false,
    writes := ws, flags := fl, todo := [], tn := none, pops := [], trap := none, replay := false }

/-- A body that leaves the instruction outstanding (R64 to R66). -/
def longBody (i : Instr) (f : State → Ref → Strand → List RegW × BitVec 6) : State → Ref → Strand → Res :=
  fun s r x =>
    let a := f s r x
    .done (s.setStrand r { x with long := x.long ++ [newLong i s r x a.1 a.2] }) 0

/-! ## Return from a trap (R42, R175) -/

/-- R42: the checks of TRET on TSSW. The level in force when the trap was taken is the handler's own, because trap entry
leaves PL alone (R368). -/
def tsswBad (x : Strand) (w : Word) : Bool :=
  (w &&& 0xFC00007F#32) != 0 || w.extractLsb' 10 2 == 3#2 || decide (x.pl.toNat < (w.extractLsb' 10 2).toNat)
    || w.getLsbD 9 != x.sec || w.getLsbD 12

/-- R175: return from the trap whose entry is on top of the stack. A strand in handler mode always has a TRAP entry; DIV
entries above it, pushed by nothing in handler mode, do not arise. -/
def trapReturn (s : State) (r : Ref) (x : Strand) : Res :=
  match x.rstk with
  | .trap tpc m w :: rest =>
    if tsswBad x w then .halt .badSsw (w.setWidth 64) false
    else
      let y := { x with rstk := rest, active := m &&& x.live, pl := w.extractLsb' 10 2, hm := false, tpc := tpc,
                        tssw := w }
      let z := if y.active = 0 then
          match leaveEmpty y s.cycle with
          | some z => z
          | none => redirect { y with active := y.live } s.cycle tpc.toNat
        else redirect y s.cycle tpc.toNat
      .set (takeDeferred (s.setStrand r z) r)
  | _ => .trap .illTret 0

end Sys2Proof.Machine
end

