-- ==== Sys2Proof/Machine/Memory.lean ====
section
/-! DEFINITION. Physical memory and translation: the walk (R303, R304), the TLBs (R306, R307), the region table (R414 to
R416), the memory types (R305, R308), peer memory (R397 to R399), uncorrectable lines (R309), hot pages (R311), and
instruction fetch (R57, R58, R301, R345). -/

namespace Sys2Proof.Machine

/-- On whose behalf an access is made: the context, the core, and whether the user permission is needed (R304, R447). -/
structure Who where
  ctx : Nat
  core : Nat
  user : Bool
  deriving DecidableEq, Repr

/-- R304: a strand's access is made at its SSW.PL. -/
def Strand.who (x : Strand) (r : Ref) : Who := { ctx := x.ctx, core := r.core, user := x.pl == 0 }

/-! ## Physical addresses (R305) -/

/-- R305: HBM4. -/
def isHbm (a : Nat) : Bool := decide (a ≤ 0x2FFFFFFFFF) || decide (0x4000000000 ≤ a ∧ a ≤ 0x6FFFFFFFFF)
/-- R305: the stacked tier. -/
def isStacked (a : Nat) : Bool := decide (0x8000000000 ≤ a ∧ a ≤ 0x87FFFFFFFF)
/-- R305: the uncached device window. -/
def isDevice (a : Nat) : Bool := decide (0xF000000000000 ≤ a ∧ a ≤ 0xFFFFFFFFFFFFF)

/-- R305: a leaf's address lies in the range of its memory type. -/
def inRange (mt a : Nat) : Bool :=
  match mt with
  | 0 => isStacked a
  | 1 => isHbm a
  | 2 => isHbm (a % 2 ^ 42) || isStacked (a % 2 ^ 42)
  | _ => isDevice a

/-- R300, R305: the die that is home of an address. -/
def homeDie (a : Nat) : Nat := if (0x4000000000 ≤ a ∧ a ≤ 0x6FFFFFFFFF) ∨ 0x8400000000 ≤ a then 1 else 0

/-- The key in `mem` of another device's byte. -/
def peerKey (pa : Nat) : Nat := 2 ^ 52 + pa

/-! ## The walk (R303, R304) -/

/-- R303: the index at a level of the tree. -/
def levelIndex (va level : Nat) : Nat :=
  match level with
  | 0 => va / 2 ^ 16 % 32
  | k + 1 => va / 2 ^ (21 + 9 * k) % 512

/-- R303: log2 of the page size of a leaf at a level. -/
def leafShift (level : Nat) : Nat := match level with | 0 => 16 | k + 1 => 21 + 9 * k

/-- R304: MT of an entry. -/
def leafMt (e : BitVec 64) : Nat := (e.extractLsb' 58 2).toNat
/-- R304: ADDR of an entry, as a byte address. -/
def leafAddr (e : BitVec 64) : Nat := (e.extractLsb' 8 44).toNat * 256
def leafDm (e : BitVec 64) : Bool := e.getLsbD 57

/-- R304: what a walk finds: a leaf with its level, no page, or a bad entry. -/
inductive Walk where
  | leaf (level : Nat) (e : BitVec 64)
  | absent
  | bad
  deriving DecidableEq, Repr

/-- R303, R304: the walk from the table of a level. -/
def walkFrom (mem : Map Byte) (va : Nat) : Nat → Nat → Walk
  | level, table =>
    let e := BitVec.ofNat 64 (Memory.nat mem (table + 8 * levelIndex va level) 8)
    let leaf := e.getLsbD 1
    if !e.getLsbD 0 then .absent
    else if e.extractLsb' 60 4 != 0 || e.extractLsb' 2 6 != 0 then .bad
    else match level with
      | 0 =>
        if !leaf || leafAddr e % 2 ^ 16 != 0 || !inRange (leafMt e) (leafAddr e) then .bad else .leaf 0 e
      | k + 1 =>
        if leaf then
          if 2 ≤ k || leafAddr e % 2 ^ leafShift (k + 1) != 0 || !inRange (leafMt e) (leafAddr e) then .bad
          else .leaf (k + 1) e
        else if e.extractLsb' 52 8 != 0 || leafAddr e % (if k = 0 then 256 else 4096) != 0 then .bad
        else walkFrom mem va k (leafAddr e)

/-- R303: the walk of a context's tree. -/
def walk (mem : Map Byte) (root va : Nat) : Walk := walkFrom mem va 4 root

/-! ## Translation -/

/-- What translating one access gives: where the bytes lie, that the access waits (R310, R399), or why it fails. -/
inductive Xl where
  | ok (key mt : Nat)
  | wait
  | bad (c : Cause) (dm : Bool)
  deriving DecidableEq, Repr

/-- R182: the order of the failing check. -/
def Xl.order : Xl → Nat
  | .ok _ _ => 9
  | .wait => 8
  | .bad .pageNp _ | .bad .ptBad _ => 4
  | .bad .atomTarget _ => 6
  | .bad _ _ => 5

/-- R306: the first leaf of a TLB for an address of a context. -/
def tlbFind (l : List TlbE) (ctx va : Nat) : Option TlbE :=
  l.find? fun e => e.ctx == ctx && decide (e.base ≤ va) && decide (va < e.base + e.size)

/-- R306: the L2 TLB of the die of a core. -/
def l2Tlb (s : State) (core : Nat) : List TlbE := mget [] s.tlb (dieOf core)

/-- R303, R304: the leaf that the tables give, as (base, size, entry). -/
def walkLeaf (s : State) (ctx va : Nat) : Except Cause (Nat × Nat × BitVec 64) :=
  match s.ctx? ctx with
  | none => .error .pageNp
  | some c =>
    match walk s.mem c.root va with
    | .absent => .error .pageNp
    | .bad => .error .ptBad
    | .leaf level e => .ok (va / 2 ^ leafShift level * 2 ^ leafShift level, 2 ^ leafShift level, e)

/-- R306, R307, R346: the leaf an access translates through, as (base, size, entry). A leaf cached in the core's L1 TLB or in the
L2 TLB of its die that differs from the tables may be used in their place, by a free choice (assumption 3). -/
def leafFor (s : State) (w : Who) (va : Nat) : Except Cause (Nat × Nat × BitVec 64) :=
  let fresh := walkLeaf s w.ctx va
  let stale (l : List TlbE) (key : Nat) : Option TlbE :=
    (tlbFind l w.ctx va).filter fun t =>
      (match fresh with | .ok (_, _, e) => e != t.leaf | .error _ => true) && Config.freeBool (s.free * 2 ^ 64 + key)
  match stale (s.core w.core).tlb va with
  | some t => .ok (t.base, t.size, t.leaf)
  | none =>
    match stale (l2Tlb s w.core) (2 ^ 58 + va) with
    | some t => .ok (t.base, t.size, t.leaf)
    | none => fresh

/-- R399: whether a peer's link lets an access proceed. -/
def linkOf (s : State) (pa : Nat) : LinkSt := mget .up s.links (Config.peerPort (pa / 2 ^ 42))

/-- R398: where a peer access goes, after the checks at its target: this device's own memory through the internal
loopback, or another device's. `old` tells that the old region table decides the access (R416). -/
def peerSite (s : State) (old : Bool) (k : Access) (dm : Bool) (pa : Nat) : Xl :=
  let own := pa % 2 ^ 42
  if pa / 2 ^ 42 = s.devnum then
    if regionAllowsBy s old false k true own then .ok own 2 else .bad .pagePerm dm
  else match linkOf s pa with
    | .retraining _ => .wait
    | .lost => .bad .pageNp false
    | .up =>
      if Config.peerAllows pa (match k with | .write => 1 | .atomic => 2 | _ => 0) then .ok (peerKey pa) 2
      else .bad .pagePerm dm

/-- R414: an address in a page of the region table's registers, which only the secure world may write. -/
def regionPage (pa : Nat) : Bool :=
  decide (Config.regionTableBase / 2 ^ 16 ≤ pa / 2 ^ 16) && decide (pa / 2 ^ 16 ≤ (Config.regionTableBase + 1023) / 2 ^ 16)
    || pa / 2 ^ 16 == Config.rtCommitAddr / 2 ^ 16

/-- R416: what names an access where one region table is chosen for all of it: its address, and for the units of a fetched word the
kind of access. -/
def accessKey (k : Access) (va : Nat) : Nat := if k == .fetch then 2 ^ 57 else va

/-- R304, R308, R310, R415, R416: what an access of kind `k` through a leaf gives. -/
def throughLeaf (s : State) (secure user : Bool) (k : Access) (va base : Nat) (e : BitVec 64) : Xl :=
  let pa := leafAddr e + (va - base)
  let dm := leafDm e
  let mt := leafMt e
  let old := oldTable s (accessKey k va)
  let perm := match k with
    | .read => e.getLsbD 52
    | .write => e.getLsbD 53
    | .atomic => e.getLsbD 52 && e.getLsbD 53
    | .fetch => e.getLsbD 54 && decide (mt < 2)
  if e.getLsbD 56 then .wait
  else if !perm || (user && !e.getLsbD 55) then .bad .pagePerm dm
  else if !regionAllowsBy s old secure k false pa then .bad .pagePerm dm
  else if k == .write && !secure && mt == 3 && regionPage pa then .bad .pagePerm dm
  else if k == .atomic && mt == 3 then .bad .atomTarget false
  else if mt = 2 then peerSite s old k dm pa
  else .ok pa mt

/-- Translate one access to the virtual address `va` (57 bits, canonical). -/
def translate (s : State) (w : Who) (k : Access) (va : Nat) : Xl :=
  let va := va % 2 ^ 57
  match leafFor s w va with
  | .error c => .bad c false
  | .ok (base, _, e) => throughLeaf s (match s.ctx? w.ctx with | some c => c.secure | none => false) w.user k va base e

/-- R306: a leaf enters a TLB of `cap` entries. The manual gives neither the index of a set nor its replacement, so an entry
may be displaced, and one is when the TLB is full, by free choices (assumption 3). -/
def tlbInsert (seed cap : Nat) (t : TlbE) (l : List TlbE) : List TlbE :=
  if l.contains t then l
  else if !l.isEmpty && (decide (cap ≤ l.length) || Config.freeBool seed) then
    t :: l.eraseIdx (Config.freeNat seed % l.length)
  else t :: l

/-- R306: the leaf that an access used is cached in the L1 TLB of its core and in the L2 TLB of its die. -/
def tlbFill (s : State) (w : Who) (va : Nat) : State :=
  let va := va % 2 ^ 57
  match leafFor s w va with
  | .error _ => s
  | .ok (base, size, e) =>
    let t : TlbE := { ctx := w.ctx, base := base, size := size, leaf := e }
    let l1 := tlbInsert (s.free * 2 ^ 64 + 2 ^ 59 + va) 1024 t (s.core w.core).tlb
    let l2 := tlbInsert (s.free * 2 ^ 64 + 2 ^ 59 + 2 ^ 58 + va) 32768 t (l2Tlb s w.core)
    { s.modCore w.core fun k => { k with tlb := l1 } with tlb := mput s.tlb (dieOf w.core) l2 }

/-! ## Hot pages (R311) -/

/-- R311: the table an address counts in: 2 × die, plus 1 for HBM4. -/
def hotTable (pa : Nat) : Nat := 2 * homeDie pa + (if isHbm pa then 1 else 0)

/-- R311: one access in 64 is counted. The state holds the count of every page, so that each table can be read as its 4,096
most counted pages (assumption 93). -/
def countHot (s : State) (pa : Nat) : State :=
  let s := { s with hotTick := s.hotTick + 1 }
  if s.hotTick % 64 != 0 || !(isHbm pa || isStacked pa) then s
  else { s with hot := mput s.hot (pa / 2 ^ 16) (min 65535 (mget 0 s.hot (pa / 2 ^ 16) + 1)) }

/-- R311: the page numbers and counts of a table, most counted first. -/
def hotTop (s : State) (table : Nat) : List (Nat × Nat) :=
  ((s.hot.filter fun e => hotTable (e.1 * 2 ^ 16) == table).mergeSort fun a b => decide (b.2 ≤ a.2)).take 4096

/-- The effects of one performed access on the TLBs, the hot-page table and the energy account (R412). -/
def noteAccess (s : State) (w : Who) (va key : Nat) : State := charge (countHot (tlbFill s w va) key) w.ctx 12 1

/-! ## Uncorrectable lines (R309) -/

/-- R309: the first marked line among `n` bytes. -/
def uncLine (s : State) (key n : Nat) : Bool :=
  s.unc.any fun l => decide (l * 64 < key + n) && decide (key < l * 64 + 64)

/-- R370: TINFO of MEM_UNC: the space and the address. -/
def uncInfo (space addr : Nat) : Dword := BitVec.ofNat 64 (space * 2 ^ 62 + addr % 2 ^ 52)

/-- R309: a write of `n` bytes clears the marks of the lines it covers whole. -/
def clearUnc (s : State) (key n : Nat) : List Nat :=
  s.unc.filter fun l => !(decide (key ≤ l * 64) && decide (l * 64 + 64 ≤ key + n))

/-- R309: the places that one unit of an engine has written together: a line they cover whole is written whole. -/
def clearCovered (s : State) (places : List (Nat × Nat)) : State :=
  { s with unc := s.unc.filter fun l =>
      !(List.range 64).all fun i => places.any fun p => decide (p.1 ≤ l * 64 + i) && decide (l * 64 + i < p.1 + p.2) }

/-! ## Performing accesses -/

/-- R6: write bytes to memory. -/
def storeBytes (s : State) (key : Nat) (bs : List Byte) : State :=
  { s with mem := Memory.putBytes s.mem key bs, unc := clearUnc s key bs.length }

def storeNat (s : State) (key n x : Nat) : State := storeBytes s key (natBytes n x)

/-- R6: the number that `n` bytes of memory hold. -/
def loadNat (s : State) (key n : Nat) : Nat := Memory.nat s.mem key n

/-! ### The device window (R414, R416) -/

/-- R414: the writable bits of an entry's doublewords. -/
def regionMask (hi : Bool) : Dword := if hi then 0xFC0FFFFFFFFF0000 else 0x000FFFFFFFFF0000

/-- R416: RTCOMMIT takes effect on all pending entries together. -/
def commitRegions (s : State) : State :=
  { s with regionsOld := s.regions, regions := s.regionsPending, rtBusy := true, rtAt := s.time }

/-- R414: the doubleword of the region table that lies at doubleword address `k`, if one does: its entry, and whether it is the
upper one. -/
def regionWord (k : Nat) : Option (Nat × Bool) :=
  let b := Config.regionTableBase / 8
  if b ≤ k ∧ k < b + 128 then some ((k - b) / 2, (k - b) % 2 == 1) else none

/-- What doubleword `k` of the device window reads: RTCOMMIT tells whether a commit is under way, the region table gives the
pending value, and a register that the manual does not describe reads a free value (assumption 19). -/
def deviceWord (s : State) (k : Nat) : Dword :=
  if k = Config.rtCommitAddr / 8 then BitVec.ofNat 64 s.rtBusy.toNat
  else match regionWord k with
    | some (i, hi) =>
      let e := mget { d0 := 0, d1 := 0 } s.regionsPending i
      if hi then e.d1 else e.d0
    | none => Config.freeWord (s.free * 2 ^ 64 + 2 ^ 60 + k)

/-- R183, R308: a read of `n` bytes of the device window. -/
def deviceRead (s : State) (pa n : Nat) : Nat :=
  leNat ((List.range n).map fun i => (deviceWord s ((pa + i) / 8)).extractLsb' (8 * ((pa + i) % 8)) 8)

/-- A doubleword with byte `i` replaced. -/
def setByte (d : Dword) (i : Nat) (b : Byte) : Dword :=
  (d &&& ~~~(0xFF#64 <<< (8 * i))) ||| (b.setWidth 64 <<< (8 * i))

/-- R414, R416: a byte written to the device window. A write to the region table is held pending; writing bit 0 of RTCOMMIT
commits, and while a commit is under way a second one starts afresh. A register that the manual does not describe lies
outside the machine: a write to it changes nothing here (assumption 19). -/
def devicePut (s : State) (pa : Nat) (b : Byte) : State :=
  if pa / 8 = Config.rtCommitAddr / 8 then (if pa % 8 = 0 ∧ b.getLsbD 0 then commitRegions s else s)
  else match regionWord (pa / 8) with
    | some (i, hi) =>
      let e := mget { d0 := 0, d1 := 0 } s.regionsPending i
      let e' : Region :=
        if hi then { e with d1 := setByte e.d1 (pa % 8) b &&& regionMask true }
        else { e with d0 := setByte e.d0 (pa % 8) b &&& regionMask false }
      { s with regionsPending := mput s.regionsPending i e' }
    | none => s

/-- R183, R308: a write of bytes to the device window. -/
def deviceWrite (s : State) (pa : Nat) (bs : List Byte) : State :=
  bs.zipIdx.foldl (fun s e => devicePut s (pa + e.2) e.1) s

/-! ### Flat reads and writes by hardware and lanes -/

/-- The outcome of a flat read or write of at most one page. -/
inductive Mem (α : Type) where
  | ok (s : State) (x : α)
  | wait
  | bad (c : Cause) (info : Dword) (dm : Bool)

/-- Go on after a memory operation that succeeded. -/
def Mem.bind {α β : Type} (a : Mem α) (f : State → α → Mem β) : Mem β :=
  match a with
  | .ok s x => f s x
  | .wait => .wait
  | .bad c i d => .bad c i d

/-- R182, R309: read `n` bytes at a virtual address; they lie in one page. -/
def flatRead (s : State) (w : Who) (va n : Nat) : Mem Nat :=
  if !vaOk (va % 2 ^ 64) then .bad .vaRange (BitVec.ofNat 64 va) false
  else match translate s w .read va with
  | .wait => .wait
  | .bad c dm => .bad c (BitVec.ofNat 64 va) dm
  | .ok key mt =>
    if mt = 3 then .ok (tlbFill s w va) (deviceRead s key n)
    else if uncLine s key n then .bad .memUnc (uncInfo 0 key) false
    else .ok (noteAccess s w va key) (loadNat s key n)

/-- R182: write `n` bytes at a virtual address; they lie in one page. -/
def flatWrite (s : State) (w : Who) (va n x : Nat) : Mem Unit :=
  if !vaOk (va % 2 ^ 64) then .bad .vaRange (BitVec.ofNat 64 va) false
  else match translate s w .write va with
  | .wait => .wait
  | .bad c dm => .bad c (BitVec.ofNat 64 va) dm
  | .ok key mt =>
    if mt = 3 then .ok (deviceWrite (tlbFill s w va) key (natBytes n x)) ()
    else .ok (storeNat (noteAccess s w va key) key n x) ()

/-- R182: an atomic read-modify-write of `n` bytes: `f` gives the new value. It answers the old value. -/
def flatRmw (s : State) (w : Who) (va n : Nat) (f : Nat → Nat) : Mem Nat :=
  if !vaOk (va % 2 ^ 64) then .bad .vaRange (BitVec.ofNat 64 va) false
  else match translate s w .atomic va with
  | .wait => .wait
  | .bad c dm => .bad c (BitVec.ofNat 64 va) dm
  | .ok key _ =>
    if uncLine s key n then .bad .memUnc (uncInfo 0 key) false
    else
      let old := loadNat s key n
      .ok (storeNat (noteAccess s w va key) key n (f old)) old

/-- The doublewords of a record of `k` doublewords that lies in one page. -/
def flatDwords (s : State) (w : Who) (va k : Nat) : Mem (List Dword) :=
  (flatRead s w va (8 * k)).bind fun s' x => .ok s' ((List.range k).map fun i => BitVec.ofNat 64 (x / 2 ^ (64 * i)))

/-! ## Instruction fetch -/

/-- R57: the virtual address of the word at a PC. -/
def codeAddr (s : State) (ctx pc : Nat) : Nat :=
  match s.ctx? ctx with | some c => c.codebase + 12 * pc | none => 0

/-- The `n` units of 4 bytes from a virtual address in one 64 KiB page, as (physical unit, contents), where they may be
fetched. -/
def pageUnits (s : State) (w : Who) (va n : Nat) : List (Nat × BitVec 32) :=
  if n = 0 ∨ !vaOk va then []
  else match translate s w .fetch va with
    | .ok key mt =>
      if mt < 2 then
        (List.range n).filterMap fun i =>
          if uncLine s (key / 4 * 4 + 4 * i) 4 then none
          else some (key / 4 + i, BitVec.ofNat 32 (loadNat s (key / 4 * 4 + 4 * i) 4))
      else []
    | _ => []

/-- R58, R301: the units of the line at a virtual address: they lie in one page or in two. A fault in a page leaves its units
out. -/
def lineUnits (s : State) (w : Who) (va : Nat) : List (Nat × BitVec 32) :=
  let n := min 48 ((2 ^ 16 - va % 2 ^ 16) / 4)
  pageUnits s w va n ++ pageUnits s w (va + 4 * n) (48 - n)

/-- R301: the contents of a unit in the instruction cache of a core. -/
def cachedUnit (s : State) (core u : Nat) : Option (BitVec 32) := (s.core core).icache.findSome? fun l => mfind l.units u

/-- R298, R301: a line enters an instruction cache of 384 lines. The manual gives neither the index of a set nor its
replacement, so a line may be displaced, and one is when the cache is full, by free choices (assumption 3). A unit lies in
one line. -/
def icacheInsert (seed : Nat) (us : List (Nat × BitVec 32)) (ls : List ILine) : List ILine :=
  let rest := (ls.map fun l => { units := l.units.filter fun u => !mhas us u.1 : ILine }).filter fun l => !l.units.isEmpty
  let rest := if !rest.isEmpty && (decide (384 ≤ rest.length) || Config.freeBool seed) then
    rest.eraseIdx (Config.freeNat seed % rest.length) else rest
  { units := us } :: rest

/-- R301, R311: the line at a virtual address is read into the instruction cache of the core, unless all of it is there. -/
def fillLine (s : State) (w : Who) (va : Nat) : State :=
  let us := lineUnits s w va
  if us.all fun u => (cachedUnit s w.core u.1).isSome then s
  else
    let s1 := match translate s w .fetch va with | .ok key _ => noteAccess s w va key | _ => s
    s1.modCore w.core fun k => { k with icache := icacheInsert (s.free * 2 ^ 64 + 2 ^ 61 + va % 2 ^ 57) us k.icache }

/-- R301: the lines of the word at a PC, and the line that follows them. The following line never displaces them. -/
def icacheFill (s : State) (w : Who) (pc : Nat) : State :=
  let va := codeAddr s w.ctx (pc / 16 * 16)
  fillLine (fillLine s w (va + 192)) w va

/-- R345: units of the word at a PC that have been written since they were cached may be read again, each by a free choice
(assumption 3): its line has left the cache and come back. -/
def icacheRefresh (s : State) (w : Who) (pc : Nat) : State :=
  let new := (pageUnits s w (codeAddr s w.ctx pc) 1 ++ pageUnits s w (codeAddr s w.ctx pc + 4) 1
      ++ pageUnits s w (codeAddr s w.ctx pc + 8) 1).filter fun u => Config.freeBool (s.free * 2 ^ 64 + 2 ^ 62 + u.1)
  s.modCore w.core fun k =>
    { k with icache := k.icache.map fun l => { units := l.units.map fun u => (u.1, mget u.2 new u.1) } }

/-- What fetching one word gives. -/
inductive Fetched where
  | word (w : IWord)
  | wait
  | halt (c : Cause) (info : Dword) (dm : Bool)

/-- R57, R58, R301: fetch one unit of 4 bytes, from the instruction cache when it is there. -/
def fetchAt (s : State) (w : Who) (va : Nat) : Except Fetched (BitVec 32) :=
  if !vaOk va then .error (.halt .vaRange (BitVec.ofNat 64 va) false)
  else match translate s w .fetch va with
    | .wait => .error .wait
    | .bad c dm => .error (.halt c (BitVec.ofNat 64 va) dm)
    | .ok key _ =>
      match cachedUnit s w.core (key / 4) with
      | some u => .ok u
      | none =>
        if uncLine s key 4 then .error (.halt .memUnc (uncInfo 0 key) false) else .ok (BitVec.ofNat 32 (loadNat s key 4))

/-- R57, R58: the word at the strand's PC, from three units; both pages must allow execution. -/
def fetch (s : State) (r : Ref) (x : Strand) : Fetched :=
  let w := x.who r
  let va := codeAddr s x.ctx x.pc
  if 2 ^ 32 ≤ x.pc then .halt .pcRange 0 false
  else match fetchAt s w va with
  | .error e => e
  | .ok a =>
    match fetchAt s w (va + 4) with
    | .error e => e
    | .ok b =>
      match fetchAt s w (va + 8) with
      | .error e => e
      | .ok c => .word (c ++ b ++ a)

/-- R354: the strand's next word is in the instruction cache: each unit that may be fetched is there. -/
def wordCached (s : State) (r : Ref) (x : Strand) : Bool :=
  [0, 4, 8].all fun i =>
    match translate s (x.who r) .fetch (codeAddr s x.ctx x.pc + i) with
    | .ok key _ => (cachedUnit s r.core (key / 4)).isSome || uncLine s key 4
    | _ => true

end Sys2Proof.Machine
end

