-- ==== Sys2Proof/Machine/Residue.lean ====
section
/-! DEFINITION. Residue arithmetic: bases (R46, R47, R49, R50), digits and quads (R113, R114, R133), mixed-radix conversion,
legitimacy and projection (R115, R277, R278). -/

namespace Sys2Proof.Machine

namespace Basis

/-- R46: the span. -/
def span (b : Basis) : Nat := b.prim.length

/-- R46: M. -/
def range (b : Basis) : Nat := b.prim.foldl (· * ·) 1

/-- R46: the live channels, in channel order. -/
def live (b : Basis) : List Nat := List.range b.span ++ [8, 9]

/-- R46: the modulus of channel `h`; none for a channel that idles or does not exist. -/
def modulus (b : Basis) (h : Nat) : Option Nat :=
  if h = 8 then some b.q0 else if h = 9 then some b.q1 else if h < 8 then b.prim[h]? else none

/-- The modulus of a live channel. -/
def mod (b : Basis) (h : Nat) : Nat := (b.modulus h).getD 1

end Basis

/-- R50: the default basis. -/
def defaultBasis : Basis := { prim := [256, 255, 253, 251, 247, 241, 239, 233], q0 := 257, q1 := 263 }

/-- R50: entry `e` of a context's basis table, when it is valid. -/
def basisOf (s : State) (ctx e : Nat) : Option Basis :=
  match s.ctx? ctx with
  | some c => mfind c.bases e
  | none => none

/-- R113: the digit of an integer. -/
def digit (x : Int) (m : Nat) : Nat := (x % (m : Int)).toNat

/-- R49: the inverse of `a` modulo `m`, for coprime numbers. -/
def modInv (a m : Nat) : Nat := ((List.range m).find? fun x => a * x % m == 1 % m).getD 0

/-- R277: one mixed-radix digit: the digit `x` of modulus `m` less the digits found so far. -/
def mrcDigit (x m : Nat) : List (Nat × Nat) → Nat
  | [] => x % m
  | (a, μ) :: rest => mrcDigit ((x + (m - a % m)) % m * modInv (μ % m) m % m) m rest

/-- R277: mixed-radix digits of `(digit, modulus)` pairs, each with its modulus, in order. -/
def mrcGo (done : List (Nat × Nat)) : List (Nat × Nat) → List (Nat × Nat)
  | [] => done
  | (x, m) :: rest => mrcGo (done ++ [(mrcDigit x m done, m)]) rest

def mrc (ds : List (Nat × Nat)) : List (Nat × Nat) := mrcGo [] ds

/-- R277: the value of mixed-radix digits. -/
def mrcValue : List (Nat × Nat) → Nat
  | [] => 0
  | (a, m) :: rest => a + m * mrcValue rest

/-- R115, R278: the signed value of U modulo M. -/
def signedOf (u m : Nat) : Int := if u < (m + 1) / 2 then u else (u : Int) - m

/-- The digits of a tuple with their moduli: `r h` is the digit of channel `h`. -/
def tupleOf (b : Basis) (chans : List Nat) (r : Nat → Nat) : List (Nat × Nat) := chans.map fun h => (r h, b.mod h)

/-- R115: X_P: the legitimate value that the primary digits name. -/
def primaryValue (b : Basis) (r : Nat → Nat) : Int :=
  signedOf (mrcValue (mrc (tupleOf b (List.range b.span) r))) b.range

/-- R115: the tuple is legitimate. -/
def legitimate (b : Basis) (r : Nat → Nat) : Bool :=
  let x := primaryValue b r
  digit x b.q0 == r 8 && digit x b.q1 == r 9

/-- R46: the legitimate range. -/
def inLegit (b : Basis) (v : Int) : Bool :=
  decide (-((b.range / 2 : Nat) : Int) ≤ v) && decide (v < (((b.range + 1) / 2 : Nat) : Int))

/-- R278: the signed value of the conversion over some channels, tested as a projection. -/
def projection (b : Basis) (chans : List Nat) (r : Nat → Nat) : Int × Bool :=
  let t := tupleOf b chans r
  let v := signedOf (mrcValue (mrc t)) (t.foldl (fun p e => p * e.2) 1)
  (v, inLegit b v)

/-! ## Digit quads (R133) -/

/-- R133: the quad of a tuple, as a number of 128 bits. -/
def quadOf (b : Basis) (r : Nat → Nat) : Nat :=
  (List.range 8).foldl (fun acc h => acc + (if h < b.span then r h % 256 * 2 ^ (8 * h) else 0)) 0
    + r 8 % 512 * 2 ^ 64 + r 9 % 512 * 2 ^ 80

/-- R114, R133: the digit of channel `h` that a quad holds, as stored: a byte, or the low nine bits of a half. -/
def quadRaw (q h : Nat) : Nat :=
  if h = 8 then q / 2 ^ 64 % 512 else if h = 9 then q / 2 ^ 80 % 512 else q / 2 ^ (8 * h) % 256

/-- R114: the digit, reduced modulo the channel's modulus. -/
def quadDigit (b : Basis) (q h : Nat) : Nat := quadRaw q h % b.mod h

/-- R116, R274: 2^k modulo m. -/
def pow2Mod (k m : Nat) : Nat := 2 ^ k % m

/-! ## Installing a basis (R46, R47) -/

/-- R47: half `i` of a descriptor. -/
def halfAt (ds : List Dword) (i : Nat) : Nat := (ds.getD (i / 4) 0).toNat / 2 ^ (16 * (i % 4)) % 65536

/-- R47: half `i` passes on its own. -/
def halfOk (hs : Nat → Nat) (i : Nat) : Bool :=
  let n := hs 10
  let span := decide (1 ≤ n ∧ n ≤ 8)
  let x := hs i
  if i < 8 then
    if span then (if i < n then decide (2 ≤ x ∧ x ≤ 256) else x == 0) else x == 0 || decide (2 ≤ x ∧ x ≤ 256)
  else if i < 10 then
    decide (2 ≤ x ∧ x ≤ 512) && (!span || (List.range n).all fun j => decide (hs j < x))
  else if i = 10 then span
  else x == 0

/-- R47: the first pair of moduli, in channel order, that share a factor, as half indices. -/
def commonFactor (hs : Nat → Nat) : Option (Nat × Nat) :=
  let idx := List.range (hs 10) ++ [8, 9]
  (idx.flatMap fun i => (idx.filter fun j => decide (i < j)).map fun j => (i, j)).find? fun p =>
    Nat.gcd (hs p.1) (hs p.2) != 1

/-- R47: a descriptor gives its basis, or TINFO of the failure. -/
def checkBasis (ds : List Dword) : Except Dword Basis :=
  let hs := halfAt ds
  match (List.range 16).find? fun i => !halfOk hs i with
  | some i => .error (BitVec.ofNat 64 (i * 2 ^ 16))
  | none =>
    match commonFactor hs with
    | some (i, j) => .error (BitVec.ofNat 64 (0xFF * 2 ^ 16 + i * 2 ^ 8 + j))
    | none => .ok { prim := (List.range (hs 10)).map hs, q0 := hs 8, q1 := hs 9 }

end Sys2Proof.Machine
end

