-- ==== Sys2Proof/Machine/Integer.lean ====
section
/-! DEFINITION. The integer and address instructions (R122 to R131), but for MOV, which also writes special registers and
reaches the queues. -/

namespace Sys2Proof.Machine

/-! ## Results -/

/-- R123: an exact result fitted to its type, as a register holds it, with FPSR.SAT. -/
def fitted (t : Ty) (sat : Bool) (x : Int) : Dword × BitVec 6 :=
  let a := intFit t sat x
  (intReg a.1, if a.2 then fSAT else 0)

/-- R121, R124: a pattern of the type's width, as a register holds it. -/
def pattern (t : Ty) (w : Nat) : Dword × BitVec 6 := (intReg (intRead t w), 0)

/-- A flag in a predicate, a condition or a register. -/
def boolRes (b : Bool) : Dword × BitVec 6 := (if b then 1 else 0, 0)

/-- A T3 instruction of the integer classes (R61, R122). -/
def intBody (f : T3) (g : Reader → Dword × BitVec 6) : State → Ref → Strand → Res :=
  regBody fun s r x => byKind s r x (f.d.isV || f.d.isP) f.hd f.ty.vregs f.d g

/-- An I32 instruction of the integer classes. -/
def intBodyI (f : I32) (g : Reader → Dword × BitVec 6) : State → Ref → Strand → Res :=
  regBody fun s r x => byKind s r x (f.d.isV || f.d.isP) f.hd f.ty.vregs f.d g

/-- R92: an operand read as the type. -/
def intVal (t : Ty) (rd : Reader) (o : Opnd) : Int := intRead t (rd t.vregs o)

/-- R122: the immediate of an I32 word, read as the type. -/
def immVal (f : I32) : Int := intRead f.ty (immI32 f.ty f.imm)

/-- R124: the bits of an operand of the type's width. -/
def bitsVal (t : Ty) (rd : Reader) (o : Opnd) : Nat := rd t.vregs o % 2 ^ t.bits

/-! ## Arithmetic (R123) -/

/-- R121, R123: an untyped ADD is one of .i32, of s registers too (assumption 111). -/
def execAdd (f : T3) (s : State) : Host.Outcome State Fault Refusal :=
  issue (.add f) s (intBody f fun rd => fitted f.ty f.sat (intVal f.ty rd f.a + intVal f.ty rd f.b))

def execAddI32 (f : I32) (s : State) : Host.Outcome State Fault Refusal :=
  issue (.addI32 f) s (intBodyI f fun rd => fitted f.ty false (intVal f.ty rd f.a + immVal f))

def execSub (f : T3) (s : State) : Host.Outcome State Fault Refusal :=
  issue (.sub f) s (intBody f fun rd => fitted f.ty f.sat (intVal f.ty rd f.a - intVal f.ty rd f.b))

def execMul (f : T3) (s : State) : Host.Outcome State Fault Refusal :=
  issue (.mul f) s (intBody f fun rd => fitted f.ty f.sat (intVal f.ty rd f.a * intVal f.ty rd f.b))

def execMulI32 (f : I32) (s : State) : Host.Outcome State Fault Refusal :=
  issue (.mulI32 f) s (intBodyI f fun rd => fitted f.ty false (intVal f.ty rd f.a * immVal f))

/-- R123: the high half of the product; div rounds toward minus infinity. -/
def mulHigh (t : Ty) (a b : Int) : Int := a * b / (2 ^ t.bits : Nat)

def execMulh (f : T3) (s : State) : Host.Outcome State Fault Refusal :=
  issue (.mulh f) s (intBody f fun rd => fitted f.ty false (mulHigh f.ty (intVal f.ty rd f.a) (intVal f.ty rd f.b)))

def execMad (f : T3) (s : State) : Host.Outcome State Fault Refusal :=
  issue (.mad f) s (intBody f fun rd =>
    fitted f.ty f.sat (intVal f.ty rd f.a * intVal f.ty rd f.b + intVal f.ty rd f.c))

def execAbs (f : T3) (s : State) : Host.Outcome State Fault Refusal :=
  issue (.abs f) s (intBody f fun rd => fitted f.ty f.sat (intVal f.ty rd f.a).natAbs)

def execNeg (f : T3) (s : State) : Host.Outcome State Fault Refusal :=
  issue (.neg f) s (intBody f fun rd => fitted f.ty f.sat (-(intVal f.ty rd f.a)))

def execMin (f : T3) (s : State) : Host.Outcome State Fault Refusal :=
  issue (.min f) s (intBody f fun rd => fitted f.ty false (min (intVal f.ty rd f.a) (intVal f.ty rd f.b)))

def execMax (f : T3) (s : State) : Host.Outcome State Fault Refusal :=
  issue (.max f) s (intBody f fun rd => fitted f.ty false (max (intVal f.ty rd f.a) (intVal f.ty rd f.b)))

/-! ## Logic (R124) -/

/-- R124: a logical instruction of T3 form on registers, predicates, conditions or masks. -/
def logicBody (f : T3) (g : Nat → Nat → Nat) (m : Mask → Mask → Mask) : State → Ref → Strand → Res :=
  match f.d with
  | .k k => regBody fun _ _ x => (x.setK k.toNat (m (maskOp x f.a) (maskOp x f.b)), 0)
  | .p _ | .c _ => intBody f fun rd => (BitVec.ofNat 64 (g (rd 1 f.a) (rd 1 f.b) % 2), 0)
  | _ => intBody f fun rd => pattern f.ty (g (bitsVal f.ty rd f.a) (bitsVal f.ty rd f.b))

/-- R124: a AND NOT b, on patterns of up to 64 bits. -/
def andNot (a b : Nat) : Nat := a &&& ((2 ^ 64 - 1) ^^^ (b % 2 ^ 64))

def execAnd (f : T3) (s : State) : Host.Outcome State Fault Refusal :=
  issue (.and f) s (logicBody f (· &&& ·) (· &&& ·))

def execAndI32 (f : I32) (s : State) : Host.Outcome State Fault Refusal :=
  issue (.andI32 f) s (intBodyI f fun rd => pattern f.ty (bitsVal f.ty rd f.a &&& immI32 f.ty f.imm % 2 ^ f.ty.bits))

def execOr (f : T3) (s : State) : Host.Outcome State Fault Refusal :=
  issue (.or f) s (logicBody f (· ||| ·) (· ||| ·))

def execOrI32 (f : I32) (s : State) : Host.Outcome State Fault Refusal :=
  issue (.orI32 f) s (intBodyI f fun rd => pattern f.ty (bitsVal f.ty rd f.a ||| immI32 f.ty f.imm % 2 ^ f.ty.bits))

def execXor (f : T3) (s : State) : Host.Outcome State Fault Refusal :=
  issue (.xor f) s (logicBody f (· ^^^ ·) (· ^^^ ·))

def execXorI32 (f : I32) (s : State) : Host.Outcome State Fault Refusal :=
  issue (.xorI32 f) s (intBodyI f fun rd => pattern f.ty (bitsVal f.ty rd f.a ^^^ immI32 f.ty f.imm % 2 ^ f.ty.bits))

def execAndn (f : T3) (s : State) : Host.Outcome State Fault Refusal :=
  issue (.andn f) s (logicBody f andNot fun a b => a &&& ~~~b)

/-! ## Shifts and bit fields (R125 to R127) -/

/-- R125: SHL of `a` by `n` in width `w`. -/
def shiftLeft (w a n : Nat) : Nat := if w ≤ n then 0 else a * 2 ^ n % 2 ^ w
/-- R125: SHR. -/
def shiftRight (w a n : Nat) : Nat := if w ≤ n then 0 else a / 2 ^ n
/-- R125: SAR: the signed number divided by 2^n, rounding down. -/
def shiftArith (w a n : Nat) : Nat :=
  let x : Int := if a < 2 ^ (w - 1) then a else (a : Int) - (2 ^ w : Nat)
  ((x / (2 ^ min n w : Nat)) % (2 ^ w : Nat)).toNat

def execShl (f : T3) (s : State) : Host.Outcome State Fault Refusal :=
  issue (.shl f) s (intBody f fun rd => pattern f.ty (shiftLeft f.ty.bits (bitsVal f.ty rd f.a) (rd 1 f.b)))

def execShr (f : T3) (s : State) : Host.Outcome State Fault Refusal :=
  issue (.shr f) s (intBody f fun rd => pattern f.ty (shiftRight f.ty.bits (bitsVal f.ty rd f.a) (rd 1 f.b)))

def execSar (f : T3) (s : State) : Host.Outcome State Fault Refusal :=
  issue (.sar f) s (intBody f fun rd => pattern f.ty (shiftArith f.ty.bits (bitsVal f.ty rd f.a) (rd 1 f.b)))

/-- R126: the control value of BFX and BFI. -/
def bfControl (f : T3) (rd : Reader) : Nat := if f.opx.getLsbD 23 then bitsOf f.opx 0 15 else rd 1 f.b

/-- R126: the clipped field (pos, len). -/
def bfField (w c : Nat) : Nat × Nat :=
  let pos := min (c % 128) w
  (pos, min (c / 256 % 128) (w - pos))

/-- R126: BFX. -/
def bfExtract (t : Ty) (a c : Nat) : Dword × BitVec 6 :=
  let (pos, len) := bfField t.bits c
  let x := a / 2 ^ pos % 2 ^ len
  if t.isUnsigned || len = 0 || x < 2 ^ (len - 1) then (intReg x, 0) else (intReg ((x : Int) - (2 ^ len : Nat)), 0)

/-- R126: BFI. -/
def bfInsert (t : Ty) (a b c : Nat) : Dword × BitVec 6 :=
  let (pos, len) := bfField t.bits c
  pattern t (b - b / 2 ^ pos % 2 ^ len * 2 ^ pos + a % 2 ^ len * 2 ^ pos)

def execBfx (f : T3) (s : State) : Host.Outcome State Fault Refusal :=
  issue (.bfx f) s (intBody f fun rd => bfExtract f.ty (bitsVal f.ty rd f.a) (bfControl f rd))

def execBfi (f : T3) (s : State) : Host.Outcome State Fault Refusal :=
  issue (.bfi f) s (intBody f fun rd => bfInsert f.ty (bitsVal f.ty rd f.a) (bitsVal f.ty rd f.c) (bfControl f rd))

/-- R127: the number of 1 bits among the low `w`. -/
def popCount (w a : Nat) : Nat := ((List.range w).filter fun i => a.testBit i).length
/-- R127: leading zeros in width `w`. -/
def leadingZeros (w a : Nat) : Nat := if a = 0 then w else w - 1 - a.log2
/-- R127: the bits of width `w` reversed. -/
def reverseBits (w a : Nat) : Nat :=
  (List.range w).foldl (fun acc i => if a.testBit i then acc + 2 ^ (w - 1 - i) else acc) 0

def execPopc (f : T3) (s : State) : Host.Outcome State Fault Refusal :=
  issue (.popc f) s (intBody f fun rd => pattern f.ty (popCount f.ty.bits (bitsVal f.ty rd f.a)))

def execClz (f : T3) (s : State) : Host.Outcome State Fault Refusal :=
  issue (.clz f) s (intBody f fun rd => pattern f.ty (leadingZeros f.ty.bits (bitsVal f.ty rd f.a)))

def execBrev (f : T3) (s : State) : Host.Outcome State Fault Refusal :=
  issue (.brev f) s (intBody f fun rd => pattern f.ty (reverseBits f.ty.bits (bitsVal f.ty rd f.a)))

/-! ## Compare and select (R128, R129) -/

/-- R128: the relation codes. -/
def intRel (code : Nat) (a b : Int) : Bool :=
  match code with
  | 0 => a == b
  | 1 => a != b
  | 2 => decide (a < b)
  | 3 => decide (a ≤ b)
  | 4 => decide (b < a)
  | _ => decide (b ≤ a)

/-- R128: the combine codes. -/
def combine (code : Nat) (new old : Bool) : Bool :=
  match code with
  | 0 => new
  | 1 => new && old
  | _ => new || old

def execCmp (f : T3) (s : State) : Host.Outcome State Fault Refusal :=
  issue (.cmp f) s (intBody f fun rd =>
    boolRes (combine (bitsOf f.opx 4 2) (intRel (bitsOf f.opx 0 4) (intVal f.ty rd f.a) (intVal f.ty rd f.b))
      (rd 1 f.d != 0)))

def execCmpI32 (f : I32) (s : State) : Host.Outcome State Fault Refusal :=
  issue (.cmpI32 f) s (intBodyI f fun rd =>
    boolRes (combine (bitsOf f.opx 4 2) (intRel (bitsOf f.opx 0 4) (intVal f.ty rd f.a) (immVal f)) (rd 1 f.d != 0)))

def execSel (f : T3) (s : State) : Host.Outcome State Fault Refusal :=
  issue (.sel f) s (intBody f fun rd =>
    pattern f.ty (if rd 1 f.c != 0 then bitsVal f.ty rd f.a else bitsVal f.ty rd f.b))

/-! ## Literals and addresses (R130, R131) -/

/-- R130: the immediate of MOV's I32 form. -/
def execMovI32 (f : I32) (s : State) : Host.Outcome State Fault Refusal :=
  issue (.movI32 f) s (intBodyI f fun _ => pattern f.ty (immI32 f.ty f.imm))

def execMovl (f : LForm) (s : State) : Host.Outcome State Fault Refusal :=
  issue (.movl f) s (regBody fun s r x => byKind s r x f.d.isV f.hd 2 f.d fun _ => (f.lit, 0))

/-- R131: the extension of LEA's B. -/
def leaExt (zx : Bool) (b : Nat) : Int := if zx then (b % 2 ^ 32 : Nat) else (BitVec.ofNat 32 b).toInt

def execLea (f : T3) (s : State) : Host.Outcome State Fault Refusal :=
  issue (.lea f) s (regBody fun s r x => byKind s r x f.d.isV f.hd 2 f.d fun rd =>
    (BitVec.ofInt 64 ((rd 2 f.a : Int) + leaExt (f.opx.getLsbD 3) (rd 1 f.b) * (2 ^ bitsOf f.opx 0 3 : Nat)), 0))

def execLeaI32 (f : I32) (s : State) : Host.Outcome State Fault Refusal :=
  issue (.leaI32 f) s (regBody fun s r x => byKind s r x f.d.isV f.hd 2 f.d fun rd =>
    (BitVec.ofInt 64 ((rd 2 f.a : Int) + f.imm.toInt), 0))

end Sys2Proof.Machine
end

