-- ==== Sys2Proof/Machine/Modular.lean ====
section
/-! DEFINITION. The modular lane instructions (R132 to R134). -/

namespace Sys2Proof.Machine

/-- R132: where an instruction takes its modulus: each lane's C, or a channel of a basis. -/
inductive ModSrc where
  | lane
  | fixed (m : Nat)
  | invalid
  deriving DecidableEq, Repr

/-- R132: the modulus source of a word. -/
def modSource (s : State) (x : Strand) (f : T3) : ModSrc :=
  if f.opx.getLsbD 7 then
    match basisOf s x.ctx (bitsOf f.opx 4 3) with
    | none => .invalid
    | some b => match b.modulus (bitsOf f.opx 0 4) with | some m => .fixed m | none => .invalid
  else .lane

/-- R132: one lane's result under modulus `m`: a lane modulus outside 2..512 gives all ones and IV. -/
def modResult (src : ModSrc) (c : Nat) (g : Nat → Nat) : Dword × BitVec 6 :=
  match src with
  | .fixed m => (BitVec.ofNat 64 (g m), 0)
  | _ => if 2 ≤ c ∧ c ≤ 512 then (BitVec.ofNat 64 (g c), 0) else (0xFFFFFFFF, fIV)

/-- R132: a modular instruction; `g` computes a lane's digit from its reader and the modulus. TINFO of BAD_BASIS is zero
(assumption 41). -/
def modBody (f : T3) (g : Reader → Nat → Nat) : State → Ref → Strand → Res := fun s r x =>
  match modSource s x f with
  | .invalid => .trap .badBasis 0
  | src =>
    let a := perLane x (x.acting f.hd) 1 f.d fun l =>
      modResult src (laneOp s r x 1 l f.c) (g (laneReader s r x l))
    .done (s.setStrand r a.1) a.2

def execMaddm (f : T3) (s : State) : Host.Outcome State Fault Refusal :=
  issue (.maddm f) s (modBody f fun rd m => (rd 1 f.a % m + rd 1 f.b % m) % m)

def execMsubm (f : T3) (s : State) : Host.Outcome State Fault Refusal :=
  issue (.msubm f) s (modBody f fun rd m => (rd 1 f.a % m + (m - rd 1 f.b % m)) % m)

def execMmulm (f : T3) (s : State) : Host.Outcome State Fault Refusal :=
  issue (.mmulm f) s (modBody f fun rd m => (rd 1 f.a % m) * (rd 1 f.b % m) % m)

def execMmacm (f : T3) (s : State) : Host.Outcome State Fault Refusal :=
  issue (.mmacm f) s (modBody f fun rd m => ((rd 1 f.a % m) * (rd 1 f.b % m) + rd 1 f.c % m) % m)

def execMred (f : T3) (s : State) : Host.Outcome State Fault Refusal :=
  issue (.mred f) s (modBody f fun rd m => digit (intVal f.ty rd f.a) m)

/-- The number of an operand's vector register. -/
def Opnd.vIndex (o : Opnd) : Nat := match o with | .v r => r.toNat | _ => 0

/-- R133: write the four registers of a quad in lane `l`. -/
def setQuad (l d q : Nat) (x : Strand) : Strand :=
  (List.range 4).foldl (fun y j => y.setV l (d + j) (BitVec.ofNat 32 (q / 2 ^ (32 * j)))) x

/-- R133, R134: the quad that four registers hold. -/
def getQuad (x : Strand) (l a : Nat) : Nat :=
  (List.range 4).foldl (fun acc j => acc + (x.vreg l (a + j)).toNat * 2 ^ (32 * j)) 0

def execRspl (f : T3) (s : State) : Host.Outcome State Fault Refusal :=
  issue (.rspl f) s fun s r x =>
    match basisOf s x.ctx (bitsOf f.opx 4 3) with
    | none => .trap .badBasis 0
    | some b =>
      .done (s.setStrand r ((x.acting f.hd).foldl (fun y l =>
        setQuad l (Opnd.vIndex f.d) (quadOf b fun h => digit (intVal f.ty (laneReader s r x l) f.a) (b.mod h)) y) x)) 0

/-- R134: one lane of RMRC: the value to the pair, the check to the predicate named, if any. -/
def rmrcLane (b : Basis) (f : T3) (x : Strand) (l : Nat) (y : Strand) : Strand :=
  let r := quadDigit b (getQuad x l (Opnd.vIndex f.a))
  let y := writeLane 2 f.d l (intReg (primaryValue b r)) y
  y.setPbit l (bitsOf f.opx 8 3) (legitimate b r)

def execRmrc (f : T3) (s : State) : Host.Outcome State Fault Refusal :=
  issue (.rmrc f) s fun s r x =>
    match basisOf s x.ctx (bitsOf f.opx 4 3) with
    | none => .trap .badBasis 0
    | some b => .done (s.setStrand r ((x.acting f.hd).foldl (fun y l => rmrcLane b f x l y) x)) 0

end Sys2Proof.Machine
end

