-- ==== Sys2Proof/Machine/Floating.lean ====
section
/-! DEFINITION. The floating-point instructions (R135 to R139), the special functions (R140), the conversions (R141, R142)
and the paired form (R77 to R80). -/

namespace Sys2Proof.Machine

/-! ## Operands -/

/-- R60, R121: the code an operand holds in a type. An immediate stands for its integer value, rounded where the format does not
hold it (assumption 99). -/
def codeVal (t : Ty) (rd : Reader) (o : Opnd) : Nat :=
  match o with
  | .imm k => if t.isFloat then ((fmtOf t).ofFp .ne false (Fp.ofInt k.toInt)).1 else intBits t k.toInt
  | _ => lowBits t (rd t.vregs o)

/-- A code with its flags, as a register holds it (R121). -/
def codeRes (a : Nat × BitVec 6) : Dword × BitVec 6 := (BitVec.ofNat 64 a.1, a.2)

/-- A floating-point instruction: lanes only. -/
def fpBody (f : T3) (g : RMode → Reader → Dword × BitVec 6) : State → Ref → Strand → Res :=
  regBody fun s r x => perLane x (x.acting f.hd) f.ty.vregs f.d fun l => g (rmode f.rnd x.fpsr) (laneReader s r x l)

/-! ## Arithmetic -/

def execFadd (f : T3) (s : State) : Host.Outcome State Fault Refusal :=
  issue (.fadd f) s (fpBody f fun m rd =>
    codeRes (fadd (fmtOf f.ty) m f.sat (codeVal f.ty rd f.a) (codeVal f.ty rd f.b)))

def execFsub (f : T3) (s : State) : Host.Outcome State Fault Refusal :=
  issue (.fsub f) s (fpBody f fun m rd =>
    codeRes (fsub (fmtOf f.ty) m f.sat (codeVal f.ty rd f.a) (codeVal f.ty rd f.b)))

def execFmul (f : T3) (s : State) : Host.Outcome State Fault Refusal :=
  issue (.fmul f) s (fpBody f fun m rd =>
    codeRes (fmul (fmtOf f.ty) m f.sat (codeVal f.ty rd f.a) (codeVal f.ty rd f.b)))

def execFfma (f : T3) (s : State) : Host.Outcome State Fault Refusal :=
  issue (.ffma f) s (fpBody f fun m rd =>
    codeRes (ffma (fmtOf f.ty) m f.sat (codeVal f.ty rd f.a) (codeVal f.ty rd f.b) (codeVal f.ty rd f.c)))

def execFmin (f : T3) (s : State) : Host.Outcome State Fault Refusal :=
  issue (.fmin f) s (fpBody f fun _ rd =>
    codeRes (fminmax (fmtOf f.ty) false (codeVal f.ty rd f.a) (codeVal f.ty rd f.b)))

def execFmax (f : T3) (s : State) : Host.Outcome State Fault Refusal :=
  issue (.fmax f) s (fpBody f fun _ rd =>
    codeRes (fminmax (fmtOf f.ty) true (codeVal f.ty rd f.a) (codeVal f.ty rd f.b)))

/-- R138: the predicate of FCMP under its combine code. -/
def fcmpRes (f : T3) (rd : Reader) : Dword × BitVec 6 :=
  let a := fcmp (fmtOf f.ty) (bitsOf f.opx 0 4) (codeVal f.ty rd f.a) (codeVal f.ty rd f.b)
  ((boolRes (combine (bitsOf f.opx 4 2) a.1 (rd 1 f.d != 0))).1, a.2)

def execFcmp (f : T3) (s : State) : Host.Outcome State Fault Refusal :=
  issue (.fcmp f) s (fpBody f fun _ rd => fcmpRes f rd)

def execFclass (f : T3) (s : State) : Host.Outcome State Fault Refusal :=
  issue (.fclass f) s (regBody fun s r x => perLane x (x.acting f.hd) 1 f.d fun l =>
    (BitVec.ofNat 64 (fclass (fmtOf f.ty) (codeVal f.ty (laneReader s r x l) f.a)), 0))

/-! ## Special functions (R140) -/

/-- R140: a special function: it reads at issue and writes at its completion. -/
def sfuBody (i : Instr) (f : T3) (g : Nat → Nat × BitVec 6) : State → Ref → Strand → Res :=
  longBody i fun s r x => (x.acting f.hd).foldl (fun acc l =>
    let a := g (codeVal .f32 (laneReader s r x l) f.a)
    (acc.1 ++ laneWrites 1 f.d l (BitVec.ofNat 64 a.1), acc.2 ||| a.2)) ([], 0)

def execFrcp (f : T3) (s : State) : Host.Outcome State Fault Refusal := issue (.frcp f) s (sfuBody (.frcp f) f frcp)
def execFrsq (f : T3) (s : State) : Host.Outcome State Fault Refusal := issue (.frsq f) s (sfuBody (.frsq f) f frsq)
def execFexp2 (f : T3) (s : State) : Host.Outcome State Fault Refusal :=
  issue (.fexp2 f) s (sfuBody (.fexp2 f) f fexp2)
def execFlog2 (f : T3) (s : State) : Host.Outcome State Fault Refusal :=
  issue (.flog2 f) s (sfuBody (.flog2 f) f flog2Code)
def execFsin (f : T3) (s : State) : Host.Outcome State Fault Refusal := issue (.fsin f) s (sfuBody (.fsin f) f fsin)
def execFcos (f : T3) (s : State) : Host.Outcome State Fault Refusal := issue (.fcos f) s (sfuBody (.fcos f) f fcos)

/-! ## Conversion (R141, R142) -/

def execCvt (f : T3) (s : State) : Host.Outcome State Fault Refusal :=
  issue (.cvt f) s (fpBody f fun m rd =>
    let src := f.srcTy.getD .none
    cvt f.ty src m f.sat (codeVal src rd f.a))

def execCvts (f : T3) (s : State) : Host.Outcome State Fault Refusal :=
  issue (.cvts f) s (fpBody f fun m rd =>
    let src := f.srcTy.getD .none
    cvts f.ty src m f.sat (codeVal src rd f.a) (rd 1 f.b % 65536))

/-! ## Pairs (R77 to R80) -/

/-- R70: the rounding that SM carries. -/
def smRnd (sm : BitVec 3) : Rnd := (Rnd.ofBits sm).getD .dyn

/-- R79, R80: one half-op in lane `l`: the word it writes and its flags; none for a NOP half. -/
def halfOp (h : HalfOp) (x : Strand) (l : Nat) : Option (Word × BitVec 6) :=
  let a := (x.vreg l h.a.toNat).toNat
  let b := (x.vreg l h.b.toNat).toNat
  let c := (x.vreg l h.c.toNat).toNat
  let ia := intRead .i32 a
  let ib := intRead .i32 b
  let m := rmode (smRnd h.sm) x.fpsr
  let t : Ty := if h.sm.getLsbD 0 then .n32 else .i32
  let word (w : Dword × BitVec 6) : Option (Word × BitVec 6) := some (w.1.setWidth 32, w.2)
  let code (w : Nat × BitVec 6) : Option (Word × BitVec 6) := some (BitVec.ofNat 32 w.1, w.2)
  match h.sop.toNat with
  | 0x01 => word (fitted .i32 false (ia + ib))
  | 0x02 => word (fitted .i32 false (ia - ib))
  | 0x03 => word (fitted t false (min (intRead t a) (intRead t b)))
  | 0x04 => word (fitted t false (max (intRead t a) (intRead t b)))
  | 0x05 => word (pattern .i32 (a &&& b))
  | 0x06 => word (pattern .i32 (a ||| b))
  | 0x07 => word (pattern .i32 (a ^^^ b))
  | 0x08 => word (pattern .i32 (andNot a b))
  | 0x09 => word (pattern .i32 (shiftLeft 32 a b))
  | 0x0A => word (pattern .i32 (shiftRight 32 a b))
  | 0x0B => word (pattern .i32 (shiftArith 32 a b))
  | 0x0C => word (pattern .i32 a)
  | 0x0D => word (pattern .i32 (if x.pbit l h.sm.toNat then a else b))
  | 0x0E => word (fitted .i32 false ia.natAbs)
  | 0x0F => word (fitted .i32 false (-ia))
  | 0x10 => code (fminmax f32 false a b)
  | 0x11 => code (fminmax f32 true a b)
  | 0x41 => word (fitted .i32 false (ia * ib))
  | 0x42 => word (fitted t false (mulHigh t (intRead t a) (intRead t b)))
  | 0x43 => word (fitted .i32 false (ia * ib + intRead .i32 c))
  | 0x44 => code (fadd f32 m false a b)
  | 0x45 => code (fsub f32 m false a b)
  | 0x46 => code (fmul f32 m false a b)
  | 0x47 => code (ffma f32 m false a b c)
  | 0x48 => word (cvt .f32 .i32 m false a)
  | 0x49 => word (cvt .i32 .f32 m false a)
  | 0x4A => word (cvt .f32 .n32 m false a)
  | 0x4B => word (cvt .n32 .f32 m false a)
  | _ => none

/-- R79: write one half's result. -/
def halfWrite (h : HalfOp) (x : Strand) (l : Nat) (acc : Strand × BitVec 6) : Strand × BitVec 6 :=
  match halfOp h x l with
  | none => acc
  | some (w, fl) => (acc.1.setV l h.d.toNat w, acc.2 ||| fl)

/-- R79: both halves read the strand as it was before either wrote. -/
def execPair (f : PairForm) (s : State) : Host.Outcome State Fault Refusal :=
  issue (.pair f) s (regBody fun _ _ x =>
    (x.acting f.hd).foldl (fun acc l => halfWrite f.op1 x l (halfWrite f.op0 x l acc)) (x, 0))

end Sys2Proof.Machine
end

