-- ==== Sys2Proof/Machine/Life.lean ====
section
/-! DEFINITION. The life of tokens and strands: naming a token (R51, R251), which entries can be reallocated (R219, R226,
R260), how an entry becomes terminal (R54, R213, R222), binding to an issue slot (R354), the start of a strand (R55, R353),
its end (R171, R220), and the register file of a slot (R176, R352). -/

namespace Sys2Proof.Machine

/-! ## Clock (R9, R404) -/

/-- R404, R409: the operating point. -/
def opPoint (s : State) : Nat := if s.kettle.saved.isSome then 3 else min 3 (mget 0 s.kettle.depths 8)

/-- R404: the length of a cycle, in units of 1/128.7 GHz. -/
def cycleUnits (s : State) : Nat := match opPoint s with | 0 => 99 | 1 => 117 | 2 => 143 | _ => 198

/-- A duration in cycles at the clock in force, rounded up. -/
def inCycles (s : State) (units : Nat) : Nat := (units + cycleUnits s - 1) / cycleUnits s

/-- R9: one microsecond. -/
def microsecond : Nat := 128700

/-! ## Naming a token (R51, R251) -/

def tokCore (t : Word) : Nat := (t.extractLsb' 24 8).toNat
def tokIdx (t : Word) : Nat := (t.extractLsb' 15 9).toNat
def tokGen (t : Word) : Nat := (t.extractLsb' 0 15).toNat

/-- R51: the token of an entry. -/
def tokWord (core idx gen : Nat) : Word := BitVec.ofNat 32 (core * 2 ^ 24 + idx * 2 ^ 15 + gen)

/-- R251: what a token names. -/
inductive Named where
  | null | foreign | stale | current (idx : Nat)
  deriving DecidableEq, Repr

/-- R251: Resolve. -/
def resolve (s : State) (core slot : Nat) (t : Word) : Named :=
  if tokGen t = 0 then .null
  else if tokCore t ≠ core then .foreign
  else
    let e := s.token core (tokIdx t)
    if e.gen ≠ tokGen t ∨ e.cslot ≠ slot then .stale else .current (tokIdx t)

/-- R52: the entry, as its token. -/
def Token.word (core idx : Nat) (e : Token) : Word := tokWord core idx e.gen

/-- R54: the token counts in its owner's counts. -/
def Token.attached (e : Token) : Bool := !e.det && !e.orph

/-- R52: the entry as its four doublewords, lowest first. -/
def Token.dwords (e : Token) : List Dword :=
  [ BitVec.ofNat 64 (e.st.code * 2 ^ 29 + e.cls * 2 ^ 32 + e.fact.toNat * 2 ^ 36
      + e.orph.toNat * 2 ^ 38 + e.det.toNat * 2 ^ 39 + e.prio.toNat * 2 ^ 40 + e.owner * 2 ^ 42 + e.cslot * 2 ^ 48
      + e.gen * 2 ^ 49)
  , BitVec.ofNat 64 (e.cause * 2 ^ 16 + e.cinc.toNat * 2 ^ 32)
  , e.caddr
  , e.tag ++ (0 : BitVec 16) ++ e.pred ]

/-! ## Changing the owner of a token -/

/-- Change the strand that owns a token, resident or saved (R226). -/
def modOwner (s : State) (core : Nat) (e : Token) (f : Strand → Strand) : State :=
  let hit (x : Strand) : Bool := x.ctx == e.ctx && x.slot == e.cslot
  let s1 := s.modStrand { core := core, strid := e.owner } fun x => if hit x then f x else x
  { s1 with images := s1.images.map fun g =>
      if g.core == core && g.ctx == e.ctx then { g with strands := mmod g.strands e.owner f } else g }

/-- R222: release the ranges of an operation, resident or saved. -/
def releaseRanges (s : State) (core idx : Nat) : State :=
  let drop (q : Slot) : Slot := { q with ranges := q.ranges.filter fun a => a.idx != idx }
  let s1 := s.modCore core fun k => { k with slots := k.slots.map fun e => (e.1, drop e.2) }
  { s1 with images := s1.images.map fun g => if g.core == core then { g with data := drop g.data } else g }

/-- R213, R54: an entry becomes terminal: its owner's count falls and its ranges are released. A terminal entry keeps its
state. -/
def endToken (s : State) (core idx : Nat) (st : TokSt) : State :=
  let e := s.token core idx
  if e.st.terminal then s
  else
    let s1 := s.setToken core idx { e with st := st, ended := s.cycle, cancel := false, stuck := false, work := { e.work with flight := none } }
    let s2 := if e.attached then modOwner s1 core e fun x => x.subCount e.cls 1 else s1
    releaseRanges s2 core idx

/-! ## Reallocation (R219, R226, R260) -/

/-- R206, R219: a report is owed for a token. -/
def reportOwed (s : State) (core : Nat) (t : Word) : Bool :=
  ((s.core core).strands.any fun x => x.2.owed.any fun o => o.1 == t) ||
    (s.images.any fun g => g.core == core && g.strands.any fun x => x.2.owed.any fun o => o.1 == t)

/-- R260: continuations wait for a token. -/
def contsOwed (s : State) (core : Nat) (t : Word) : Bool :=
  (s.ctxs.any fun c => c.2.susp.any fun p => p.core == core && p.tok == t) ||
    s.clusters.any fun k => k.2.queues.any fun q => q.2.waiting.any fun p =>
      match p with | .cont _ c u _ => c == core && u == t | .strand _ => false

/-- R254: a CANCEL.wait waits for a token: its entry is not chosen meanwhile. -/
def cancelWaits (s : State) (core : Nat) (t : Word) : Bool :=
  (s.core core).strands.any fun x => match x.2.wait with | .cancel u _ => u == t | _ => false

/-- R219, R223: the fault record of a token is held on chip because its write met a fault. -/
def recordHeld (s : State) (ctx : Nat) (t : Word) : Bool :=
  match s.ctx? ctx with
  | some c => c.heldRecs.any fun h => !h.orphan && leNat (h.bytes.take 4) == t.toNat
  | none => false

/-- R226: an entry is kept for a context that is frozen, saved or halted. -/
def reserved (s : State) (core : Nat) (e : Token) : Bool :=
  (match s.ctx? e.ctx with | some c => !c.killed | none => false) && !(let q := s.slot core e.cslot; q.st == .running && q.ctx == e.ctx && !q.line && !q.freezing)

/-- R219: an entry can be taken by a new operation. -/
def reusable (s : State) (core idx : Nat) : Bool :=
  let e := s.token core idx
  if e.gen = 0 then true
  else
    let t := e.word core idx
    e.st.terminal && !reserved s core e && !reportOwed s core t && !recordHeld s e.ctx t && !contsOwed s core t && !cancelWaits s core t
      && !((s.core core).tokens.any fun o => o.2.pred == t && !o.2.st.terminal && o.2.gen != 0)

/-- R219: of entries that can be taken, those never allocated and those that have been terminal longest. -/
def preferred (s : State) (core : Nat) (cs : List Nat) : List Nat :=
  let used := cs.filter fun i => (s.token core i).gen != 0
  match used with
  | [] => cs
  | i :: rest =>
    let first := rest.foldl (fun m j => min m (s.token core j).ended) (s.token core i).ended
    cs.filter fun j => (s.token core j).gen == 0 || (s.token core j).ended == first

/-- R52: the entries that an issue of class `cls` can take: with 256 copy-class entries, a copy takes one of those. -/
def candidates (s : State) (core cls : Nat) : List Nat :=
  let copies := ((s.core core).tokens.filter fun e => e.2.gen != 0 && e.2.cls == 0).length
  preferred s core <| (List.range 512).filter fun i =>
    reusable s core i && (cls != 0 || copies < 256 || ((s.token core i).gen != 0 && (s.token core i).cls == 0))

/-- R52, R14: which of them it takes is unspecified (assumption 3). -/
def pickEntry (s : State) (core cls : Nat) : Option Nat :=
  let cs := candidates s core cls
  cs[Config.freeNat (s.free * 2 ^ 64) % cs.length]?

/-! ## Issue slots (R354) -/

/-- R354: bind a strand to an issue slot. -/
def bindStrand (s : State) (r : Ref) : State :=
  let k := s.core r.core
  let n (i : Nat) : Nat := (mget ISlot.reset k.islots i).order.length
  let i := if n 1 < n 0 then 1 else 0
  let s1 := s.modStrand r fun x => { x with islot := i, age := s.cycle, waits := 0 }
  s1.modCore r.core fun k =>
    let q := mget ISlot.reset k.islots i
    { k with islots := mput k.islots i { q with order := q.order ++ [r.strid] } }

/-- R356: a strand leaves its issue slot. -/
def unbindStrand (s : State) (r : Ref) (i : Nat) : State :=
  (s.modCluster (clusterOf r.core) fun k => { k with busyAt := max k.busyAt s.time }).modCore r.core fun k =>
    let q := mget ISlot.reset k.islots i
    let q := { q with
      order := q.order.filter fun y => y != r.strid
      greedy := if q.greedy = some r.strid then none else q.greedy
      last := if q.last = some r.strid then none else q.last }
    { k with islots := mput k.islots i q }

/-! ## The start of a strand (R55) -/

/-- R55: a strand at its start, for the context and its world and level; every register reads zero. -/
def freshStrand (c : Option Ctx) (ctx slot tslot role ngrp budget pc : Nat) (live : Mask) : Strand :=
  { ctx := ctx, slot := slot, tslot := tslot, role := role, ngrp := ngrp, budget := budget, laneBase := 0, teamX := 0,
    teamY := 0, teamZ := 0, gridX := 1, gridY := 1, gridZ := 1, lbasis := 0, pc := pc, live := live, active := live,
    v := [], s := [], p := [], c := [], k := [], h := [], lpr := 0, fpsr := 0, hm := false,
    pl := (match c with | some c => c.level | none => 0), sec := (match c with | some c => c.secure | none => false),
    tcause := 0, tinfo := 0, tpc := 0, tssw := 0, rstk := [], lstk := [], acnt := [], long := [], held := [],
    wait := .none, syncg := none, owed := [], defer := [], rewait := false, stopped := false, stinfo := 0, age := 0, waits := 0,
    islot := 0, notBefore := 0, avail := [], withheldAt := none, serial := 0, dbl := [] }

/-- R353, R365: the lowest free strand number of a core. -/
def freeStrid (s : State) (core : Nat) : Option Nat := (List.range 64).find? fun i => !mhas (s.core core).strands i

/-- The strands of a core's slot. -/
def slotStrands (s : State) (core slot : Nat) : List (Nat × Strand) :=
  (s.core core).strands.filter fun e => e.2.slot == slot

/-- A new strand gets a serial number that no strand has had. -/
def numberStrand (s : State) (r : Ref) : State :=
  { s.modStrand r fun x => { x with serial := s.nextId } with nextId := s.nextId + 1 }

/-! ## Register file (R176, R352) -/

/-- R176: register-file bytes of a strand at a budget. -/
def rfBytes (ngrp budget : Nat) : Nat := budget * 32 * ngrp * 4

/-- Register-file bytes of a slot that neither its strands hold nor those of its teams that `f` selects. -/
def freeRfBut (s : State) (core slot : Nat) (f : Team → Bool) : Nat :=
  (s.slot core slot).rf * 16384 - ((slotStrands s core slot).map fun e => rfBytes e.2.ngrp e.2.budget).sum
    - (((s.core core).teams.filter fun t => t.2.slot == slot && f t.2).map fun t => t.2.rfHeld).sum

/-- R176: register-file bytes of a slot that no strand holds, nor a team that waits to retire (R220, assumption 50). -/
def growRf (s : State) (core slot : Nat) : Nat := freeRfBut s core slot fun t => t.members.isEmpty

/-- R176: the pending GROWs of a slot as (strand, budget, destination, stamp). -/
def pendingGrows (s : State) (core slot : Nat) : List (Nat × Strand × Nat × Opnd × Nat) :=
  (slotStrands s core slot).filterMap fun e =>
    match e.2.wait with
    | .grow n d t => some (e.1, e.2, n, d, t)
    | _ => none

/-- R176: the oldest pending GROW of a slot. -/
def oldestGrow (s : State) (core slot : Nat) : Option (Nat × Strand × Nat × Opnd × Nat) :=
  (pendingGrows s core slot).foldl (fun b e =>
    match b with
    | none => some e
    | some c => if e.2.2.2.2 < c.2.2.2.2 then some e else some c) none

/-- R176: the oldest pending GROW, when it is grantable. -/
def grantable (s : State) (core slot : Nat) : Option (Nat × Strand × Nat × Opnd) :=
  match oldestGrow s core slot with
  | some (i, x, n, d, _) =>
    if (s.slot core slot).st == .running then
      if rfBytes x.ngrp (n - x.budget) ≤ growRf s core slot then some (i, x, n, d) else none
    else none
  | none => none

/-- R176, R220, R352: register-file bytes of a slot that a new strand can be given: a team keeps those of its ended strands until
it has retired (assumption 50), and a GROW that has become grantable comes first. -/
def freeRf (s : State) (core slot : Nat) : Nat :=
  if (grantable s core slot).isSome then 0 else freeRfBut s core slot fun _ => true

/-! ## The end of a strand (R171, R220) -/

/-- R220: the attached, unfinished tokens of a strand. -/
def attachedTokens (s : State) (r : Ref) (x : Strand) : List Nat :=
  ((s.core r.core).tokens.filter fun e =>
    e.2.gen != 0 && !e.2.st.terminal && e.2.attached && e.2.owner == r.strid && e.2.cslot == x.slot
      && e.2.ctx == x.ctx).map (·.1)

/-- R220: they become orphans of the team, owned by the adopting strand unless it has terminated. -/
def orphanTokens (s : State) (r : Ref) (x : Strand) : State :=
  let heir : Option Nat := match s.team? r.core x.tslot with
    | some t => if t.members.contains t.adopter && t.adopter != r.strid then some t.adopter else none
    | none => none
  (attachedTokens s r x).foldl (fun s i => s.modToken r.core i fun e =>
    { e with orph := true, owner := heir.getD e.owner }) s

/-- R171: the strand terminates. Its team keeps what it holds until it has retired (R220). -/
def terminate (s : State) (r : Ref) (x : Strand) : State :=
  let s1 := orphanTokens s r x
  let s2 := unbindStrand (s1.delStrand r) r x.islot
  s2.modTeam r.core x.tslot fun t =>
    let left := t.members.filter fun m => m != r.strid
    { t with members := left, rfHeld := t.rfHeld + rfBytes x.ngrp x.budget }

/-- A waiting instruction ends with a result: the wait is over, the PC moves on, and a deferred trap is due (R34). -/
def endWait (s : State) (r : Ref) (x : Strand) (d : Opnd) (w : Dword) : State :=
  match advance { x with wait := .none } with
  | none => haltStrand s r { x with wait := .none } .pcRange 0 false
  | some y => takeDeferred (s.setStrand r (writeUni d w y)) r

/-- R166, R171: after lanes have left: what the strand does next. `s1` is the device in which `x` still stands before the
lanes leave. The strand terminates once its outstanding instructions have settled, and what comes due then ends with it
(assumption 37); while one waits, or its latency is not over, it stalls. -/
def afterLeaving (s1 : State) (r : Ref) (x : Strand) (m : Mask) : Res :=
  let y := removeLanes x m
  if y.live = 0 then
    if settledNow x s1.cycle then .set (terminate s1 r (settle y)) else .stall
  else if y.active = 0 then
    match leaveEmpty y s1.cycle with
    | some z => .set (takeDeferred (s1.setStrand r z) r)
    | none => .done (s1.setStrand r { y with active := y.live }) 0
  else .done (s1.setStrand r y) 0

end Sys2Proof.Machine
end

