-- ==== Sys2Proof/Machine/Control.lean ====
section
/-! DEFINITION. The control instructions (R159 to R178) and the two events that end a GROW. -/

namespace Sys2Proof.Machine

/-! ## Branches (R162 to R165) -/

/-- R162: a uniform branch to `t` leaves the loops that do not hold it; the list holds the top first. -/
def unwindLoops (t : Nat) : List LoopEntry → List LoopEntry
  | [] => []
  | e :: rest => if e.start.toNat ≤ t ∧ t ≤ e.last.toNat then e :: rest else unwindLoops t rest

/-- R162: a taken uniform branch. -/
def branchTo (s : State) (r : Ref) (x : Strand) (t : Int) : Res :=
  .jump (s.setStrand r { x with lstk := unwindLoops t.toNat x.lstk }) t

def execBra (f : I32) (s : State) : Host.Outcome State Fault Refusal :=
  issue (.bra f) s fun s r x => branchTo s r x (x.pc + f.imm.toInt)

def execBrx (f : T3) (s : State) : Host.Outcome State Fault Refusal :=
  issue (.brx f) s fun s r x => branchTo s r x ((uniOp s r x f.a % 2 ^ 32 : Nat) : Int)

/-- R163, R164: a reconvergence PC, as a mathematical integer (R57). -/
def rpcOf (x : Strand) (off : Int) : Int := x.pc + off

/-- R163, R164: diverge: push a DIV entry, or change the one that the same branch has pushed, and go on with the lanes
`go` at `t`. The PCs that the branch forms are checked before the room of the stack (R57, assumption 22). -/
def diverge (s : State) (r : Ref) (x : Strand) (formed : List Int) (entry : List RsEntry) (push : Bool) (go : Mask)
    (t : Int) : Res :=
  if formed.all pcOk then
    match (if push then pushFails s r x else none) with
    | some (c, i) => .halt c i false
    | none => .jump (s.setStrand r { x with rstk := entry, active := go }) t
  else .halt .pcRange 0 false

def execBraDiv (f : I32) (s : State) : Host.Outcome State Fault Refusal :=
  issue (.braDiv f) s fun s r x =>
    let tk := actingMask x f.hd
    let fl := x.active &&& ~~~tk
    let t := x.pc + (f.imm.extractLsb' 0 16).toInt
    if fl = 0 then .jump s t
    else
      let rpc := rpcOf x (f.imm.extractLsb' 16 16).toInt
      diverge s r x [t, rpc, x.pc + 1] (.div rpc.toNat x.active (x.pc + 1) fl :: x.rstk) true tk t

/-- R164: the target of an active lane. -/
def brxTarget (s : State) (r : Ref) (x : Strand) (f : T3) (l : Nat) : Nat :=
  if x.laneGuard f.hd l then laneOp s r x 1 l f.a else x.pc + 1

/-- R164: with one target for every active lane the strand jumps there, also to PC + 1 (assumption 31). -/
def execBrxDiv (f : T3) (s : State) : Host.Outcome State Fault Refusal :=
  issue (.brxDiv f) s fun s r x =>
    let g := brxTarget s r x f (x.activeLanes.headD 0)
    let go := Mask.ofPred x.nlanes fun l => Mask.bit x.active l && brxTarget s r x f l == g
    let rest := x.active &&& ~~~go
    if rest = 0 then .jump s g
    else
      let rpc := rpcOf x (f.opx.extractLsb' 0 16).toInt
      let formed : List Int := rpc :: x.activeLanes.map fun l => (brxTarget s r x f l : Int)
      match x.rstk with
      | .div q m d _ :: more =>
        if q = rpc.toNat ∧ d = x.pc then diverge s r x formed (.div q m d rest :: more) false go g
        else diverge s r x formed (.div rpc.toNat x.active x.pc rest :: x.rstk) true go g
      | st => diverge s r x formed (.div rpc.toNat x.active x.pc rest :: st) true go g

def execCall (f : I32) (s : State) : Host.Outcome State Fault Refusal :=
  issue (.call f) s fun s r x =>
    if pcOk (x.pc + 1 : Nat) then
      .jump (s.setStrand r (writeUni f.d (BitVec.ofNat 64 (x.pc + 1)) x)) (x.pc + f.imm.toInt)
    else .halt .pcRange 0 false

def execRet (f : T3) (s : State) : Host.Outcome State Fault Refusal :=
  issue (.ret f) s fun s r x => .jump s ((uniOp s r x f.a % 2 ^ 32 : Nat) : Int)

/-- R165: settle the entries that reconverge at `p`; the Bool tells that a deferred path is left to run. -/
def reconverge (x : Strand) (p : Nat) : List RsEntry → Strand × Bool
  | .div q m d dm :: rest =>
    if q ≠ p then ({ x with rstk := .div q m d dm :: rest }, false)
    else if dm &&& x.live ≠ 0 then
      ({ x with rstk := .div q m d 0 :: rest, active := dm &&& x.live, pc := d }, true)
    else reconverge { x with active := m &&& x.live } p rest
  | st => ({ x with rstk := st }, false)

def execRcv (f : T3) (s : State) : Host.Outcome State Fault Refusal :=
  issue (.rcv f) s fun s r x =>
    let a := reconverge x x.pc x.rstk
    if a.2 then .set (s.setStrand r (redirect a.1 s.cycle a.1.pc)) else .done (s.setStrand r a.1) 0

/-! ## Loops (R168, R169) -/

/-- R168. The PCs of the loop entry are checked before the room of the loop stack (R57, assumption 22). -/
def execLoop (f : I32) (s : State) : Host.Outcome State Fault Refusal :=
  issue (.loop f) s fun s r x =>
    let n := uniOp s r x f.a % 2 ^ 32
    let last : Int := x.pc + f.imm.toInt
    if n = 0 then
      if pcOk (last + 1) then .set (s.setStrand r { x with pc := (last + 1).toNat }) else .halt .pcRange 0 false
    else if !(pcOk (x.pc + 1 : Nat) && pcOk last) then .halt .pcRange 0 false
    else if 4 ≤ x.lstk.length then .trap .loopOverflow 0
    else
      let e : LoopEntry :=
        { start := BitVec.ofNat 32 (x.pc + 1), last := BitVec.ofInt 32 last, count := BitVec.ofNat 32 (n - 1) }
      .done (s.setStrand r { x with lstk := e :: x.lstk }) 0

/-- R169: with .jump the PC is that after the loop, and no other loop is consulted or left (assumption 34). -/
def execLbrk (f : T3) (s : State) : Host.Outcome State Fault Refusal :=
  issue (.lbrk f) s fun s r x =>
    match x.lstk with
    | [] => .done s 0
    | e :: rest =>
      let y := { x with lstk := rest }
      if !f.opx.getLsbD 0 then .done (s.setStrand r y) 0
      else if pcOk (e.last.toNat + 1 : Nat) then .set (s.setStrand r { y with pc := e.last.toNat + 1 })
      else .halt .pcRange 0 false

/-! ## Leaving, traps and hints (R171 to R175) -/

def exitBody (f : T3) : State → Ref → Strand → Res := fun s r x => afterLeaving s r x (actingMask x f.hd)

def execExit (f : T3) (s : State) : Host.Outcome State Fault Refusal := issue (.exit f) s (exitBody f)

def execNop (f : T3) (s : State) : Host.Outcome State Fault Refusal :=
  issue (.nop f) s fun s _ _ => .done s 0

/-- R172: the yield itself is `holdSlot` and `tick`. -/
def execYield (f : T3) (s : State) : Host.Outcome State Fault Refusal :=
  issue (.yield f) s fun s _ _ => .done s 0

def execTrap (f : I32) (s : State) : Host.Outcome State Fault Refusal :=
  issue (.trap f) s fun s _ x => .trapAt s (x.pc + 1 : Nat) x.active .swTrap (f.imm.setWidth 64)

def execTret (f : T3) (s : State) : Host.Outcome State Fault Refusal :=
  issue (.tret f) s fun s r x => if x.hm then trapReturn s r x else .trap .illTret 0

/-! ## Register budget (R176 to R178) -/

/-- R176, R177: the budget an instruction names. -/
def budgetArg (f : T3) : Nat := 8 * bitsOf f.opx 0 6

def execGrow (f : T3) (s : State) : Host.Outcome State Fault Refusal :=
  issue (.grow f) s fun s r x =>
    if budgetArg f ≤ x.budget then .done (s.setStrand r (writeUni f.d 1 x)) 0
    else startWait s r { x with wait := .grow (budgetArg f) f.d s.free }

def execShrnk (f : T3) (s : State) : Host.Outcome State Fault Refusal :=
  issue (.shrnk f) s fun s r x => .done (s.setStrand r { x with budget := min x.budget (budgetArg f) }) 0

/-- R176: the registers from the old budget up read zero. -/
def raiseBudget (x : Strand) (n : Nat) : Strand :=
  { x with budget := n, v := x.v.filter fun e => decide (e.1 % 256 < x.budget) || decide (n ≤ e.1 % 256)
           dbl := x.dbl.filter fun k => decide (k % 256 < x.budget) || decide (n ≤ k % 256) }

/-- R176: a slot's oldest pending GROW is granted, when it is grantable. -/
def execGrowGrant (core slot : Nat) (s : State) : Host.Outcome State Fault Refusal :=
  match grantable s core slot with
  | none => .next s
  | some (i, x, n, d) =>
    let r : Ref := { core := core, strid := i }
    if mayRun s r { x with wait := .none } then .next (endWait s r (raiseBudget x n) d 1) else .next s

/-- R178: the strands of a core's running slots. -/
def runningStrands (s : State) (core : Nat) : List (Nat × Strand) :=
  (s.core core).strands.filter fun e => mayRun s { core := core, strid := e.1 } { e.2 with wait := .none }

/-- R178: every running strand of the core waits in a GROW and none can be granted: they all fail. A strand of a stopped slot is not
running (assumption 100). -/
def execGrowFail (core : Nat) (s : State) : Host.Outcome State Fault Refusal :=
  let run := runningStrands s core
  if run.isEmpty || !(run.all fun e => e.2.gp) || (grantable s core 0).isSome || (grantable s core 1).isSome then .next s
  else .next (run.foldl (fun s e =>
    match e.2.wait with
    | .grow _ d _ => endWait s { core := core, strid := e.1 } e.2 d 0
    | _ => s) s)

end Sys2Proof.Machine
end

