-- ==== Sys2Proof/Machine/Tensor.lean ====
section
/-! DEFINITION. Tensor records and layout tags (R315 to R319), from coordinates to bytes (R320, R321), redirection during a
relayout (R324, R326), and the reading and writing of elements in the three spaces (R295, R322). -/

namespace Sys2Proof.Machine

/-! ## The record (R315) -/

/-- R315: a tensor record: sixteen doublewords. -/
abbrev Rec := List Dword

def recDw (d : Rec) (i : Nat) : Dword := d.getD i 0
def recBits (d : Rec) (i lo n : Nat) : Nat := ((recDw d i).extractLsb' lo n).toNat

def tBase (d : Rec) : Nat := (recDw d 0).toNat
def tObase (d : Rec) : Nat := (recDw d 1).toNat
def tTag (d : Rec) : Word := (recDw d 2).extractLsb' 0 32
def tNtag (d : Rec) : Word := (recDw d 2).extractLsb' 32 32
def tMapp (d : Rec) : Nat := (recDw d 3).toNat
def tRst (d : Rec) : Nat := recBits d 4 40 2
def tFlt (d : Rec) : Bool := (recDw d 4).getLsbD 39
def tSpace (d : Rec) : Nat := recBits d 4 37 2
def tRank (d : Rec) : Nat := recBits d 4 34 3
def tFmt (d : Rec) : Nat := recBits d 4 24 6
def tDord (d : Rec) (j : Nat) : Nat := recBits d 4 (3 * j) 3
def tRtok (d : Rec) : Word := (recDw d 5).extractLsb' 0 32
def tExt (d : Rec) (i : Nat) : Nat := recBits d (6 + i / 2) (32 * (i % 2)) 32
def tOobc (d : Rec) : Nat := (recDw d 10).toNat

/-- R71, R315: the element type; none for a residue kind. -/
def tTy (d : Rec) : Ty := (Ty.ofCode (tFmt d)).getD .none

/-! ## The layout tag (R318, R319) -/

def tagKind (t : Word) : Nat := (t.extractLsb' 0 3).toNat
def tagOrd (t : Word) : Nat := (t.extractLsb' 3 3).toNat
def tagBr (t : Word) : Nat := (t.extractLsb' 6 4).toNat
def tagBc (t : Word) : Nat := (t.extractLsb' 10 4).toNat
def tagLs (t : Word) : Nat := (t.extractLsb' 14 2).toNat
def tagNb (t : Word) : Nat := (t.extractLsb' 16 2).toNat
def tagBid (t : Word) : Nat := (t.extractLsb' 18 3).toNat

/-- R318: RPL or RIL. -/
def tagResidue (t : Word) : Bool := tagKind t == 2 || tagKind t == 3

/-- R319: the tag passes the tag check with an element type. -/
def layoutOk (t : Word) (ty : Ty) : Bool :=
  decide (t.toNat < 2 ^ 21) && decide (tagKind t < 4) && decide (tagOrd t < 4) && decide (tagBr t ≤ 7)
    && decide (tagBc t ≤ 7)
    && (tagKind t != 0 || (tagBr t == 0 && tagBc t == 0 && tagOrd t == 0))
    && (tagNb t != 0 || tagLs t == 0)
    && !((tagNb t != 0 || tagLs t != 0) && ty == .i24)
    && !(tagKind t == 1 && ty == .i4 && tagBr t + tagBc t == 0)
    && (tagResidue t || tagBid t == 0)

/-! ## Geometry (R320, R321, R324) -/

/-- R320: e[j], the extent at storage position `j`. -/
def eDim (d : Rec) (j : Nat) : Nat := if j < tRank d then tExt d (tDord d j) else 1
/-- R320: d[j], the coordinate at storage position `j`. -/
def cDim (d : Rec) (c : List Nat) (j : Nat) : Nat := if j < tRank d then c.getD (tDord d j) 0 else 0

def ceilDiv (a b : Nat) : Nat := (a + b - 1) / b
def roundUp (a b : Nat) : Nat := ceilDiv a b * b

/-- The smallest power of two at least `n`. -/
def pow2Ceil (n : Nat) : Nat := if n ≤ 1 then 1 else 2 ^ ((n - 1).log2 + 1)

/-- R320: bit 2i is bit i of `tc`, bit 2i + 1 bit i of `tr`. -/
def interleave (tr tc : Nat) : Nat :=
  (List.range 32).foldl (fun a i => a + tc / 2 ^ i % 2 * 2 ^ (2 * i) + tr / 2 ^ i % 2 * 2 ^ (2 * i + 1)) 0

/-- R320: NR and NC. -/
def tileGrid (d : Rec) (t : Word) : Nat × Nat :=
  (ceilDiv (eDim d 1) (2 ^ tagBr t), ceilDiv (eDim d 0) (2 ^ tagBc t))

/-- R320: NT. -/
def tileCount (d : Rec) (t : Word) : Nat :=
  let g := tileGrid d t
  if tagOrd t = 2 then pow2Ceil (max g.1 g.2) * pow2Ceil (max g.1 g.2) else g.1 * g.2

/-- R320: q. -/
def storedIndex (d : Rec) (t : Word) (c : List Nat) : Nat :=
  let tr := 2 ^ tagBr t
  let tc := 2 ^ tagBc t
  let g := tileGrid d t
  let x := cDim d c 0
  let y := cDim d c 1
  let b := [6, 5, 4, 3, 2].foldl (fun b j => b * eDim d j + cDim d c j) 0
  let r := y / tr
  let k := x / tc
  let n := match tagOrd t with
    | 0 => r * g.2 + k
    | 1 => k * g.1 + r
    | 2 => interleave r k
    | _ => r * g.2 + (if r % 2 = 0 then k else g.2 - 1 - k)
  (b * tileCount d t + n) * tr * tc + y % tr * tc + x % tc

/-- R320: Nq. -/
def storedCount (d : Rec) (t : Word) : Nat :=
  eDim d 2 * eDim d 3 * eDim d 4 * eDim d 5 * eDim d 6 * tileCount d t * 2 ^ tagBr t * 2 ^ tagBc t

/-- R321: Swz. -/
def swz (t : Word) (off : Nat) : Nat := off ^^^ (off / 2 ^ (7 + tagLs t) % 2 ^ tagNb t * 16)

/-- R321: the area size, for a span. -/
def areaBytes (d : Rec) (t : Word) (span : Nat) : Nat :=
  let n := storedCount d t
  match tagKind t with
  | 2 => span * roundUp n 128 + 2 * roundUp (2 * n) 128
  | 3 => 16 * n
  | _ => roundUp (ceilDiv (n * (tTy d).bits) 8) 128

/-- R321: the pieces of stored index `q`, as (address, bytes). -/
def elemPieces (d : Rec) (t : Word) (base span q : Nat) : List (Nat × Nat) :=
  match tagKind t with
  | 2 =>
    let pb := roundUp (storedCount d t) 128
    let pr := roundUp (2 * storedCount d t) 128
    ((List.range span).map fun h => (base + h * pb + swz t q, 1)) ++
      ((List.range 2).map fun k => (base + span * pb + k * pr + swz t (2 * q), 2))
  | 3 => [(base + swz t (16 * q), 16)]
  | _ =>
    if tTy d == .i4 then [(base + swz t (q / 2), 1)]
    else
      let sz := (tTy d).bits / 8
      [(base + swz t (q * sz), sz)]

/-- R324: U, the stored indices of a unit of the new layout. -/
def unitSize (t : Word) : Nat := max (2 ^ (tagBr t + tagBc t)) 256

/-- R324: the units of a new layout. -/
def unitCount (d : Rec) (t : Word) : Nat := ceilDiv (storedCount d t) (unitSize t)

/-! ## The record check (R317) -/

/-- R317: the span that a tag's area is computed with: 8 when the entry is invalid. -/
def tagSpan (s : State) (ctx : Nat) (t : Word) : Nat :=
  match basisOf s ctx (tagBid t) with | some b => b.span | none => 8

/-- R317: whether two areas overlap. -/
def overlap (a n b m : Nat) : Bool := decide (a < b + m) && decide (b < a + n)

/-- R317: the record passes the check. -/
def recOk (s : State) (ctx : Nat) (d : Rec) : Bool :=
  let rank := tRank d
  let ty := tTy d
  let dords := (List.range rank).map (tDord d)
  let sizeOf (t : Word) : Nat := areaBytes d t (tagSpan s ctx t)
  let reserved := recBits d 4 42 22 == 0 && recBits d 4 30 4 == 0 && recBits d 4 21 3 == 0 && recBits d 5 32 32 == 0
    && recBits d 9 32 32 == 0 && recDw d 11 == 0
  let shape := tSpace d != 3 && decide (1 ≤ rank)
    && ((List.range 7).all fun i =>
      if i < rank then decide (1 ≤ tExt d i) && decide (tExt d i ≤ 0x7FFFFFFF) else tExt d i == 0)
    && ((List.range rank).all dords.contains)
    && ((List.range 7).all fun j => decide (j < rank) || tDord d j == 0)
  let fmt := if tagResidue (tTag d) then tFmt d == 0
    else (match Ty.ofCode (tFmt d) with | some y => y != .none | none => false)
  let place := tBase d % 128 == 0 && (tSpace d == 0 || decide (tBase d < 2 ^ 32)) && decide (sizeOf (tTag d) < 2 ^ 48)
  reserved && shape && fmt && layoutOk (tTag d) ty && place &&
    (if tFlt d then
      tRst d != 0 && layoutOk (tNtag d) ty && tObase d % 128 == 0 && tMapp d % 64 == 0
        && decide (sizeOf (tNtag d) < 2 ^ 48)
        && !overlap (tBase d) (sizeOf (tNtag d)) (tObase d) (sizeOf (tTag d))
    else tObase d == 0 && tNtag d == 0 && tMapp d == 0 && tRst d == 0)

/-! ## The three spaces (R295) -/

/-- R295: bytes of a local space: 1 the scratchpad, 2 the accumulator store. -/
def spaceSize (q : Slot) (space : Nat) : Nat := if space = 1 then q.sp * 16384 else q.acc * 16384

def localMem (q : Slot) (space : Nat) : Map Byte := if space = 1 then q.scratch else q.accst
def setLocal (q : Slot) (space : Nat) (m : Map Byte) : Slot :=
  if space = 1 then { q with scratch := m } else { q with accst := m }

/-- R297: a double error among `n` bytes of a local space. -/
def localBad (q : Slot) (space addr n : Nat) : Bool :=
  q.dbl.any fun w => decide (w / 2 ^ 32 = space) && decide (w % 2 ^ 32 * 4 < addr + n) && decide (addr < w % 2 ^ 32 * 4 + 4)

/-- R295: where an access of a strand or an operation is made. -/
structure Site where
  who : Who
  slot : Nat
  deriving DecidableEq, Repr

/-- R295, R297: read bytes of a local space. Beyond the slot's part it holds zeros (assumption 94). -/
def localRead (s : State) (w : Site) (space addr n : Nat) : Mem Nat :=
  let q := s.slot w.who.core w.slot
  if localBad q space addr n then .bad .memUnc (uncInfo space addr) false
  else .ok s (Memory.nat (localMem q space) addr n)

/-- R297: a write of whole words replaces what they held, with their check bits. -/
def healWords (dbl : List Nat) (space addr n : Nat) : List Nat :=
  dbl.filter fun w => !(decide (w / 2 ^ 32 = space) && decide (addr ≤ w % 2 ^ 32 * 4) && decide (w % 2 ^ 32 * 4 + 4 ≤ addr + n))

/-- Write `f` of the old value. -/
def localWrite (s : State) (w : Site) (space addr n : Nat) (f : Nat → Nat) : Mem Unit :=
  .ok (s.modSlot w.who.core w.slot fun q =>
    { setLocal q space (Memory.putNat (localMem q space) addr n (f (Memory.nat (localMem q space) addr n))) with
      dbl := healWords q.dbl space addr n }) ()

/-- R91, R304: the parts of an access that lie in one page each: an element of three bytes may cross into the next. -/
def pageParts (va n : Nat) : List (Nat × Nat) :=
  let k := 2 ^ 16 - va % 2 ^ 16
  if n ≤ k then [(va, n)] else [(va, k), ((va + k) % 2 ^ 64, n - k)]

def readParts (s : State) (w : Who) : List (Nat × Nat) → Mem Nat
  | [] => .ok s 0
  | [(a, n)] => flatRead s w a n
  | (a, n) :: rest => (flatRead s w a n).bind fun s1 x => (readParts s1 w rest).bind fun s2 y => .ok s2 (x + 2 ^ (8 * n) * y)

/-- Read bytes of a space: 0 is flat. -/
def spaceRead (s : State) (w : Site) (space addr n : Nat) : Mem Nat :=
  if space = 0 then readParts s w.who (pageParts addr n) else localRead s w space addr n

/-- A flat write of `f` of the old value. -/
def flatUpdate (s : State) (w : Who) (va n : Nat) (f : Nat → Nat) : Mem Unit :=
  if !vaOk (va % 2 ^ 64) then .bad .vaRange (BitVec.ofNat 64 va) false
  else match translate s w .write va with
  | .wait => .wait
  | .bad c dm => .bad c (BitVec.ofNat 64 va) dm
  | .ok key mt =>
    if mt = 3 then .ok (deviceWrite (tlbFill s w va) key (natBytes n (f (deviceRead s key n)))) ()
    else .ok (storeNat (noteAccess s w va key) key n (f (loadNat s key n))) ()

/-- A flat write of `f` of the old value, in one page or over two. -/
def updateParts (s : State) (w : Who) (f : Nat → Nat) : List (Nat × Nat) → Mem Unit
  | [] => .ok s ()
  | [(a, n)] => flatUpdate s w a n f
  | (a, n) :: rest =>
    (flatUpdate s w a n fun x => f x % 2 ^ (8 * n)).bind fun s1 _ => updateParts s1 w (fun x => f x / 2 ^ (8 * n)) rest

def spaceWrite (s : State) (w : Site) (space addr n : Nat) (f : Nat → Nat) : Mem Unit :=
  if space = 0 then updateParts s w.who f (pageParts addr n) else localWrite s w space addr n f

/-! ## Elements -/

/-- Read pieces, in order. -/
def readPieces (s : State) (w : Site) (space : Nat) : List (Nat × Nat) → Mem (List Nat)
  | [] => .ok s []
  | (a, n) :: rest =>
    (spaceRead s w space a n).bind fun s1 x => (readPieces s1 w space rest).bind fun s2 xs => .ok s2 (x :: xs)

def writePieces (s : State) (w : Site) (space : Nat) : List (Nat × Nat) → List (Nat → Nat) → Mem Unit
  | (a, n) :: rest, f :: fs => (spaceWrite s w space a n f).bind fun s1 _ => writePieces s1 w space rest fs
  | _, _ => .ok s ()

/-- R326: what an access to in-bounds coordinates resolves to: the tag and base of the area that holds the element. -/
def resolveArea (s : State) (w : Site) (d : Rec) (c : List Nat) : Mem (Word × Nat) :=
  if !tFlt d then .ok s (tTag d, tBase d)
  else
    let u := storedIndex d (tNtag d) c / unitSize (tNtag d)
    (flatRead s w.who (tMapp d + u / 8) 1).bind fun s1 x =>
      .ok s1 (if x / 2 ^ (u % 8) % 2 = 1 then (tNtag d, tBase d) else (tTag d, tObase d))

/-- R321, R326: where an element lies: its pieces, its stored index, the tag of its area and the span of that tag's basis. -/
structure Placed where
  pieces : List (Nat × Nat)
  q : Nat
  tag : Word
  span : Nat
  deriving DecidableEq, Repr

/-- R321, R326: the place of the element at in-bounds coordinates, in the area that holds it. -/
def elemAt (s : State) (w : Site) (d : Rec) (c : List Nat) : Mem Placed :=
  (resolveArea s w d c).bind fun s1 a =>
    let span := tagSpan s w.who.ctx a.1
    let q := storedIndex d a.1 c
    .ok s1 { pieces := elemPieces d a.1 a.2 span q, q := q, tag := a.1, span := span }

/-- R113, R114: a quad of a residue tag with its digits reduced; any other element as it is. -/
def canonElem (s : State) (ctx : Nat) (t : Word) (x : Nat) : Nat :=
  if tagResidue t then
    match basisOf s ctx (tagBid t) with
    | some b => quadOf b (quadDigit b x)
    | none => x
  else x

/-- R319: the in-bounds coordinates resolve to an area whose residue tag names no valid basis. -/
def basisFails (s : State) (w : Site) (d : Rec) (c : List Nat) : Bool :=
  match resolveArea s w d c with
  | .ok _ a => tagResidue a.1 && (basisOf s w.who.ctx (tagBid a.1)).isNone
  | _ => false

/-- R133, R321: an element's value from its pieces: a quad for a residue tag, else the element's bits. -/
def elemValue (d : Rec) (t : Word) (q span : Nat) (xs : List Nat) : Nat :=
  match tagKind t with
  | 2 =>
    ((List.range span).foldl (fun a h => a + xs.getD h 0 * 2 ^ (8 * h)) 0) + xs.getD span 0 * 2 ^ 64
      + xs.getD (span + 1) 0 * 2 ^ 80
  | 3 => xs.getD 0 0
  | _ => if tTy d == .i4 then xs.getD 0 0 / 2 ^ (4 * (q % 2)) % 16 else xs.getD 0 0

/-- R322: what each piece of an element becomes. -/
def elemStores (d : Rec) (t : Word) (q span x : Nat) : List (Nat → Nat) :=
  match tagKind t with
  | 2 =>
    ((List.range span).map fun h => fun (_ : Nat) => x / 2 ^ (8 * h) % 256) ++
      [fun (_ : Nat) => x / 2 ^ 64 % 2 ^ 16, fun (_ : Nat) => x / 2 ^ 80 % 2 ^ 16]
  | 3 => [fun _ => x % 2 ^ 128]
  | _ =>
    if tTy d == .i4 then
      [fun old => if q % 2 = 0 then old / 16 * 16 + x % 16 else old % 16 + x % 16 * 16]
    else [fun _ => x % 2 ^ (tTy d).bits]

/-- Read the element at in-bounds coordinates. -/
def elemRead (s : State) (w : Site) (d : Rec) (c : List Nat) : Mem Nat :=
  (elemAt s w d c).bind fun s1 e =>
    (readPieces s1 w (tSpace d) e.pieces).bind fun s2 xs =>
      .ok s2 (canonElem s w.who.ctx e.tag (elemValue d e.tag e.q e.span xs))

/-- R246: the element at in-bounds coordinates as its bits stand, its digits not reduced. -/
def elemBits (s : State) (w : Site) (d : Rec) (c : List Nat) : Mem Nat :=
  (elemAt s w d c).bind fun s1 e =>
    (readPieces s1 w (tSpace d) e.pieces).bind fun s2 xs => .ok s2 (elemValue d e.tag e.q e.span xs)

/-- Write the element at in-bounds coordinates. -/
def elemWrite (s : State) (w : Site) (d : Rec) (c : List Nat) (x : Nat) : Mem Unit :=
  (elemAt s w d c).bind fun s1 e =>
    writePieces s1 w (tSpace d) e.pieces (elemStores d e.tag e.q e.span (canonElem s w.who.ctx e.tag x))

/-- R189: coordinates that lie within the extents, as naturals. -/
def inExtents (d : Rec) (c : List Int) : Option (List Nat) :=
  if (c.zipIdx.all fun e => decide (0 ≤ e.1) && decide (e.1 < tExt d e.2)) && c.length == tRank d then
    some (c.map Int.toNat)
  else none

/-- R189, R316: one more dropped store on the record at `va`. -/
def countDropped (s : State) (w : Site) (va : Nat) : Mem Nat :=
  flatRmw s w.who (va + 80) 8 fun n => min (n + 1) (2 ^ 64 - 1)

/-! ## Handles (R29) -/

/-- R29: what using a handle register gives. -/
inductive Use where
  | ok (s : State) (h : Handle) (pa : Nat) (d : Rec)
  | invalid
  | badTensor
  | wait
  | bad (c : Cause) (info : Dword) (dm : Bool)

/-- The doublewords of a number of 1,024 bits. -/
def dwordsOf (x : Nat) : List Dword := (List.range 16).map fun i => BitVec.ofNat 64 (x / 2 ^ (64 * i))

/-- R29, R182, R317: fetch the record of an address and check it. -/
def fetchRecord (s : State) (w : Who) (ctx va : Nat) : Use :=
  if !vaOk va then .bad .vaRange (BitVec.ofNat 64 va) false
  else match translate s w .read va with
    | .wait => .wait
    | .bad c dm => .bad c (BitVec.ofNat 64 va) dm
    | .ok key mt =>
      if mt != 3 && uncLine s key 128 then .bad .memUnc (uncInfo 0 key) false
      else
        let d := dwordsOf (if mt = 3 then deviceRead s key 128 else loadNat s key 128)
        let s1 := if mt = 3 then tlbFill s w va else noteAccess s w va key
        if recOk s ctx d then .ok s1 { valid := true, addr := va, cache := some (key, d) } key d else .badTensor

/-- Where the record at a virtual address lies now; `key` where it lay when it was last read, which counts while the address does
not translate. -/
def recordKey (s : State) (w : Who) (va key : Nat) : Nat := match translate s w .read va with | .ok k _ => k | _ => key

/-- R29, R316: use a handle: its cached fields, or the record fetched again when it has been written since, at the place where
its address lies now. -/
def useHandle (s : State) (w : Who) (ctx : Nat) (h : Handle) : Use :=
  if !h.valid then .invalid
  else match h.cache with
    | some (key, d) =>
      let now := recordKey s w h.addr key
      if dwordsOf (loadNat s now 128) = d then .ok s { h with cache := some (now, d) } now d else fetchRecord s w ctx h.addr
    | none => fetchRecord s w ctx h.addr

/-- R231, R317: use a handle at the issue check of an engine instruction, which checks the record every time, with the spans of
the bases as they stand. -/
def checkHandle (s : State) (w : Who) (ctx : Nat) (h : Handle) : Use :=
  match useHandle s w ctx h with
  | .ok s1 h1 pa d => if recOk s1 ctx d then .ok s1 h1 pa d else .badTensor
  | u => u

end Sys2Proof.Machine
end

