-- ==== Sys2Proof/Machine/LoadStore.lean ====
section
/-! DEFINITION. The memory instructions of lanes and strands (R179 to R201): flat, scratchpad and tensor accesses, atomics,
prefetch, handles and fences. Every access is checked before any lane accesses memory (R179, R182), and an access that
halts the context is held for replay (R68). -/

namespace Sys2Proof

/-! ## Fields of OPX (R191) -/

def MForm.aop (f : MForm) : Nat := bitsOf f.opx 4 4
def MForm.sx (f : MForm) : Bool := f.opx.getLsbD 0
def MForm.loc (f : MForm) : Bool := f.opx.getLsbD 1
def MForm.nr (f : MForm) : Bool := f.opx.getLsbD 2
def MForm.uns (f : MForm) : Bool := f.opx.getLsbD 3

namespace Machine

/-- Where a strand's accesses are made. -/
def Strand.site (x : Strand) (r : Ref) : Site := { who := x.who r, slot := x.slot }

/-! ## Values moved (R186, R190) -/

/-- R186: what a load writes: `n` bytes read as `y`. -/
def loadWrites (d : Opnd) (n : Nat) (sx : Bool) (l y : Nat) : List RegW :=
  let ext (w : Nat) : Nat := if sx && decide (2 ^ (8 * n - 1) ≤ y) then y + 2 ^ w - 2 ^ (8 * n) else y
  match d with
  | .s k => [.s k.toNat (BitVec.ofNat 64 (ext 64))]
  | .v k =>
    if n ≤ 4 then [.v l k.toNat (BitVec.ofNat 32 (if n = 4 then y else ext 32))]
    else (List.range (n / 4)).map fun i => .v l (k.toNat + i) (BitVec.ofNat 32 (y / 2 ^ (32 * i)))
  | _ => []

/-- R186: what a store takes from its data register. -/
def storeValue (x : Strand) (d : Opnd) (n l : Nat) : Nat :=
  match d with
  | .s k => (x.sreg k.toNat).toNat % 2 ^ (8 * n)
  | .v k =>
    if n ≤ 4 then (x.vreg l k.toNat).toNat % 2 ^ (8 * n)
    else (List.range (n / 4)).foldl (fun a i => a + (x.vreg l (k.toNat + i)).toNat * 2 ^ (32 * i)) 0
  | _ => 0

/-! ## Atomics (R191, R192) -/

/-- R192: the new value of an atomic on `n` bytes; `e` is the second operand of .cas. -/
def atomicNew (aop : Nat) (uns : Bool) (n old d e : Nat) : Nat :=
  let w := 8 * n
  let lt : Bool := if uns then decide (old < d) else decide ((BitVec.ofNat w old).toInt < (BitVec.ofNat w d).toInt)
  let f := fmtOf (if n = 4 then .f32 else .f64)
  match aop with
  | 0 => (old + d) % 2 ^ w
  | 1 => if lt then old else d
  | 2 => if lt then d else old
  | 3 => old &&& d
  | 4 => old ||| d
  | 5 => old ^^^ d
  | 6 => d
  | 7 => if old = d then e else old
  | 8 => (fadd f .ne false old d).1
  | 9 => (fminmax f false old d).1
  | _ => (fminmax f true old d).1

/-- R192: the operands of an atomic: D, and for .cas the new value from the registers after it. -/
def atomicData (x : Strand) (f : MForm) (l : Nat) : Nat × Nat :=
  let n := szBytes f.sz
  let second : Opnd := match f.d with
    | .v k => .v (BitVec.ofNat 8 (k.toNat + n / 4))
    | .s k => .s (BitVec.ofNat 6 (k.toNat + 1))
    | o => o
  (storeValue x f.d n l, if f.aop = 7 then storeValue x second n l else 0)

/-! ## Tensor elements (R189, R190) -/

/-- R189: the registers a lane's element takes: 1, a pair or a quad. -/
def elemRegs (d : Rec) : Nat := if tagResidue (tTag d) then 4 else if (tTy d).bits = 64 then 2 else 1

/-- R190: the registers that a loaded element fills. -/
def elemWrites (d : Rec) (o : Opnd) (l x : Nat) : List RegW :=
  match o with
  | .v k =>
    match elemRegs d with
    | 4 => (List.range 4).map fun i => .v l (k.toNat + i) (BitVec.ofNat 32 (x / 2 ^ (32 * i)))
    | 2 => [.v l k.toNat (BitVec.ofNat 32 x), .v l (k.toNat + 1) (BitVec.ofNat 32 (x / 2 ^ 32))]
    | _ =>
      let y := if (tTy d).isInt then intReg (intRead (tTy d) x) else BitVec.ofNat 64 x
      [.v l k.toNat (y.setWidth 32)]
  | _ => []

/-- R190: what a lane stores: the bits of the element, and FPSR.SAT when the value was clamped. -/
def elemData (s : State) (x : Strand) (d : Rec) (o : Opnd) (sat : Bool) (l : Nat) : Nat × BitVec 6 :=
  match o with
  | .v k =>
    match elemRegs d with
    | 4 =>
      match basisOf s x.ctx (tagBid (tTag d)) with
      | some b => let q := getQuad x l k.toNat; (quadOf b fun h => quadDigit b q h, 0)
      | none => (0, 0)
    | n =>
      let w := if n = 2 then (x.vpair l k.toNat).toNat else (x.vreg l k.toNat).toNat
      if sat && (tTy d).isInt then
        let a := intFit (tTy d) true ((BitVec.ofNat (32 * n) w).toInt)
        (intBits (tTy d) a.1, if a.2 then fSAT else 0)
      else (w % 2 ^ (tTy d).bits, 0)
  | _ => (0, 0)

/-! ## One access -/

/-- What one access gives: registers to write, and a trap owed at completion (R197). -/
abbrev AccR := List RegW × Option (Cause × Dword)

/-- The record that the accesses of a tensor instruction follow, as it stands where its address lies now (R326, R346). -/
def recordNow (s : State) (w : Who) (tn : Option (Nat × Nat × List (BitVec 64))) : Nat × Rec :=
  match tn with
  | some (va, pa, _) => (va, dwordsOf (loadNat s (recordKey s w va pa) 128))
  | none => (0, [])

/-- Perform one access of an instruction. -/
def accDo (i : Instr) (w : Site) (tn : Option (Nat × Nat × List (BitVec 64))) (pc : Nat) (s : State) (a : LaneAcc) :
    Mem AccR :=
  let rmw (f : MForm) (load : Bool) : Mem AccR :=
    let n := szBytes f.sz
    let new (old : Nat) : Nat := atomicNew f.aop f.uns n old a.data a.data2
    let back (old : Nat) : AccR := (if load then loadWrites f.d n f.sx a.lane old else [], none)
    if f.loc then
      (localRead s w 1 a.ea n).bind fun s1 old => (localWrite s1 w 1 a.ea n new).bind fun s2 _ => .ok s2 (back old)
    else (flatRmw s w.who a.ea n new).bind fun s1 old => .ok s1 (back old)
  match i with
  | .ld f => (flatRead s w.who a.ea (szBytes f.sz)).bind fun s1 y =>
      .ok s1 (loadWrites f.d (szBytes f.sz) f.sx a.lane y, none)
  | .lds f => (localRead s w 1 a.ea (szBytes f.sz)).bind fun s1 y =>
      .ok s1 (loadWrites f.d (szBytes f.sz) f.sx a.lane y, none)
  | .st f => (flatWrite s w.who a.ea (szBytes f.sz) a.data).bind fun s1 _ => .ok s1 ([], none)
  | .sts f => (localWrite s w 1 a.ea (szBytes f.sz) fun _ => a.data).bind fun s1 _ => .ok s1 ([], none)
  | .atom f => rmw f (!f.nr)
  | .red f => rmw f false
  | .ldt f =>
    let d := (recordNow s w.who tn).2
    match inExtents d a.coords with
    | some c => (elemRead s w d c).bind fun s1 y => .ok s1 (elemWrites d f.d a.lane y, none)
    | none => .ok s (elemWrites d f.d a.lane 0, none)
  | .stt _ =>
    let d := (recordNow s w.who tn).2
    match inExtents d a.coords with
    | some c => (elemWrite s w d c a.data).bind fun s1 _ => .ok s1 ([], none)
    | none => (countDropped s w (recordNow s w.who tn).1).bind fun s1 _ => .ok s1 ([], none)
  | .hld f =>
    let k := match f.d with | .h k => k.toNat | _ => 0
    match fetchRecord s w.who w.who.ctx a.ea with
    | .ok s1 h _ _ => .ok s1 ([.h k h], none)
    | .invalid | .badTensor => .ok s ([.h k Handle.invalid], some (.badTensor, BitVec.ofNat 64 (pc * 2 ^ 32)))
    | .wait => .wait
    | .bad c j d => .bad c j d
  | _ => .ok s ([], none)

/-- R182: the order of the check that an access fails. -/
def failOrder (c : Cause) : Nat :=
  match c with | .vaRange => 1 | .pageNp | .ptBad => 4 | .pagePerm => 5 | .atomTarget => 6 | _ => 7

/-- R398: a floating atomic on peer memory. -/
def peerFloat (i : Instr) (s : State) (w : Site) (a : LaneAcc) : Bool :=
  let bad (f : MForm) : Bool := !f.loc && decide (8 ≤ f.aop) &&
    (match translate s w.who .atomic a.ea with | .ok _ mt => mt == 2 | _ => false)
  match i with
  | .atom f | .red f => bad f
  | _ => false

/-- What stops an access, if anything: whether it is a wait or a halt. -/
inductive Stop where
  | wait
  | halt (c : Cause) (info : Dword) (dm : Bool)
  deriving DecidableEq, Repr

/-- Make one access, unless R182 or R398 stops it. -/
def tryAcc (i : Instr) (w : Site) (tn : Option (Nat × Nat × List (BitVec 64))) (pc : Nat) (s : State) (a : LaneAcc) :
    Except Stop (State × AccR) :=
  if peerFloat i s w a then .error (.halt .atomTarget (BitVec.ofNat 64 a.ea) false)
  else match accDo i w tn pc s a with
    | .ok s1 r => .ok (s1, r)
    | .wait => .error .wait
    | .bad c j d => .error (.halt c j d)

/-- R179, R182: check one access, leaving the device alone. -/
def accStop (i : Instr) (w : Site) (tn : Option (Nat × Nat × List (BitVec 64))) (s : State) (a : LaneAcc) : Option Stop :=
  match tryAcc i w tn 0 s a with
  | .ok _ => none
  | .error e => some e

/-- R182: of two stops, the one that counts: the earlier check, then the one that came first. -/
def worse (a b : Option Stop) : Option Stop :=
  let rank : Option Stop → Nat := fun
    | some (.halt c _ _) => failOrder c
    | some .wait => 9
    | none => 10
  if rank b < rank a then b else a

/-- R179: every access is checked before any is made; the list holds the acting lanes in ascending order. -/
def checkAll (i : Instr) (w : Site) (tn : Option (Nat × Nat × List (BitVec 64))) (s : State) (accs : List LaneAcc) :
    Option Stop :=
  accs.foldl (fun b a => worse b (accStop i w tn s a)) none

/-- Accesses in ascending order of their lanes. -/
def lanesUp : List LaneAcc → List LaneAcc
  | [] => []
  | a :: rest => (lanesUp rest).takeWhile (fun b => decide (b.lane < a.lane)) ++ a :: (lanesUp rest).dropWhile fun b => decide (b.lane < a.lane)

/-- R182: where an access that is being made halts the context, the halt that counts among the accesses `left`: the earliest check,
then the lowest lane. -/
def stopOf (i : Instr) (w : Site) (tn : Option (Nat × Nat × List (BitVec 64))) (s : State) (left : List LaneAcc) :
    Option Stop → Option Stop
  | some (.halt c j d) => some ((checkAll i w tn s (lanesUp left)).getD (.halt c j d))
  | e => e

/-- Perform accesses in order, up to the first that is stopped: the registers, the accesses left, and the stop. -/
def doAll (i : Instr) (w : Site) (tn : Option (Nat × Nat × List (BitVec 64))) (pc : Nat) (s : State) (acc : AccR) :
    List LaneAcc → State × AccR × List LaneAcc × Option Stop
  | [] => (s, acc, [], none)
  | a :: rest =>
    match tryAcc i w tn pc s a with
    | .ok (s1, r) => doAll i w tn pc s1 (acc.1 ++ r.1, match acc.2 with | some t => some t | none => r.2) rest
    | .error e => (s, acc, a :: rest, some e)

/-- A list in the order that choices `g` give; every order is some choice of them. -/
def anyOrderBy {α : Type} (g : Nat → Nat) : List α → List α
  | [] => []
  | a :: rest =>
    let r := anyOrderBy g rest
    if r.isEmpty then [a] else r.insertIdx (g r.length % (r.length + 1)) a

/-- R14, R183, R192: the order in which the lanes of an instruction act is unspecified: any order, by free choices
(assumption 3). -/
def anyOrder {α : Type} (seed : Nat) (l : List α) : List α := anyOrderBy (fun n => Config.freeNat (seed * 2 ^ 64 + n)) l

/-! ## Accesses that others pass (R334, R335) -/

/-- R333: the bytes that an access covers, as (space, first place, count); none where they are not known before it is made. -/
def touches (i : Instr) (w : Site) (tn : Option (Nat × Nat × List (BitVec 64))) (s : State) (a : LaneAcc) :
    Option (List (Nat × Nat × Nat)) :=
  let flat (k : Access) (va n : Nat) : Option (List (Nat × Nat × Nat)) :=
    match translate s w.who k va with | .ok key _ => some [(0, key, n)] | _ => none
  let elem (k : Access) : Option (List (Nat × Nat × Nat)) :=
    let d := (recordNow s w.who tn).2
    match inExtents d a.coords with
    | none => if k == .read then some [] else flat .atomic ((recordNow s w.who tn).1 + 80) 8
    | some c =>
      let unit := storedIndex d (tNtag d) c / unitSize (tNtag d)
      match elemAt s w d c, (if tFlt d then flat .read (tMapp d + unit / 8) 1 else some []) with
      | .ok _ e, some m => ((e.pieces.flatMap fun p => pageParts p.1 p.2).mapM fun p => flat k p.1 p.2).map fun l => m ++ l.flatten
      | _, _ => none
  let rmw (f : MForm) : Option (List (Nat × Nat × Nat)) :=
    if f.loc then some [(1, a.ea, szBytes f.sz)] else flat .atomic a.ea (szBytes f.sz)
  match i with
  | .ld f => flat .read a.ea (szBytes f.sz)
  | .st f => flat .write a.ea (szBytes f.sz)
  | .lds f | .sts f => some [(1, a.ea, szBytes f.sz)]
  | .atom f | .red f => rmw f
  | .ldt _ => elem .read
  | .stt _ => elem .write
  | .hld _ => flat .read a.ea 128
  | _ => some []

/-- R335: two accesses overlap in a location, or may. -/
def meets (a b : Option (List (Nat × Nat × Nat))) : Bool :=
  match a, b with
  | some xs, some ys => xs.any fun x => ys.any fun y => x.1 == y.1 && overlap x.2.1 x.2.2 y.2.1 y.2.2
  | _, _ => true

/-- An access of a strand that has not been made: its instruction, what it stores, and the device places it covers. -/
structure Owed where
  instr : Instr
  acc : LaneAcc
  places : Option (List (Nat × Nat × Nat))
  deriving DecidableEq, Repr

/-- R334, R335: the accesses of a strand that have not been made, but for those of another path of a divergence that is open: no
lane of theirs is active. -/
def owedAccs (s : State) (r : Ref) (x : Strand) : List Owed :=
  let of (i : Instr) (m : Mask) (tn : Option (Nat × Nat × List (BitVec 64))) (l : List LaneAcc) : List Owed :=
    if m &&& x.active = 0 then [] else l.map fun a => { instr := i, acc := a, places := touches i (x.site r) tn s a }
  (x.held.flatMap fun h => of h.instr h.mask h.tn h.todo) ++ x.long.flatMap fun o => of o.instr o.mask o.tn o.todo

/-- R335, case 1: an access of the strand that has not been made may overlap one of these. -/
def overlapOwed (i : Instr) (tn : Option (Nat × Nat × List (BitVec 64))) (s : State) (r : Ref) (x : Strand)
    (accs : List LaneAcc) : Bool :=
  (owedAccs s r x).any fun o => accs.any fun a => meets o.places (touches i (x.site r) tn s a)

/-- R29, R335, case 1: an access of the strand that has not been made may overlap the record of a handle, which the instruction
reads. -/
def recordOwed (s : State) (r : Ref) (x : Strand) (h : Handle) : Bool :=
  h.valid && (owedAccs s r x).any fun o => meets o.places (match translate s (x.who r) .read h.addr with
    | .ok key _ => some [(0, key, 128)]
    | _ => none)

/-- R341: a core-local write: a plain store, or a release at cluster scope or a narrower one. -/
def coreLocal (i : Instr) : Bool :=
  match i with
  | .st f | .sts f => !f.sem.getLsbD 1 || decide (f.scope.toNat ≤ 2)
  | _ => false

/-- R341: the value that a plain load takes from a store of its own strand that nobody else sees yet: the one access not yet made
that overlaps it, a core-local write to all of its bytes. -/
def forwarded (i : Instr) (tn : Option (Nat × Nat × List (BitVec 64))) (s : State) (r : Ref) (x : Strand) (a : LaneAcc) :
    Option Nat :=
  let mine := touches i (x.site r) tn s a
  let plain := match i with | .ld _ | .lds _ => !(semOf i).getLsbD 0 | _ => false
  match plain, (owedAccs s r x).filter (fun o => meets o.places mine), mine with
  | true, [o], some [(sp, k, n)] =>
    match o.places with
    | some [(sp', k', n')] =>
      if coreLocal o.instr && sp == sp' && decide (k' ≤ k) && decide (k + n ≤ k' + n') then
        some (o.acc.data / 2 ^ (8 * (k - k')) % 2 ^ (8 * n))
      else none
    | _ => none
  | _, _, _ => none

/-- R186: what a load of `y` writes for one of its accesses. -/
def forwardWrites (i : Instr) (a : LaneAcc) (y : Nat) : List RegW :=
  match i with | .ld f | .lds f => loadWrites f.d (szBytes f.sz) f.sx a.lane y | _ => []

/-- Somebody could tell when an access of the strand is made: another strand, a child operation, an event still to come, or another
path of an open divergence. -/
def watched (s : State) (x : Strand) : Bool :=
  !x.rstk.isEmpty || !s.agenda.isEmpty || decide (1 < (s.cores.map fun k => k.2.strands.length).sum) ||
    s.cores.any fun k => k.2.tokens.any fun t => t.2.gen != 0

/-- R335, R341: whether the access of a lane is made after its instruction has issued, so that accesses of the strand that no
case of R335 orders after it may be made first: a free choice (assumption 3). An acquire, an HLD and an access to device
memory are made at issue, and so is one whose time nobody could tell. -/
def passedBy (i : Instr) (w : Site) (s : State) (x : Strand) (a : LaneAcc) : Bool :=
  let plain := match i with
    | .ld _ | .st _ | .atom _ | .red _ =>
      !(semOf i).getLsbD 0 && match leafFor s w.who (a.ea % 2 ^ 57) with | .ok (_, _, e) => leafMt e != 3 | .error _ => true
    | .lds _ | .sts _ | .ldt _ | .stt _ => true
    | _ => false
  plain && watched s x && Config.freeBool (s.free * 2 ^ 64 + 2 ^ 63 + a.lane)

/-! ## Bodies -/

/-- R333: an access of the instruction is a read-modify-write: of an atomic, of a store to an .i4 element (R322), or of the counter of
dropped stores (R189). -/
def readsToo (i : Instr) (tn : Option (Nat × Nat × List (BitVec 64))) (rest : List LaneAcc) : Bool :=
  match i, tn with
  | .atom _, _ | .red _, _ => true
  | .stt _, some (_, _, d) => tTy d == .i4 || rest.any fun a => (inExtents d a.coords).isNone
  | _, _ => false

/-- The strand once an instruction has issued its accesses: `ws` and `trap` are what those made have given, `rest` those that
have not been made. -/
def leaveAccs (i : Instr) (tn : Option (Nat × Nat × List (BitVec 64))) (s : State) (r : Ref) (x : Strand) (ws : List RegW)
    (trap : Option (Cause × Dword)) (rest : List LaneAcc) : Strand :=
  if Instr.isLong i then
    { x with long := x.long ++ [{ newLong i s r x ws 0 with todo := rest, tn := tn, trap := trap }] }
  else if rest.isEmpty then x
  else { x with held := x.held ++ [{ pc := x.pc, instr := i, mask := x.active, todo := rest, tn := tn, rmw := readsToo i tn rest }] }

/-- The accesses of an instruction that has passed its traps, in ascending lane order: after the checks of R182 they are made at
its issue in any order, but for those that are left to be made later (R334, R335), or none is and they are held for replay
(R68, R179). `fl` are flags raised at issue, and `ws` registers that loads have taken from stores not yet made (R341). -/
def makeAccs (i : Instr) (tn : Option (Nat × Nat × List (BitVec 64))) (accs : List LaneAcc) (ws : List RegW) (fl : BitVec 6)
    (s : State) (r : Ref) (x : Strand) : Res :=
  let w := x.site r
  let put (s : State) (fl : BitVec 6) (ws : List RegW) (trap : Option (Cause × Dword)) (rest : List LaneAcc) : State :=
    s.setStrand r (addFlags fl (leaveAccs i tn s r x ws trap rest))
  match checkAll i w tn s accs with
  | some .wait => .stall
  | some (.halt c j d) => .haltAfter (put s fl ws none (anyOrder s.free accs)) c j d
  | none =>
    let order := anyOrder s.free accs
    let later := order.filter (passedBy i w s x)
    let a := doAll i w tn x.pc s (ws, none) (order.filter fun a => !passedBy i w s x a)
    match stopOf i w tn a.1 (a.2.2.1 ++ later) a.2.2.2 with
    | none => .done (put a.1 0 a.2.1.1 a.2.1.2 later) fl
    | some (.halt c j d) => .haltAfter (put a.1 fl a.2.1.1 a.2.1.2 (a.2.2.1 ++ later)) c j d
    | some .wait => .done (put a.1 0 a.2.1.1 a.2.1.2 (a.2.2.1 ++ later)) fl

/-- The accesses of an instruction. Where they overlap accesses that the strand has issued and not made, a load takes what its own
store will write, if it can (R341), and anything else waits (R335). -/
def memBody (i : Instr) (tn : Option (Nat × Nat × List (BitVec 64))) (accs : List LaneAcc) (fl : BitVec 6)
    (s : State) (r : Ref) (x : Strand) : Res :=
  if overlapOwed i tn s r x accs then
    let own := accs.filterMap fun a => (forwarded i tn s r x a).map fun y => (a, y)
    let rest := accs.filter fun a => (forwarded i tn s r x a).isNone
    if overlapOwed i tn s r x rest || (checkAll i (x.site r) tn s accs).isSome then .stall
    else makeAccs i tn rest (own.flatMap fun e => forwardWrites i e.1 e.2) fl s r x
  else makeAccs i tn accs [] fl s r x

/-! ## Accesses made after their instruction (R68, R334, R377) -/

/-- A choice among the accesses that a strand owes, by the PC of their instruction. -/
abbrev Pick := Nat → LaneAcc → Bool

/-- What making accesses met first: the stop that halts. -/
def haltOf (a b : Option Stop) : Option Stop :=
  match a with
  | some (.halt c i dm) => some (.halt c i dm)
  | _ => b

/-- The accesses that `g` picks are made, for each outstanding instruction up to the first that is stopped. -/
def performLong (w : Site) (g : Pick) (s : State) : List LongOp → State × List LongOp × Option Stop
  | [] => (s, [], none)
  | o :: rest =>
    let a := doAll o.instr w o.tn o.pc s (o.writes, o.trap) (o.todo.filter (g o.pc))
    let b := performLong w g a.1 rest
    let left := a.2.2.1 ++ o.todo.filter fun l => !g o.pc l
    (b.1, { o with writes := a.2.1.1, trap := a.2.1.2, todo := left } :: b.2.1, haltOf (stopOf o.instr w o.tn a.1 left a.2.2.2) b.2.2)

/-- The same for the instructions of fixed latency; one with no access left is gone. -/
def performHeld (w : Site) (g : Pick) (s : State) : List Held → State × List Held × Option Stop
  | [] => (s, [], none)
  | o :: rest =>
    let a := doAll o.instr w o.tn o.pc s ([], none) (o.todo.filter (g o.pc))
    let b := performHeld w g a.1 rest
    let left := a.2.2.1 ++ o.todo.filter fun l => !g o.pc l
    (b.1, if left.isEmpty then b.2.1 else { o with todo := left } :: b.2.1, haltOf (stopOf o.instr w o.tn a.1 left a.2.2.2) b.2.2)

/-- R205: accesses of the active lanes have been issued and not made. -/
def lanesOwe (x : Strand) : Bool :=
  (x.held.any fun o => o.mask &&& x.active != 0) || x.long.any fun o => !o.todo.isEmpty && o.mask &&& x.active != 0

/-- R205: a SYNCG that waits for the accesses of its lanes ends once they have been made. -/
def endSyncg (s : State) (r : Ref) : State :=
  match s.strand? r with
  | none => s
  | some x => if x.wait = .syncg ∧ !lanesOwe x then endWait s r x (.imm 0) 0 else s

/-- R68, R334, R377: a strand's accesses that `g` picks, of those it has issued and that have not been made, are made, each
once. One that fails halts the context; one that waits (R310, R399) is left. -/
def performOwed (g : Pick) (s : State) (r : Ref) : State :=
  match s.strand? r with
  | none => s
  | some x =>
    let a := performLong (x.site r) g s x.long
    let b := performHeld (x.site r) g a.1 x.held
    let y := { x with long := a.2.1, held := b.2.1 }
    match haltOf a.2.2 b.2.2 with
    | some (.halt c i dm) => haltStrand b.1 r y c i dm
    | _ => endSyncg (b.1.setStrand r y) r

/-- Every access that a strand owes is made. -/
def performAll : State → Ref → State := performOwed fun _ _ => true

/-- The lowest acting lane that satisfies `f`, as its address. -/
def firstBad (accs : List LaneAcc) (f : LaneAcc → Bool) : Option Dword :=
  (accs.find? f).map fun a => BitVec.ofNat 64 a.ea

/-- R182: the checks of a flat access that need no translation, then the accesses. -/
def flatBody (i : Instr) (size : Nat) (accs : List LaneAcc) : State → Ref → Strand → Res := fun s r x =>
  match firstBad accs fun a => !vaOk a.ea with
  | some e => .halt .vaRange e false
  | none =>
    match firstBad accs fun a => a.ea % size != 0 with
    | some e => .trap .misalign e
    | none => memBody i none accs 0 s r x

/-- R222: a range of the slot conflicts with `n` bytes of the scratchpad. -/
def conflicts (q : Slot) (lo n : Nat) (wr : Bool) : Bool :=
  q.ranges.any fun g => g.space == 1 && (g.wr || wr) && overlap g.lo (g.hi - g.lo) lo n

/-- R182, R188: the checks of a scratchpad access, then the accesses. -/
def scratchBody (i : Instr) (size : Nat) (wr : Bool) (accs : List LaneAcc) : State → Ref → Strand → Res := fun s r x =>
  let q := s.slot r.core x.slot
  match firstBad accs fun a => a.ea % size != 0 with
  | some e => .trap .misalign e
  | none =>
    match firstBad accs fun a => decide (spaceSize q 1 < a.ea + size) with
    | some e => .trap .spRange e
    | none =>
      if accs.any fun a => conflicts q a.ea size wr then .stall else memBody i none accs 0 s r x

def laneAcc (l ea data data2 : Nat) : LaneAcc := { lane := l, ea := ea, coords := [], data := data, data2 := data2 }

/-! ## Loads and stores (R185, R186) -/

def ldBody (f : MForm) : State → Ref → Strand → Res := fun s r x =>
  let accs := if f.d.isS then [laneAcc 0 (flatEaU s r x f) 0 0]
    else (x.acting f.hd).map fun l => laneAcc l (flatEa s r x f l) 0 0
  flatBody (.ld f) (szBytes f.sz) accs s r x

def execLd (f : MForm) (s : State) : Host.Outcome State Fault Refusal := issue (.ld f) s (ldBody f)

def stBody (f : MForm) : State → Ref → Strand → Res := fun s r x =>
  let n := szBytes f.sz
  let accs := if f.d.isS then [laneAcc 0 (flatEaU s r x f) (storeValue x f.d n 0) 0]
    else (x.acting f.hd).map fun l => laneAcc l (flatEa s r x f l) (storeValue x f.d n l) 0
  flatBody (.st f) n accs s r x

def execSt (f : MForm) (s : State) : Host.Outcome State Fault Refusal := issue (.st f) s (stBody f)

def ldsBody (f : MForm) : State → Ref → Strand → Res := fun s r x =>
  let accs := (x.acting f.hd).map fun l => laneAcc l (localEa s r x f l) 0 0
  scratchBody (.lds f) (szBytes f.sz) false accs s r x

def execLds (f : MForm) (s : State) : Host.Outcome State Fault Refusal := issue (.lds f) s (ldsBody f)

def stsBody (f : MForm) : State → Ref → Strand → Res := fun s r x =>
  let n := szBytes f.sz
  let accs := (x.acting f.hd).map fun l => laneAcc l (localEa s r x f l) (storeValue x f.d n l) 0
  scratchBody (.sts f) n true accs s r x

def execSts (f : MForm) (s : State) : Host.Outcome State Fault Refusal := issue (.sts f) s (stsBody f)

/-- R192: the accesses of an atomic. -/
def atomicAccs (s : State) (r : Ref) (x : Strand) (f : MForm) (uniform : Bool) : List LaneAcc :=
  let one (l ea : Nat) : LaneAcc := laneAcc l ea (atomicData x f l).1 (atomicData x f l).2
  if uniform then [one 0 (if f.loc then localEaU s r x f else flatEaU s r x f)]
  else (x.acting f.hd).map fun l => one l (if f.loc then localEa s r x f l else flatEa s r x f l)

/-- R191: a local atomic takes the checks of the scratchpad, any other those of a flat access. -/
def atomicBody (i : Instr) (f : MForm) (uniform : Bool) : State → Ref → Strand → Res := fun s r x =>
  let accs := atomicAccs s r x f uniform
  if f.loc then scratchBody i (szBytes f.sz) true accs s r x else flatBody i (szBytes f.sz) accs s r x

def execAtom (f : MForm) (s : State) : Host.Outcome State Fault Refusal :=
  issue (.atom f) s (atomicBody (.atom f) f f.d.isS)

def execRed (f : MForm) (s : State) : Host.Outcome State Fault Refusal :=
  issue (.red f) s (atomicBody (.red f) f false)

/-- R193: the translations of the lanes' lines are filled; nothing else is visible. -/
def execPref (f : MForm) (s : State) : Host.Outcome State Fault Refusal :=
  issue (.pref f) s fun s r x =>
    .done ((x.acting f.hd).foldl (fun s l =>
      let ea := flatEa s r x f l
      if vaOk ea then
        match translate s (x.who r) .read ea with | .ok _ _ => tlbFill s (x.who r) ea | _ => s
      else s) s) 0

/-! ## Tensor accesses (R189, R190) -/

/-- R189: D agrees with the element format. -/
def elemOpnd (d : Rec) (o : Opnd) : Bool :=
  match o with
  | .v k => k.toNat % elemRegs d == 0
  | _ => false

/-- R189, R190, R319, R322: the checks of LDT and STT that trap, in order. -/
def tensorTrap (s : State) (r : Ref) (x : Strand) (i : Instr) (f : MTForm) (d : Rec) (coords : List (List Int)) :
    Option (Cause × Dword) :=
  let k := match f.d with | .v k => k.toNat | _ => 0
  if f.nc.toNat ≠ tRank d then some (.badRank, 0)
  else if !elemOpnd d f.d then some (.badFormat, 0)
  else if x.budget < k + elemRegs d then some (.illOpnd, wordInfo (encode i))
  else if tSpace d ≠ 0 then some (.badPlace, 0)
  else if coords.any fun c => match inExtents d c with | some k => basisFails s (x.site r) d k | none => false then
    some (.badBasis, 0)
  else none

/-- R182, R189: the address of a lane's element that lies outside the 57-bit space, if one does. -/
def elemVa (s : State) (w : Site) (d : Rec) (c : List Int) : Option Dword :=
  match inExtents d c with
  | none => none
  | some k =>
    match elemAt s w d k with
    | .ok _ e => (e.pieces.find? fun p => !vaOk (p.1 % 2 ^ 64)).map fun p => BitVec.ofNat 64 p.1
    | _ => none

/-- LDT and STT: the handle, the traps, the address space, then the accesses. -/
def tensorBody (i : Instr) (f : MTForm) (store : Bool) : State → Ref → Strand → Res := fun s r x =>
  let k := match f.a with | .h k => k.toNat | _ => 0
  if recordOwed s r x (x.hreg k) then .stall
  else match useHandle s (x.who r) x.ctx (x.hreg k) with
  | .invalid => .trap .badHandle 0
  | .badTensor => .trap .badTensor 0
  | .wait => .stall
  | .bad c j dm => .halt c j dm
  | .ok s1 h pa d =>
    let lanes := x.acting f.hd
    match tensorTrap s1 r x i f d (lanes.map fun l => coordsOf s r x f l),
      lanes.findSome? (fun l => elemVa s1 (x.site r) d (coordsOf s r x f l)) with
    | some (c, j), _ => .trap c j
    | none, some e => .halt .vaRange e false
    | none, none =>
      let y := x.setH k h
      let accs := lanes.map fun l =>
        { lane := l, ea := 0, coords := coordsOf s r x f l,
          data := if store then (elemData s1 x d f.d (f.opx.getLsbD 0) l).1 else 0, data2 := 0 : LaneAcc }
      let fl := if store then lanes.foldl (fun b l =>
          if (inExtents d (coordsOf s r x f l)).isSome then b ||| (elemData s1 x d f.d (f.opx.getLsbD 0) l).2 else b) 0
        else 0
      memBody i (some (h.addr, pa, d)) accs fl (s1.setStrand r y) r y

def execLdt (f : MTForm) (s : State) : Host.Outcome State Fault Refusal :=
  issue (.ldt f) s (tensorBody (.ldt f) f false)

def execStt (f : MTForm) (s : State) : Host.Outcome State Fault Refusal :=
  issue (.stt f) s (tensorBody (.stt f) f true)

/-! ## Handles (R197 to R199) -/

def hldBody (f : MForm) : State → Ref → Strand → Res := fun s r x =>
  flatBody (.hld f) 128 [laneAcc 0 (flatEaU s r x f) 0 0] s r x

def execHld (f : MForm) (s : State) : Host.Outcome State Fault Refusal := issue (.hld f) s (hldBody f)

def execHset (f : T3) (s : State) : Host.Outcome State Fault Refusal :=
  issue (.hset f) s fun s r x =>
    let k := match f.d with | .h k => k.toNat | _ => 0
    match f.a with
    | .s a =>
      let ea := (x.sreg a.toNat).toNat
      if ea % 128 ≠ 0 then .trap .misalign (x.sreg a.toNat)
      else .done (s.setStrand r (x.setH k { valid := true, addr := ea, cache := none })) 0
    | .h a => .done (s.setStrand r (x.setH k (x.hreg a.toNat))) 0
    | _ => .done (s.setStrand r (x.setH k Handle.invalid)) 0

/-- R199: a field of a record. -/
def recField (addr : Nat) (d : Rec) (sel : Nat) : Nat :=
  match sel with
  | 0 => addr
  | 1 => tBase d
  | 2 => tObase d
  | 3 => tFmt d
  | 4 => tRank d
  | 5 => (tTag d).toNat
  | 6 => (tNtag d).toNat
  | 7 => tMapp d
  | 15 => recBits d 4 0 21
  | 16 => 1
  | 17 => tOobc d
  | n => if n - 8 < tRank d then tExt d (n - 8) else 0

/-- R199. TINFO of BAD_HANDLE and BAD_TENSOR is zero (assumption 41). -/
def hgetBody (f : T3) : State → Ref → Strand → Res := fun s r x =>
  let k := match f.a with | .h k => k.toNat | _ => 0
  let sel := uniOp s r x f.b % 2 ^ 32
  let put (s : State) (x : Strand) (n : Nat) : Res := .done (s.setStrand r (writeUni f.d (BitVec.ofNat 64 n) x)) 0
  if 17 < sel then put s x 0
  else if sel = 16 then put s x (x.hreg k).valid.toNat
  else if recordOwed s r x (x.hreg k) then .stall
  else match useHandle s (x.who r) x.ctx (x.hreg k) with
    | .invalid => .trap .badHandle 0
    | .badTensor => .trap .badTensor 0
    | .wait => .stall
    | .bad c j dm => .halt c j dm
    | .ok s1 h _ d => put s1 (x.setH k h) (recField h.addr d sel)

def execHget (f : T3) (s : State) : Host.Outcome State Fault Refusal := issue (.hget f) s (hgetBody f)

/-! ## Fences (R200, R201) -/

/-- R200: a fence issues once the accesses that it orders have been made (`orderBlocked`), and has no further effect. -/
def execFence (f : T3) (s : State) : Host.Outcome State Fault Refusal :=
  issue (.fence f) s fun s _ _ => .done s 0

def execIfence (f : T3) (s : State) : Host.Outcome State Fault Refusal :=
  issue (.ifence f) s fun s r _ => .done (s.modCore r.core fun k => { k with icache := [] }) 0

end Machine
end Sys2Proof
end

