-- ==== Sys2Proof/Machine/EngineIssue.lean ====
section
/-! DEFINITION. Engine instructions at issue: the parameter block (R229), the issue checks (R195, R231), the ranges an
operation registers (R222), and the allocation of its token (R211, R447). Each meaning captures its operands in the token's
`Op`; the engines themselves are in the files Copy, Matrix, Relayout and Collective. -/

namespace Sys2Proof.Machine

/-! ## Lane forms (R107) -/

/-- R107: the widths with a zero and a nonzero zero point, and the limits of the zero point. -/
def laneForm (t : Ty) : Option (Nat × Nat × Int × Int) :=
  match t with
  | .i4 => some (4, 5, -8, 7)
  | .i8 => some (8, 9, -128, 127)
  | .n8 => some (9, 10, -128, 127)
  | .i16 => some (16, 17, -128, 127)
  | .i24 => some (24, 24, 0, 0)
  | .b8 u _ p =>
    let w := match u, p.toNat with
      | false, 4 => some 19 | false, 5 => some 12 | false, 6 => some 9 | false, 7 => some 8
      | true, 5 => some 20 | true, 6 => some 13 | true, 7 => some 10
      | _, _ => none
    w.map fun w => (w, w, 0, 0)
  | _ => none

/-- R107, R239: the tensor can be a matrix operand. -/
def laneOperand (d : Rec) : Bool := tagResidue (tTag d) || (laneForm (tTy d)).isSome

/-- The elements of a tensor. -/
def elemCount (d : Rec) : Nat := ((List.range (tRank d)).map (tExt d)).foldl (· * ·) 1

/-! ## Checks -/

/-- The device and the strand as the checks leave them: handles in use hold their records. -/
abbrev Chk := Except Res

/-- R231: the check fails with cause `c` and detail `n`. -/
def refuse {α : Type} (c : Cause) (n : Nat) : Chk α := .error (.trap c (BitVec.ofNat 64 n))

/-- R231: trap when `b` holds. -/
def trapIf (b : Bool) (c : Cause) (n : Nat) : Chk Unit := if b then refuse c n else .ok ()

def Opnd.hIndex : Opnd → Nat
  | .h k => k.toNat
  | _ => 0

/-- R29, R231: the tensor that handle register `k` names; `n` is its operand field number. -/
def useH (r : Ref) (k n : Nat) (c : State × Strand) : Chk ((State × Strand) × Tn) :=
  match checkHandle c.1 (c.2.who r) c.2.ctx (c.2.hreg k) with
  | .invalid => refuse .badHandle n
  | .badTensor => refuse .badTensor n
  | .wait => .error .stall
  | .bad e i dm => .error (.halt e i dm)
  | .ok s h pa d => .ok ((s, c.2.setH k h), { va := h.addr, pa := pa, dw := d, dw0 := d })

/-- Handles in order, as (register, field number). -/
def useHs (r : Ref) : List (Nat × Nat) → State × Strand → Chk ((State × Strand) × List Tn)
  | [], c => .ok (c, [])
  | (k, n) :: rest, c => do
    let a ← useH r k n c
    let b ← useHs r rest a.1
    .ok (b.1, a.2 :: b.2)

/-- R229: register `j` of the parameter block. -/
def blk (x : Strand) (f : EForm) (j : Nat) : Nat := (x.sreg (f.sr + j)).toNat

/-- Bits of a block register. -/
def blkBits (x : Strand) (f : EForm) (j lo n : Nat) : Nat := blk x f j / 2 ^ lo % 2 ^ n

/-- A 32-bit half of a block register, signed. -/
def blkInt (x : Strand) (f : EForm) (j lo : Nat) : Int := (BitVec.ofNat 32 (blk x f j / 2 ^ lo)).toInt

/-- R229, R231: the counter address and the zero bits that every block has. -/
def blockHead (x : Strand) (f : EForm) : Chk Unit := do
  trapIf (blk x f 0 % 8 != 0) .badCounter 0
  trapIf (blkBits x f 1 48 16 != 0) .badParam 1

/-- R321, R324: the areas of a tensor as (base, bytes): during a relayout the new one and the old one. -/
def areasOf (s : State) (ctx : Nat) (d : Rec) : List (Nat × Nat) :=
  let size (t : Word) : Nat := areaBytes d t (tagSpan s ctx t)
  if tFlt d then [(tBase d, size (tNtag d)), (tObase d, size (tTag d))] else [(tBase d, size (tTag d))]

/-- R231: a flat tensor's areas lie in the 57-bit space. -/
def flatOk (s : State) (ctx : Nat) (d : Rec) : Bool :=
  tSpace d != 0 || (areasOf s ctx d).all fun a => vaOk a.1 && vaOk (a.1 + a.2 - 1) && decide (a.1 + a.2 ≤ 2 ^ 64)

/-- R231: a local tensor's areas lie in its space. -/
def localOk (s : State) (q : Slot) (ctx : Nat) (d : Rec) : Bool :=
  tSpace d == 0 || (areasOf s ctx d).all fun a => decide (a.1 + a.2 ≤ spaceSize q (tSpace d))

/-- R370: the effective address of a flat area that leaves the address space: its base, or the first address past the canonical
half that it starts in. -/
def flatBad (s : State) (ctx : Nat) (d : Rec) : Nat :=
  match (areasOf s ctx d).find? fun a => !(vaOk a.1 && vaOk (a.1 + a.2 - 1) && decide (a.1 + a.2 ≤ 2 ^ 64)) with
  | some a => if !vaOk a.1 then a.1 else if a.1 < 2 ^ 56 then 2 ^ 56 else 0
  | none => 0

/-- R370: the effective address of a local area that leaves its space: the first byte outside. -/
def localOut (s : State) (q : Slot) (ctx : Nat) (d : Rec) : Nat :=
  match (areasOf s ctx d).find? fun a => !decide (a.1 + a.2 ≤ spaceSize q (tSpace d)) with
  | some a => max a.1 (spaceSize q (tSpace d))
  | none => 0

/-- R231, order 4, over tensors: the address space first, then the local regions. TINFO is the effective address (R370). -/
def placesOk (s : State) (q : Slot) (ctx : Nat) (ts : List Tn) : Chk Unit :=
  match ts.find? fun t => !flatOk s ctx t.dw with
  | some t => refuse .vaRange (flatBad s ctx t.dw)
  | none =>
    match ts.find? fun t => !localOk s q ctx t.dw with
    | some t => refuse .spRange (localOut s q ctx t.dw)
    | none => .ok ()

/-- R231: the first tensor that fails a test. -/
def allTn (ts : List (Tn × Nat)) (c : Cause) (ok : Rec → Bool) : Chk Unit :=
  match ts.find? fun t => !ok t.1.dw with
  | some t => refuse c t.2
  | none => .ok ()

/-! ## Ranges and allocation -/

/-- R222: a region of a local space as (space, low, high, written). -/
abbrev Region4 := Nat × Nat × Nat × Bool

/-- R222: the regions of a tensor. -/
def tnRegions (s : State) (ctx : Nat) (wr : Bool) (t : Tn) : List Region4 :=
  if tSpace t.dw = 0 then [] else (areasOf s ctx t.dw).map fun a => (tSpace t.dw, a.1, a.1 + a.2, wr)

/-- R222: the scoreboard has room for the regions; a relayout holds one entry whatever its regions. -/
def roomFor (q : Slot) (kind : Nat) (rs : List Region4) : Bool :=
  let mine := q.ranges.filter fun g => g.kind == kind
  if rs.isEmpty then true
  else if kind = 3 then decide (((mine.map (·.idx)).eraseDups).length < 4)
  else decide (mine.length + rs.length ≤ (match kind with | 0 => 256 | 1 => 32 | _ => 16))

/-- What an engine instruction asks for once its checks have passed. -/
structure Request where
  cls : Nat
  op : Op
  kind : Nat
  regions : List Region4
  caddr : Nat
  cinc : Nat
  tag : Nat

/-- R211, R222, R447: take an entry, fill it, register the regions and write the token. A killed context's operation is to be
cancelled (R227). -/
def issueOp (f : EForm) (r : Ref) (c : State × Strand) (q : Request) : Res :=
  let s := c.1
  let x := c.2
  match pickEntry s r.core q.cls with
  | none => .stall
  | some i =>
    let k := s.slot r.core x.slot
    if !roomFor k q.kind q.regions then .stall
    else
      let old := s.token r.core i
      let seq := s.nextId
      let e : Token :=
        { tag := BitVec.ofNat 16 q.tag, pred := if f.pd then BitVec.ofNat 32 (uniOp s r x f.c) else 0,
          caddr := BitVec.ofNat 64 q.caddr, cinc := BitVec.ofNat 32 q.cinc, cause := 0,
          gen := if old.gen = 32767 then 1 else old.gen + 1, cslot := x.slot, owner := r.strid, prio := f.prio,
          det := f.det, orph := false, fact := f.fact, cls := q.cls, st := .pending, ctx := x.ctx, pl := x.pl, seq := seq,
          started := false, stuck := false, skips := 0,
          cancel := (match s.ctx? x.ctx with | some c => c.killed | none => false), detail := 0, dm := false, ended := 0,
          cluster := clusterOf r.core, team := x.tslot, ringed := false, issuer := x.serial, op := q.op,
          work := Work.zero }
      let s1 := { s.setToken r.core i e with nextId := seq + 1 }
      let s2 := s1.modSlot r.core x.slot fun k =>
        { k with ranges := k.ranges ++ q.regions.map fun g =>
            { idx := i, kind := q.kind, space := g.1, lo := g.2.1, hi := g.2.2.1, wr := g.2.2.2, seq := seq } }
      let y := if f.det then x else x.addCount q.cls 1
      .done (s2.setStrand r (writeUni f.d ((e.word r.core i).setWidth 64) y)) 0

/-- What an instruction asks for, with the device and the strand as its checks leave them. -/
abbrev Asked := (State × Strand) × Request

/-- An engine instruction: its checks answer what it asks for, or what becomes of it instead. -/
def engineBody (f : EForm) (g : State → Ref → Strand → Chk Asked) : State → Ref → Strand → Res := fun s r x =>
  match g s r x with
  | .ok a => issueOp f r a.1 a.2
  | .error e => e

/-- The request of an instruction of class 0x9: counter and tag from the block (R229). -/
def blockRequest (x : Strand) (f : EForm) (cls : Nat) (op : Op) (kind : Nat) (rs : List Region4) : Request :=
  { cls := cls, op := op, kind := kind, regions := rs, caddr := blk x f 0, cinc := blkBits x f 1 0 32,
    tag := blkBits x f 1 32 16 }

/-- R231, R370, order 4: a block register holds a flat address. -/
def blockVa (x : Strand) (f : EForm) (j : Nat) : Chk Unit := trapIf (!vaOk (blk x f j)) .vaRange (blk x f j)

/-- R231, R370, order 4: a block register holds a multiple of `n`. -/
def blockAligned (x : Strand) (f : EForm) (j n : Nat) : Chk Unit := trapIf (blk x f j % n != 0) .misalign (blk x f j)

/-! ## Copies (R233 to R235) -/

/-- R233, R370: the lowest lane that fails a check of CPL traps with the address that fails. -/
def laneFails (as : List Nat) (c : Cause) (bad : Nat → Bool) : Chk Unit :=
  match as.find? bad with
  | some a => refuse c a
  | none => .ok ()

def cplReq (f : EForm) (s : State) (r : Ref) (x : Strand) : Chk Asked := do
  let n := 4 * 2 ^ bitsOf f.ops 18 3
  let store := f.ops.getLsbD 21
  let q := s.slot r.core x.slot
  let ps := x.activeLanes.map fun l => (laneOp s r x 2 l f.a, laneOp s r x 1 l f.b)
  blockHead x f
  blockVa x f 0
  laneFails (ps.map (·.1)) .vaRange fun a => !vaOk a
  laneFails (ps.map (·.2)) .spRange fun b => decide (spaceSize q 1 < b + n)
  laneFails (ps.flatMap fun p => [p.1, p.2]) .misalign fun a => a % n != 0
  let lo := ps.foldl (fun m p => min m p.2) (2 ^ 32)
  let hi := ps.foldl (fun m p => max m (p.2 + n)) 0
  let rs : List Region4 := if ps.isEmpty then [] else [(1, lo, hi, !store)]
  .ok ((s, x), (blockRequest x f 0 (.cpl store n (bitsOf f.ops 15 3) ps) 0 rs))

def cplBody (f : EForm) : State → Ref → Strand → Res := engineBody f (cplReq f)

def execCpl (f : EForm) (s : State) : Host.Outcome State Fault Refusal := issue (.cpl f) s (cplBody f)

/-- R234: the box parameters that must be trivial at or above a rank: the first failing register offset. -/
def boxFault (x : Strand) (f : EForm) (src dst : Rec) : Option Nat :=
  let box (j : Nat) : Nat := blkBits x f 6 (16 * j) 16
  let org (base j : Nat) : Int := blkInt x f (base + j / 2) (32 * (j % 2))
  let low := min (tRank src) (tRank dst)
  ((((List.range 4).filter fun j => decide (tRank src ≤ j) && org 2 j != 0).map fun j => 2 + j / 2) ++
    (((List.range 4).filter fun j => decide (tRank dst ≤ j) && org 4 j != 0).map fun j => 4 + j / 2) ++
    (if (List.range 4).any fun j => box j == 0 || (decide (low ≤ j) && box j != 1) then [6] else [])).head?

def cptReq (f : EForm) (s : State) (r : Ref) (x : Strand) : Chk Asked := do
  let (c, ts) ← useHs r [(Opnd.hIndex f.a, 0), (Opnd.hIndex f.b, 1)] (s, x)
  let dst := ts.getD 0 ⟨0, 0, [], []⟩
  let src := ts.getD 1 ⟨0, 0, [], []⟩
  blockHead x f
  match boxFault x f src.dw dst.dw with
  | some j => refuse .badParam j
  | none => .ok ()
  blockVa x f 0
  placesOk c.1 (c.1.slot r.core x.slot) x.ctx [dst, src]
  allTn [(dst, 0), (src, 1)] .badRank fun d => decide (tRank d ≤ 4)
  trapIf (tFmt src.dw != tFmt dst.dw) .badFormat 0
  let mc := bitsOf f.ops 18 4
  trapIf (mc != 0 && tSpace dst.dw != 1) .badPlace 0
  let org (base : Nat) : List Int := (List.range 4).map fun j => blkInt x f (base + j / 2) (32 * (j % 2))
  let box := (List.range 4).map fun j => blkBits x f 6 (16 * j) 16
  .ok (c, (blockRequest x f 0 (.cpt dst src (org 2) (org 4) box mc) 0
    (tnRegions c.1 x.ctx true dst ++ tnRegions c.1 x.ctx false src)))

def cptBody (f : EForm) : State → Ref → Strand → Res := engineBody f (cptReq f)

def execCpt (f : EForm) (s : State) : Host.Outcome State Fault Refusal := issue (.cpt f) s (cptBody f)

def cpgReq (f : EForm) (s : State) (r : Ref) (x : Strand) : Chk Asked := do
  let (c, ts) ← useHs r [(Opnd.hIndex f.a, 0), (Opnd.hIndex f.b, 1)] (s, x)
  let dst := ts.getD 0 ⟨0, 0, [], []⟩
  let src := ts.getD 1 ⟨0, 0, [], []⟩
  blockHead x f
  trapIf (decide (65535 < blk x f 3)) .badParam 3
  blockVa x f 0
  blockVa x f 2
  placesOk c.1 (c.1.slot r.core x.slot) x.ctx [dst, src]
  blockAligned x f 2 16
  allTn [(dst, 0), (src, 1)] .badRank fun d => decide (tRank d ≤ 4)
  trapIf (tFmt src.dw != tFmt dst.dw) .badFormat 0
  .ok (c, (blockRequest x f 0
    (.cpg (f.ops.getLsbD 21) (bitsOf f.ops 17 4) (bitsOf f.ops 13 4) dst src (blk x f 2) (blk x f 3)) 0
    (tnRegions c.1 x.ctx true dst ++ tnRegions c.1 x.ctx false src)))

def cpgBody (f : EForm) : State → Ref → Strand → Res := engineBody f (cpgReq f)

def execCpg (f : EForm) (s : State) : Host.Outcome State Fault Refusal := issue (.cpg f) s (cpgBody f)

/-! ## Conversion (R236) -/

/-- R110: the smallest integer format that holds `w` bits. -/
def laneTy (w : Nat) : Ty := if w ≤ 4 then .i4 else if w ≤ 8 then .i8 else if w ≤ 16 then .i16 else .i24

/-- R236: the source type of a mode. -/
def cvbTy (mode : Nat) : Ty := match mode with | 0 => .bf16 | 1 => .f32 | _ => .f64

/-- R236: the elements a scale region needs. -/
def cvbNeed (square : Bool) (e0 e1 : Nat) : Nat :=
  if square then ceilDiv e0 128 * ceilDiv e1 128 else ceilDiv e0 128 * 128 * ceilDiv e1 128

def cvbReq (f : EForm) (s : State) (r : Ref) (x : Strand) : Chk Asked := do
  let mode := bitsOf f.ops 20 2
  let w := bitsOf f.ops 15 5
  let square := f.ops.getLsbD 14
  let n := if mode = 2 then 3 else 1
  let a := Opnd.hIndex f.a
  let sh := bitsOf f.ops 10 4
  let (c, src) ← do
    let (c, ts) ← useHs r [(a, 0), (Opnd.hIndex f.b, 1)] (s, x)
    .ok (c, ts)
  let (c, more) ← useHs r ((List.range (n - 1)).map fun j => (a + 1 + j, 0)) c
  let (c, scales) ← useHs r ((List.range n).map fun j => (sh + j, 2 + j)) c
  let dsts := src.take 1 ++ more
  let srcT := src.getD 1 ⟨0, 0, [], []⟩
  let sc := scales.zipIdx.map fun t => (t.1, 2 + t.2)
  blockHead x f
  blockVa x f 0
  blockVa x f 2
  placesOk c.1 (c.1.slot r.core x.slot) x.ctx (dsts ++ [srcT] ++ scales)
  blockAligned x f 2 8
  trapIf (tRank srcT.dw != 2) .badRank 1
  trapIf (tTy srcT.dw != cvbTy mode || tagResidue (tTag srcT.dw)) .badFormat 1
  allTn (dsts.map fun t => (t, 0)) .badFormat fun d => tagResidue (tTag d) || tTy d == laneTy w
  let e0 := tExt srcT.dw 0
  let e1 := tExt srcT.dw 1
  allTn (dsts.map fun t => (t, 0)) .badShape fun d => tRank d == 2 && tExt d 0 == e0 && tExt d 1 == e1
  allTn sc .badShape fun d => tTy d == .n16 && !tagResidue (tTag d) && decide (cvbNeed square e0 e1 ≤ elemCount d)
  allTn ((dsts.map fun t => (t, 0)) ++ [(srcT, 1)] ++ sc) .badPlace fun d => tSpace d != 2
  .ok (c, (blockRequest x f 1 (.cvb mode w square dsts srcT scales (blk x f 2)) 0
    (dsts.flatMap (tnRegions c.1 x.ctx true) ++ tnRegions c.1 x.ctx false srcT ++
      scales.flatMap (tnRegions c.1 x.ctx true))))

def cvbBody (f : EForm) : State → Ref → Strand → Res := engineBody f (cvbReq f)

def execCvb (f : EForm) (s : State) : Host.Outcome State Fault Refusal := issue (.cvb f) s (cvbBody f)

/-! ## Accumulator instructions (R237 to R239, R242) -/

/-- The accumulator slot and the exponent that OPS name. -/
def opsAcc (f : EForm) : Nat := bitsOf f.ops 20 2
def opsEacc (f : EForm) (lo : Nat) : Int := (f.ops.extractLsb' lo 10).toInt

def mzeroReq (f : EForm) (s : State) (_r : Ref) (x : Strand) : Chk Asked := do
  blockHead x f
  blockVa x f 0
  .ok ((s, x), (blockRequest x f 2 (.mzero (opsAcc f) (bitsOf f.ops 17 3) (opsEacc f 7)) 1 []))

def mzeroBody (f : EForm) : State → Ref → Strand → Res := engineBody f (mzeroReq f)

def execMzero (f : EForm) (s : State) : Host.Outcome State Fault Refusal := issue (.mzero f) s (mzeroBody f)

/-- R238: the checks that MRL and MRS share, from order 4 on. -/
def residueChecks (t : Tn) : Chk Unit := do
  trapIf (tRank t.dw != 2) .badRank 0
  trapIf (!tagResidue (tTag t.dw)) .badFormat 0
  trapIf (tSpace t.dw == 0) .badPlace 0

def mrlReq (f : EForm) (s : State) (r : Ref) (x : Strand) : Chk Asked := do
  let (c, t) ← useH r (Opnd.hIndex f.a) 0 (s, x)
  let q := c.1.slot r.core x.slot
  blockHead x f
  blockVa x f 0
  placesOk c.1 q x.ctx [t]
  residueChecks t
  .ok (c, (blockRequest x f 2 (.mrl (opsAcc f) (opsEacc f 10) t (blk x f 2)) 1
    (tnRegions c.1 x.ctx false t)))

def mrlBody (f : EForm) : State → Ref → Strand → Res := engineBody f (mrlReq f)

def execMrl (f : EForm) (s : State) : Host.Outcome State Fault Refusal := issue (.mrl f) s (mrlBody f)

def mrsReq (f : EForm) (s : State) (r : Ref) (x : Strand) : Chk Asked := do
  let (c, t) ← useH r (Opnd.hIndex f.a) 0 (s, x)
  let q := c.1.slot r.core x.slot
  blockHead x f
  blockVa x f 0
  blockVa x f 2
  placesOk c.1 q x.ctx [t]
  blockAligned x f 2 16
  residueChecks t
  .ok (c, (blockRequest x f 3 (.mrs (opsAcc f) t (blk x f 2)) 2 (tnRegions c.1 x.ctx true t)))

def mrsBody (f : EForm) : State → Ref → Strand → Res := engineBody f (mrsReq f)

def execMrs (f : EForm) (s : State) : Host.Outcome State Fault Refusal := issue (.mrs f) s (mrsBody f)

/-- R239: a declared lane width is allowed for an operand. -/
def widthOk (d : Rec) (w : Nat) : Bool :=
  if tagResidue (tTag d) then decide (1 ≤ w ∧ w ≤ 24)
  else match laneForm (tTy d) with
    | some (w0, w1, _, _) => decide (w ≤ max w0 w1)
    | none => true

/-- R239: MMA and MMS. -/
def mmaReq (f : EForm) (neg : Bool) (s : State) (r : Ref) (x : Strand) : Chk Asked := do
  let n := bitsOf f.ops 14 6
  let sae := f.ops.getLsbD 5
  let sbe := f.ops.getLsbD 4
  let sparse := bitsOf f.ops 2 2
  let nc := bitsOf f.ops 0 2
  let (c, ab) ← useHs r [(Opnd.hIndex f.a, 0), (Opnd.hIndex f.b, 1)] (s, x)
  let (c, sa) ← useHs r (if sae then [(bitsOf f.ops 10 4, 2)] else []) c
  let (c, sb) ← useHs r (if sbe then [(bitsOf f.ops 6 4, 3)] else []) c
  let a := ab.getD 0 ⟨0, 0, [], []⟩
  let b := ab.getD 1 ⟨0, 0, [], []⟩
  let abs := [(a, 0), (b, 1)]
  let sas := sa.map fun t => (t, 2)
  let sbs := sb.map fun t => (t, 3)
  let q := c.1.slot r.core x.slot
  let wa := blkBits x f 2 0 5
  let wb := blkBits x f 2 8 5
  let mask := blk x f 3
  blockHead x f
  trapIf (blk x f 2 != wa + 256 * wb || !widthOk a.dw wa || !widthOk b.dw wb) .badParam 2
  trapIf (decide (2 ^ 32 ≤ mask) || (sparse == 0 && mask != 0)) .badParam 3
  blockVa x f 0
  placesOk c.1 q x.ctx (ab ++ sa ++ sb)
  trapIf (sparse != 0 && decide (spaceSize q 1 < mask + 16 * n)) .spRange (max mask (spaceSize q 1))
  trapIf (sparse != 0 && mask % 8 != 0) .misalign mask
  allTn abs .badRank fun d => tRank d == 2
  allTn abs .badFormat laneOperand
  allTn (sas ++ sbs) .badFormat fun d => tTy d == .n16 && !tagResidue (tTag d)
  allTn (abs ++ sas ++ sbs) .badPlace fun d => tSpace d == 1
  allTn sas .streamDesync fun d => decide (128 * n ≤ elemCount d)
  allTn sbs .streamDesync fun d => decide (n ≤ elemCount d)
  let masks : List Region4 := if sparse = 0 then [] else [(1, mask, mask + 16 * n, false)]
  .ok (c, (blockRequest x f 2 (.mma neg (opsAcc f) n a b sa.head? sb.head? sparse nc wa wb mask) 1
    ((ab ++ sa ++ sb).flatMap (tnRegions c.1 x.ctx false) ++ masks)))

def mmaBody (f : EForm) (neg : Bool) : State → Ref → Strand → Res := engineBody f (mmaReq f neg)

def execMma (f : EForm) (s : State) : Host.Outcome State Fault Refusal := issue (.mma f) s (mmaBody f false)
def execMms (f : EForm) (s : State) : Host.Outcome State Fault Refusal := issue (.mms f) s (mmaBody f true)

/-- R242: a clamp bound that is a NaN, or bounds in the wrong order. -/
def badClamp (lo hi : Nat) : Bool :=
  let a := f32.decode lo
  let b := f32.decode hi
  a.isNan || b.isNan || Fp.lt b a

def mdrReq (f : EForm) (s : State) (r : Ref) (x : Strand) : Chk Asked := do
  let fmt := bitsOf f.ops 14 6
  let epi := bitsOf f.ops 11 3
  let (c, t) ← useH r (Opnd.hIndex f.a) 0 (s, x)
  let (c, bias) ← useHs r (if epi = 1 then [(Opnd.hIndex f.b, 1)] else []) c
  let bs := bias.map fun t => (t, 1)
  let q := c.1.slot r.core x.slot
  let par := blk x f 2
  let ty := (Ty.ofCode fmt).getD .none
  blockHead x f
  trapIf (match epi with
    | 2 => badClamp (par % 2 ^ 32) (par / 2 ^ 32)
    | 3 | 4 => decide (2 ^ 32 ≤ par)
    | _ => par != 0) .badParam 2
  blockVa x f 0
  placesOk c.1 q x.ctx (t :: bias)
  trapIf (decide (3 ≤ epi) && par % 16 != 0) .misalign par
  trapIf (tRank t.dw != 2) .badRank 0
  allTn bs .badRank fun d => tRank d == 1
  trapIf (if fmt = 0 then !tagResidue (tTag t.dw) else tagResidue (tTag t.dw) || tFmt t.dw != fmt) .badFormat 0
  trapIf (epi != 0 && !ty.isFloat) .badFormat 0
  trapIf (epi == 4 && ty != .f32) .badFormat 0
  allTn bs .badFormat fun d => tTy d == .f32 && !tagResidue (tTag d)
  trapIf (epi == 4 && tSpace t.dw != 2) .badPlace 0
  trapIf (decide (3 ≤ epi) && decide (spaceSize q 2 < par + 2048)) .badPlace 2
  .ok (c, (blockRequest x f 3
    (.mdr (opsAcc f) fmt epi (f.ops.getLsbD 10) (f.ops.getLsbD 9) t bias.head? (BitVec.ofNat 64 par)
      (blkInt x f 3 0) (blkInt x f 3 32)) 2 (tnRegions c.1 x.ctx true t)))

def mdrBody (f : EForm) : State → Ref → Strand → Res := engineBody f (mdrReq f)

def execMdr (f : EForm) (s : State) : Host.Outcome State Fault Refusal := issue (.mdr f) s (mdrBody f)

/-! ## Collectives and relayout (R246, R247) -/

/-- R246: a reduction on a format. -/
def ropOk (rop : Nat) (d : Rec) : Bool :=
  if rop = 3 then tagResidue (tTag d)
  else !tagResidue (tTag d) && (match tTy d with | .f32 | .i32 | .n32 | .i64 | .n64 => true | _ => false)

def collReq (f : EForm) (s : State) (r : Ref) (x : Strand) : Chk Asked := do
  let kind := bitsOf f.ops 19 3
  let rop := bitsOf f.ops 16 3
  let (c, ts) ← useHs r [(Opnd.hIndex f.a, 0), (Opnd.hIndex f.b, 1)] (s, x)
  let dst := ts.getD 0 ⟨0, 0, [], []⟩
  let src := ts.getD 1 ⟨0, 0, [], []⟩
  blockHead x f
  trapIf (if kind = 3 then decide (2 ^ 16 ≤ blk x f 3) else blk x f 3 != 0) .badParam 3
  blockVa x f 0
  blockVa x f 2
  placesOk c.1 (c.1.slot r.core x.slot) x.ctx [dst, src]
  blockAligned x f 2 64
  trapIf (tFmt src.dw != tFmt dst.dw) .badFormat 0
  trapIf (decide (kind < 2) && !(ropOk rop src.dw && ropOk rop dst.dw)) .badFormat 0
  allTn [(dst, 0), (src, 1)] .badPlace fun d => tSpace d != 2
  .ok (c, (blockRequest x f 4 (.coll kind rop dst src (blk x f 2) (blk x f 3)) 0
    (tnRegions c.1 x.ctx true dst ++ tnRegions c.1 x.ctx false src)))

def collBody (f : EForm) : State → Ref → Strand → Res := engineBody f (collReq f)

def execColl (f : EForm) (s : State) : Host.Outcome State Fault Refusal := issue (.coll f) s (collBody f)

/-- R447: where an operation's accesses are made. -/
def Token.site (e : Token) (core : Nat) : Site :=
  { who := { ctx := e.ctx, core := core, user := e.pl == 0 }, slot := e.cslot }

/-- Where the record of a captured tensor lies now (R310, R346). -/
def Tn.key (s : State) (w : Who) (t : Tn) : Nat := recordKey s w t.va t.pa

/-- R247: a relayout of the record at `pa` that has been issued and is not terminal. -/
def relayPending (s : State) (pa : Nat) : Bool :=
  s.cores.any fun k => k.2.tokens.any fun e =>
    e.2.gen != 0 && !e.2.st.terminal &&
      (match e.2.op with | .relay t _ _ _ _ => t.key s (e.2.site k.1).who == pa | _ => false)

def relayReq (f : EForm) (s : State) (r : Ref) (x : Strand) : Chk Asked := do
  let (c, t) ← useH r (Opnd.hIndex f.a) 0 (s, x)
  let q := c.1.slot r.core x.slot
  let d := t.dw
  let base := blk x f 2
  let tag : Word := BitVec.ofNat 32 (blk x f 3)
  let map := blk x f 4
  let resume := tFlt d && tRst d == 2 && base == tBase d && tag == tNtag d
  let size := areaBytes d tag (tagSpan c.1 x.ctx tag)
  blockHead x f
  trapIf (decide (2 ^ 32 ≤ blk x f 3)) .badParam 3
  blockVa x f 0
  trapIf (tSpace d == 0 && !(vaOk base && vaOk (base + size - 1))) .vaRange (if vaOk base then base + size - 1 else base)
  if resume then .ok () else blockVa x f 4
  placesOk c.1 q x.ctx [t]
  trapIf (tSpace d != 0 && decide (spaceSize q (tSpace d) < base + size)) .spRange (max base (spaceSize q (tSpace d)))
  blockAligned x f 2 128
  if resume then .ok () else blockAligned x f 4 64
  trapIf (!layoutOk tag (tTy d)) .badFormat 3
  trapIf (tagResidue tag != tagResidue (tTag d) || (tagResidue tag && tagBid tag != tagBid (tTag d))) .badFormat 3
  trapIf (tSpace d == 2) .badPlace 0
  trapIf (relayPending c.1 (t.key c.1 (x.who r)) || (tFlt d && !resume)) .relayBusy 0
  let rs : List Region4 := if tSpace d = 0 then [] else (tSpace d, base, base + size, true) :: tnRegions c.1 x.ctx true t
  .ok (c, (blockRequest x f 5 (.relay t base tag.toNat map resume) 3 rs))

def relayBody (f : EForm) : State → Ref → Strand → Res := engineBody f (relayReq f)

def execRelay (f : EForm) (s : State) : Host.Outcome State Fault Refusal := issue (.relay f) s (relayBody f)

/-! ## Bank-side operations (R194, R195) -/

/-- R195: the operation is allowed for the formats. -/
def mopOk (code : Nat) (y x : Rec) : Bool :=
  let eq := tFmt y == tFmt x && !tagResidue (tTag y) && !tagResidue (tTag x)
  match code with
  | 0 | 1 | 2 => eq && (match tTy y with | .i32 | .n32 | .i64 | .n64 | .f32 | .f64 => true | _ => false)
  | 3 => tagResidue (tTag y) && tagResidue (tTag x)
  | 4 => eq && (match tTy y with | .i32 | .n32 | .i64 | .n64 => true | _ => false)
  | _ => eq && (tTy y == .f32 || tTy y == .i32)

/-- R194: MOP, whose block and tag lie in ENG. TINFO of its traps is that of assumption 54. -/
def mopReq (f : EForm) (s : State) (r : Ref) (x : Strand) : Chk Asked := do
  let code := bitsOf f.eng 24 4
  let sr := bitsOf f.eng 17 6
  let (c, ts) ← useHs r [(Opnd.hIndex f.a, 0), (Opnd.hIndex f.b, 1)] (s, x)
  let y := ts.getD 0 ⟨0, 0, [], []⟩
  let z := ts.getD 1 ⟨0, 0, [], []⟩
  let caddr := (x.sreg sr).toNat
  trapIf (tRank y.dw != tRank z.dw || (List.range 7).any fun i => tExt y.dw i != tExt z.dw i) .badShape 0
  trapIf (!mopOk code y.dw z.dw) .badFormat 0
  trapIf (code == 3 && (tagBid (tTag y.dw) != tagBid (tTag z.dw) || (basisOf c.1 x.ctx (tagBid (tTag y.dw))).isNone))
    .badBasis 0
  trapIf (caddr % 8 != 0) .badCounter 0
  .ok (c,
    { cls := 6, op := .mop code y z ((x.sreg (sr + 2)).setWidth 32) (f.eng.getLsbD 16), kind := 0,
      regions := tnRegions c.1 x.ctx true y ++ tnRegions c.1 x.ctx false z, caddr := caddr,
      cinc := (x.sreg (sr + 1)).toNat % 2 ^ 32, tag := bitsOf f.eng 0 16 })

def mopBody (f : EForm) : State → Ref → Strand → Res := engineBody f (mopReq f)

def execMop (f : EForm) (s : State) : Host.Outcome State Fault Refusal := issue (.mop f) s (mopBody f)

end Sys2Proof.Machine
end

