-- ==== Sys2Proof/Machine/Engine.lean ====
section
/-! DEFINITION. What the engines share: when an operation may start (R214, R215, R225), the scoreboard (R222), arbitration
(R218), how a unit of work ends: performed, waiting, faulted or halting the context (R223, R297, R370, R399), and the movement
of elements by 64-byte pieces (R330). -/

namespace Sys2Proof.Machine

/-- R222: a range registered earlier that conflicts with one of the operation's is not released. -/
def rangeBlocked (s : State) (core idx : Nat) (e : Token) : Bool :=
  let q := s.slot core e.cslot
  q.ranges.any fun g => g.idx == idx && q.ranges.any fun h =>
    h.idx != idx && decide (h.seq < g.seq) && h.space == g.space && (h.wr || g.wr) && overlap h.lo (h.hi - h.lo) g.lo (g.hi - g.lo)

/-- The operation is running and nothing has stopped it. -/
def Token.active (e : Token) : Bool := e.gen != 0 && e.st == .running && e.work.fault.isNone && !e.stuck

/-! ## The start rule (R214, R215) -/

/-- R225, R382: an operation of this class can start in the present state of its slot. -/
def slotLets (s : State) (core : Nat) (e : Token) : Bool :=
  let q := s.slot core e.cslot
  if e.cls = 4 then !s.pfail
  else if e.cls = 2 ∨ e.cls = 3 ∨ e.cls = 5 then q.st == .running && q.ctx == e.ctx && !q.line && !q.freezing
  else !(q.ctx == e.ctx && (q.st == .halted || q.line))

/-- R214: every operation of its class that its strand issued earlier has made its first access, or is terminal. -/
def earlierStarted (s : State) (core : Nat) (e : Token) : Bool :=
  (s.core core).tokens.all fun t =>
    !(t.2.gen != 0 && t.2.issuer == e.issuer && t.2.cls == e.cls && decide (t.2.seq < e.seq) && !t.2.started
      && !t.2.st.terminal)

/-- R214, R215: what the predecessor says: none to wait, false to fault, true to go on. -/
def predecessor (s : State) (core : Nat) (e : Token) : Option Bool :=
  match resolve s core e.cslot e.pred with
  | .current i =>
    (match (s.token core i).st with
    | .done => some true
    | .faulted | .cancelled => some false
    | _ => none)
  | _ => some true

/-- R213, R215: a pending operation whose predecessor has ended faulted or cancelled is to fault. A kill reaches all operations of its
context together, so one that it cancels is not faulted for a predecessor that it cancels too (assumption 108). -/
def predFailed (s : State) (core : Nat) (e : Token) : Bool :=
  e.gen != 0 && e.st == .pending && e.work.fault.isNone && predecessor s core e == some false &&
    !(e.cancel && match s.ctx? e.ctx with | some c => c.killed | none => false)

/-- R213, R214: a pending operation may start; one that is to be cancelled does not (R225). -/
def mayStart (s : State) (core : Nat) (e : Token) : Bool :=
  e.gen != 0 && e.st == .pending && e.work.fault.isNone && !e.stuck && !e.cancel && slotLets s core e && earlierStarted s core e

/-- R214: a pending operation can start now. -/
def startable (s : State) (core : Nat) (e : Token) : Bool := mayStart s core e && predecessor s core e == some true

/-! ## Arbitration (R218) -/

/-- R218, R249: the engine that an operation runs on, among those of its class. -/
def engineOf (cls core : Nat) : Nat := if cls ≤ 1 then clusterOf core else if cls ≤ 3 then core else dieOf core

/-- R222: a range of operation `j` waits for the release of an earlier one of the operation whose issue number is `seq`. -/
def rangeAwaits (s : State) (core j slot seq : Nat) : Bool :=
  let q := s.slot core slot
  q.ranges.any fun g => g.idx == j && q.ranges.any fun h =>
    h.seq == seq && decide (h.seq < g.seq) && h.space == g.space && (h.wr || g.wr) && overlap h.lo (h.hi - h.lo) g.lo (g.hi - g.lo)

/-- R214, R215, R218, R222: operation `t`, at index `j`, waits for the earlier operation `e` of its strand and class: for its first
access, for its end as its predecessor, or for one of its ranges. -/
def waitsFor (s : State) (core j : Nat) (t e : Token) : Bool :=
  t.gen != 0 && t.issuer == e.issuer && t.cls == e.cls && decide (e.seq < t.seq) && !t.st.terminal &&
    ((t.st == .pending && (!e.started || match resolve s core t.cslot t.pred with
        | .current i => (s.token core i).seq == e.seq
        | _ => false)) ||
      rangeAwaits s core j t.cslot e.seq)

/-- R218: the priority of an operation, with those that later operations of its strand and class that wait for it lend it. -/
def effPrio (s : State) (core : Nat) (e : Token) : Nat :=
  (s.core core).tokens.foldl (fun m t => if waitsFor s core t.1 t.2 e then max m t.2.prio.toNat else m) e.prio.toNat

/-- An operation of the device, as (core, index, entry). -/
abbrev OpAt := Nat × Nat × Token

/-- R218: the operations of a class that its engines choose among, running or startable. -/
def contenders (s : State) (cls : Nat) : List OpAt :=
  s.cores.flatMap fun k =>
    (k.2.tokens.filter fun t => t.2.cls == cls && (t.2.active || startable s k.1 t.2)).map fun t => (k.1, t.1, t.2)

/-- R218: those on the engine of a core. -/
def onEngine (s : State) (core : Nat) (e : Token) : List OpAt :=
  (contenders s e.cls).filter fun t => engineOf e.cls t.1 == engineOf e.cls core

/-- R218: the operation is taken before another that is ready: more often skipped than 4,096 times, then by priority, then
by issue order. -/
def before (s : State) (a b : OpAt) : Bool :=
  let sa := decide (4096 ≤ a.2.2.skips)
  let sb := decide (4096 ≤ b.2.2.skips)
  if sa != sb then sa
  else
    let pa := effPrio s a.1 a.2.2
    let pb := effPrio s b.1 b.2.2
    if sa || pa = pb then decide (a.2.2.seq ≤ b.2.2.seq) else decide (pb < pa)

/-- The others of a list of operations. -/
def othersOf (core idx : Nat) (l : List OpAt) : List OpAt := l.filter fun t => !(t.1 == core && t.2.1 == idx)

/-- R218: the engine takes this operation now, before each of those that are ready. -/
def takesTurn (s : State) (core idx : Nat) (e : Token) (ready : List OpAt) : Bool :=
  (othersOf core idx ready).all fun t => before s (core, idx, e) t

/-- R218: the others that were ready have been skipped once more. -/
def countSkips (s : State) (core idx : Nat) (ready : List OpAt) : State :=
  (othersOf core idx ready).foldl (fun s t => s.modToken t.1 t.2.1 fun e => { e with skips := e.skips + 1 })
    (s.modToken core idx fun e => { e with skips := 0 })

/-! ## The end of a unit -/

/-- R223: the operation has met a fault: it stops at its present unit. -/
def failOp (s : State) (core idx : Nat) (c : Cause) (detail : Dword) (dm : Bool) : State :=
  s.modToken core idx fun e => { e with work := { e.work with fault := some (c, detail, dm) } }

/-- R380, R381: the image word of a save area is marked halted with a cause, where it is valid, names the core and is not
marked yet. -/
def markWord (s : State) (sb core : Nat) (c : Cause) : State :=
  let a := sb + 0x2A000
  let w := loadNat s a 8
  if physOk a && w / 2 ^ 63 == 1 && w / 2 ^ 61 % 2 == 0 && w / 2 ^ 37 % 256 == core then
    storeNat s a 8 (w % 2 ^ 45 + w / 2 ^ 61 * 2 ^ 61 + 2 ^ 61 + c.code * 2 ^ 45)
  else s

/-- R226, R380: the halt reaches a slot that does not run: its image is marked, the one it was loaded from when it is SHADOW,
the one in the save area when it has been saved, and the one the save will write when it is FROZEN. -/
def markSlot (s : State) (core slot ctx : Nat) (c : Cause × Bool) : State :=
  let q := s.slot core slot
  if q.st != .empty && q.ctx == ctx then
    let s1 := s.modSlot core slot fun q => { q with marked := some (q.marked.getD c) }
    if q.st == .shadow then markWord s1 q.savebase core c.1 else s1
  else
    let own (g : Image) : Bool := g.core == core && g.slot == slot && g.ctx == ctx
    let mark (g : Image) : Image := { g with data := { g.data with marked := some (g.data.marked.getD c) } }
    (s.images.filter own).foldl (fun s g => markWord s g.data.savebase core c.1)
      { s with images := s.images.map fun g => if own g then mark g else g }

/-- A slot of a context runs. -/
def runsSomewhere (s : State) (ctx : Nat) : Bool :=
  s.cores.any fun k => k.2.slots.any fun q => q.2.st == .running && q.2.ctx == ctx

/-- A halt of the context is in force, or on its way. -/
def halting (s : State) (ctx : Nat) : Bool :=
  match s.ctx? ctx with | some c => c.halt.isSome || !c.haltQ.isEmpty | none => false

/-- R226, R371: a halt cause of an operation: one whose context neither runs nor halts is marked to halt when it is restored. -/
def postOpHalt (s : State) (core : Nat) (e : Token) (c : Cause) (info : Dword) (dm : Bool) (src : Nat) : State :=
  let q := s.slot core e.cslot
  let s1 := if q.ctx == e.ctx && (q.st == .running || q.st == .halted) then s else markSlot s core e.cslot e.ctx (c, dm)
  if runsSomewhere s e.ctx || halting s e.ctx then
    postHalt s1 e.ctx { cause := c, tinfo := info, src := src, core := core, slot := e.cslot, dm := dm }
  else s1

/-- R297, R370, R399: an access of the operation halts its context. The unit is not performed, and is made again after a resume. An
operation that runs on while its slot is frozen or saved has to reach a terminal state (R225, R226): it ends faulted (assumption 56). -/
def haltOp (s : State) (core idx : Nat) (c : Cause) (info : Dword) (dm : Bool) : State :=
  let e := s.token core idx
  let q := s.slot core e.cslot
  let away := !(q.ctx == e.ctx && (q.st == .running || q.st == .halted))
  postOpHalt (if away then failOp s core idx c info dm else s.modToken core idx fun e => { e with stuck := true }) core e c info dm
    (if poolError c info then 5 else 1)

/-- R399: the address translates to a peer whose link is lost. -/
def lostLink (s : State) (w : Who) (va : Nat) : Bool :=
  match leafFor s w (va % 2 ^ 57) with
  | .ok (base, _, e) =>
    let pa := leafAddr e + (va % 2 ^ 57 - base)
    leafMt e == 2 && pa / 2 ^ 42 != s.devnum && linkOf s pa == .lost
  | .error _ => false

/-- R297, R370, R399: the failure of an engine's access halts the context: a cause that is no token fault, a double error in the
pool, or a lost link. -/
def haltsContext (s : State) (w : Who) (c : Cause) (info : Dword) : Bool :=
  c == .ptBad || c == .vaRange || poolError c info || (c == .pageNp && lostLink s w info.toNat)

/-- R223: an access of the operation has failed. -/
def stopOp (s : State) (core idx : Nat) (c : Cause) (info : Dword) (dm : Bool) : State :=
  if haltsContext s ((s.token core idx).site core).who c info then haltOp s core idx c info dm else failOp s core idx c info dm

/-- R412: a unit of engine work is charged to the operation's context. -/
def chargeUnit (s : State) (core idx : Nat) : State :=
  let e := s.token core idx
  charge s e.ctx (5 + e.cls) 1

/-- A unit has been performed, waits, or has met a fault; a unit that faults has no effect. -/
def unitEnd (s : State) (core idx : Nat) (a : Mem Work) : Host.Outcome State Fault Refusal :=
  match a with
  | .ok s1 w => .next ((chargeUnit s1 core idx).modToken core idx fun e => { e with work := w, started := true })
  | .wait => .next s
  | .bad c i dm => .next (stopOp s core idx c i dm)

/-- R218: one unit `f` of an operation, with those that were passed over counted. -/
def unitStep (s : State) (core idx : Nat) (ready : List OpAt) (a : Mem Work) : Host.Outcome State Fault Refusal :=
  unitEnd s core idx (a.bind fun s1 w => .ok (countSkips s1 core idx ready) w)

/-! ## Coordinates -/

/-- Every tuple of coordinates within extents, row-major. -/
def allCoords : List Nat → List (List Nat)
  | [] => [[]]
  | n :: rest => (List.range n).flatMap fun i => (allCoords rest).map fun c => i :: c

/-- The tuple with row-major index `k`. -/
def coordOf (exts : List Nat) (k : Nat) : List Nat :=
  match exts with
  | [] => []
  | n :: rest =>
    let p := rest.foldl (· * ·) 1
    k / p % max n 1 :: coordOf rest k

/-- The extents of a tensor. -/
def extsOf (d : Rec) : List Nat := (List.range (tRank d)).map (tExt d)

/-- R236: the element of a region with an index, in row-major order of its logical coordinates. -/
def regionCoord (d : Rec) (k : Nat) : List Nat := coordOf (extsOf d) k

/-- Coordinates, beyond the rank all zero, within the extents of a tensor. -/
def boxCoord (d : Rec) (c : List Int) : Option (List Nat) :=
  if (c.drop (tRank d)).all (· == 0) then inExtents d (c.take (tRank d)) else none

/-- An element for reading: zero outside the extents (R234). -/
def readOr0 (s : State) (w : Site) (d : Rec) (c : List Int) : Mem Nat :=
  match boxCoord d c with
  | some k => if basisFails s w d k then .bad .badBasis 0 false else elemRead s w d k
  | none => .ok s 0

/-- Read a list of elements. -/
def readMany (s : State) (w : Site) (d : Rec) : List (List Int) → Mem (List Nat)
  | [] => .ok s []
  | c :: rest => (readOr0 s w d c).bind fun s1 x => (readMany s1 w d rest).bind fun s2 xs => .ok s2 (x :: xs)

/-- R189, R234: the element lies within the extents. -/
def isInside (d : Rec) (c : List Int) : Bool := (boxCoord d c).isSome

/-! ## Pieces (R321, R330) -/

/-- The parts of an element that move on their own: of a residue tuple the digits (R343), numbered by their places in a quad (R132),
8 and 9 the redundant ones and 10 the bits above them; any other element whole (R322). -/
def elemParts (d : Rec) : Nat := if tagResidue (tTag d) || (tFlt d && tagResidue (tNtag d)) then 11 else 1

/-- R318: the area of the element holds its part `j`: a planar layout has the planes of its basis alone. -/
def Placed.holds (p : Placed) (j : Nat) : Bool := tagKind p.tag != 2 || decide (j < p.span) || j == 8 || j == 9

/-- Where part `j` of a placed element lies, as (address, bytes). A part that its area does not hold goes with part 0. -/
def Placed.part (p : Placed) (j : Nat) : Nat × Nat :=
  if tagKind p.tag = 2 && p.holds j then p.pieces.getD (if j < 8 then j else p.span + (j - 8)) (0, 0) else p.pieces.getD 0 (0, 0)

/-- R330: the aligned 64-byte pieces that part `j` of a placed element touches. -/
def Placed.lines (p : Placed) (j : Nat) : List Nat :=
  let a := p.part j
  [a.1 / 64, (a.1 + a.2 - 1) / 64].eraseDups

/-- R132: part `j` of a quad, as (lowest bit, bits). -/
def digitBits (j : Nat) : Nat × Nat := if j < 8 then (8 * j, 8) else if j < 10 then (64 + 16 * (j - 8), 16) else (96, 32)

/-- Part `j` of the value of an element of `d`. -/
def partValue (d : Rec) (x j : Nat) : Nat :=
  if elemParts d = 1 then x else x / 2 ^ (digitBits j).1 % 2 ^ (digitBits j).2

/-- The value of an element of `d` from its parts. -/
def partsValue (d : Rec) (g : Nat → Nat) : Nat :=
  if elemParts d = 1 then g 0 else (List.range 11).foldl (fun a j => a + g j % 2 ^ (digitBits j).2 * 2 ^ (digitBits j).1) 0

/-- A quad with the parts `js` taken from `x`. -/
def mergeDigits (js : List Nat) (old x : Nat) : Nat :=
  js.foldl (fun q j =>
    let b := digitBits j
    q - q / 2 ^ b.1 % 2 ^ b.2 * 2 ^ b.1 + x / 2 ^ b.1 % 2 ^ b.2 * 2 ^ b.1) old

/-- The stores of the parts `js` of element value `x`, as ((address, bytes), new value of the old one). -/
def Placed.stores (p : Placed) (d : Rec) (js : List Nat) (x : Nat) : List ((Nat × Nat) × (Nat → Nat)) :=
  let whole := (elemStores d p.tag p.q p.span x).getD 0 id
  match tagKind p.tag with
  | 2 => (js.filter p.holds).map fun j => (p.part j, fun _ => x / 2 ^ (digitBits j).1 % 2 ^ (digitBits j).2)
  | 3 => [(p.part 0, if js.length = 11 then whole else fun old => mergeDigits js old x)]
  | _ => [(p.part 0, whole)]

/-- R297, R309: the bytes at these addresses of a space have been written together: marks of the lines, and double errors of the
words, that they cover whole are gone. -/
def writtenTogether (s : State) (w : Site) (space : Nat) (ps : List (Nat × Nat)) : State :=
  if space = 0 then
    clearCovered s (ps.filterMap fun p => match translate s w.who .write p.1 with | .ok k _ => some (k, p.2) | _ => none)
  else
    s.modSlot w.who.core w.slot fun q => { q with dbl := q.dbl.filter fun e =>
      !(e / 2 ^ 32 == space && (List.range 4).all fun i => ps.any fun p =>
        decide (p.1 ≤ e % 2 ^ 32 * 4 + i) && decide (e % 2 ^ 32 * 4 + i < p.1 + p.2)) }

/-- Make stores in order. -/
def storeAll (s : State) (w : Site) (space : Nat) : List ((Nat × Nat) × (Nat → Nat)) → Mem Unit
  | [] => .ok s ()
  | (p, f) :: rest => (spaceWrite s w space p.1 p.2 f).bind fun s1 _ => storeAll s1 w space rest

/-- R319: what an access that resolves to an invalid basis gives; else where the element lies. -/
def placeOf (s : State) (w : Site) (d : Rec) (c : List Nat) : Mem Placed :=
  if basisFails s w d c then .bad .badBasis 0 false else elemAt s w d c

/-- Write parts of elements, as (coordinates, parts, value), the digits reduced unless the elements move as bits (`raw`, R246). It
answers the addresses written. -/
def putParts (s : State) (w : Site) (raw : Bool) (d : Rec) : List (List Nat × List Nat × Nat) → Mem (List (Nat × Nat))
  | [] => .ok s []
  | (c, js, x) :: rest =>
    (placeOf s w d c).bind fun s1 p =>
      let st := p.stores d js (if raw then x else canonElem s1 w.who.ctx p.tag x)
      (storeAll s1 w (tSpace d) st).bind fun s2 _ =>
        (putParts s2 w raw d rest).bind fun s3 ps => .ok s3 (st.map (·.1) ++ ps)

/-- R309, R330: write parts of elements as one piece. -/
def putPiece (s : State) (w : Site) (raw : Bool) (d : Rec) (xs : List (List Nat × List Nat × Nat)) : Mem Unit :=
  (putParts s w raw d xs).bind fun s1 ps => .ok (writtenTogether s1 w (tSpace d) ps) ()

/-- R189, R234: `n` more dropped elements on the record. -/
def dropMany (s : State) (w : Site) (va : Nat) : Nat → Mem Unit
  | 0 => .ok s ()
  | n + 1 => (countDropped s w va).bind fun s1 _ => dropMany s1 w va n

/-- Write a list of elements of a tensor together; those outside the extents are dropped and counted (R189, R234). -/
def writeMany (s : State) (w : Site) (t : Tn) (xs : List (List Int × Nat)) : Mem Unit :=
  let js := List.range (elemParts t.dw)
  (putPiece s w false t.dw (xs.filterMap fun x => (boxCoord t.dw x.1).map fun c => (c, js, x.2))).bind fun s1 _ =>
    dropMany s1 w t.va (xs.filter fun x => !isInside t.dw x.1).length

/-! ## Free orders within an operation (R14, R344) -/

/-- R14, R344: an order that an operation chooses for itself. -/
def opOrder {α : Type} (e : Token) (l : List α) : List α := anyOrderBy (Config.opChoice e.seq) l

/-- The parts of `n` elements of `a` parts, as 16 × element + part. -/
def partsOf (n a : Nat) : List Nat := (List.range n).flatMap fun k => (List.range a).map fun j => 16 * k + j

/-- The parts that an operation has not moved. -/
def Token.left (e : Token) (n a : Nat) : List Nat := (partsOf n a).filter fun k => !e.work.done.contains k

/-- R344: the part that the operation comes to next, by a free choice (assumption 3). -/
def Token.pick (e : Token) (ks : List Nat) : Option Nat := ks[Config.opChoice e.seq e.work.done.length % ks.length]?

/-- R330: the 64-byte piece in which a part of an element begins, where the element resolves. -/
def pieceAt (s : State) (w : Site) (d : Rec) (c : List Nat) (j : Nat) : Option Nat :=
  match placeOf s w d c with | .ok _ p => some ((p.part j).1 / 64) | _ => none

/-- R330: the 64-byte pieces that a part of an element touches. -/
def linesAt (s : State) (w : Site) (d : Rec) (c : List Nat) (j : Nat) : List Nat :=
  match placeOf s w d c with | .ok _ p => p.lines j | _ => []

/-- The elements named by some keys, each once, with the parts named. -/
def groupParts (ks : List Nat) : List (Nat × List Nat) :=
  ((ks.map (· / 16)).eraseDups).map fun k => (k, (ks.filter fun i => i / 16 == k).map (· % 16))

/-- Keys have been moved, in 64-byte pieces or in none; PROG counts distinct pieces (R224, R330). -/
def Work.movedParts (w : Work) (ks : List Nat) (pieces : List Nat) : Work :=
  let fresh := pieces.eraseDups.filter fun l => !w.moved.contains l
  { w with done := w.done ++ ks, moved := w.moved ++ fresh, prog := w.prog + fresh.length }

/-! ### Reading by pieces (R344) -/

/-- The parts of the elements at `cs` that the operation has still to read; those outside the extents read zero and are not read. -/
def Token.unread (e : Token) (d : Rec) (cs : List (List Int)) : List Nat :=
  (cs.zipIdx.filter fun c => isInside d c.1).flatMap fun c =>
    ((List.range (elemParts d)).map fun j => 16 * c.2 + j).filter fun k => !mhas e.work.got k

/-- R246, R344: read the parts named of elements, as (number, parts). -/
def readElemParts (s : State) (w : Site) (d : Rec) (cs : List (List Int)) : List (Nat × List Nat) → Mem (List (Nat × Nat))
  | [] => .ok s []
  | (k, js) :: rest =>
    match boxCoord d (cs.getD k []) with
    | none => readElemParts s w d cs rest
    | some c =>
      (elemBits s w d c).bind fun s1 x =>
        (readElemParts s1 w d cs rest).bind fun s2 xs => .ok s2 (js.map (fun j => (16 * k + j, partValue d x j)) ++ xs)

/-- R343, R344: one 64-byte piece of the elements at `cs` is read, in an order of the operation's own. -/
def readPiece (s : State) (w : Site) (e : Token) (d : Rec) (cs : List (List Int)) : Mem Work :=
  let ks := e.unread d cs
  match ks[Config.opChoice e.seq (2 ^ 65 + e.work.got.length) % ks.length]? with
  | none => .ok s e.work
  | some key =>
    match boxCoord d (cs.getD (key / 16) []) with
    | none => .ok s e.work
    | some c =>
      (placeOf s w d c).bind fun s1 p =>
        let ln := (p.part (key % 16)).1 / 64
        let here := ks.filter fun i => match boxCoord d (cs.getD (i / 16) []) with
          | some c => pieceAt s1 w d c (i % 16) == some ln
          | none => false
        (readElemParts s1 w d cs (groupParts here)).bind fun s2 xs =>
          .ok s2 { e.work with got := xs.foldl (fun m x => mput m x.1 x.2) e.work.got }

/-- The value of element `k` of those that have been read. -/
def Work.value (w : Work) (d : Rec) (k : Nat) : Nat := partsValue d fun j => mget 0 w.got (16 * k + j)

/-- The values of `n` elements that have been read, their digits reduced in the basis of the tag through which each resolves. -/
def readValues (s : State) (w : Site) (k : Work) (raw : Bool) (d : Rec) (cs : List (List Int)) : List Nat :=
  cs.zipIdx.map fun c =>
    let x := k.value d c.2
    if raw then x
    else canonElem s w.who.ctx (match (boxCoord d c.1).map (resolveArea s w d) with | some (.ok _ a) => a.1 | _ => tTag d) x

/-! ### Writing by pieces (R343, R344) -/

/-- The parts of the elements that an operation has still to write. -/
def Token.unwritten (e : Token) (tns : List Tn) : List Nat :=
  (e.work.pend.zipIdx.flatMap fun x =>
    ((List.range (match tns[x.1.1]? with | some t => elemParts t.dw | none => 1)).map fun j => 16 * x.2 + j)).filter fun k =>
      !e.work.done.contains k

/-- R343, R344: one 64-byte piece of the elements that the operation has to write to its tensors `tns`, in an order of its own; those
outside the extents are dropped and counted (R189). `fin` follows the last. -/
def pendPiece (s : State) (w : Site) (e : Token) (raw : Bool) (tns : List Tn) (fin : Work → Work) : Mem Work :=
  let xs := e.work.pend
  let at_ (k : Nat) : Option (Tn × List Nat) :=
    xs[k]?.bind fun x => tns[x.1]?.bind fun t => (boxCoord t.dw x.2.1).map fun c => (t, c)
  let ks := e.unwritten tns
  let go (s : State) (here : List Nat) : Mem Work :=
    let k := { e.work with done := e.work.done ++ here }
    .ok s (if here.length = ks.length then fin k else k)
  match e.pick ks with
  | none => .ok s (fin e.work)
  | some key =>
    match at_ (key / 16) with
    | none =>
      let here := ks.filter fun i => i / 16 == key / 16
      (match tns[(xs.getD (key / 16) (0, [], 0)).1]? with
      | some t => dropMany s w t.va 1
      | none => .ok s ()).bind fun s1 _ => go s1 here
    | some (t, c) =>
      (placeOf s w t.dw c).bind fun s1 p =>
        let ln := (p.part (key % 16)).1 / 64
        let here := ks.filter fun i => match at_ (i / 16) with
          | some (u, c) => u == t && pieceAt s1 w t.dw c (i % 16) == some ln
          | none => false
        let gs := (groupParts here).filterMap fun g => (at_ g.1).map fun c => (c.2, g.2, (xs.getD g.1 (0, [], 0)).2.2)
        (putPiece s1 w raw t.dw gs).bind fun s2 _ => go s2 here

end Sys2Proof.Machine
end

