-- ==== Sys2Proof/Machine/Copy.lean ====
section
/-! DEFINITION. The copy engine (R233 to R235), the conversion engine (R110 to R112, R236) and the memory-operation units
(R194 to R196), one unit at a time. -/

namespace Sys2Proof.Machine

/-! ## CPL (R233) -/

/-- R233: the flat lines that the lanes' pieces touch, each once, in an order of the engine's own. -/
def cplLines (e : Token) (n : Nat) (ps : List (Nat × Nat)) : List Nat :=
  opOrder e (ps.flatMap fun p => [p.1 / 64, (p.1 + n - 1) / 64]).eraseDups

/-- R233: of the pieces that cover a destination byte, the one whose value it takes. -/
def byteWinner (e : Token) (n : Nat) (dsts : List Nat) (b : Nat) : Option Nat :=
  let cs := (List.range dsts.length).filter fun j => decide (dsts.getD j 0 ≤ b) && decide (b < dsts.getD j 0 + n)
  cs[Config.opChoice e.seq (2 ^ 64 + b) % cs.length]?

/-- The bytes of `x` where `keep` holds, else those of `old`. -/
def mergeBytes (n old x : Nat) (keep : Nat → Bool) : Nat :=
  (List.range n).foldl (fun a i => a + ((if keep i then x else old) / 2 ^ (8 * i) % 256) * 2 ^ (8 * i)) 0

/-- R233: move the part of piece `j` that lies in flat line `ln`. -/
def cplPiece (s : State) (w : Site) (e : Token) (st : Bool) (n ln : Nat) (ps : List (Nat × Nat)) (j : Nat) : Mem Unit :=
  let p := ps.getD j (0, 0)
  let lo := max p.1 (64 * ln)
  let hi := min (p.1 + n) (64 * ln + 64)
  if hi ≤ lo then .ok s ()
  else
    let loc := p.2 + (lo - p.1)
    let dst := if st then lo else loc
    let keep (i : Nat) : Bool := byteWinner e n (ps.map fun q => if st then q.1 else q.2) (dst + i) == some j
    if st then
      (localRead s w 1 loc (hi - lo)).bind fun s1 x =>
        flatUpdate s1 w.who lo (hi - lo) fun old => mergeBytes (hi - lo) old x keep
    else
      (flatRead s w.who lo (hi - lo)).bind fun s1 x =>
        localWrite s1 w 1 loc (hi - lo) fun old => mergeBytes (hi - lo) old x keep

def cplGo (s : State) (w : Site) (e : Token) (st : Bool) (n ln : Nat) (ps : List (Nat × Nat)) : List Nat → Mem Unit
  | [] => .ok s ()
  | j :: rest => (cplPiece s w e st n ln ps j).bind fun s1 _ => cplGo s1 w e st n ln ps rest

/-- R233, R309: the destination bytes that line `ln` gives piece `j`, as (address, bytes). -/
def cplDst (st : Bool) (n ln : Nat) (ps : List (Nat × Nat)) (j : Nat) : Nat × Nat :=
  let p := ps.getD j (0, 0)
  let lo := max p.1 (64 * ln)
  (if st then lo else p.2 + (lo - p.1), min (p.1 + n) (64 * ln + 64) - lo)

/-- R233: the flat lines that have not been moved. -/
def cplLeft (e : Token) (n : Nat) (ps : List (Nat × Nat)) : List Nat := (cplLines e n ps).filter fun ln => !e.work.done.contains ln

/-- R233: the destination lines that flat line `ln` gives bytes to. -/
def cplTargets (st : Bool) (n : Nat) (ps : List (Nat × Nat)) (ln : Nat) : List Nat :=
  (((List.range ps.length).map (cplDst st n ln ps)).filter fun p => p.2 != 0).flatMap fun p => [p.1 / 64, (p.1 + p.2 - 1) / 64]

/-- R225: the flat lines not moved that give bytes to a destination line which has some of its new data. -/
def cplOwed (e : Token) (st : Bool) (n : Nat) (ps : List (Nat × Nat)) : List Nat :=
  let begun := e.work.done.flatMap (cplTargets st n ps)
  (cplLeft e n ps).filter fun ln => (cplTargets st n ps ln).any begun.contains

/-- R225: the operation has written part of a destination line. -/
def lineBegun (e : Token) : Bool :=
  match e.op with
  | .cpl st n _ ps => !(cplOwed e st n ps).isEmpty
  | _ => false

/-- R225, R233: the flat line that comes next: one that is to be cancelled completes the destination lines it has begun. -/
def cplNext (e : Token) (st : Bool) (n : Nat) (ps : List (Nat × Nat)) : Option Nat :=
  ((if e.cancel then cplOwed e st n ps else []) ++ cplLeft e n ps).head?

/-- R233: one line. -/
def cplUnit (s : State) (core : Nat) (e : Token) (st : Bool) (n : Nat) (ps : List (Nat × Nat)) : Mem Work :=
  match cplNext e st n ps with
  | none => .ok s e.work
  | some ln =>
    let w := e.site core
    (cplGo s w e st n ln ps (List.range ps.length)).bind fun s1 _ =>
      .ok (writtenTogether s1 w (if st then 0 else 1)
          (((List.range ps.length).map (cplDst st n ln ps)).filter fun p => p.2 != 0))
        { e.work with prog := e.work.prog + 1, done := e.work.done ++ [ln] }

/-! ## CPT and CPG: elements by pieces of the destination (R234, R235, R330) -/

/-- R234: the cores a multicast names, with the slot of each that holds the context. -/
def castSites (s : State) (core : Nat) (e : Token) (mc : Nat) : List (Nat × Option Nat) :=
  ((List.range 4).filter fun i => mc / 2 ^ i % 2 == 1).map fun i =>
    let c := 4 * clusterOf core + i
    (c, [0, 1].find? fun k => (s.slot c k).st != .empty && (s.slot c k).ctx == e.ctx)

/-- R234: the first named core that holds no slot of the context. -/
def castMissing (s : State) (core : Nat) (e : Token) (mc : Nat) : Option Nat :=
  ((castSites s core e mc).find? fun t => t.2.isNone).map (·.1)

/-- R234: where a copy writes its destination. -/
def copySites (s : State) (core : Nat) (e : Token) (mc : Nat) : List Site :=
  let own := e.site core
  if mc = 0 then [own]
  else (castSites s core e mc).filterMap fun a => a.2.map fun k : Nat =>
    ({ who := { own.who with core := a.1 }, slot := k } : Site)

/-- Write one piece at several sites. -/
def putSites (s : State) (d : Rec) (xs : List (List Nat × List Nat × Nat)) : List Site → Mem Unit
  | [] => .ok s ()
  | w :: rest => (putPiece s w false d xs).bind fun s1 _ => putSites s1 d xs rest

/-- What a copy moves: its tensors, its elements by number, and the coordinates of element `k` in the source and in the
destination, none for an element that is not copied. `clash` tells that destination elements may be named more than once. -/
structure Moves where
  dst : Tn
  src : Tn
  count : Nat
  coords : Nat → Option (List Int × List Int)
  clash : Bool

/-- R14, R235: of the elements `ks` that name the destination element of `k`, `k` is the one whose value it takes: a free choice
for each destination element. -/
def Moves.wins (m : Moves) (e : Token) (ks : List Nat) (k : Nat) : Bool :=
  !m.clash || (
    let same := ks.filter fun i => (m.coords i).map (·.2) == (m.coords k).map (·.2)
    same[Config.opChoice e.seq (2 ^ 64 + same.headD 0) % same.length]? == some k)

/-- The source values of elements, with their destination coordinates and the parts to be moved. -/
def readMoves (s : State) (w : Site) (m : Moves) : List (Nat × List Nat) → Mem (List (List Nat × List Nat × Nat))
  | [] => .ok s []
  | (k, js) :: rest =>
    match m.coords k with
    | none => readMoves s w m rest
    | some (a, b) =>
      match boxCoord m.dst.dw b with
      | none => readMoves s w m rest
      | some c => (readOr0 s w m.src.dw a).bind fun s1 x => (readMoves s1 w m rest).bind fun s2 xs => .ok s2 ((c, js, x) :: xs)

/-- R234, R330: move the piece in which part `key` lies, with every part of the elements `ks` that lies in it; a dropped element
lies in none. -/
def movePiece (s : State) (core : Nat) (e : Token) (mc : Nat) (m : Moves) (ks : List Nat) (key : Nat) : Mem Work :=
  let w := e.site core
  let place (i : Nat) : Option (List Nat) := (m.coords (i / 16)).bind fun p => boxCoord m.dst.dw p.2
  match m.coords (key / 16) with
  | none => .ok s (e.work.movedParts (ks.filter fun i => (m.coords (i / 16)).isNone) [])
  | some _ =>
    match place key with
    | none =>
      let out := ks.filter fun i => (m.coords (i / 16)).isSome && (place i).isNone
      (dropMany s w m.dst.va (groupParts out).length).bind fun s1 _ => .ok s1 (e.work.movedParts out [])
    | some c =>
      (placeOf s w m.dst.dw c).bind fun s1 p =>
        let ln := (p.part (key % 16)).1 / 64
        let here := ks.filter fun i => match place i with
          | some c => pieceAt s1 w m.dst.dw c (i % 16) == some ln
          | none => false
        let all := (groupParts ks).map (·.1)
        let lines := here.flatMap fun i => match place i with | some c => linesAt s1 w m.dst.dw c (i % 16) | none => []
        (readMoves s1 w m ((groupParts here).filter fun g => m.wins e all g.1)).bind fun s2 xs =>
          (putSites s2 m.dst.dw xs (copySites s2 core e mc)).bind fun s3 _ => .ok s3 (e.work.movedParts here lines)

def addCoord (o : List Int) (c : List Nat) : List Int := (o.zip c).map fun e => e.1 + (e.2 : Int)

/-- R234: the elements of a box. -/
def boxCount (box : List Nat) : Nat := box.foldl (· * ·) 1

def cptMoves (dst src : Tn) (so dor : List Int) (box : List Nat) : Moves :=
  { dst := dst, src := src, count := boxCount box, clash := false
    coords := fun k => some (addCoord so (coordOf box k), addCoord dor (coordOf box k)) }

def cptUnit (s : State) (core : Nat) (e : Token) (dst src : Tn) (so dor : List Int) (box : List Nat) (mc : Nat) : Mem Work :=
  let m := cptMoves dst src so dor box
  let ks := e.left m.count (elemParts dst.dw)
  match e.pick ks with
  | none => .ok s e.work
  | some key => movePiece s core e mc m ks key

/-! ## CPG (R235) -/

/-- R235: the coordinates of element `k` of block `b`. -/
def blockCoord (br bc : Nat) (b : List Int) (k : Nat) : List Int :=
  [b.getD 0 0 * (2 ^ br : Nat) + (k / 2 ^ bc : Nat), b.getD 1 0 * (2 ^ bc : Nat) + (k % 2 ^ bc : Nat), b.getD 2 0, b.getD 3 0]

/-- R235: the block that a list entry names, once the engine has read it. -/
def Work.entry (w : Work) (i : Nat) : Option (List Int) :=
  if mhas w.buf (4 * i) then some ((List.range 4).map fun j => (BitVec.ofNat 32 (mget 0 w.buf (4 * i + j))).toInt) else none

/-- R235: read list entry `i`. -/
def readEntry (s : State) (w : Site) (list i : Nat) (k : Work) : Mem Work :=
  (flatRead s w.who ((list + 16 * i) % 2 ^ 64) 16).bind fun s1 x =>
    .ok s1 { k with buf := (List.range 4).foldl (fun b j => mput b (4 * i + j) (x / 2 ^ (32 * j) % 2 ^ 32)) k.buf }

/-- R235: the elements of the entries that have been read; the elements of skip entries are not copied. -/
def cpgMoves (k : Work) (scatter : Bool) (br bc : Nat) (dst src : Tn) (count : Nat) : Moves :=
  { dst := dst, src := src, count := count * 2 ^ (br + bc), clash := scatter
    coords := fun n =>
      let i := n / 2 ^ (br + bc)
      match k.entry i with
      | none => none
      | some b =>
        if b.getD 0 0 = -(2 ^ 31 : Nat) then none
        else
          let own := blockCoord br bc [(i : Int), 0, 0, 0] (n % 2 ^ (br + bc))
          let named := blockCoord br bc b (n % 2 ^ (br + bc))
          some (if scatter then (own, named) else (named, own)) }

/-- R225, R235: the first list entry that the engine has to read before it moves the destination line in which part `key` lies: so
that it moves a line whole, a gather reads the entries of the line's elements, and a scatter the whole list (assumption 109). -/
def entryDue (s : State) (w : Site) (e : Token) (scatter : Bool) (br bc : Nat) (dst : Tn) (count : Nat) (ks : List Nat) (key : Nat) :
    Option Nat :=
  let n := 2 ^ (br + bc)
  let unread (i : Nat) : Bool := (e.work.entry i).isNone
  if scatter then (List.range count).find? unread
  else
    let line (key : Nat) : Option Nat :=
      (boxCoord dst.dw (blockCoord br bc [((key / 16 / n : Nat) : Int), 0, 0, 0] (key / 16 % n))).bind fun c =>
        pieceAt s w dst.dw c (key % 16)
    let near := if (line key).isNone then [key] else ks.filter fun i => line i == line key
    (near.map fun i => i / 16 / n).find? unread

/-- R235: one list entry read, or one line moved. -/
def cpgUnit (s : State) (core : Nat) (e : Token) (scatter : Bool) (br bc : Nat) (dst src : Tn) (list count : Nat) :
    Mem Work :=
  let n := 2 ^ (br + bc)
  let ks := e.left (count * n) (elemParts dst.dw)
  match e.pick ks with
  | none => .ok s e.work
  | some key =>
    match entryDue s (e.site core) e scatter br bc dst count ks key with
    | some i => readEntry s (e.site core) list i e.work
    | none =>
      movePiece s core e 0 (cpgMoves e.work scatter br bc dst src count) (ks.filter fun i => (e.work.entry (i / 16 / n)).isSome) key

/-! ## CVB (R110 to R112, R236) -/

/-- R110: the exponent of the largest finite nonzero element. -/
def cvbEmax (xs : List Fp) : Option Int :=
  xs.foldl (fun b x =>
    match x with
    | .fin m e =>
      let t : Int := m.natAbs.log2 + e
      (match b with | none => some t | some u => some (max t u))
    | _ => b) none

/-- A NaN or an infinity. -/
def Fp.bad : Fp → Bool
  | .nan _ | .inf _ => true
  | _ => false

/-- R110: the nearest integer to x × 2^s. -/
def Fp.scaled (x : Fp) (s : Int) : Int := match x with | .fin m e => (roundInt .ne m (e + s)).1 | _ => 0

/-- What a block becomes: per slice its lanes and its pair; the counts; whether it is out of range. -/
structure Cvb where
  slices : List (List Int × Nat)
  counts : List Nat
  bad : Bool

/-- R110: a block of lanes of width `w`. -/
def cvbPlain (w : Nat) (xs : List Fp) : Cvb :=
  let se : Int := match cvbEmax xs with | none => 127 | some m => max (129 - (w : Int) + m) 0
  let top : Int := (2 ^ (w - 1) : Nat)
  let qs := xs.map fun x => x.scaled (127 - se)
  { slices := [(qs.map fun q => if q = top then top - 1 else q, se.toNat * 256)]
    counts := [(xs.filter Fp.bad).length,
      ((xs.zip qs).filter fun p => p.2 == 0 && (match p.1 with | .fin _ _ => true | _ => false)).length,
      (qs.filter fun q => q == top).length]
    bad := false }

/-- R111: the three slices of an integer. -/
def split3 (x : Int) : List Int :=
  let h : Int := (2 ^ 17 : Nat)
  let m : Int := (2 ^ 18 : Nat)
  let x0 := (x + h) % m - h
  let y := (x - x0) / m
  let x1 := (y + h) % m - h
  [x0, x1, (y - x1) / m]

/-- R111: a block of the FP64 split. -/
def cvbSplit (xs : List Fp) : Cvb :=
  let emax := (cvbEmax xs).getD 0
  let invalid := (xs.filter Fp.bad).length
  if emax < -75 ∨ 143 < emax then
    { slices := List.replicate 3 (xs.map fun _ => 0, 0x7F00), counts := [invalid, 0, 0], bad := true }
  else
    let qs := xs.map fun x => x.scaled (52 - emax)
    { slices := (List.range 3).map fun j => (qs.map fun q => (split3 q).getD j 0, ((75 + emax + 18 * (j : Int)).toNat) * 256)
      counts := [invalid,
        ((xs.zip qs).filter fun p => p.2 == 0 && (match p.1 with | .fin _ _ => true | _ => false)).length, 0]
      bad := false }

/-- R236: the blocks of a conversion. -/
def cvbCount (square : Bool) (e0 e1 : Nat) : Nat :=
  if square then ceilDiv e0 128 * ceilDiv e1 128 else e0 * ceilDiv e1 128

/-- R236: the index of block `k`'s pair, and the coordinates of its elements. -/
def cvbCells (square : Bool) (e0 e1 k : Nat) : Nat × List (List Int) :=
  if square then
    let n := ceilDiv e0 128
    (k, (List.range 16384).map fun t => [((k % n * 128 + t / 128 : Nat) : Int), ((k / n * 128 + t % 128 : Nat) : Int)])
  else
    let n := ceilDiv e1 128
    let i := k / n
    let j := k % n
    (i / 128 * 128 * n + j * 128 + i % 128, (List.range 128).map fun t => [(i : Int), ((j * 128 + t : Nat) : Int)])

/-- R326: the tag through which the element at coordinates resolves. -/
def tagAt (s : State) (w : Site) (d : Rec) (c : List Int) : Word :=
  match (boxCoord d c).map (resolveArea s w d) with | some (.ok _ a) => a.1 | _ => tTag d

/-- R112: a lane as it is stored at coordinates of a tensor. -/
def laneBits (s : State) (w : Site) (d : Rec) (c : List Int) (q : Int) : Nat :=
  let t := tagAt s w d c
  if tagResidue t then
    match basisOf s w.who.ctx (tagBid t) with
    | some b => quadOf b fun h => digit q (b.mod h)
    | none => 0
  else intBits (tTy d) q

/-- R236: what the block with pair number `idx` writes: of each slice the lanes within the extents, and its pair. The tensors are
numbered, the destinations first. -/
def cvbPend (s : State) (w : Site) (dst scale : List Tn) (idx : Nat) (cells : List (List Int)) (r : Cvb) : List (Nat × List Int × Nat) :=
  (r.slices.zip (dst.zip scale)).zipIdx.flatMap fun a =>
    let d := a.1.2.1.dw
    (((cells.zip a.1.1.1).filter fun c => isInside d c.1).map fun c => (a.2, c.1, laneBits s w d c.1 c.2)) ++
      [(dst.length + a.2, (regionCoord a.1.2.2.dw idx).map fun (k : Nat) => (k : Int), a.1.1.2)]

/-- R344: the block that a conversion comes to after `prog` others; their order is its own. -/
def cvbBlock (e : Token) (square : Bool) (src : Tn) : Nat :=
  (opOrder e (List.range (cvbCount square (tExt src.dw 0) (tExt src.dw 1)))).getD e.work.prog 0

/-- R110, R111: what a block becomes, from the elements that have been read. -/
def cvbResult (s : State) (w : Site) (e : Token) (mode width : Nat) (src : Tn) (cells : List (List Int)) : Cvb :=
  let xs := (readValues s w e.work false src.dw cells).map (fmtOf (cvbTy mode)).decode
  if mode = 2 then cvbSplit xs else cvbPlain width xs

/-- R236: a block has been written: its counts, and the first block out of range. -/
def Work.blockDone (w : Work) (r : Cvb) (idx : Nat) : Work :=
  { w with
    prog := w.prog + 1, got := [], pend := [], done := []
    counts := (List.range 3).map fun j => w.counts.getD j 0 + r.counts.getD j 0
    first := if r.bad then some (match w.first with | some f => min f idx | none => idx) else w.first }

/-- R236, R344: one 64-byte piece of the present block, read or written. -/
def cvbUnit (s : State) (core : Nat) (e : Token) (mode width : Nat) (square : Bool) (dst : List Tn) (src : Tn)
    (scale : List Tn) : Mem Work :=
  let w := e.site core
  let a := cvbCells square (tExt src.dw 0) (tExt src.dw 1) (cvbBlock e square src)
  if e.work.pend.isEmpty && !(e.unread src.dw a.2).isEmpty then readPiece s w e src.dw a.2
  else
    let r := cvbResult s w e mode width src a.2
    let e1 : Token := if e.work.pend.isEmpty then { e with work := { e.work with pend := cvbPend s w dst scale a.1 a.2 r } } else e
    pendPiece s w e1 false (dst ++ scale) fun k => k.blockDone r a.1

/-! ## MOP (R194 to R196) -/

/-- R195: the compare value or scalar as a code of y's type: extended by its sign when it is signed. -/
def mopScalar (t : Ty) (par : Word) : Nat :=
  if t.bits = 64 && t.isSigned then (par.signExtend 64).toNat else par.toNat

/-- R195: the new value of an element that is no residue tuple, and whether .cas exchanged it. -/
def mopNew (code : Nat) (t : Ty) (par : Word) (y x : Nat) : Nat × Bool :=
  let f := fmtOf t
  let less (a b : Nat) : Bool := decide (intRead t a < intRead t b)
  match code with
  | 0 => (if t.isFloat then (fadd f .ne false y x).1 else (y + x) % 2 ^ t.bits, false)
  | 1 => (if t.isFloat then (fminmax f false y x).1 else if less y x then y else x, false)
  | 2 => (if t.isFloat then (fminmax f true y x).1 else if less y x then x else y, false)
  | 4 => if y = mopScalar t par then (x, true) else (y, false)
  | _ => (if t.isFloat then (ffma f .ne false (mopScalar t par) x y).1 else (mopScalar t par * x + y) % 2 ^ t.bits, false)

/-- R195: the digits of `chans` of a tuple summed. -/
def mopDigits (b : Basis) (chans : List Nat) (y x : Nat) : Nat :=
  chans.foldl (fun q h =>
    let lo := if h = 8 then 64 else if h = 9 then 80 else 8 * h
    let w := if h < 8 then 8 else 16
    let d := (quadDigit b y h + quadDigit b x h) % b.mod h
    q - q / 2 ^ lo % 2 ^ w * 2 ^ lo + d * 2 ^ lo) y

/-- R196: the target is in the stacked tier or HBM4 (y), or not in device memory (x). The manual names MOP_TARGET for a page of y
in another memory type: the model uses it, with the address of the piece, for every place that R196 does not allow, of x as of
y and local as flat (assumption 94). -/
def mopPlace (s : State) (w : Site) (d : Rec) (dest : Bool) (pieces : List (Nat × Nat)) : Option Dword :=
  if tSpace d != 0 then (if dest || tSpace d != 1 then some (BitVec.ofNat 64 (pieces.headD (0, 0)).1) else none)
  else ((pieces.flatMap fun p => pageParts p.1 p.2).find? fun p =>
    match translate s w.who (if dest then .write else .read) p.1 with
    | .ok _ mt => if dest then decide (2 ≤ mt) else mt == 3
    | _ => false).map fun p => BitVec.ofNat 64 p.1

/-- Read the element at coordinates where MOP may find it. -/
def mopRead (s : State) (w : Site) (d : Rec) (dest : Bool) (c : List Nat) : Mem Nat :=
  (placeOf s w d c).bind fun s1 p =>
    match mopPlace s1 w d dest p.pieces with
    | some i => .bad .mopTarget i false
    | none => elemRead s1 w d c

/-- R195, R196: the update of the parts `js` of an element: its new value, and whether .cas exchanged it. -/
def mopElem (s : State) (core : Nat) (e : Token) (code : Nat) (y x : Tn) (par : Word) (c js : List Nat) : Mem (Nat × Bool) :=
  let w := e.site core
  (mopRead s w y.dw true c).bind fun s1 vy =>
    (mopRead s1 w x.dw false c).bind fun s2 vx =>
      if code = 3 then
        match basisOf s e.ctx (tagBid (tTag y.dw)) with
        | none => .bad .badBasis 0 false
        | some b => .ok s2 (mopDigits b (b.live.filter js.contains) vy vx, false)
      else .ok s2 (mopNew code (tTy y.dw) par vy vx)

/-- R196: the updates of the elements of one block, with the number that were exchanged. -/
def mopGo (s : State) (core : Nat) (e : Token) (code : Nat) (y x : Tn) (par : Word) :
    List (List Nat × List Nat) → Mem (List (List Nat × List Nat × Nat) × Nat)
  | [] => .ok s ([], 0)
  | (c, js) :: rest =>
    (mopElem s core e code y x par c js).bind fun s1 a =>
      (mopGo s1 core e code y x par rest).bind fun s2 r => .ok s2 ((c, js, a.1) :: r.1, r.2 + a.2.toNat)

/-- The parts of y that a bank-side operation has not updated. -/
def mopLeft (s : State) (e : Token) (y : Tn) : List Nat := e.left (elemCount y.dw) (elemParts y.dw)

/-- R196, R326: the aligned 64-byte block of y in which part `key` lies now, with the parts that lie in it and are left. -/
def mopBlock (s : State) (core : Nat) (e : Token) (y : Tn) (key : Nat) : Option (Nat × List Nat) :=
  let at_ (i : Nat) : Option Nat := pieceAt s (e.site core) y.dw (regionCoord y.dw (i / 16)) (i % 16)
  (at_ key).map fun ln => (ln, (mopLeft s e y).filter fun i => at_ i == some ln)

/-- R196: one block: its element updates are applied together; the exchanges are counted. -/
def mopUnit (s : State) (core : Nat) (e : Token) (code : Nat) (y x : Tn) (par : Word) : Mem Work :=
  match e.pick (mopLeft s e y) with
  | none => .ok s e.work
  | some key =>
    (placeOf s (e.site core) y.dw (regionCoord y.dw (key / 16))).bind fun s1 _ =>
      match mopBlock s1 core e y key with
      | none => .wait
      | some (ln, ks) =>
        (mopGo s1 core e code y x par ((groupParts ks).map fun g => (regionCoord y.dw g.1, g.2))).bind fun s2 r =>
          (putPiece s2 (e.site core) false y.dw r.1).bind fun s3 _ =>
            .ok s3 { e.work.movedParts ks [ln] with counts := [e.work.counts.getD 0 0 + r.2] }

/-! ### The memory-operation units (R305, R314) -/

/-- R305, R314: the unit of the stack or of the stacked tier that holds an address: five on each die. -/
def bankUnit (pa : Nat) : Nat := 5 * homeDie pa + (if isHbm pa then pa / 1024 % 4 else 4)

/-- R314: the unit of the block in which a part of y lies; none where it lies in no such memory. -/
def unitOfPart (s : State) (core : Nat) (e : Token) (y : Tn) (key : Nat) : Option Nat :=
  match placeOf s (e.site core) y.dw (regionCoord y.dw (key / 16)) with
  | .ok _ p =>
    (match translate s (e.site core).who .write (p.part (key % 16)).1 with
    | .ok k mt => if tSpace y.dw = 0 ∧ mt < 2 then some (bankUnit k) else none
    | _ => none)
  | _ => none

/-- R314: the unit that the operation's next block goes to. -/
def nextUnit (s : State) (core : Nat) (e : Token) : Option Nat :=
  match e.op with
  | .mop _ y _ _ _ => (e.pick (mopLeft s e y)).bind (unitOfPart s core e y)
  | _ => none

/-- R314: the operation has a block for a unit. -/
def hasBlockAt (s : State) (core : Nat) (e : Token) (u : Option Nat) : Bool :=
  match e.op with
  | .mop _ y _ _ _ => (mopLeft s e y).any fun k => unitOfPart s core e y k == u
  | _ => false

/-! ## Units -/

/-- Units are left of a copy, a conversion or a bank-side operation. -/
def unitsLeft (s : State) (e : Token) : Bool :=
  match e.op with
  | .cpl _ n _ ps => !(cplLeft e n ps).isEmpty
  | .cpt dst _ _ _ box _ => !(e.left (boxCount box) (elemParts dst.dw)).isEmpty
  | .cpg _ br bc dst _ _ count => !(e.left (count * 2 ^ (br + bc)) (elemParts dst.dw)).isEmpty
  | .cvb _ _ square _ src _ _ => decide (e.work.prog < cvbCount square (tExt src.dw 0) (tExt src.dw 1))
  | .mop _ y _ _ _ => !(mopLeft s e y).isEmpty
  | _ => false

/-- R407: the applied depth of a throttle step. -/
def stepDepth (s : State) (n : Nat) : Nat := mget 0 s.kettle.depths n

/-- R218, R222, R407: a unit of the operation can be taken now, or could be if it started. -/
def copyReady (s : State) (t : OpAt) : Bool :=
  !(t.2.2.cls == 6 && decide (0 < stepDepth s 4)) && unitsLeft s t.2.2 && !rangeBlocked s t.1 t.2.1 t.2.2

/-- R218, R314: the operations that an engine chooses among with this one: those of its engine, or with a block for its unit. -/
def copyRivals (s : State) (core : Nat) (e : Token) : List OpAt :=
  (if e.cls = 6 then (contenders s 6).filter fun t => hasBlockAt s t.1 t.2.2 (nextUnit s core e) else onEngine s core e).filter
    (copyReady s)

/-- The fault that an operation reports once its last unit is done (R111, R234). -/
def lastFault (s : State) (core : Nat) (e : Token) (w : Work) : Option (Cause × Dword × Bool) :=
  match e.op with
  | .cpt _ _ _ _ _ mc => (castMissing s core e mc).map fun c => (.mcastTarget, BitVec.ofNat 64 c, false)
  | .cvb _ _ _ _ _ _ _ => w.first.map fun k => (.scaleRange, BitVec.ofNat 64 (k % 2 ^ 32), false)
  | _ => none

/-- One unit more has been performed. -/
def unitDone (s : State) (core : Nat) (e : Token) (w : Work) : Work :=
  if unitsLeft s { e with work := w } then w else { w with fault := lastFault s core e w }

/-- R218: the engine takes a unit of an operation of class `cls`. -/
def copyEvent (cls : Nat) (core idx : Nat) (s : State) (f : Token → Mem Work) : Host.Outcome State Fault Refusal :=
  let e := s.token core idx
  let ready := copyRivals s core e
  if e.cls = cls && e.active && copyReady s (core, idx, e) && takesTurn s core idx e ready then
    unitStep s core idx ready ((f e).bind fun s1 w => .ok s1 (unitDone s core e w))
  else .next s

/-- R233 to R235: one line of a copy. -/
def execCopyLine (core idx : Nat) (s : State) : Host.Outcome State Fault Refusal :=
  copyEvent 0 core idx s fun e =>
    match e.op with
    | .cpl st n _ ps => cplUnit s core e st n ps
    | .cpt dst src so dor box mc => cptUnit s core e dst src so dor box mc
    | .cpg sc br bc dst src list count => cpgUnit s core e sc br bc dst src list count
    | _ => .ok s e.work

/-- A unit of a conversion. -/
def cvbStep (s : State) (core : Nat) (e : Token) : Mem Work :=
  match e.op with
  | .cvb mode w square dst src scale _ => cvbUnit s core e mode w square dst src scale
  | _ => .ok s e.work

/-- R110, R111, R344: one piece of a strip or of a square of a conversion. -/
def execConversionBlock (core idx : Nat) (s : State) : Host.Outcome State Fault Refusal :=
  copyEvent 1 core idx s (cvbStep s core)

/-- R225, R373: a conversion that parks does so at a block boundary: a block that it has begun to write is written, and one that it has
only read is begun again. -/
def blockBoundary (s : State) (core idx : Nat) : State :=
  let e := s.token core idx
  if e.cls != 1 then s
  else if e.work.pend.isEmpty then s.modToken core idx fun e => { e with work := { e.work with got := [] } }
  else (List.range (16 * e.work.pend.length)).foldl (fun s _ =>
    let e := s.token core idx
    if e.work.pend.isEmpty then s
    else match cvbStep s core e with
      | .ok s1 w => s1.modToken core idx fun e => { e with work := unitDone s core e w }
      | _ => s) s

/-- R196: one block of a bank-side operation. -/
def execMopBlock (core idx : Nat) (s : State) : Host.Outcome State Fault Refusal :=
  copyEvent 6 core idx s fun e =>
    match e.op with
    | .mop code y x par _ => mopUnit s core e code y x par
    | _ => .ok s e.work

end Sys2Proof.Machine
end

