-- ==== Sys2Proof/Machine/Relayout.lean ====
section
/-! DEFINITION. The relayout engine (R247, R248, R324 to R329): its start, one unit, its completion and its stop. A unit is
locked, converted, marked and unlocked in one step, so no access ever meets a locked unit. -/

namespace Sys2Proof.Machine

/-! ## The record as operations hold it (R29, R248) -/

/-- Change every tensor an operation has captured. -/
def Op.mapTn (f : Tn → Tn) : Op → Op
  | .none => .none
  | .cpl st sz rd ps => .cpl st sz rd ps
  | .cpt d x so dor box mc => .cpt (f d) (f x) so dor box mc
  | .cpg sc br bc d x l n => .cpg sc br bc (f d) (f x) l n
  | .cvb m w q d x sc a => .cvb m w q (d.map f) (f x) (sc.map f) a
  | .mzero a b e => .mzero a b e
  | .mrl a e t g => .mrl a e (f t) g
  | .mma n a k x y sa sb sp nc wa wb m => .mma n a k (f x) (f y) (sa.map f) (sb.map f) sp nc wa wb m
  | .mdr a fmt e st z d b p r c => .mdr a fmt e st z (f d) (b.map f) p r c
  | .mrs a d ar => .mrs a (f d) ar
  | .coll k r d x g rt => .coll k r (f d) (f x) g rt
  | .relay t b tg m rs => .relay (f t) b tg m rs
  | .mop c y x p cx => .mop c (f y) (f x) p cx

/-- Change every token of the device, resident or saved; `f` is given the token's core. -/
def mapTokens (s : State) (f : Nat → Token → Token) : State :=
  { s with
    cores := s.cores.map fun k => (k.1, { k.2 with tokens := k.2.tokens.map fun t => (t.1, f k.1 t.2) })
    images := s.images.map fun g => { g with tokens := g.tokens.map fun t => (t.1, f g.core t.2) } }

/-- R29, R248: every operation that captured the record that now lies at `key` is redirected by the fields that `f` changes. -/
def redirectAll (s : State) (key : Nat) (f : Rec → Rec) : State :=
  mapTokens s fun core e =>
    { e with op := e.op.mapTn fun t => if t.key s (e.site core).who = key then { t with dw := f t.dw } else t }

/-- R247, R316: one write of the record's first six doublewords, of which `f` changes the fields that engines write. -/
def writeRecord (s : State) (w : Site) (t : Tn) (f : Rec → Rec) : Mem Unit :=
  (flatUpdate s w.who t.va 48 fun old =>
    let dw := f ((List.range 6).map fun i => BitVec.ofNat 64 (old / 2 ^ (64 * i)))
    ((List.range 6).map fun i => (recDw dw i).toNat * 2 ^ (64 * i)).sum).bind fun s1 _ =>
      .ok (redirectAll s1 (t.key s1 w.who) f) ()

/-- R315: doubleword 4 with FLT and RST changed. -/
def withFlight (d : Dword) (flt : Bool) (rst : Nat) : Dword :=
  (d &&& ~~~(7#64 <<< 39)) ||| (BitVec.ofNat 64 (flt.toNat + 2 * rst) <<< 39)

/-- R315: doubleword 5 with RTOK changed. -/
def withRtok (d : Dword) (t : Word) : Dword := d.extractLsb' 32 32 ++ t

/-- R247: what the start of a fresh relayout of the tensor captured as `t` makes of its record `d`. -/
def freshRecord (t : Rec) (base map : Nat) (tag tok : Word) (d : Rec) : Rec :=
  [BitVec.ofNat 64 base, recDw t 0, tag ++ tTag t, BitVec.ofNat 64 map, withFlight (recDw d 4) true 1, withRtok (recDw d 5) tok]
    ++ d.drop 6

/-- R329: the record when a relayout resumes. -/
def resumedRecord (tok : Word) (d : Rec) : Rec :=
  d.take 4 ++ [withFlight (recDw d 4) true 1, withRtok (recDw d 5) tok] ++ d.drop 6

/-- R329: the record when a relayout has stopped. -/
def stoppedRecord (d : Rec) : Rec := d.take 4 ++ [withFlight (recDw d 4) true 2] ++ d.drop 5

/-- R329: the record when a relayout completes. -/
def finalRecord (d : Rec) : Rec :=
  [recDw d 0, 0, (tNtag d).setWidth 64, 0, withFlight (recDw d 4) false 0] ++ d.drop 5

/-- R247: zero `n` lines of the map. -/
def zeroMap (s : State) (w : Who) (va : Nat) : Nat → Mem Unit
  | 0 => .ok s ()
  | n + 1 => (flatWrite s w va 64 0).bind fun s1 _ => zeroMap s1 w (va + 64) n

/-- R247, R324, R329: the start of a relayout, or its resumption. -/
def relayStart (s : State) (core idx : Nat) (e : Token) : Mem Unit :=
  match e.op with
  | .relay t base tag map resume =>
    let w := e.site core
    let d := t.dw
    let ntag : Word := BitVec.ofNat 32 tag
    let tok := e.word core idx
    if resume then writeRecord s w t (resumedRecord tok)
    else
      (zeroMap s w.who map (ceilDiv (ceilDiv (unitCount d ntag) 8) 64)).bind fun s1 _ =>
        writeRecord s1 w t (freshRecord d base map ntag tok)
  | _ => .ok s ()

/-! ## Units (R324, R325) -/

/-- R324: the units of an operation. -/
def relayTotal (e : Token) : Nat :=
  match e.op with
  | .relay t _ tag _ _ => unitCount t.dw (BitVec.ofNat 32 tag)
  | _ => 0

/-- The unit that the engine comes to next. -/
def relayCursor (e : Token) : Nat := e.work.counts.headD 0

/-- R407: the operation can take a unit now, or could if it started. -/
def relayReady (s : State) (t : OpAt) : Bool :=
  decide (stepDepth s 3 = 0) && decide (relayCursor t.2.2 < relayTotal t.2.2) && !rangeBlocked s t.1 t.2.1 t.2.2

/-- R113, R325: move elements from the old area to the new one. It answers the addresses written. -/
def convertElems (s : State) (w : Site) (d : Rec) (span nspan : Nat) : List (List Nat) → Mem (List (Nat × Nat))
  | [] => .ok s []
  | c :: rest =>
    let q := storedIndex d (tTag d) c
    let p := storedIndex d (tNtag d) c
    let dst := elemPieces d (tNtag d) (tBase d) nspan p
    (readPieces s w (tSpace d) (elemPieces d (tTag d) (tObase d) span q)).bind fun s1 xs =>
      (writePieces s1 w (tSpace d) dst
        (elemStores d (tNtag d) p nspan (canonElem s w.who.ctx (tTag d) (elemValue d (tTag d) q span xs)))).bind fun s2 _ =>
          (convertElems s2 w d span nspan rest).bind fun s3 ps => .ok s3 (dst ++ ps)

/-- R324: the in-bounds coordinates of a unit. -/
def unitCoords (d : Rec) (u : Nat) : List (List Nat) :=
  (allCoords (extsOf d)).filter fun c => storedIndex d (tNtag d) c / unitSize (tNtag d) == u

/-- R325: one unit; a unit whose bit stands already is passed by. -/
def relayUnit (s : State) (core : Nat) (e : Token) (d : Rec) : Mem Work :=
  let w := e.site core
  let u := relayCursor e
  let va := tMapp d + u / 8
  let next (n : Nat) : Work := { e.work with counts := [u + 1], prog := e.work.prog + n }
  (flatRead s w.who va 1).bind fun s1 x =>
    if x / 2 ^ (u % 8) % 2 = 1 then .ok s1 (next 0)
    else if [tTag d, tNtag d].any fun t => tagResidue t && (basisOf s e.ctx (tagBid t)).isNone then .bad .badBasis 0 false
    else
      (convertElems s1 w d (tagSpan s e.ctx (tTag d)) (tagSpan s e.ctx (tNtag d)) (unitCoords d u)).bind fun s2 ps =>
        (flatUpdate (writtenTogether s2 w (tSpace d) ps) w.who va 1 fun y => y ||| 2 ^ (u % 8)).bind fun s3 _ => .ok s3 (next 1)

def execRelayoutUnit (core idx : Nat) (s : State) : Host.Outcome State Fault Refusal :=
  let e := s.token core idx
  match e.op with
  | .relay t _ _ _ _ =>
    let ready := (onEngine s core e).filter (relayReady s)
    if e.active && e.work.accepted && relayReady s (core, idx, e) && takesTurn s core idx e ready then
      unitStep s core idx ready (relayUnit s core e t.dw)
    else .next s
  | _ => .next s

/-! ## Completion and stop (R329) -/

/-- R329: the completion writes the record. -/
def relayFinish (s : State) (core : Nat) (e : Token) : Mem Unit :=
  match e.op with
  | .relay t _ _ _ _ => writeRecord s (e.site core) t finalRecord
  | _ => .ok s ()

/-- R329: a relayout that has started stops: RST = 10. None tells that the write has to wait (R310); a record that cannot be
written stays as it is. -/
def relayStop (s : State) (core : Nat) (e : Token) : Option State :=
  match e.op with
  | .relay t _ _ _ _ =>
    if !e.work.accepted then some s
    else match writeRecord s (e.site core) t stoppedRecord with
      | .ok s1 _ => some s1
      | .wait => none
      | .bad _ _ _ => some s
  | _ => some s

end Sys2Proof.Machine
end

