-- ==== Sys2Proof/Machine/Collective.lean ====
section
/-! DEFINITION. The collective engine (R119, R246, R399 to R402): the group descriptor, the shapes, the first messages, one chunk
step, and aborts. What travels on the links is a `Msg` of node 3: type 0 a chunk, type 1 an abort, type 2 a first message;
CTXID is the device it goes to (assumption 95). -/

namespace Sys2Proof.Machine

/-! ## The group (R400) -/

/-- R400: the parts of a descriptor: GID, P, ME and MLIST; none when a reserved bit is set. -/
def groupOf (d : List Dword) : Option (Nat × Nat × Nat × Nat) :=
  let b (lo n : Nat) : Nat := ((d.getD 0 0).extractLsb' lo n).toNat
  let p := b 16 16
  let me := b 0 16
  let list := (d.getD 1 0).toNat
  if b 32 16 != 0 || [3, 4, 5, 6, 7].any (fun i => d.getD i 0 != 0) || p = 0 || decide (1024 < p) || decide (p ≤ me)
      || list % 64 != 0 then none
  else some (b 48 16, p, me, list)

/-- R400: read the member list, one line at a time. -/
def readMembers (s : State) (w : Who) (va : Nat) : Nat → Mem (List Nat)
  | 0 => .ok s []
  | n + 1 =>
    (flatRead s w va 2).bind fun s1 x => (readMembers s1 w (va + 2) n).bind fun s2 xs => .ok s2 (x :: xs)

/-- R400: the list is one that the descriptor may name. -/
def membersOk (s : State) (me : Nat) (ms : List Nat) : Bool :=
  ms.all (fun m => decide (m < 1024)) && ms.getD me 0 == s.devnum && ms.eraseDups.length == ms.length

/-- R246: the extents agree with the kind, and the root of a broadcast is a member. -/
def shapesOk (kind p root : Nat) (dst src : Rec) : Bool :=
  let rest := tRank dst == tRank src && (List.range 7).all fun i => i == 0 || tExt dst i == tExt src i
  rest && match kind with
    | 1 => tExt dst 0 * p == tExt src 0
    | 2 => tExt dst 0 == tExt src 0 * p
    | 3 => tExt dst 0 == tExt src 0 && decide (root < p)
    | 4 => tExt dst 0 == tExt src 0 && tExt src 0 % p == 0
    | _ => tExt dst 0 == tExt src 0

/-- A group as `Work.group` holds it: GID, sequence, P, ME, members. -/
def Token.grp (e : Token) (i : Nat) : Nat := e.work.group.getD i 0
def Token.members (e : Token) : List Nat := e.work.group.drop 4

/-- R400: the start of a collective: the group with its sequence, and whether the shapes agree; none for a descriptor that fails. -/
def collStart (s : State) (core : Nat) (e : Token) : Mem (Option (List Nat × Bool)) :=
  match e.op with
  | .coll kind _ dst src desc root =>
    let w := (e.site core).who
    (flatDwords s w desc 8).bind fun s1 d =>
      match groupOf d with
      | none => .ok s1 none
      | some (gid, p, me, list) =>
        (readMembers s1 w list p).bind fun s2 ms =>
          if !membersOk s me ms then .ok s2 none
          else
            (flatRmw s2 w (desc + 16) 8 fun n => (n + 1) % 2 ^ 64).bind fun s3 q =>
              .ok s3 (some (gid :: q :: p :: me :: ms, shapesOk kind p root dst.dw src.dw))
  | _ => .ok s none

/-! ## Chunk steps (R401) -/

/-- R401: one chunk step: a chunk sent to a member, or received from one. `how` is 0 for a chunk that is written, 1 for one
that is combined and passed on, 2 for one whose reduction it completes. -/
inductive CStep where
  | send (to_ chunk : Nat) (how : Nat)
  | recv (from_ chunk : Nat) (how : Nat)
  deriving DecidableEq, Repr

/-- R401: step `k` of the reduction round the ring at member `j` of `p`. -/
def reduceStep (p j k : Nat) : CStep :=
  let t := k / 2
  if k % 2 = 0 then .send ((j + 1) % p) ((j + 2 * p - 1 - t) % p) (if t = 0 then 0 else 1)
  else .recv ((j + p - 1) % p) ((j + 2 * p - 2 - t) % p) (if t + 2 = p then 2 else 1)

/-- R401: step `k` of passing finished chunks round the ring. -/
def gatherStep (p j k : Nat) : CStep :=
  let t := k / 2
  if k % 2 = 0 then .send ((j + 1) % p) ((j + p - t) % p) 2 else .recv ((j + p - 1) % p) ((j + 2 * p - 1 - t) % p) 0

/-- R401: step `k` of a collective on a ring, when the group has more than one member. -/
def chunkStepOf (kind p j root k : Nat) : CStep :=
  let d := (j + p - root % p) % p
  match kind with
  | 0 => if k < 2 * (p - 1) then reduceStep p j k else gatherStep p j (k - 2 * (p - 1))
  | 1 => reduceStep p j k
  | 2 => gatherStep p j k
  | _ =>
    if d = 0 then .send ((j + 1) % p) k 2
    else if d + 1 = p then .recv ((j + p - 1) % p) k 0
    else if k % 2 = 0 then .recv ((j + p - 1) % p) (k / 2) 0
    else .send ((j + 1) % p) (k / 2) 2

/-- R401: the chunk steps of a collective; a group of one member takes one step. -/
def chunkTotal (kind p j root : Nat) : Nat :=
  if p ≤ 1 then 1
  else
    let d := (j + p - root % p) % p
    match kind with
    | 0 => 4 * (p - 1)
    | 3 => if d = 0 ∨ d + 1 = p then p else 2 * p
    | _ => 2 * (p - 1)

/-- The chunk steps of an operation. -/
def collTotal (e : Token) : Nat :=
  match e.op with
  | .coll kind _ _ _ _ root => chunkTotal kind (e.grp 2) (e.grp 3) root
  | _ => 0

/-- R401: the extent that is divided into chunks. -/
def dividedExt (kind : Nat) (dst src : Rec) : Nat := if kind = 2 then tExt dst 0 else tExt src 0

/-- R401: the rows of chunk `c`. -/
def chunkRows (e0 p c : Nat) : List Nat :=
  let r := ceilDiv e0 p
  (List.range (min r (e0 - c * r))).map (c * r + ·)

/-- The coordinates of some rows of a tensor, row-major. -/
def rowCoords (d : Rec) (rows : List Nat) : List (List Int) :=
  (rows.flatMap fun r => (allCoords ((extsOf d).drop 1)).map fun c => r :: c).map fun c => c.map fun (k : Nat) => (k : Int)

/-- The bits of an element as it travels. -/
def travelBits (d : Rec) : Nat := if tagResidue (tTag d) then 128 else (tTy d).bits

/-- The bytes of elements, and back. -/
def packElems (bits : Nat) (xs : List Nat) : List Byte :=
  natBytes (ceilDiv (xs.length * bits) 8) ((xs.zipIdx.map fun e => e.1 % 2 ^ bits * 2 ^ (bits * e.2)).sum)
def unpackElems (bits n : Nat) (bs : List Byte) : List Nat :=
  let x := leNat bs
  (List.range n).map fun i => x / 2 ^ (bits * i) % 2 ^ bits

/-- R117, R119: one step of a reduction. -/
def collCombine (s : State) (ctx rop : Nat) (d : Rec) (acc x : Nat) : Nat :=
  if rop = 3 then match basisOf s ctx (tagBid (tTag d)) with
    | some b => mopDigits b b.live acc x
    | none => acc
  else (mopNew rop (tTy d) 0 acc x).1

/-- What a chunk step needs of its operation. -/
structure CollOp where
  kind : Nat
  rop : Nat
  dst : Tn
  src : Tn
  root : Nat

/-- The rows of the source and of the destination that chunk `c` names. -/
def srcRows (o : CollOp) (p c : Nat) : List Nat :=
  if o.kind = 2 then List.range (tExt o.src.dw 0) else chunkRows (dividedExt o.kind o.dst.dw o.src.dw) p c
def dstRows (o : CollOp) (p c : Nat) : List Nat :=
  if o.kind = 1 then List.range (tExt o.dst.dw 0) else chunkRows (dividedExt o.kind o.dst.dw o.src.dw) p c

/-- R401: the rows of the source and of the destination that a member moves within itself, before its first chunk step. -/
def ownRows (o : CollOp) (p me : Nat) : List Nat × List Nat :=
  let all := (List.range (tExt o.src.dw 0), List.range (tExt o.dst.dw 0))
  if p ≤ 1 then all
  else match o.kind with
    | 2 => (List.range (tExt o.src.dw 0), dstRows o p me)
    | 3 => if o.root = me then all else ([], [])
    | 4 => (srcRows o p me, dstRows o p me)
    | _ => ([], [])

/-- R246: KIND 2 to 4 move elements as bits. -/
def CollOp.raw (o : CollOp) : Bool := decide (2 ≤ o.kind)

/-- A message on the links. -/
def linkMsg (s : State) (dev typ seq : Nat) (body : List Dword) : State :=
  { s with out := s.out ++ [{ port := 3, typ := typ, rpl := false, len := 8 * body.length, seq := seq, node := s.devnum, ctxid := dev,
                              body := body, tag := 0 }] }

/-- The doublewords that hold some bytes. -/
def dwordsIn (bs : List Byte) : List Dword :=
  let x := leNat bs
  (List.range (ceilDiv bs.length 8)).map fun i => BitVec.ofNat 64 (x / 2 ^ (64 * i))

/-- R399: the link to a member: up, waiting, or lost. -/
def linkTo (s : State) (dev : Nat) : LinkSt := mget .up s.links (Config.peerPort dev)

/-- Elements to be written, by pieces, before the operation goes on. What was to be written before is done, so none of it is left. -/
def Work.writes (k : Work) (xs : List (List Int × Nat)) : Work := { k with pend := xs.map fun x => (0, x), done := [], moved := [], got := [] }

/-- R401: what a step has to write is written: the member's own part, or a chunk, which completes the chunk step. -/
def Work.wrote (k : Work) : Work :=
  let k1 := k.writes []
  if k.accepted then { k1 with prog := k.prog + 1 } else { k1 with accepted := true }

/-- Elements to be written, or nothing to write. -/
def Work.toWrite (k : Work) (xs : List (List Int × Nat)) : Work := if xs.isEmpty then k.wrote else k.writes xs

/-- The operation goes on to its next chunk step. -/
def stepped (k : Work) : Work := { k with prog := k.prog + 1, got := [] }

/-- R401: the chunk steps of an .alltoall that are left: its sends, then its receipts. `counts` holds those that have been made, as
2 × member, plus 1 for a receipt. -/
def exchangeLeft (e : Token) : List Nat × List Nat :=
  let others := (List.range (e.grp 2)).filter (· != e.grp 3)
  (others.filter fun m => !e.work.counts.contains (2 * m), others.filter fun m => !e.work.counts.contains (2 * m + 1))

/-- R344, R401: the chunk step that comes next, `data` telling whether a chunk has come. The order of an .alltoall is its own. -/
def nextStep (e : Token) (o : CollOp) (data : List Byte) : Option CStep :=
  if o.kind = 4 then
    let l := exchangeLeft e
    let pick (l : List Nat) : Option Nat := l[Config.opChoice e.seq (2 ^ 66 + e.work.counts.length) % l.length]?
    if data.isEmpty && !l.1.isEmpty then (pick l.1).map fun m => .send m m 0 else (pick l.2).map fun m => .recv m m 0
  else some (chunkStepOf o.kind (e.grp 2) (e.grp 3) o.root e.work.prog)

/-- R401: the tensor and the elements of it that a step reads: those it sends, or those it combines with a chunk received. -/
def stepReads (o : CollOp) (p : Nat) : CStep → Option (Tn × List (List Int))
  | .send _ c 0 => some (o.src, rowCoords o.src.dw (srcRows o p c))
  | .send _ _ 1 => none
  | .send _ c _ => some (o.dst, rowCoords o.dst.dw (dstRows o p c))
  | .recv _ _ 0 => none
  | .recv _ c _ => some (o.src, rowCoords o.src.dw (srcRows o p c))

/-- R401: the elements of a chunk that is sent. -/
def sentElems (s : State) (w : Site) (e : Token) (o : CollOp) (st : CStep) : List Nat :=
  match stepReads o (e.grp 2) st with
  | some (t, cs) => readValues s w e.work o.raw t.dw cs
  | none => (List.range e.work.buf.length).map (mget 0 e.work.buf)

/-- R401: receive a chunk whose elements are `xs`. -/
def takeChunk (s : State) (w : Site) (e : Token) (o : CollOp) (m c how : Nat) (xs : List Nat) : Work :=
  let p := e.grp 2
  let heard : Work :=
    { e.work with hear := mput e.work.hear (e.members.getD m 0) s.time, buf := []
                  counts := if o.kind = 4 then e.work.counts ++ [2 * m + 1] else e.work.counts }
  let put (ys : List Nat) : Work := heard.toWrite ((rowCoords o.dst.dw (dstRows o p c)).zip ys)
  if how = 0 then put xs
  else
    let mine := readValues s w e.work o.raw o.src.dw (rowCoords o.src.dw (srcRows o p c))
    let ys := (xs.zip mine).map fun z => collCombine s e.ctx o.rop o.src.dw z.1 z.2
    if how = 1 then { stepped heard with buf := ys.zipIdx.map fun y => (y.2, y.1) } else put ys

/-! ### First messages (R400) -/

/-- R400: what a member's first message carries: KIND, ROP, format, basis and element count. -/
def firstMessage (s : State) (ctx : Nat) (o : CollOp) : List Dword :=
  let d := o.src.dw
  let b := if tagResidue (tTag d) then basisOf s ctx (tagBid (tTag d)) else none
  [BitVec.ofNat 64 (o.kind + 2 ^ 8 * o.rop + 2 ^ 16 * tFmt d + 2 ^ 24 * (tagResidue (tTag d)).toNat), BitVec.ofNat 64 (elemCount d)] ++
    match b with
    | some b => (b.prim ++ [b.q0, b.q1]).map (BitVec.ofNat 64)
    | none => []

/-- The other members of the group. -/
def Token.peers (e : Token) (s : State) : List Nat := e.members.filter (· != s.devnum)

/-- R400: the members whose first message is awaited, and the one whose message comes next, by a free choice. -/
def Token.unmets (e : Token) (s : State) : List Nat := (e.peers s).filter fun m => !e.work.met.contains m
def Token.unmet (e : Token) (s : State) : Option Nat :=
  (e.unmets s)[Config.opChoice e.seq (2 ^ 67 + e.work.met.length) % (e.unmets s).length]?

/-- R400: a first message goes to every other member. -/
def sendFirst (s : State) (e : Token) (o : CollOp) : State :=
  (e.peers s).foldl (fun s m => linkMsg s m 2 (e.grp 1) (BitVec.ofNat 64 (e.grp 0) :: firstMessage s e.ctx o)) s

/-- R399: what needs the link to a member waits while it retrains, and faults when it is lost. -/
def overLink {α : Type} (s : State) (dev : Nat) (f : Mem α) : Mem α :=
  match linkTo s dev with
  | .retraining _ => .wait
  | .lost => .bad .peerDown (BitVec.ofNat 64 dev) false
  | .up => f

/-- R400: the first message of a member: any disagreement is BAD_SHAPE. -/
def takeFirst (s : State) (e : Token) (o : CollOp) (m : Nat) (data : List Byte) : Mem Work :=
  overLink s m <|
    if data.isEmpty then .wait
    else if dwordsIn data != firstMessage s e.ctx o then .bad .badShape 0 false
    else .ok s { e.work with met := m :: e.work.met, hear := mput e.work.hear m s.time }

/-- R401: one chunk step at this member, whose elements have been read, with the bytes received, if any. -/
def chunkPart (s : State) (core : Nat) (e : Token) (o : CollOp) (st : CStep) (data : List Byte) : Mem Work :=
  let w := e.site core
  let p := e.grp 2
  let dev (m : Nat) : Nat := e.members.getD m 0
  let bits := travelBits o.src.dw
  match st with
  | .send m c _ =>
    overLink s (dev m) <|
      let bs := packElems bits (sentElems s w e o st)
      .ok (linkMsg s (dev m) 0 (e.grp 1) (BitVec.ofNat 64 (e.grp 0) :: BitVec.ofNat 64 c :: dwordsIn bs))
        (stepped { e.work with counts := if o.kind = 4 then e.work.counts ++ [2 * m] else e.work.counts })
  | .recv m c how =>
    overLink s (dev m) <|
      let n := (rowCoords o.dst.dw (if how = 0 then dstRows o p c else srcRows o p c)).length
      let len := ceilDiv (n * bits) 8
      if data.isEmpty && len != 0 then .wait
      else if data.length ≠ len then .bad .badShape 0 false
      else .ok s (takeChunk s w e o m c how (unpackElems bits n data))

/-- R400, R401, R344: what the operation does next: a piece of the elements that it writes, a first message, a piece of those that it
reads, its own part, or a chunk step. -/
def collUnit (s : State) (core : Nat) (e : Token) (o : CollOp) (data : List Byte) : Mem Work :=
  let w := e.site core
  if !e.work.pend.isEmpty then pendPiece s w e o.raw [o.dst] Work.wrote
  else match e.unmet s with
    | some m => takeFirst s e o m data
    | none =>
      if !e.work.accepted then
        let rows := ownRows o (e.grp 2) (e.grp 3)
        let cs := rowCoords o.src.dw rows.1
        if !(e.unread o.src.dw cs).isEmpty then readPiece s w e o.src.dw cs
        else .ok s (e.work.toWrite ((rowCoords o.dst.dw rows.2).zip (readValues s w e.work o.raw o.src.dw cs)))
      else if e.grp 2 ≤ 1 then .ok s (stepped e.work)
      else match nextStep e o data with
        | none => .ok s e.work
        | some st =>
          match stepReads o (e.grp 2) st with
          | some (t, cs) => if (e.unread t.dw cs).isEmpty then chunkPart s core e o st data else readPiece s w e t.dw cs
          | none => chunkPart s core e o st data

/-- The collective of an operation. -/
def Token.coll (e : Token) : Option CollOp :=
  match e.op with
  | .coll kind rop dst src _ root => some { kind := kind, rop := rop, dst := dst, src := src, root := root }
  | _ => none

/-- R218: the operation can go on without receiving anything. -/
def collReady (s : State) (t : OpAt) : Bool :=
  let e := t.2.2
  decide (e.work.prog < collTotal e) && !rangeBlocked s t.1 t.2.1 e &&
    match e.coll with
    | some o =>
      !e.work.pend.isEmpty || ((e.unmet s).isNone && (!e.work.accepted || decide (e.grp 2 ≤ 1) ||
        match nextStep e o [] with
        | some (.send m _ _) => linkTo s (e.members.getD m 0) == .up
        | some (.recv m c how) =>
          (match stepReads o (e.grp 2) (.recv m c how) with | some (t, cs) => !(e.unread t.dw cs).isEmpty | none => false)
        | none => false))
    | none => false

def execChunkStep (core idx : Nat) (data : List Byte) (s : State) : Host.Outcome State Fault Refusal :=
  let e := s.token core idx
  match e.coll with
  | some o =>
    let ready := (onEngine s core e).filter (collReady s)
    if e.active && e.work.group != [] && decide (e.work.prog < collTotal e) && !rangeBlocked s core idx e && takesTurn s core idx e ready then
      unitStep s core idx ready (collUnit s core e o data)
    else .next s
  | none => .next s

/-! ## Aborts (R402) -/

/-- R246, R402: an abort goes to every other member of an operation whose group is known. A disagreement of the first messages is
found by every member itself (R400), and sends none (assumption 95). -/
def sendAborts (s : State) (e : Token) : State :=
  match e.op with
  | .coll _ _ _ _ _ _ =>
    if (match e.work.fault with | some (.badShape, _, _) => !e.work.accepted | _ => false) then s
    else (e.peers s).foldl (fun s m => linkMsg s m 1 (e.grp 1) [BitVec.ofNat 64 (e.grp 0)]) s
  | _ => s

/-- R9: one second. -/
def oneSecond : Nat := 1000000 * microsecond

/-- R402: the abort kept for a group and a sequence; it is kept for 1 s. -/
def keptAbort (s : State) (gid seq : Nat) : Option Abort :=
  s.aborts.find? fun a => a.gid == gid && a.seq == seq && decide (s.time < a.at_ + oneSecond)

/-- R402: an abort arrives: the matching token faults, or the abort is kept for 1 s. -/
def execAbortReceived (gid seq origin : Nat) (s : State) : Host.Outcome State Fault Refusal :=
  let hits := s.cores.flatMap fun k => (k.2.tokens.filter fun t =>
    t.2.gen != 0 && t.2.cls == 4 && t.2.work.group != [] && t.2.grp 0 == gid && t.2.grp 1 == seq).map fun t => (k.1, t.1, t.2)
  match hits with
  | [] => .next { s with aborts := s.aborts ++ [{ gid := gid, seq := seq, origin := origin, at_ := s.time }] }
  | _ => .next (hits.foldl (fun s h =>
      if h.2.2.st.terminal || h.2.2.work.fault.isSome || decide (collTotal h.2.2 ≤ h.2.2.work.prog) then s
      else failOp s h.1 h.2.1 .peerAbort (BitVec.ofNat 64 origin) false) s)

/-- R402: a kept abort expires. -/
def execAbortExpiry (gid seq : Nat) (s : State) : Host.Outcome State Fault Refusal :=
  .next { s with aborts := s.aborts.filter fun a => !(a.gid == gid && a.seq == seq && decide (a.at_ + oneSecond ≤ s.time)) }

/-- R400, R401: the members from which the operation has something to receive. -/
def awaited (s : State) (e : Token) (o : CollOp) : List Nat :=
  if !(e.unmets s).isEmpty then e.unmets s
  else if o.kind = 4 then (exchangeLeft e).2.map fun m => e.members.getD m 0
  else match chunkStepOf o.kind (e.grp 2) (e.grp 3) o.root e.work.prog with
    | .recv m _ _ => [e.members.getD m 0]
    | .send _ _ _ => []

/-- R401: nothing has been received from a member for 1 s, counted from the start. -/
def silentFrom (s : State) (e : Token) (m : Nat) : Bool := decide (mget e.work.heard e.work.hear m + oneSecond ≤ s.time)

/-- R401: an operation that receives nothing from a member for 1 s faults. -/
def execPeerDown (core idx peer : Nat) (s : State) : Host.Outcome State Fault Refusal :=
  let e := s.token core idx
  match e.coll with
  | some o =>
    if e.active && decide (e.work.prog < collTotal e) && decide (1 < e.grp 2) && e.work.pend.isEmpty && (awaited s e o).contains peer
        && silentFrom s e peer then
      .next (failOp s core idx .peerDown (BitVec.ofNat 64 peer) false)
    else .next s
  | none => .next s

end Sys2Proof.Machine
end

