-- ==== Sys2Proof/Machine/CrossLane.lean ====
section
/-! DEFINITION. The cross-lane instructions (R144 to R157) and the trees of R118. -/

namespace Sys2Proof.Machine

/-! ## Tiles and source lanes (R144, R145) -/

/-- R144: the first lane of a lane's tile. -/
def tileFirst (t l : Nat) : Nat := l - l % t

/-- R144: the acting lanes of the tile of lane `l`. -/
def tileActing (t : Nat) (act : List Nat) (l : Nat) : List Nat := act.filter fun j => tileFirst t j == tileFirst t l

/-- R145: Src(j): register `a` of lane `j`, or zero. -/
def srcLane (x : Strand) (n : Nat) (a : Opnd) (j : Nat) : Nat :=
  if !x.isLive j then 0
  else match a with
    | .v r => if n = 2 then (x.vpair j r.toNat).toNat else (x.vreg j r.toNat).toNat
    | .p r => (x.pbit j r.toNat).toNat
    | _ => 0

/-- A cross-lane instruction of fixed latency; `g` gives the result of a lane from the acting lanes. -/
def crossBody (f : T3) (n : Nat) (g : State → Ref → Strand → List Nat → Nat → Dword) : State → Ref → Strand → Res :=
  regBody fun s r x =>
    let act := x.acting f.hd
    perLane x act n f.d fun l => (g s r x act l, 0)

/-! ## Shuffles, permutes and broadcasts (R147 to R149) -/

/-- R147: the source lane of SHFL. -/
def shflLane (mode t l b : Nat) : Nat :=
  match mode with
  | 0 => tileFirst t l + b % t
  | 1 => if b ≤ l % t then l - b else l
  | 2 => if l % t + b < t then l + b else l
  | _ => tileFirst t l + ((l % t) ^^^ (b % t))

def execShfl (f : T3) (s : State) : Host.Outcome State Fault Refusal :=
  issue (.shfl f) s (crossBody f f.ty.vregs fun s r x _ l =>
    let j := shflLane (bitsOf f.opx 0 2) x.tile l (laneOp s r x 1 l f.b)
    BitVec.ofNat 64 (srcLane x f.ty.vregs f.a j))

def execPerm (f : T3) (s : State) : Host.Outcome State Fault Refusal :=
  issue (.perm f) s (crossBody f f.ty.vregs fun s r x _ l =>
    BitVec.ofNat 64 (srcLane x f.ty.vregs f.a (laneOp s r x 1 l f.b)))

def execBcast (f : T3) (s : State) : Host.Outcome State Fault Refusal :=
  issue (.bcast f) s (crossBody f f.ty.vregs fun s r x act l =>
    let j := if f.opx.getLsbD 0 then (tileActing x.tile act l).headD l
      else tileFirst x.tile l + laneOp s r x 1 l f.b % x.tile
    BitVec.ofNat 64 (srcLane x f.ty.vregs f.a j))

/-! ## Votes, matches and ranks (R150 to R152) -/

/-- R150: ALL, ANY and UNI over the lanes counted. -/
def voteOf (mode : Nat) (bits : List Bool) : Bool :=
  match mode with
  | 0 => bits.all id
  | 1 => bits.any id
  | _ => bits.all id || bits.all (!·)

/-- R150: a word with bit (j mod 32) set for each lane of the list. -/
def laneWord (js : List Nat) : Nat := js.foldl (fun w j => w ||| 2 ^ (j % 32)) 0

/-- R150: the bit of A in a lane. -/
def predOf (x : Strand) (a : Opnd) (l : Nat) : Bool := match a with | .p r => x.pbit l r.toNat | _ => false

/-- R150: VOTE by the class of its destination. -/
def voteBody (f : T3) : State → Ref → Strand → Res :=
  regBody fun _ _ x =>
    let act := x.acting f.hd
    let mode := bitsOf f.opx 0 2
    match f.d with
    | .c k => (x.setC k.toNat (voteOf mode (act.map (predOf x f.a))), 0)
    | .k k => (x.setK k.toNat (act.foldl (fun m l => Mask.set m l (predOf x f.a l)) 0), 0)
    | .v _ => perLane x act 1 f.d fun l =>
        (BitVec.ofNat 64 (laneWord ((tileActing x.tile act l).filter (predOf x f.a))), 0)
    | _ => perLane x act 1 f.d fun l => boolRes (voteOf mode ((tileActing x.tile act l).map (predOf x f.a)))

def execVote (f : T3) (s : State) : Host.Outcome State Fault Refusal := issue (.vote f) s (voteBody f)

/-- R146: the write of a result's predicate, unless the field is 7. -/
def predWrite (f : T3) (l : Nat) (b : Bool) : List RegW :=
  if bitsOf f.opx 8 3 = 7 then [] else [.p l (bitsOf f.opx 8 3) b]

/-- A long-latency cross-lane instruction: `g` gives the writes and flags of all acting lanes. -/
def crossLong (i : Instr) (f : T3) (g : State → Ref → Strand → List Nat → List RegW × BitVec 6) :
    State → Ref → Strand → Res :=
  longBody i fun s r x => g s r x (x.acting f.hd)

/-- R151: the pattern of A in a lane. -/
def keyBits (x : Strand) (f : T3) (l : Nat) : Nat := srcLane x f.ty.vregs f.a l % 2 ^ f.ty.bits

/-- R151: MATCH. -/
def matchWrites (f : T3) (x : Strand) (act : List Nat) : List RegW :=
  act.flatMap fun l =>
    let tile := tileActing x.tile act l
    let same := tile.filter fun j => keyBits x f j == keyBits x f l
    laneWrites 1 f.d l (BitVec.ofNat 64 (laneWord same)) ++ predWrite f l (same.length == tile.length)

def execMatchLanes (f : T3) (s : State) : Host.Outcome State Fault Refusal :=
  issue (.matchLanes f) s (crossLong (.matchLanes f) f fun _ _ x act => (matchWrites f x act, 0))

/-- R152: the counted set of PART for lane `l`, as positions of its tile. -/
def partSet (f : T3) (x : Strand) (act : List Nat) (l : Nat) : List Nat :=
  match f.a with
  | .p _ => ((tileActing x.tile act l).filter (predOf x f.a)).map (· % x.tile)
  | .v r =>
    let first := tileFirst x.tile l
    (List.range x.tile).filter fun p => (x.vreg l r.toNat).getLsbD ((first + p) % 32)
  | _ => []

/-- R152: the count that PART gives lane `l`. -/
def partCount (f : T3) (x : Strand) (act : List Nat) (l : Nat) : Nat :=
  let set := partSet f x act l
  let below := (set.filter fun p => decide (p < l % x.tile)).length
  match bitsOf f.opx 0 2 with
  | 0 => below
  | 1 => below + (if set.contains (l % x.tile) then 1 else 0)
  | _ => set.length

def execPart (f : T3) (s : State) : Host.Outcome State Fault Refusal :=
  issue (.part f) s (crossBody f 1 fun _ _ x act l => BitVec.ofNat 64 (partCount f x act l))

/-! ## Reductions and scans (R118, R153, R154) -/

/-- R153: one node on two codes of the type, with its flags. -/
def nodeOp (t : Ty) (op : Nat) (m : RMode) (sat : Bool) (a b : Nat) : Nat × BitVec 6 :=
  let ia := intRead t a
  let ib := intRead t b
  match op with
  | 0 => let x := intFit t sat (ia + ib); (intBits t x.1, if x.2 then fSAT else 0)
  | 1 => (intBits t (min ia ib), 0)
  | 2 => (intBits t (max ia ib), 0)
  | 3 => (a &&& b, 0)
  | 4 => (a ||| b, 0)
  | 5 => (a ^^^ b, 0)
  | 6 => fadd (fmtOf t) m false a b
  | 7 => fminmax (fmtOf t) false a b
  | _ => fminmax (fmtOf t) true a b

/-- R118: Combine, with the flags raised so far. -/
def combineNode (g : Nat → Nat → Nat × BitVec 6) (a b : Option Nat) : Option Nat × BitVec 6 :=
  match a, b with
  | some u, some v => (some (g u v).1, (g u v).2)
  | some u, none => (some u, 0)
  | none, b => (b, 0)

/-- R118: one level of the tree of REDUX: neighbours are combined, the lower position first. -/
def reduxLevel (g : Nat → Nat → Nat × BitVec 6) : List (Option Nat) → List (Option Nat) × BitVec 6
  | a :: b :: rest =>
    let c := combineNode g a b
    let t := reduxLevel g rest
    (c.1 :: t.1, c.2 ||| t.2)
  | xs => (xs, 0)

/-- R118: the tree of REDUX over 2^k positions. -/
def reduxTree (g : Nat → Nat → Nat × BitVec 6) : Nat → List (Option Nat) → Option Nat × BitVec 6
  | 0, xs => (xs.headD none, 0)
  | k + 1, xs =>
    let l := reduxLevel g xs
    let t := reduxTree g k l.1
    (t.1, l.2 ||| t.2)

/-- R118: one step of the inclusive SCAN at distance `d`. -/
def scanStep (g : Nat → Nat → Nat × BitVec 6) (d : Nat) (xs : List (Option Nat)) : List (Option Nat) × BitVec 6 :=
  let ys := (List.range xs.length).map fun i =>
    if d ≤ i then combineNode g (xs.getD (i - d) none) (xs.getD i none) else (xs.getD i none, 0)
  (ys.map (·.1), ys.foldl (fun fl y => fl ||| y.2) 0)

/-- R118: the steps of SCAN at distances 2^j, for `k` steps. -/
def scanTree (g : Nat → Nat → Nat × BitVec 6) : Nat → Nat → List (Option Nat) → List (Option Nat) × BitVec 6
  | 0, _, xs => (xs, 0)
  | k + 1, d, xs =>
    let a := scanStep g d xs
    let b := scanTree g k (2 * d) a.1
    (b.1, a.2 ||| b.2)

/-- R153: what the positions of the tile that starts at `first` contribute. -/
def tileValues (f : T3) (x : Strand) (act : List Nat) (first : Nat) : List (Option Nat) :=
  (List.range x.tile).map fun p => if act.contains (first + p) then some (keyBits x f (first + p)) else none

/-- The first lanes of the tiles that have an acting lane. -/
def tilesOf (t : Nat) (act : List Nat) : List Nat := (act.map (tileFirst t)).eraseDups

/-- A code of the type as a result. -/
def redRes (t : Ty) (c : Nat) : Dword := if t.isFloat then BitVec.ofNat 64 c else intReg (intRead t c)

/-- R153: REDUX. -/
def reduxAll (f : T3) (x : Strand) (act : List Nat) : List RegW × BitVec 6 :=
  let g := nodeOp f.ty (bitsOf f.opx 0 4) (rmode f.rnd x.fpsr) f.sat
  (tilesOf x.tile act).foldl (fun acc first =>
    let t := reduxTree g x.tile.log2 (tileValues f x act first)
    (acc.1 ++ (act.filter fun l => tileFirst x.tile l == first).flatMap fun l =>
      laneWrites f.ty.vregs f.d l (redRes f.ty (t.1.getD 0)), acc.2 ||| t.2)) ([], 0)

def execRedux (f : T3) (s : State) : Host.Outcome State Fault Refusal :=
  issue (.redux f) s (crossLong (.redux f) f fun _ _ x act => reduxAll f x act)

/-- R154: the identity of an exclusive scan. -/
def scanIdentity (t : Ty) (op : Nat) : Nat :=
  match op with
  | 1 => intBits t (intHi t)
  | 2 => intBits t (intLo t)
  | 3 => 2 ^ t.bits - 1
  | 7 => (fmtOf t).infK.getD 0
  | 8 => (fmtOf t).code true ((fmtOf t).infK.getD 0)
  | _ => 0

/-- R154: SCAN. -/
def scanAll (f : T3) (x : Strand) (act : List Nat) : List RegW × BitVec 6 :=
  let op := bitsOf f.opx 0 4
  let ex := f.opx.getLsbD 4
  let g := nodeOp f.ty op (rmode f.rnd x.fpsr) f.sat
  (tilesOf x.tile act).foldl (fun acc first =>
    let t := scanTree g x.tile.log2 1 (tileValues f x act first)
    let val (l : Nat) : Nat :=
      let p := l % x.tile
      if ex then (if p = 0 then scanIdentity f.ty op else (t.1.getD (p - 1) none).getD (scanIdentity f.ty op))
      else (t.1.getD p none).getD 0
    (acc.1 ++ (act.filter fun l => tileFirst x.tile l == first).flatMap fun l =>
      laneWrites f.ty.vregs f.d l (redRes f.ty (val l)), acc.2 ||| t.2)) ([], 0)

def execScan (f : T3) (s : State) : Host.Outcome State Fault Refusal :=
  issue (.scan f) s (crossLong (.scan f) f fun _ _ x act => scanAll f x act)

/-! ## TOPK (R155) -/

/-- R155: `a` precedes `b` in the direction: the largest first, or the smallest. Every NaN follows every number. -/
def keyBefore (t : Ty) (asc : Bool) (a b : Nat) : Bool :=
  if t.isFloat then
    let x := (fmtOf t).decode a
    let y := (fmtOf t).decode b
    let lt (u v : Fp) : Bool := Fp.lt u v || (Fp.eq u v && u.neg && !v.neg)
    if x.isNan then false
    else if y.isNan then true
    else if asc then lt x y else lt y x
  else if asc then decide (intRead t a < intRead t b) else decide (intRead t b < intRead t a)

/-- R155: the rank of lane `l` in its tile. -/
def rankOf (f : T3) (x : Strand) (act : List Nat) (l : Nat) : Nat :=
  let asc := f.opx.getLsbD 0
  ((tileActing x.tile act l).filter fun j =>
    keyBefore f.ty asc (keyBits x f j) (keyBits x f l) ||
      (!keyBefore f.ty asc (keyBits x f l) (keyBits x f j) && decide (j < l))).length

def execTopk (f : T3) (s : State) : Host.Outcome State Fault Refusal :=
  issue (.topk f) s (crossLong (.topk f) f fun s r x act =>
    (act.flatMap fun l =>
      let k := laneOp s r x 1 l f.b
      laneWrites 1 f.d l (BitVec.ofNat 64 (rankOf f x act l)) ++ predWrite f l (decide (rankOf f x act l < k)), 0))

/-! ## Reaching single lanes (R156, R157) -/

/-- R156: VGET. -/
def vgetValue (f : T3) (x : Strand) (j : Nat) : Dword :=
  let w := srcLane x f.ty.vregs f.a j
  match f.a with
  | .p _ => BitVec.ofNat 64 w
  | _ => if f.ty.bits = 64 then BitVec.ofNat 64 w
    else if f.ty == .n32 then BitVec.ofNat 64 w else (BitVec.ofNat 32 w).signExtend 64

def execVget (f : T3) (s : State) : Host.Outcome State Fault Refusal :=
  issue (.vget f) s (regBody fun s r x => (writeUni f.d (vgetValue f x (uniOp s r x f.b % 2 ^ 32)) x, 0))

def execVset (f : T3) (s : State) : Host.Outcome State Fault Refusal :=
  issue (.vset f) s (regBody fun s r x =>
    let j := uniOp s r x f.b % 2 ^ 32
    (if x.isLive j then writeLane f.ty.vregs f.d j (BitVec.ofNat 64 (uniOp s r x f.a)) x else x, 0))

end Sys2Proof.Machine
end

