-- ==== Sys2Proof/Machine/Message.lean ====
section
/-! DEFINITION. Messages from the device to its nodes (R389, R390). -/

namespace Sys2Proof.Machine

/-! ## Messages -/

/-- R389: send a frame of `len` payload bytes on a port. A reply carries the SEQ of its request, any other frame the port's own. -/
def sendLen (s : State) (port typ : Nat) (reply : Option Nat) (ctxid len : Nat) (body : List Dword) : State :=
  let p := mget (Port.reset port) s.ports port
  let s1 := { s with out := s.out ++ [Msg.sealed p.key port typ reply.isSome (reply.getD p.tx) ctxid len body] }
  if reply.isSome then s1 else { s1 with ports := mput s1.ports port { p with tx := (p.tx + 1) % 2 ^ 32 } }

/-- R389: send a message whose payload is `body`. -/
def sendTo (s : State) (port typ : Nat) (reply : Option Nat) (ctxid : Nat) (body : List Dword) : State :=
  sendLen s port typ reply ctxid (8 * body.length) body

/-- R390: HALT, EVENT and OWNER go to both nodes. -/
def sendBoth (s : State) (typ ctxid : Nat) (body : List Dword) : State :=
  sendTo (sendTo s 0 typ none ctxid body) 1 typ none ctxid body

/-- R395, R396: the port of the owning node, while that node is authenticated. -/
def ownerPort (s : State) : Option Nat :=
  s.owner.bind fun n => (s.ports.find? fun p => p.2.up && p.2.node == some n).map (·.1)

/-- R390: a message to the owning node; with no owner on a port it reaches nobody. -/
def sendOwner (s : State) (typ ctxid : Nat) (body : List Dword) : State :=
  match ownerPort s with
  | some p => sendTo s p typ none ctxid body
  | none => s

/-- R390: what an EVENT tells. Its code and its form are the model's (assumption 23). -/
inductive EventKind where
  | hotLayer | pageRetire | columnDown | powerFailImages | linkLost | critical
  deriving DecidableEq, Repr

def EventKind.code : EventKind → Nat
  | .hotLayer => 1 | .pageRetire => 2 | .columnDown => 3 | .powerFailImages => 4 | .linkLost => 5 | .critical => 6

/-- R390: post an EVENT to both nodes. -/
def postEvent (s : State) (k : EventKind) (body : List Dword) : State :=
  sendBoth s 0x84 0 (BitVec.ofNat 64 k.code :: body)

end Sys2Proof.Machine
end

