-- ==== Sys2Proof/Machine/Sync.lean ====
section
/-! DEFINITION. Barriers and their watchdog (R202 to R204), group synchronisation (R205) and waits (R206 to R209), with the
events that end a wait. -/

namespace Sys2Proof.Machine

/-! ## Barriers (R202 to R204) -/

/-- R203: the strands of a team that wait at a barrier go on; a trap that a wait deferred is taken (R34). -/
def releaseBar (s : State) (core tslot b : Nat) : State :=
  match s.team? core tslot with
  | none => s
  | some t => t.members.foldl (fun s m =>
      let r : Ref := { core := core, strid := m }
      match s.strand? r with
      | some x => (match x.wait with
        | .bar c _ => if c = b then takeDeferred (s.setStrand r { x with wait := .none }) r else s
        | _ => s)
      | none => s) s

/-- R203: one arrival at a barrier, when its count agrees: the barrier after it, and whether its phase has flipped. -/
def barArrive (k : Bar) (count role cycle : Nat) : Option (Bar × Bool) :=
  if k.arrivals ≠ 0 ∧ k.expected ≠ count then none
  else
    let k1 : Bar := { k with
      expected := count
      arrivals := k.arrivals + 1
      roles := (if k.arrivals = 0 then 0 else k.roles) ||| BitVec.ofNat 4 (2 ^ role)
      first := if k.arrivals = 0 then cycle else k.first }
    if k1.arrivals = count then some ({ k1 with phase := !k.phase, arrivals := 0, roles := 0 }, true)
    else some (k1, false)

/-- R371, R437: the watchdog of a barrier in a slot has expired, and the halt is on its way: an arrival never issues any more. -/
def barExpired (s : State) (core slot ctx b : Nat) : Bool :=
  match s.ctx? ctx with
  | some c => c.haltQ.any fun h =>
      h.cause == .barWatchdog && h.core == core && h.slot == slot && h.tinfo.toNat % 256 == b
  | none => false

/-- R202, R203: BAR and BARA. -/
def barBody (f : T3) (wait : Bool) : State → Ref → Strand → Res := fun s r x =>
  let b := uniOp s r x f.a
  let n := uniOp s r x f.b
  let info : Dword := BitVec.ofNat 64 (b % 16)
  if 16 ≤ b ∨ n = 0 ∨ 64 ≤ n then .trap .badBar info
  else if barExpired s r.core x.slot x.ctx b then .stall
  else match s.team? r.core x.tslot with
    | none => .done s 0
    | some t =>
      match barArrive (mget Bar.zero t.bars b) n x.role s.cycle with
      | none => .trap .badBar info
      | some (k, flip) =>
        let s1 := s.modTeam r.core x.tslot fun t => { t with bars := mput t.bars b k }
        if flip then .done (releaseBar s1 r.core x.tslot b) 0
        else if wait then .done (s1.setStrand r { x with wait := .bar b k.phase }) 0
        else .done s1 0

def execBar (f : T3) (s : State) : Host.Outcome State Fault Refusal := issue (.bar f) s (barBody f true)

def execBara (f : T3) (s : State) : Host.Outcome State Fault Refusal := issue (.bara f) s (barBody f false)

/-- R204: the strands of a team that wait in BAR on a barrier. -/
def barWaiters (s : State) (core : Nat) (t : Team) (b : Nat) : List Nat :=
  t.members.filter fun m =>
    match s.strand? { core := core, strid := m } with
    | some x => (match x.wait with | .bar c _ => c == b | _ => false)
    | none => false

/-- R437: the strand that a BAR_WATCHDOG names: the lowest-numbered one that waits. -/
def lowestWaiter : List Nat → Option Nat
  | [] => none
  | m :: rest => some (rest.foldl min m)

/-- R437: an issue slot can still take an arrival in this cycle. -/
def slotsToWork (s : State) (core : Nat) : Bool :=
  [0, 1].any fun i => (mget ISlot.reset (s.core core).islots i).worked != s.cycle + 1

/-- R204, R437: the watchdog of a barrier expires: the context halts. The count then starts afresh. In the cycle in which the period
ends an arrival comes first, so the issue slots of the core work before it. -/
def execBarWatchdog (core tslot bar : Nat) (s : State) : Host.Outcome State Fault Refusal :=
  match s.team? core tslot with
  | none => .next s
  | some t =>
    let q := s.slot core t.slot
    let k := mget Bar.zero t.bars bar
    let period := match s.ctx? t.ctx with | some c => c.bwdog | none => 2 ^ 24
    match lowestWaiter (barWaiters s core t bar) with
    | none => .next s
    | some m =>
      if q.st == .running && !q.line && !q.freezing && decide (k.first + period ≤ s.cycle) && !slotsToWork s core then
        let s1 := s.modTeam core tslot fun t => { t with bars := mput t.bars bar { k with first := s.cycle } }
        .next (postHalt s1 t.ctx
          { cause := .barWatchdog, tinfo := BitVec.ofNat 64 (bar + m * 256), src := 2, core := core, slot := t.slot,
            dm := false })
      else .next s

/-! ## Group synchronisation (R205) -/

/-- R205: the strand traps for all the lanes that took part, and the record is deleted. -/
def syncMismatch (s : State) (r : Ref) (x : Strand) (kind : Nat) (m : Mask) : Res :=
  .trapAt (s.setStrand r { x with syncg := none, active := m &&& x.live }) x.pc (m &&& x.live) .syncMask
    (BitVec.ofNat 64 kind)

/-- R205: an arrival at a SYNCG. The met lanes go on once their earlier accesses have been made. -/
def syncgBody (f : T3) : State → Ref → Strand → Res := fun s r x =>
  let k := maskOp x f.a
  let g : SyncRec := match x.syncg with | some g => g | none => { pc := x.pc, k := k, arr := 0 }
  let both := g.arr ||| x.active
  if g.pc ≠ x.pc ∨ g.k ≠ k ∨ x.active &&& ~~~k ≠ 0 then syncMismatch s r x 0 both
  else if g.k &&& x.live &&& ~~~both = 0 then
    let y := { x with syncg := none, active := both &&& x.live }
    if lanesOwe y then startWait s r { y with wait := .syncg } else .done (s.setStrand r y) 0
  else match pathSwitch { x with syncg := some { g with arr := both } } s.cycle with
    | some y => .set (s.setStrand r y)
    | none => syncMismatch s r x 1 both

def execSyncg (f : T3) (s : State) : Host.Outcome State Fault Refusal := issue (.syncg f) s (syncgBody f)

/-! ## Waits (R206 to R209) -/

/-- R206: a wait first reports a token fault that the strand is owed. -/
def waitBody (g : State → Ref → Strand → Res) : State → Ref → Strand → Res := fun s r x =>
  match x.owed with
  | (t, c) :: rest =>
    .trapAt (s.setStrand r { x with owed := rest }) x.pc x.active .tokenFault
      (BitVec.ofNat 64 (c * 2 ^ 32 + t.toNat))
  | [] => g s r x

/-- R207: what a WAITT gives at present: D, or none while it waits. -/
def waittNow (s : State) (core slot : Nat) (t : Word) : Option Bool :=
  match resolve s core slot t with
  | .null => some false
  | .foreign | .stale => some true
  | .current i => if (s.token core i).st.terminal then some false else none

def execWaitt (f : T3) (s : State) : Host.Outcome State Fault Refusal :=
  issue (.waitt f) s (waitBody fun s r x =>
    let t := BitVec.ofNat 32 (uniOp s r x f.a)
    match waittNow s r.core x.slot t with
    | some b => .done (s.setStrand r (writeUni f.d (if b then 1 else 0) x)) 0
    | none => startWait s r { x with wait := .token t f.d })

/-- R207: a WAITT ends. -/
def execWaittEnd (core strid : Nat) (s : State) : Host.Outcome State Fault Refusal :=
  let r : Ref := { core := core, strid := strid }
  match s.strand? r with
  | none => .next s
  | some x =>
    match x.wait with
    | .token t d =>
      match waittNow s core x.slot t with
      | some b => if mayRun s r { x with wait := .none } then .next (endWait s r x d (if b then 1 else 0)) else .next s
      | none => .next s
    | _ => .next s

def execWaitk (f : T3) (s : State) : Host.Outcome State Fault Refusal :=
  issue (.waitk f) s (waitBody fun s r x =>
    let cls := bitsOf f.opx 0 4
    let thr := uniOp s r x f.a % 2 ^ 32
    if x.count cls ≤ thr then .done s 0 else startWait s r { x with wait := .count cls thr })

/-- R208: a WAITK ends. -/
def execWaitkEnd (core strid : Nat) (s : State) : Host.Outcome State Fault Refusal :=
  let r : Ref := { core := core, strid := strid }
  match s.strand? r with
  | none => .next s
  | some x =>
    match x.wait with
    | .count cls thr =>
      if x.count cls ≤ thr && mayRun s r { x with wait := .none } then .next (endWait s r x (.imm 0) 0) else .next s
    | _ => .next s

def execWaitc (f : T3) (s : State) : Host.Outcome State Fault Refusal :=
  issue (.waitc f) s (waitBody fun s r x =>
    let va := uniOp s r x f.a
    let target := uniOp s r x f.b
    let y := { x with wait := .counter va target }
    if !vaOk va then .halt .vaRange (BitVec.ofNat 64 va) false
    else if va % 8 ≠ 0 then .trap .misalign (BitVec.ofNat 64 va)
    else match flatRead s (x.who r) va 8 with
      | .ok s1 n => if target ≤ n then .done s1 0 else startWait s1 r y
      | .wait => startWait s r y
      | .bad c i dm => .halt c i dm)

/-- R209: WAITC reads its counter again; the read that meets the target ends the wait. A read that halts the context leaves
the strand at the WAITC, which runs again. -/
def execWaitcEnd (core strid : Nat) (s : State) : Host.Outcome State Fault Refusal :=
  let r : Ref := { core := core, strid := strid }
  match s.strand? r with
  | none => .next s
  | some x =>
    match x.wait with
    | .counter va target =>
      if !mayRun s r { x with wait := .none } then .next s
      else match flatRead s (x.who r) va 8 with
        | .ok s1 n => if target ≤ n then .next (endWait s1 r x (.imm 0) 0) else .next s1
        | .wait => .next s
        | .bad c i dm => .next (haltStrand s r { x with wait := .none } c i dm)
    | _ => .next s

end Sys2Proof.Machine
end

