-- ==== Sys2Proof/Machine/Queue.lean ====
section
/-! DEFINITION. The hardware task queues (R37, R38, R261, R361 to R365): pops, pushes, the spill ring, continuation blocks
(R258, R259), task dispatch, and MOV, which reaches the queue ports (R130). -/

namespace Sys2Proof.Machine

/-! ## Continuation blocks (R258) -/

/-- R447: the hardware's own records of a context are accessed at system level. -/
def hwWho (ctx core : Nat) : Who := { ctx := ctx, core := core, user := false }

/-- R258: return a block to the free list. -/
def freeBlock (s : State) (w : Who) (base b : Nat) : Mem Unit :=
  (flatRead s w base 8).bind fun s1 hd =>
    (flatWrite s1 w (base + 128 * b + 16) 4 (hd % 2 ^ 32)).bind fun s2 _ =>
      (flatRmw s2 w base 8 fun h => (h / 2 ^ 32 + 1) % 2 ^ 32 * 2 ^ 32 + b).bind fun s3 _ => .ok s3 ()

/-- R258: take `n` blocks from the free list, in order; none when it holds too few, with the number it holds. -/
def takeBlocks (s : State) (w : Who) (base : Nat) : Nat → Mem (List Nat)
  | 0 => .ok s []
  | n + 1 =>
    (flatRead s w base 8).bind fun s1 hd =>
      let b := hd % 2 ^ 32
      (flatRead s1 w (base + 128 * b + 16) 4).bind fun s2 link =>
        (flatRmw s2 w base 8 fun h => (h / 2 ^ 32 - 1) * 2 ^ 32 + link).bind fun s3 _ =>
          (takeBlocks s3 w base n).bind fun s4 bs => .ok s4 (b :: bs)

/-! ## Queues -/

/-- R362: the records that the ring holds. -/
def Queue.ringCount (q : Queue) : Nat := q.tail - q.head

/-- R362: the address of a ring record. -/
def Queue.ringAddr (q : Queue) (n : Nat) : Nat := (q.base + 32 * (n % q.size)) % 2 ^ 64

/-- R38: a record's eight words from a number of 256 bits. -/
def recordOf (x : Nat) : List Word := (List.range 8).map fun i => BitVec.ofNat 32 (x / 2 ^ (32 * i))
def recordNat (ws : List Word) : Nat := (ws.zipIdx.map fun e => e.1.toNat * 2 ^ (32 * e.2)).sum

/-- R362: one record is pushed. -/
inductive Pushed where
  | ok (s : State)
  | full
  | wait
  | fault (s : State) (c : Cause) (info : Dword) (dm : Bool)

/-- R362: Push. Without room in the queue and without a ring it finds the queue full; without room in the ring it waits. -/
def push (s : State) (cl q core : Nat) (w : List Word) : Pushed :=
  let k := s.queue cl q
  if k.ringCount = 0 && decide (k.recs.length < 32) then
    .ok (s.modQueue cl q fun k => { k with recs := k.recs ++ [(w, 0)], pushedAt := s.cycle + 1 })
  else if k.size = 0 then .full
  else if k.ringCount < k.size then
    let va := k.ringAddr k.tail
    if !vaOk va then .fault s .vaRange (BitVec.ofNat 64 va) false
    else match flatWrite s (hwWho (k.owner.getD 0) core) va 32 (recordNat w) with
      | .ok s1 _ => .ok (s1.modQueue cl q fun k => { k with tail := k.tail + 1, pushedAt := s.cycle + 1 })
      | .wait => .wait
      | .bad c i dm => .fault s c i dm
  else .wait

/-- Push records in order until one cannot be pushed: the records left, and the fault of a ring write, if any. -/
def pushMany (s : State) (cl q core : Nat) : List (List Word) → State × List (List Word) × Option (Cause × Dword × Bool)
  | [] => (s, [], none)
  | w :: rest =>
    match push s cl q core w with
    | .ok s1 => pushMany s1 cl q core rest
    | .full | .wait => (s, w :: rest, none)
    | .fault s1 c i dm => (s1, w :: rest, some (c, i, dm))

/-- R362: a ring access of a queue faults: the owning context halts with SRC 6. The access is made again later. -/
def ringFault (s : State) (cl q core slot : Nat) (c : Cause) (info : Dword) (dm : Bool) : State :=
  let s1 := s.modQueue cl q fun k => { k with stuck := true }
  postHalt s1 ((s.queue cl q).owner.getD 0) { cause := c, tinfo := info, src := 6, core := core, slot := slot, dm := dm }

/-- R374: the core and slot named for a ring access that no strand makes: the first of the cluster that holds the context. -/
def ringPlace (s : State) (cl ctx : Nat) : Nat × Nat :=
  let all := (List.range 4).flatMap fun i => [(4 * cl + i, 0), (4 * cl + i, 1)]
  (all.find? fun e => (s.slot e.1 e.2).st != .empty && (s.slot e.1 e.2).ctx == ctx).getD (4 * cl, 0)

/-- R361: a strand's context owns the queue. -/
def ownsQueue (s : State) (x : Strand) (core q : Nat) : Bool := (s.queue (clusterOf core) q).owner == some x.ctx

/-! ## QPUSH and QPOP (R37, R261, R362, R363) -/

/-- R37: the record of a lane: eight registers, V set. -/
def laneRecord (x : Strand) (a l : Nat) : List Word :=
  (List.range 8).map fun i => if i = 1 then x.vreg l (a + 1) ||| 0x80000000#32 else x.vreg l (a + i)

/-- R38, R261: a record that a program may not push: a reserved bit or CONT set. -/
def badRecord (x : Strand) (a l : Nat) : Bool := (x.vreg l (a + 1) &&& 0x70000000#32) != 0

/-- R37, R261: push the records of lanes. -/
def pushBody (a : Opnd) (q : Nat) (lanesOf : Strand → List Nat) : State → Ref → Strand → Res := fun s r x =>
  let cl := clusterOf r.core
  let reg := Opnd.vIndex a
  let lanes := lanesOf x
  if !ownsQueue s x r.core q then .trap .badQueue (BitVec.ofNat 64 q)
  else match lanes.find? (badRecord x reg) with
    | some l => .trap .badTask (BitVec.ofNat 64 l)
    | none =>
      let k := s.queue cl q
      let recs := lanes.map (laneRecord x reg)
      if k.size = 0 && decide (32 < k.recs.length + recs.length) then .trap .queueFull (BitVec.ofNat 64 q)
      else
        let p := if k.waiting.isEmpty || k.size = 0 then pushMany s cl q r.core recs else (s, recs, none)
        match p.2.1 with
        | [] => .done p.1 0
        | left =>
          let s1 := match p.2.2 with
            | some (c, i, dm) => ringFault p.1 cl q r.core x.slot c i dm
            | none => p.1
          let s2 := s1.modQueue cl q fun k => { k with waiting := k.waiting ++ [.strand x.serial] }
          .done (s2.modStrand r fun y => { y with wait := .push q left }) 0

/-- R37: the eight words that land in a lane's registers. -/
def recordWrites (d l : Nat) (ws : List Word) : List RegW := ws.zipIdx.map fun e => .v l (d + e.2) e.1

/-- R271: a pop that waits for records of the ring takes 180 cycles, where one from the queue takes 24. -/
def popDelay (late : List Nat) : Nat := if late.isEmpty then 0 else 156

/-- R37, R261: pop records for lanes. The pop claims records in queue order; lanes beyond them get zeros. -/
def popBody (i : Instr) (d : Opnd) (q : Nat) (lanesOf : Strand → List Nat) : State → Ref → Strand → Res := fun s r x =>
  let cl := clusterOf r.core
  if !ownsQueue s x r.core q then .trap .badQueue (BitVec.ofNat 64 q)
  else
    let k := s.queue cl q
    let lanes := lanesOf x
    let reg := Opnd.vIndex d
    let now := (lanes.zip (k.recs.map (·.1)))
    let more := lanes.drop now.length
    let late := more.take (k.ringCount - k.claims.length)
    let none_ := more.drop late.length
    let ws := (now.flatMap fun e => recordWrites reg e.1 e.2) ++
      (none_.flatMap fun l => recordWrites reg l (List.replicate 8 0))
    let s1 := s.modQueue cl q fun k =>
      { k with recs := k.recs.drop now.length, claims := k.claims ++ late.map fun l => (r, l, q) }
    .done (s1.setStrand r { x with long := x.long ++ [{ newLong i s r x ws 0 with pops := late, due := (newLong i s r x ws 0).due + popDelay late }] }) 0

/-- R30: the queue that a port names. -/
def portOf (o : Opnd) : Nat := match o with | .spr k => k.toNat - 0x40 | _ => 0

def execQpush (f : T3) (s : State) : Host.Outcome State Fault Refusal :=
  issue (.qpush f) s (pushBody f.a (portOf f.d) Strand.activeLanes)

def execQpop (f : T3) (s : State) : Host.Outcome State Fault Refusal :=
  issue (.qpop f) s (popBody (.qpop f) f.d (portOf f.a) Strand.activeLanes)

/-! ## MOV (R31, R130) -/

/-- R121, R130: a copy whose kind the destination sets. An untyped MOV from an s register to an s register copies it whole
(assumption 26); type code 0x00 means .i32 in every other one. -/
def movCopy (f : T3) : State → Ref → Strand → Res := regBody fun s r x =>
  let lane := f.d.isV || f.d.isP
  let flag := f.d.isP || f.d.isC || f.a.isP || f.a.isC
  if flag then byKind s r x lane f.hd f.ty.vregs f.d fun rd => boolRes (rd f.ty.vregs f.a != 0)
  else if f.d.isS && f.a.isS && f.ty == .none then byKind s r x false f.hd 2 f.d fun rd => (BitVec.ofNat 64 (rd 2 f.a), 0)
  else byKind s r x lane f.hd f.ty.vregs f.d fun rd => pattern f.ty (bitsVal f.ty rd f.a)

def execMov (f : T3) (s : State) : Host.Outcome State Fault Refusal :=
  issue (.mov f) s fun s r x =>
    if f.d.isQp then pushBody f.a (portOf f.d) (fun x => x.acting f.hd) s r x
    else if f.a.isQp then popBody (.mov f) f.d (portOf f.a) (fun x => x.acting f.hd) s r x
    else match f.d with
      | .spr k =>
        match sprWrite x k.toNat (BitVec.ofNat 64 (uniOp s r x f.a)) with
        | some y => .done (s.setStrand r y) 0
        | none => .trap .badSpr (BitVec.ofNat 64 k.toNat)
      | .k k => .done (s.setStrand r (x.setK k.toNat (maskOp x f.a))) 0
      | _ => movCopy f s r x

/-! ## Refills and waiting pushes (R362) -/

/-- R37: the queue of a pop. -/
def popQueue (i : Instr) : Option Nat :=
  match i with
  | .qpop f => some (portOf f.a)
  | .mov f => if f.a.isQp then some (portOf f.a) else none
  | _ => none

/-- R37: give a record to a lane that waits for it. -/
def deliver (ops : List LongOp) (q l : Nat) (ws : List Word) : List LongOp :=
  match ops with
  | [] => []
  | o :: rest =>
    if popQueue o.instr = some q ∧ o.pops.contains l then
      let d := match o.instr with | .qpop f | .mov f => Opnd.vIndex f.d | _ => 0
      { o with writes := o.writes ++ recordWrites d l ws, pops := o.pops.filter fun j => j != l } :: rest
    else o :: deliver rest q l ws

/-- R362: a record can be moved from the ring in this cycle: one every four cycles, and none after a push of the same cycle. -/
def refillFree (s : State) (k : Queue) : Bool := decide (k.refillAt ≤ s.cycle) && k.pushedAt != s.cycle + 1

/-- R362, R377: a ring access of the queue has faulted, and its context has not been resumed. -/
def ringHeld (s : State) (k : Queue) : Bool :=
  k.stuck && match s.ctx? (k.owner.getD 0) with | some c => c.halt.isSome || !c.haltQ.isEmpty | none => true

/-- R362: a refill: the oldest ring record goes to the pop that claimed it, or enters the queue. -/
def execQueueRefill (cluster q : Nat) (s : State) : Host.Outcome State Fault Refusal :=
  let k := s.queue cluster q
  match k.owner with
  | none => .next s
  | some ctx =>
    if k.ringCount = 0 || (k.claims.isEmpty && decide (32 ≤ k.recs.length)) || k.size = 0 || ringHeld s k || !refillFree s k then .next s
    else
      let at_ := ringPlace s cluster ctx
      let va := k.ringAddr k.head
      let fail (c : Cause) (i : Dword) (dm : Bool) : Host.Outcome State Fault Refusal :=
        .next (ringFault s cluster q at_.1 at_.2 c i dm)
      if !vaOk va then fail .vaRange (BitVec.ofNat 64 va) false
      else match flatRead s (hwWho ctx at_.1) va 32 with
        | .ok s1 x =>
          let ws := recordOf x
          match k.claims with
          | (r, l, _) :: rest =>
            let s2 := s1.modQueue cluster q fun k =>
              { k with head := k.head + 1, claims := rest, stuck := false, refillAt := s.cycle + 4 }
            .next (s2.modStrand r fun y => { y with long := deliver y.long q l ws })
          | [] =>
            .next (s1.modQueue cluster q fun k =>
              { k with head := k.head + 1, recs := k.recs ++ [(ws, 0)], stuck := false, refillAt := s.cycle + 4 })
        | .wait => .next s
        | .bad c i dm => fail c i dm

/-- The resident strand with a serial number. -/
def strandNumbered (s : State) (n : Nat) : Option (Ref × Strand) :=
  s.cores.findSome? fun k => k.2.strands.findSome? fun x =>
    if x.2.serial = n then some ({ core := k.1, strid := x.1 }, x.2) else none

/-- The strand with a serial number has been saved. -/
def savedNumber (s : State) (n : Nat) : Bool := s.images.any fun g => g.strands.any fun x => x.2.serial == n

/-- R362: a push that waits for room is made. A QPUSH whose strand has been saved keeps its place (R363). -/
def execRingRoomPush (cluster q : Nat) (s : State) : Host.Outcome State Fault Refusal :=
  let k := s.queue cluster q
  let ctx := k.owner.getD 0
  if ringHeld s k then .next s
  else match k.waiting with
    | [] => .next s
    | .cont _ _ _ w :: rest =>
      let at_ := ringPlace s cluster ctx
      (match push s cluster q at_.1 w with
      | .ok s1 => .next (s1.modQueue cluster q fun k => { k with waiting := rest, stuck := false })
      | .full | .wait => .next s
      | .fault s1 c i dm => .next (ringFault s1 cluster q at_.1 at_.2 c i dm))
    | .strand n :: rest =>
      match strandNumbered s n with
      | none => if savedNumber s n then .next s else .next (s.modQueue cluster q fun k => { k with waiting := rest })
      | some (r, x) =>
        match x.wait with
        | .push _ recs =>
          let p := pushMany s cluster q r.core recs
          (match p.2.1 with
          | [] =>
            let s1 := p.1.modQueue cluster q fun k => { k with waiting := rest, stuck := false }
            .next (takeDeferred (s1.modStrand r fun y => { y with wait := .none }) r)
          | left =>
            let s1 := p.1.modStrand r fun y => { y with wait := .push q left }
            .next (match p.2.2 with
              | some (c, i, dm) => ringFault s1 cluster q r.core x.slot c i dm
              | none => s1))
        | _ => .next (s.modQueue cluster q fun k => { k with waiting := rest })

/-! ## Task dispatch (R364, R365) -/

/-- R352, R365: a core can take a task group of a context. -/
def taskEligible (s : State) (ctx core : Nat) : Bool :=
  let tb := match s.ctx? ctx with | some c => c.tbud | none => 0
  tb != 0 && decide ((s.core core).strands.length < 64) && decide ((s.core core).teams.length < 32) &&
    ([0, 1].any fun k =>
      let q := s.slot core k
      q.st == .running && q.ctx == ctx && !q.line && !q.freezing && decide (rfBytes 1 tb ≤ freeRf s core k))

/-- R364: the next eligible core after the last one chosen. -/
def nextTaskCore (s : State) (cl ctx : Nat) : Option Nat :=
  let last := (s.cluster cl).lastCore
  ((List.range 4).map fun i => 4 * cl + (last + 1 + i) % 4).find? (taskEligible s ctx)

/-- R364: the line that holds a PC is in a core's instruction cache. -/
def lineResident (s : State) (ctx core pc : Nat) : Bool :=
  let user := match s.ctx? ctx with | some c => c.level == 0 | none => true
  match translate s { ctx := ctx, core := core, user := user } .fetch (codeAddr s ctx pc) with
  | .ok key _ => (cachedUnit s core (key / 4)).isSome
  | _ => false

/-- R364: take record `i` of a queue: every older one counts one more pass-over. -/
def takeRecord (recs : List (List Word × Nat)) (i : Nat) : List (List Word × Nat) :=
  ((recs.take i).map fun e => (e.1, e.2 + 1)) ++ recs.drop (i + 1)

def recEpc (w : List Word) : Nat := (w.getD 0 0).toNat

/-- R9, R359, R360: a choice of one of its cores wakes a gated cluster, and no strand of it issues for 2 µs. A cluster gated in
this same cycle counts as not gated, since the choice wins. -/
def wakeCluster (s : State) (cl : Nat) : State :=
  s.modCluster cl fun k =>
    let slept := k.gated && k.gatedAt != s.cycle + 1
    { k with gated := false, busyAt := s.time, wakeTime := if slept then s.time + 2 * microsecond else k.wakeTime }

/-- R364: Choose. -/
def choose (s : State) (cl q : Nat) : State :=
  let k := s.queue cl q
  let ctx := k.owner.getD 0
  let close (s : State) : State := s.modQueue cl q fun k =>
    { k with forming := k.forming.map fun g => if g.closed then g else { g with closed := true, at_ := s.cycle } }
  match k.forming.find? fun g => !g.closed with
  | none =>
    match nextTaskCore s cl ctx with
    | none => s
    | some core =>
      let old := k.recs.findIdx? fun e => decide (64 ≤ e.2)
      let near := k.recs.findIdx? fun e => lineResident s ctx core (recEpc e.1)
      let i := match old, near with | some i, _ => i | none, some i => i | none, none => 0
      match k.recs[i]? with
      | none => s
      | some e =>
        let s1 := s.modQueue cl q fun k =>
          { k with recs := takeRecord k.recs i
                   forming := k.forming ++ [{ epc := recEpc e.1, core := core, recs := [e.1], closed := false, at_ := 0 }] }
        wakeCluster (s1.modCluster cl fun c => { c with lastCore := core % 4 }) cl
  | some g =>
    if k.recs.any fun e => decide (64 ≤ e.2) && recEpc e.1 != g.epc then close s
    else match k.recs.findIdx? fun e => recEpc e.1 == g.epc with
      | none => close s
      | some i =>
        match k.recs[i]? with
        | none => close s
        | some e =>
          let s1 := s.modQueue cl q fun k =>
            { k with recs := takeRecord k.recs i
                     forming := k.forming.map fun h => if h.closed then h else { h with recs := h.recs ++ [e.1] } }
          if g.recs.length + 1 = 32 then close s1 else s1

/-- R364: a dispatch queue that the dispatcher serves: it holds records or an open group. -/
def served (s : State) (cl q : Nat) : Bool :=
  let k := s.queue cl q
  k.dispatch && k.owner.isSome && (!k.recs.isEmpty || k.forming.any fun g => !g.closed)

/-- R364: the queue whose turn it is. -/
def nextServed (s : State) (cl : Nat) : Option Nat :=
  let last := (s.cluster cl).lastQueue
  ((List.range 4).map fun i => (last + 1 + i) % 4).find? (served s cl)

/-- R364: the dispatcher's choice, one in a cycle. -/
def execDispatchChoice (cluster q : Nat) (s : State) : Host.Outcome State Fault Refusal :=
  if (s.cluster cluster).dispatchAt ≠ s.cycle + 1 ∧ nextServed s cluster = some q then
    .next ((choose s cluster q).modCluster cluster fun c => { c with lastQueue := q, dispatchAt := s.cycle + 1 })
  else .next s

/-- R259: what a lane of a task strand restores from its block: the registers, or the failure of a read. -/
def restoreBlock (s : State) (w : Who) (base : Nat) (x : Strand) (l : Nat) (r : List Word) : Mem Strand :=
  let args := (List.range 6).foldl (fun (y : Strand) i => y.setV l i (r.getD (2 + i) 0)) x
  let w1 := r.getD 1 0
  if !w1.getLsbD 30 then .ok s args
  else
    let b := (w1.extractLsb' 0 28).toNat
    (flatRead s w (base + 128 * b) 128).bind fun s1 n =>
      let word (i : Nat) : Word := BitVec.ofNat 32 (n / 2 ^ (32 * i))
      let mask := (word 1).extractLsb' 16 16
      let rb := ((word 1).extractLsb' 0 8).toNat
      let y := (List.range 16).foldl (fun (y : Strand) i => if mask.getLsbD i then y.setV l (rb + i) (word (8 + i)) else y) args
      (freeBlock s1 w base b).bind fun s2 _ => .ok s2 y

def restoreAll (s : State) (w : Who) (base : Nat) (x : Strand) : List (List Word × Nat) → Mem Strand
  | [] => .ok s x
  | (r, l) :: rest => (restoreBlock s w base x l r).bind fun s1 y => restoreAll s1 w base y rest

/-- R364, R365: a group closed 12 cycles ago becomes a strand, in a team of its own. While its core is not eligible any more it waits,
and the queue's later groups behind it (assumption 117). -/
def execTaskStrandStart (cluster q : Nat) (s : State) : Host.Outcome State Fault Refusal :=
  let k := s.queue cluster q
  let ctx := k.owner.getD 0
  match k.forming with
  | [] => .next s
  | g :: rest =>
    let slot := if (s.slot g.core 0).st == .running && (s.slot g.core 0).ctx == ctx && decide (rfBytes 1 (match s.ctx? ctx with | some c => c.tbud | none => 0) ≤ freeRf s g.core 0) then 0 else 1
    if ringHeld s k || !g.closed || decide (s.cycle < g.at_ + 12) || !taskEligible s ctx g.core then .next s
    else match s.ctx? ctx, freeStrid s g.core, (List.range 32).find? fun t => !mhas (s.core g.core).teams t with
      | some c, some i, some t =>
        let live : Mask := Mask.ofPred 32 fun l => decide (l < g.recs.length)
        let x := freshStrand (some c) ctx slot t 0 1 c.tbud g.epc live
        (match restoreAll s (hwWho ctx g.core) c.contbase x g.recs.zipIdx with
        | .ok s1 y =>
          let r : Ref := { core := g.core, strid := i }
          let team : Team := { ctx := ctx, slot := slot, members := [i], adopter := i, bars := [], spt := 0, act := 0,
                               linear := 0, launch := none, rfHeld := 0 }
          let s2 := s1.modCore g.core fun k => { k with teams := mput k.teams t team }
          let s3 := numberStrand (bindStrand (s2.setStrand r { y with notBefore := s.cycle }) r) r
          .next (s3.modQueue cluster q fun k => { k with forming := rest })
        | .wait => .next s
        | .bad e j dm => .next (ringFault s cluster q g.core slot e j dm))
      | _, _, _ => .next s

end Sys2Proof.Machine
end

