-- ==== Sys2Proof/Machine/Launch.lean ====
section
/-! DEFINITION. Launch records (R349, R350, R448), the distributor (R351 to R353), and the
retirement of teams (R220, R221). -/

namespace Sys2Proof.Machine

/-! ## The launch record (R349, R350, R448) -/

def lBits (d : List Dword) (i lo n : Nat) : Nat := ((d.getD i 0).extractLsb' lo n).toNat

def lCtx (d : List Dword) : Nat := lBits d 0 0 16
def lNr (d : List Dword) : Nat := lBits d 0 22 2
def lAdopt (d : List Dword) : Nat := lBits d 0 24 2
def lBasis (d : List Dword) : Nat := lBits d 0 19 3
def lX (d : List Dword) : Nat := lBits d 1 0 32
def lY (d : List Dword) : Nat := lBits d 1 32 32
def lZ (d : List Dword) : Nat := lBits d 2 0 32
def lRf (d : List Dword) : Nat := lBits d 3 16 7
def lSp (d : List Dword) : Nat := lBits d 3 8 7
def lAcc (d : List Dword) : Nat := lBits d 3 0 7
def lSpt (d : List Dword) : Nat := lBits d 5 0 11
def lAct (d : List Dword) : Nat := lBits d 5 16 11
def lEpc (d : List Dword) (r : Nat) : Nat := lBits d (6 + r) 0 32
def lNg (d : List Dword) (r : Nat) : Nat := lBits d (6 + r) 32 6
def lRb (d : List Dword) (r : Nat) : Nat := lBits d (6 + r) 40 6

/-- The roles of a launch. -/
def lRoles (d : List Dword) : List Nat := List.range (lNr d + 1)

/-- R351: the teams of a launch. -/
def lTeams (d : List Dword) : Nat := lX d * lY d * lZ d

/-- R350, R352: the register-file bytes of one team. -/
def lRfBytes (d : List Dword) : Nat := ((lRoles d).map fun r => rfBytes (lNg d r) (8 * lRb d r)).sum

/-- R349: a reserved field of doubleword `i` is nonzero. -/
def lReserved (d : List Dword) (i : Nat) : Bool :=
  match i with
  | 0 => lBits d 0 26 38 != 0 || lBits d 0 16 3 != 0
  | 1 | 4 => false
  | 2 => lBits d 2 32 32 != 0
  | 3 => lBits d 3 24 40 != 0 || lBits d 3 23 1 != 0 || lBits d 3 15 1 != 0 || lBits d 3 7 1 != 0
  | 5 => lBits d 5 27 37 != 0 || lBits d 5 11 5 != 0
  | 6 | 7 | 8 | 9 =>
    if i ≤ 6 + lNr d then lBits d i 46 18 != 0 || lBits d i 38 2 != 0 else d.getD i 0 != 0
  | _ => d.getD i 0 != 0

/-- R352: the pairs of a context in ascending (core, slot) order. -/
def sortedPairs (c : Ctx) : List Pair :=
  (List.range 384).filterMap fun k => c.pairs.find? fun p => p.core * 2 + p.slot == k

/-- R350, R448: the byte offset that a failing record names. `only` is the one context that may be named (R262). -/
def launchError (s : State) (d : List Dword) (only : Option Nat) : Option Nat :=
  match (List.range 32).find? (lReserved d) with
  | some i => some (8 * i)
  | none =>
    match s.ctx? (lCtx d) with
    | none => some 0
    | some c =>
      if c.killed || (match only with | some k => k != lCtx d | none => false) then some 0
      else if lX d = 0 ∨ lY d = 0 then some 8
      else if lZ d = 0 then some 16
      else if 2 ^ 31 < lTeams d then some 8
      else if lNr d < lAdopt d then some 0
      else match (lRoles d).find? fun r =>
          lNg d r == 0 || decide (32 < lNg d r) || lRb d r == 0 || decide (32 < lRb d r) with
        | some r => some (8 * (6 + r))
        | none =>
          match (lRoles d).find? fun r => decide (32 < ((List.range (r + 1)).map (lNg d)).sum) with
          | some r => some (8 * (6 + r))
          | none =>
            if lRf d = 0 || c.pairs.any fun p =>
                (s.slot p.core p.slot).st == .empty && decide (p.psize < lRf d + lSp d + lAcc d) then some 24
            else if lRf d * 16384 < lRfBytes d then some 24
            else if 16 * lSp d < lSpt d ∨ 16 * lAcc d < lAct d then some 40
            else none

/-- R351: the distributor's answer to a record. -/
inductive Accepted where
  | yes (s : State)
  | busy
  | refused (off : Nat)

/-- R350, R351: submit a launch record. -/
def submit (s : State) (d : List Dword) (only : Option Nat) : Accepted :=
  match launchError s d only with
  | some off => .refused off
  | none =>
    if 64 ≤ (s.launches.filter fun l => decide (l.2.next < lTeams l.2.record)).length then .busy
    else .yes { s with launches := mput s.launches s.nextId { ctx := lCtx d, record := d, next := 0, teams := 0 },
                       nextId := s.nextId + 1 }

/-! ## Placement (R352, R353) -/

/-- R353: the window [k × n, (k + 1) × n) KiB of a new team, against the windows of the slot's teams. -/
def windowFree (s : State) (core slot k n : Nat) (size : Nat) (of : Team → Nat) : Bool :=
  n == 0 || (decide ((k + 1) * n ≤ size) &&
    (s.core core).teams.all fun t => t.2.slot != slot || of t.2 == 0 || !overlap (k * n) n (t.1 * of t.2) (of t.2))

/-- R352: the lowest free team number whose windows fit. -/
def teamNumber (s : State) (core slot : Nat) (d : List Dword) : Option Nat :=
  (List.range 32).find? fun k =>
    !mhas (s.core core).teams k && windowFree s core slot k (lSpt d) (16 * lSp d) (·.spt)
      && windowFree s core slot k (lAct d) (16 * lAcc d) (·.act)

/-- R386: what a slot with `rf` register-file units counts against the flash. -/
def flashBytes (rf : Nat) : Nat := 0xBA000 + 16384 * rf + 64

/-- R386: what the slots of a context count; a slot that holds nothing yet has no partition word. -/
def ctxFlash (s : State) (ctx : Nat) (c : Ctx) : Nat :=
  (c.pairs.map fun p => let q := s.slot p.core p.slot; flashBytes (if q.ctx = ctx then q.rf else 0)).sum

/-- R386: what the persistent contexts count together. -/
def flashTotal (s : State) : Nat :=
  (s.ctxs.map fun e => if e.2.persistent then ctxFlash s e.1 e.2 else 0).sum

/-- R386: `n` bytes more fit. -/
def flashFits (s : State) (n : Nat) : Bool := decide (flashTotal s + n ≤ 2 ^ 28)

/-- R352, R386: a pair is eligible for the next team of a launch. -/
def eligible (s : State) (d : List Dword) (p : Pair) : Bool :=
  let q := s.slot p.core p.slot
  let lasting := match s.ctx? (lCtx d) with | some c => c.persistent | none => false
  let fits := match q.st with
    | .empty => decide (lRf d + lSp d + lAcc d ≤ p.psize) && decide (lRfBytes d ≤ lRf d * 16384)
        && (!lasting || flashFits s (16384 * lRf d))
    | .running =>
      q.ctx == lCtx d && !q.line && !q.freezing && q.rf == lRf d && q.sp == lSp d && q.acc == lAcc d
        && decide (lRfBytes d ≤ freeRf s p.core p.slot)
    | _ => false
  fits && decide ((s.core p.core).strands.length + lNr d + 1 ≤ 64) && decide ((s.core p.core).teams.length < 32)
    && (teamNumber s p.core p.slot d).isSome

/-- R353: the first eligible pair after the one that took the context's previous team. -/
def nextPair (s : State) (c : Ctx) (d : List Dword) : Option Pair :=
  let ps := sortedPairs c
  let after := match c.lastPair with
    | none => ps
    | some (k, i) =>
      (ps.filter fun (p : Pair) => decide (k * 2 + i < p.core * 2 + p.slot)) ++
        ps.filter fun (p : Pair) => decide (p.core * 2 + p.slot ≤ k * 2 + i)
  after.find? (eligible s d)

/-- R293, R294, R352: an EMPTY slot is filled with its context and partition word; its part of the pool reads zero. -/
def fillSlot (s : State) (ctx : Nat) (d : List Dword) (p : Pair) : State :=
  s.modSlot p.core p.slot fun q =>
    { Slot.reset with st := .running, ctx := ctx, pbase := p.pbase, psize := p.psize, rf := lRf d, sp := lSp d,
                      acc := lAcc d, savebase := p.savebase, saves := q.saves }

/-- R353: one role of a team becomes a strand. -/
def placeRole (s : State) (c : Ctx) (d : List Dword) (p : Pair) (t linear at_ r : Nat) : State :=
  match freeStrid s p.core with
  | none => s
  | some i =>
    let n := lNg d r
    let x := freshStrand (some c) (lCtx d) p.slot t r n (8 * lRb d r) (lEpc d r) (Mask.groups n)
    let x := { x with
      laneBase := 32 * ((List.range r).map (lNg d)).sum
      teamX := linear % lX d, teamY := linear / lX d % lY d, teamZ := linear / lX d / lY d
      gridX := lX d, gridY := lY d, gridZ := lZ d, lbasis := lBasis d, notBefore := at_ }
    let ref : Ref := { core := p.core, strid := i }
    let s1 := (s.setStrand ref (x.setS 0 (d.getD 4 0)))
    let s2 := s1.modTeam p.core t fun q =>
      { q with members := q.members ++ [i], adopter := if r = lAdopt d then i else q.adopter }
    numberStrand (bindStrand s2 ref) ref

/-- R353: the distributor places the next team of a launch. Each die places at most one in a cycle. None is placed while the context
has a halt, or a cause of one on its way (assumption 118). -/
def execTeamPlacement (launch : Nat) (s : State) : Host.Outcome State Fault Refusal :=
  match mfind s.launches launch with
  | none => .next s
  | some l =>
    let d := l.record
    let earlier := s.launches.any fun e => decide (e.1 < launch) && e.2.ctx == l.ctx && decide (e.2.next < lTeams e.2.record)
    if earlier || decide (lTeams d ≤ l.next) then .next s
    else match s.ctx? l.ctx with
      | none => .next s
      | some c =>
        if c.killed || c.halt.isSome || !c.haltQ.isEmpty then .next s
        else match nextPair s c d with
          | none => .next s
          | some p =>
            if mget 0 s.placedAt (dieOf p.core) = s.cycle + 1 then .next s
            else match teamNumber s p.core p.slot d with
            | none => .next s
            | some t =>
              let s1 := if (s.slot p.core p.slot).st == .empty then fillSlot s l.ctx d p else s
              let s1 := wakeCluster s1 (clusterOf p.core)
              let s1 := { s1 with placedAt := mput s1.placedAt (dieOf p.core) (s.cycle + 1) }
              let team : Team := { ctx := l.ctx, slot := p.slot, members := [], adopter := 0, bars := [], spt := lSpt d,
                                   act := lAct d, linear := l.next, launch := some launch, rfHeld := 0 }
              let s2 := s1.modCore p.core fun k => { k with teams := mput k.teams t team }
              let s3 := (lRoles d).foldl (placeRole · c d p t l.next (s.cycle + 16) ·) s2
              let s4 := s3.modCtx l.ctx fun c => { c with lastPair := some (p.core, p.slot) }
              .next { s4 with launches := mput s4.launches launch { l with next := l.next + 1, teams := l.teams + 1 } }

/-! ## Retirement (R220, R221, R351) -/

/-- R220, R265: write a ring record; a write that faults is kept with the context and halts it (R223). `n` is the record's
size, `orphan` the ring. A write that stalls (R310) answers none. -/
def ringWrite (s : State) (ctx core slot : Nat) (orphan : Bool) (bytes : List Byte) : Option State :=
  match s.ctx? ctx with
  | none => some s
  | some c =>
    let n := bytes.length
    let base := if orphan then c.orbase else c.frbase
    let head := if orphan then c.orhead else c.frhead
    let size := if orphan then c.orsize else c.frsize
    let va := (base + n * (head % size)) % 2 ^ 64
    let keep (cause : Cause) (info : Dword) (dm : Bool) : State :=
      postHalt (s.modCtx ctx fun c => { c with heldRecs := c.heldRecs ++ [{ orphan := orphan, bytes := bytes }] }) ctx
        { cause := cause, tinfo := info, src := 6, core := core, slot := slot, dm := dm }
    if !vaOk va then some (keep .vaRange (BitVec.ofNat 64 va) false)
    else match flatWrite s (hwWho ctx core) va n (leNat bytes) with
      | .ok s1 _ =>
        some <| s1.modCtx ctx fun c => if orphan then { c with orhead := c.orhead + 1 } else { c with frhead := c.frhead + 1 }
      | .bad e i dm => some (keep e i dm)
      | .wait => none

/-- R265: records written to a ring and held for it. -/
def ringUsed (c : Ctx) (orphan : Bool) : Nat :=
  (if orphan then c.orhead - c.ortail else c.frhead - c.frtail) + (c.heldRecs.filter fun h => h.orphan == orphan).length

/-- R221: an orphan record. -/
def orphanRecord (core idx tslot linear : Nat) (e : Token) : List Byte :=
  natBytes 16 ((e.word core idx).toNat
    + (tslot * 2 ^ 27 + e.st.code * 2 ^ 24 + e.cls * 2 ^ 20 + e.tag.toNat) * 2 ^ 32 + linear % 2 ^ 31 * 2 ^ 64)

/-- R220: the orphans of a team whose records have not been pushed. -/
def teamOrphans (s : State) (core tslot : Nat) (t : Team) : List Nat :=
  ((s.core core).tokens.filter fun e =>
    e.2.gen != 0 && e.2.orph && !e.2.ringed && e.2.team == tslot && e.2.cslot == t.slot && e.2.ctx == t.ctx).map (·.1)

/-- R220, R266: push the records that the ring has room for. -/
def pushOrphans (s : State) (core tslot : Nat) (t : Team) : List Nat → State
  | [] => s
  | i :: rest =>
    match s.ctx? t.ctx with
    | none => s
    | some c =>
      let mark (s : State) : State := s.modToken core i fun e => { e with ringed := true }
      if c.orsize = 0 then pushOrphans (mark s) core tslot t rest
      else if ringUsed c true < c.orsize then
        match ringWrite s t.ctx core t.slot true (orphanRecord core i tslot t.linear (s.token core i)) with
        | some s1 => pushOrphans (mark s1) core tslot t rest
        | none => s
      else s

/-- R220: a team whose strands have all terminated retires, once its orphans are in the ring. -/
def execTeamRetire (core tslot : Nat) (s : State) : Host.Outcome State Fault Refusal :=
  match s.team? core tslot with
  | none => .next s
  | some t =>
    let q := s.slot core t.slot
    if !t.members.isEmpty || q.st != .running || q.line || q.freezing then .next s
    else
      let s1 := pushOrphans s core tslot t (teamOrphans s core tslot t)
      if !(teamOrphans s1 core tslot t).isEmpty then .next s1
      else
        let s2 := s1.modCore core fun k => { k with teams := mdel k.teams tslot }
        .next (match t.launch with
          | some l => { s2 with launches := mmod s2.launches l fun e => { e with teams := e.teams - 1 } }
          | none => s2)

/-- R351: every team of a launch has retired. -/
def execLdone (launch : Nat) (s : State) : Host.Outcome State Fault Refusal :=
  match mfind s.launches launch with
  | none => .next s
  | some l =>
    if l.next = lTeams l.record ∧ l.teams = 0 then
      .next (sendOwner { s with launches := mdel s.launches launch } 0x82 l.ctx [])
    else .next s

end Sys2Proof.Machine
end

