-- ==== Sys2Proof/Machine/Matrix.lean ====
section
/-! DEFINITION. The matrix sequencer, the column and the reconstruction unit (R43 to R45, R105 to R109, R237 to R245, R270,
R272 to R291, R408). -/

namespace Sys2Proof.Machine

/-! ## The column's heat bucket (R289, R403, R408) -/

/-- R403: the voltage domain of a layer over a core. -/
def domainOf (core layer : Nat) : Nat := 60 * dieOf core + 4 * layer + core % 96 / 24

/-- The hottest of some domains of a core, in degrees C. -/
def hottest (s : State) (core : Nat) (layers : List Nat) : Nat :=
  (layers.map fun l => mget 25 s.kettle.temps (domainOf core l)).foldl max 0

/-- R408: tokens every 16 cycles. -/
def heatRate (s : State) (core : Nat) : Nat :=
  let row (t a : Nat) : Nat := if t < a then 32 else if t < a + 5 then 16 else if t < a + 10 then 8 else 0
  let logic := row (hottest s core (List.range 11)) 95
  let dram := row (hottest s core [11, 12, 13, 14]) 85
  min logic dram * (4 - min 3 (stepDepth s 6)) / 4

/-- R289, R408: the bucket at the present cycle. -/
def heatNow (s : State) (core : Nat) : Nat :=
  let c := (s.core core).col
  min 4096 (c.heat + heatRate s core * (s.cycle / 16 - c.heatAt / 16))

def State.modCol (s : State) (core : Nat) (f : Column → Column) : State :=
  s.modCore core fun k => { k with col := f k.col }

/-! ## Accumulator slots (R43) -/

def State.acc (s : State) (core slot a : Nat) : AccSlot := mget AccSlot.reset (s.slot core slot).accs a
def State.setAcc (s : State) (core slot a : Nat) (x : AccSlot) : State :=
  s.modSlot core slot fun q => { q with accs := mput q.accs a x }

/-- The key of a residue. -/
def resKey (h i c : Nat) : Nat := 8192 * h + 64 * i + c

def AccSt.code : AccSt → Nat
  | .invalid => 0 | .live => 1 | .held => 2

/-- R43: the control word, as a number of 128 bits. -/
def accWord (a : AccSlot) : Nat :=
  a.gb * 2 ^ 64 + (a.eacc % 1024).toNat * 2 ^ 54 + a.bid * 2 ^ 51 + a.span * 2 ^ 47 + a.gt.toNat * 2 ^ 46
    + a.st.code * 2 ^ 44 + a.tok * 2 ^ 35

/-- The accumulator slot of an operation. -/
def accOf : Op → Option Nat
  | .mzero a _ _ | .mrl a _ _ _ | .mrs a _ _ => some a
  | .mma _ a _ _ _ _ _ _ _ _ _ _ => some a
  | .mdr a _ _ _ _ _ _ _ _ _ => some a
  | _ => none

/-- R275: the guard trips. -/
def guardTrips (b : Basis) (gb : Nat) : Bool := decide (b.range ≤ 2 * gb)

/-- R237: a live slot with every residue zero. -/
def zeroAcc (old : AccSlot) (b : Basis) (bid : Nat) (eacc : Int) : AccSlot :=
  { old with gb := 0, eacc := eacc, bid := bid, span := b.span, gt := false, st := .live, res := [] }

/-! ## Acceptance (R45, R290) -/

/-- R45, R270: an earlier operation or injection of the issuer on the slot has not been accepted. -/
def earlierUnaccepted (s : State) (core issuer cslot acc seq : Nat) : Bool :=
  let k := s.core core
  (k.tokens.any fun t => t.2.gen != 0 && t.2.issuer == issuer && t.2.cslot == cslot && accOf t.2.op == some acc
    && decide (t.2.seq < seq) && !t.2.st.terminal && !t.2.work.accepted) ||
  (k.einjq.any fun j => j.owner == issuer && j.cslot == cslot && j.acc == acc && decide (j.seq < seq))

/-- R45: an operation that has been accepted on an accumulator slot has not ended: operations on one slot take effect one at a time. -/
def slotBusy (s : State) (core cslot acc : Nat) : Bool :=
  (s.acc core cslot acc).st == .held || (s.core core).tokens.any fun t =>
    t.2.gen != 0 && t.2.cslot == cslot && accOf t.2.op == some acc && t.2.work.accepted && !t.2.st.terminal

/-- R45: the sequencer can accept an operation on its slot now, once it runs. -/
def acceptable (s : State) (core : Nat) (e : Token) : Bool :=
  !e.work.accepted &&
    match accOf e.op with
    | some a => !slotBusy s core e.cslot a && !earlierUnaccepted s core e.issuer e.cslot a e.seq
    | none => false

/-- The K-steps of an operation. -/
def stepCount : Op → Nat
  | .mma _ _ n _ _ _ _ _ _ _ _ _ => n
  | _ => 0

/-- R225, R290: the operation has a K-step ready: in a slot that freezes no step starts. -/
def kReady (s : State) (t : OpAt) : Bool :=
  t.2.2.active && slotLets s t.1 t.2.2 && t.2.2.work.accepted && decide (t.2.2.work.prog < stepCount t.2.2.op) && !rangeBlocked s t.1 t.2.1 t.2.2

/-- The coordinates of a 128 × 64 tile from an origin. -/
def tileCoords (row col : Int) : List (List Int) :=
  (List.range 8192).map fun k => [row + (k / 64 : Nat), col + (k % 64 : Nat)]

/-- R238: an MRL has read its tensor; any other operation reads nothing before it is accepted. -/
def tileRead (e : Token) : Bool :=
  match e.op with
  | .mrl _ _ src _ => (e.unread src.dw (tileCoords 0 0)).isEmpty
  | _ => true

/-- R290: an MZERO or an MRL takes a turn when it is accepted. -/
def turnOp : Op → Bool
  | .mzero _ _ _ | .mrl _ _ _ _ => true
  | _ => false

/-- R45, R290: an MZERO or an MRL can take its turn. -/
def turnReady (s : State) (t : OpAt) : Bool :=
  t.2.2.active && turnOp t.2.2.op && slotLets s t.1 t.2.2 && acceptable s t.1 t.2.2 && tileRead t.2.2 && !rangeBlocked s t.1 t.2.1 t.2.2

/-- R45, R270: an injection has reached the head of the operations on its slot. -/
def einjWaits (s : State) (core : Nat) (j : Einj) : Bool :=
  let q := s.slot core j.cslot
  q.st == .running && !q.line && !q.freezing && !slotBusy s core j.cslot j.acc
    && !earlierUnaccepted s core j.owner j.cslot j.acc j.seq

/-- The earlier of two times, if there is one. -/
def earlier (a b : Option Nat) : Option Nat :=
  match a, b with
  | some x, some y => some (min x y)
  | some x, none => some x
  | none, y => y

/-- R290: when a slot's column work that is ready was first accepted, if it has any: what takes its turn with its acceptance counts as
accepted now. -/
def slotWork (s : State) (core slot : Nat) : Option Nat :=
  let k := s.core core
  let steps := (k.tokens.filter fun t => t.2.cslot == slot && kReady s (core, t.1, t.2)).foldl (fun b t => earlier b (some t.2.work.heard)) none
  earlier steps
    (if (k.tokens.any fun t => t.2.cslot == slot && turnReady s (core, t.1, t.2)) ||
        k.einjq.any (fun j => j.cslot == slot && !j.wire && einjWaits s core j) then some s.cycle else none)

/-- R241: a K-step is in flight on the column. -/
def columnBusy (s : State) (core : Nat) : Bool := (s.core core).tokens.any fun t => t.2.work.flight.isSome

/-- R289: the operation whose step has the turn and waits for heat tokens. -/
def stallHolder (s : State) (core : Nat) : Option Nat :=
  (s.core core).col.stalled.filter fun i => kReady s (core, i, s.token core i)

/-- R289, R290: the turn may go to work of `slot` that was accepted in cycle `since`: of the operation `idx`, or of an injection. A step
that waits for heat tokens keeps the turn. -/
def mayTurn (s : State) (core slot since : Nat) (idx : Option Nat) : Bool :=
  !columnBusy s core &&
    match stallHolder s core with
    | some i => some i == idx
    | none =>
      match slotWork s core (1 - slot) with
      | none => true
      | some other =>
        match (s.core core).col.turn with
        | some t => t != slot
        | none =>
          let own := match slotWork s core slot with | some c => min c since | none => since
          decide (own < other) || (own == other && slot == 0)

/-- R218: the operations of the class that the sequencer could accept now, were they all running. -/
def acceptRivals (s : State) (core : Nat) (e : Token) : List OpAt :=
  (onEngine s core e).filter fun t => acceptable s t.1 t.2.2 && (e.cls == 3 || t.2.2.cslot == e.cslot) && !rangeBlocked s t.1 t.2.1 t.2.2

/-- R218: the operations that a slot's turn of the column can go to. -/
def turnRivals (s : State) (core : Nat) (e : Token) : List OpAt :=
  (onEngine s core e).filter fun t =>
    t.2.2.cslot == e.cslot && (kReady s t || turnReady s t)

/-- Acceptance of an operation by its turn among `ready`: `f` gives the new state, or the fault of the token. What an MZERO, MRL
or MRS does is all done with it; an MMA and an MDR make their first access later (`late`). -/
def acceptOp (s : State) (core idx : Nat) (ok late : Bool) (ready : List OpAt)
    (f : Token → Except (Cause × Dword) (Mem Work)) : Host.Outcome State Fault Refusal :=
  let e := s.token core idx
  if !(e.active && acceptable s core e && takesTurn s core idx e ready) || !ok then .next s
  else match f e with
    | .error (c, d) => .next (failOp s core idx c d false)
    | .ok a =>
      if late then
        (match a with
        | .ok s1 w => .next ((countSkips s1 core idx ready).modToken core idx fun e => { e with work := w })
        | .wait => .next s
        | .bad c i dm => .next (stopOp s core idx c i dm))
      else unitStep s core idx ready a

/-- R284: the column is down. -/
def downFault (core : Nat) : Cause × Dword := (.columnDown, BitVec.ofNat 64 core)

/-- The work of an operation that the sequencer has accepted. -/
def accepted (s : State) (e : Token) : Work := { e.work with accepted := true, heard := s.cycle }

/-- R290: a slot has had the turn. -/
def takeTurn (s : State) (core slot : Nat) : State := s.modCol core fun k => { k with turn := some slot, stalled := none }

/-- R237: MZERO. -/
def execSequencerAcceptMzero (core idx : Nat) (s : State) : Host.Outcome State Fault Refusal :=
  let e := s.token core idx
  match e.op with
  | .mzero a bid eacc =>
    acceptOp s core idx (mayTurn s core e.cslot s.cycle (some idx)) false (turnRivals s core e) fun e =>
      if (s.core core).col.down then .error (downFault core)
      else match basisOf s e.ctx bid with
        | none => .error (.badBasis, 0)
        | some b =>
          let s1 := s.setAcc core e.cslot a (zeroAcc (s.acc core e.cslot a) b bid eacc)
          .ok (.ok (takeTurn s1 core e.cslot) (accepted s e))
  | _ => .next s

/-- The residues of a slot from one digit per key, zero digits left out. -/
def resOf (b : Basis) (g : Nat → Nat → Nat) : Map Nat :=
  b.live.flatMap fun h => (List.range 8192).filterMap fun k =>
    let d := g h k
    if d = 0 then none else some (8192 * h + k, d)

/-- R238: the slot that an MRL fills from the elements that it has read. -/
def loadedAcc (old : AccSlot) (b : Basis) (bid : Nat) (eacc : Int) (gb : Nat) (xs : List Nat) : AccSlot :=
  let v := xs.toArray
  { zeroAcc old b bid eacc with
    gb := gb, gt := guardTrips b gb, res := resOf b fun h k => quadDigit b (v.getD k 0) h }

/-- R238, R344: MRL reads its tensor piece by piece, and fills its slot when it is accepted. -/
def execSequencerAcceptMrl (core idx : Nat) (s : State) : Host.Outcome State Fault Refusal :=
  let e := s.token core idx
  match e.op with
  | .mrl a eacc src gb =>
    if e.active && !e.work.accepted && !tileRead e then
      if rangeBlocked s core idx e then .next s else unitEnd s core idx (readPiece s (e.site core) e src.dw (tileCoords 0 0))
    else
      acceptOp s core idx (mayTurn s core e.cslot s.cycle (some idx) && !rangeBlocked s core idx e) false (turnRivals s core e) fun e =>
        if (s.core core).col.down then .error (downFault core)
        else
          let bid := tagBid (tTag src.dw)
          match basisOf s e.ctx bid with
          | none => .error (.badBasis, 0)
          | some b =>
            let xs := readValues s (e.site core) e.work false src.dw (tileCoords 0 0)
            let s1 := s.setAcc core e.cslot a (loadedAcc (s.acc core e.cslot a) b bid eacc gb xs)
            .ok (.ok (takeTurn s1 core e.cslot) { accepted s e with got := [] })
  | _ => .next s

/-- R240: the tensor's basis, when it is a residue operand, is the slot's. -/
def sameBasis (x : AccSlot) (t : Tn) : Bool := !tagResidue (tTag t.dw) || tagBid (tTag t.dw) == x.bid

/-- R240: MMA and MMS are accepted: the slot is checked and held. -/
def execSequencerAcceptMma (core idx : Nat) (s : State) : Host.Outcome State Fault Refusal :=
  let e := s.token core idx
  match e.op with
  | .mma _ a _ ta tb _ _ _ _ _ _ _ =>
    acceptOp s core idx true true (acceptRivals s core e) fun e =>
      let x := s.acc core e.cslot a
      if (s.core core).col.down then .error (downFault core)
      else if x.st == .invalid then .error (.accInvalid, 0)
      else if !sameBasis x ta || !sameBasis x tb then .error (.badBasis, 0)
      else .ok (.ok (s.setAcc core e.cslot a { x with st := .held, tok := idx }) (accepted s e))
  | _ => .next s

/-- R282, R284: the start of a drain: pending spares are mapped, pending erasures take effect, and a second erasure takes
the column down, which the nodes are told. -/
def drainStart (s : State) (core : Nat) : State :=
  let s1 := s.modCol core fun k =>
    let c1 := k.pendSpare.foldl (fun (c : Column) (p : Nat × Nat) =>
      { c with spares := mput c.spares p.1 (mget 0 c.spares p.1 + 1), wires := mdel c.wires (144 * p.1 + p.2) }) k
    let er := c1.pendErase.foldl (fun (l : List Nat) h => if l.contains h then l else l ++ [h]) c1.erased
    { c1 with pendSpare := [], pendErase := [], erased := er, down := c1.down || decide (2 ≤ er.length) }
  if (s1.core core).col.down && !(s.core core).col.down then postEvent s1 .columnDown [BitVec.ofNat 64 core] else s1

/-- R282: a drain wire has reached its count, and its spare or its channel's erasure is not settled yet. -/
def wiresDue (k : Column) : Bool :=
  k.wires.any fun e => decide (64 ≤ e.2) && decide (e.1 / 144 < 10) && !k.pendSpare.contains (e.1 / 144, e.1 % 144)
    && !k.pendErase.contains (e.1 / 144) && !k.erased.contains (e.1 / 144)

/-- R245, R282: no other drain runs on the core, and what the last one wore out is settled. -/
def drainFree (s : State) (core idx : Nat) : Bool :=
  !wiresDue (s.core core).col && (s.core core).tokens.all fun t => t.1 == idx || !(t.2.cls == 3 && t.2.active && t.2.work.accepted && decide (t.2.work.prog < 8192))

/-- R243: MDR is accepted: the drain begins. -/
def execSequencerAcceptMdr (core idx : Nat) (s : State) : Host.Outcome State Fault Refusal :=
  let e := s.token core idx
  match e.op with
  | .mdr a fmt _ _ _ dst _ _ _ _ =>
    acceptOp s core idx (drainFree s core idx) true (acceptRivals s core e) fun e =>
      let x := s.acc core e.cslot a
      if x.st == .invalid then .error (.accInvalid, 0)
      else if fmt = 0 && !sameBasis x dst then .error (.badBasis, 0)
      else
        let s1 := drainStart s core
        .ok (.ok (s1.setAcc core e.cslot a { x with st := .held, tok := idx }) (accepted s e))
  | _ => .next s

/-- The digit of a slot's element, as it is stored. -/
def accDigit (x : AccSlot) (h k : Nat) : Nat := mget 0 x.res (8192 * h + k)

/-- R283: an erased channel that is live in the basis. -/
def erasedLive (s : State) (core : Nat) (b : Basis) : Option Nat :=
  (s.core core).col.erased.find? fun h => b.live.contains h

/-- R238: MRS is accepted. Its slot stays live. -/
def execSequencerAcceptMrs (core idx : Nat) (s : State) : Host.Outcome State Fault Refusal :=
  let e := s.token core idx
  match e.op with
  | .mrs a dst _ =>
    acceptOp s core idx (drainFree s core idx) true (acceptRivals s core e) fun e =>
      let x := s.acc core e.cslot a
      if x.st == .invalid then .error (.accInvalid, 0)
      else if !sameBasis x dst then .error (.badBasis, 0)
      else .ok (.ok (drainStart s core) (accepted s e))
  | _ => .next s

/-- R270, R290: an injection reaches its slot: one into the digits takes a turn. -/
def einjReady (s : State) (core : Nat) (j : Einj) : Bool :=
  einjWaits s core j && (j.wire || mayTurn s core j.cslot s.cycle none)

/-- R270: add to an armed injection. -/
def armAdd (arm : List (Nat × Nat)) (key d : Nat) : List (Nat × Nat) := mput arm key (mget 0 arm key + d)

/-- R270: an injection reaches its slot; on an invalid slot it is discarded. -/
def inject (s : State) (core : Nat) (j : Einj) : State :=
  let x := s.acc core j.cslot j.acc
  match (if x.st == .invalid then none else (s.ctx? (s.slot core j.cslot).ctx).bind fun c => mfind c.bases x.bid) with
  | none => s
  | some b =>
    match b.modulus j.chan with
    | none => s
    | some m =>
      let k := 8192 * j.chan + j.key
      s.setAcc core j.cslot j.acc
        (if j.wire then { x with arm := armAdd x.arm k j.delta }
        else { x with res := cput 0 x.res k ((mget 0 x.res k + j.delta) % m) })

/-- R270: the sequencer accepts the `n`-th waiting injection. -/
def execSequencerAcceptEinj (core n : Nat) (s : State) : Host.Outcome State Fault Refusal :=
  match (s.core core).einjq[n]? with
  | none => .next s
  | some j =>
    if !einjReady s core j then .next s
    else
      let s1 := s.modCore core fun k => { k with einjq := k.einjq.eraseIdx n }
      let s2 := inject s1 core j
      .next (if j.wire then s2 else takeTurn s2 core j.cslot)

/-! ## K-steps (R239 to R241, R272 to R275, R289, R290) -/

/-- R105, R106: what one operand needs of a step: its type, whether it is a residue tensor, and its basis. -/
structure Side where
  t : Tn
  ty : Ty
  res : Bool
  decl : Nat

def sideOf (t : Tn) (decl : Nat) : Side := { t := t, ty := tTy t.dw, res := tagResidue (tTag t.dw), decl := decl }

/-- R105, R107, R240: a pair that faults the step. -/
def badPair (a : Side) (p : Nat) : Bool :=
  pairSe p == 0xFF || (pairZp p != 0 && (a.res || match laneForm a.ty with
    | some (_, _, lo, hi) => decide (pairZp p < lo) || decide (hi < pairZp p)
    | none => true))

/-- R106: the lane exponent. -/
def laneExp (a : Side) (p : Nat) : Int := (pairSe p : Int) - 127 + (if a.res then 0 else log2u a.ty)

/-- R106, R239: the lane of an element; an element outside the extents has lane 0. -/
def laneOf (a : Side) (p : Nat) (x : Option Nat) : Int :=
  match x with
  | some v => laneVal a.ty v - pairZp p
  | none => 0

/-- R240: the lane breaks the declared width, or comes from an infinity or a NaN. -/
def badLane (a : Side) (p : Nat) (x : Option Nat) : Bool :=
  !a.res && match x with
    | none => false
    | some v =>
      (a.decl != 0 && decide (2 ^ (a.decl - 1) < (laneOf a p x).natAbs)) || (a.ty.isB8 && ((fmtOf a.ty).decode v).bad)

/-- R275: the lane width of an operand in a step. -/
def laneWidth (a : Side) (zp : Bool) : Nat :=
  if a.decl ≠ 0 then a.decl
  else match laneForm a.ty with | some (w0, w1, _, _) => if zp then w1 else w0 | none => 0

/-- R240, R274: what channel `h` receives for an element. -/
def laneDigit (a : Side) (b : Basis) (h p : Nat) (x : Option Nat) : Nat :=
  if a.res then (match x with | some v => quadDigit b v h | none => 0) else digit (laneOf a p x) (b.mod h)

/-- R239: the positions of a mask's set bits in group `g` at `n` places a group, as (logical K, compacted K). -/
def maskKs (g n mask : Nat) : List (Nat × Nat) :=
  (((List.range 64).filter fun i => mask / 2 ^ i % 2 == 1).zipIdx).map fun e => (64 * g + e.1, g * n + e.2)

/-- R239: N. -/
def sparseN (nc : Nat) : Nat := 8 * 2 ^ nc

/-- R240: the K indices of a step as (logical, position in A, position in B). -/
def stepKs (sparse nc j : Nat) (masks : List Nat) : List (Nat × Nat × Nat) :=
  if sparse = 0 then (List.range 128).map fun t => (128 * j + t, 128 * j + t, 128 * j + t)
  else
    (masks.zipIdx.flatMap fun m => maskKs (2 * j + m.2) (sparseN nc) m.1).map fun e =>
      if sparse = 1 then (e.1, e.2, e.1) else (e.1, e.1, e.2)

/-- Read elements that may lie outside the extents. -/
def readOpt (s : State) (w : Site) (d : Rec) : List (List Int) → Mem (List (Option Nat))
  | [] => .ok s []
  | c :: rest =>
    (match boxCoord d c with
    | some _ => (readOr0 s w d c).bind fun s1 x => Mem.ok s1 (some x)
    | none => Mem.ok s none).bind fun s1 x => (readOpt s1 w d rest).bind fun s2 xs => .ok s2 (x :: xs)

/-- R108: the pairs of a scale region from an index; without a region the pair 0x7F00. -/
def readPairs (s : State) (w : Site) (t : Option Tn) (from_ n : Nat) : Mem (List Nat) :=
  match t with
  | none => .ok s (List.replicate n 0x7F00)
  | some t => readMany s w t.dw ((List.range n).map fun i => (regionCoord t.dw (from_ + i)).map fun (c : Nat) => (c : Int))

/-- R239: the two masks of a step. -/
def readMasks (s : State) (w : Site) (sparse addr j : Nat) : Mem (List Nat) :=
  if sparse = 0 then .ok s []
  else (localRead s w 1 (addr + 16 * j) 8).bind fun s1 a =>
    (localRead s1 w 1 (addr + 16 * j + 8) 8).bind fun s2 b => .ok s2 [a, b]

/-- R232: DETAIL of a step's fault. -/
def stepDetail (j where_ : Nat) (inB : Bool) : Dword :=
  BitVec.ofNat 64 (j % 256 * 2 ^ 56 + where_ % 256 * 2 ^ 48 + inB.toNat * 2 ^ 47)

/-- What a step uses. -/
structure StepIn where
  j : Nat
  a : Side
  b : Side
  pa : List Nat
  pb : Nat
  masks : List Nat
  sparse : Nat
  nc : Nat
  eacc : Int

/-- R240: the checks of a step before its elements are read: the pairs, then the masks. -/
def stepFault (x : StepIn) : Option (Cause × Dword) :=
  match (List.range 128).find? fun i => badPair x.a (x.pa.getD i 0) with
  | some i => some (.badScale, stepDetail x.j i false)
  | none =>
    if badPair x.b x.pb then some (.badScale, stepDetail x.j 0 true)
    else match x.masks.zipIdx.find? fun m => decide (sparseN x.nc < (maskKs 0 0 m.1).length) with
      | some m => some (.maskDense, stepDetail x.j (2 * x.j + m.2) (x.sparse == 2))
      | none => none

/-- R240: sh(i). -/
def stepShift (x : StepIn) (i : Nat) : Int := laneExp x.a (x.pa.getD i 0) + laneExp x.b x.pb - x.eacc

/-- R240: the checks of a step on its elements: the lanes, then the shifts. -/
def laneFault (x : StepIn) (nk : Nat) (ea eb : Array (Option Nat)) : Option (Cause × Dword) :=
  let rowBad (i : Nat) : Bool := (List.range nk).any fun t => badLane x.a (x.pa.getD i 0) (ea.getD (i * nk + t) none)
  let colBad (c : Nat) : Bool := (List.range nk).any fun t => badLane x.b x.pb (eb.getD (c * nk + t) none)
  match (List.range 128).find? rowBad with
  | some i => some (.badLane, stepDetail x.j i false)
  | none =>
    match (List.range 64).find? colBad with
    | some c => some (.badLane, stepDetail x.j c true)
    | none =>
      ((List.range 128).find? fun i => decide (stepShift x i < 0) || decide (63 < stepShift x i)).map fun i =>
        (.scaleOrder, stepDetail x.j i false)

/-- R270, R272: the errors that the armed injections make: their wires are inverted in beat 0 of the step. A step that sends no beat
has no beat 0 (assumption 96). -/
def injected (armed : List (Nat × Bool)) (beats : Nat) : List (Nat × Nat) :=
  if beats = 0 then [] else armed.flatMap fun a => if a.2 then [(0, a.1), (0, a.1 + 1)] else [(0, a.1)]

/-- R272: the beat word of a wire. -/
def wireWord (w : Nat) : Nat := if w < 6144 then w / 64 else (w - 6144) / 8

/-- R273: the errors of the operand bus that stand: wires inverted twice are right again. -/
def busOdd (l : List (Nat × Nat)) : List (Nat × Nat) :=
  (l.filter fun e => decide (e.2 < 6912)).eraseDups.filter fun e => (l.filter (· == e)).length % 2 == 1

/-- R273: the first word with a double error. -/
def busDouble (l : List (Nat × Nat)) : Option Nat :=
  let odd := busOdd l
  ((odd.filter fun e => decide (2 ≤ (odd.filter fun f => f.1 == e.1 && wireWord f.2 == wireWord e.2).length)).map fun e =>
    wireWord e.2).min?

/-- R273, R287, R288: the column's counts after a step: of single errors, those of its wires only for errors that no program
injected. A corrected error of a word of the header counts like any other, on the wire of its number (assumption 113). -/
def busCounts (k : Column) (l nat : List (Nat × Nat)) : Column :=
  let odd := busOdd l
  let single (e : Nat × Nat) : Bool := (odd.filter fun f => f.1 == e.1 && wireWord f.2 == wireWord e.2).length == 1
  let ones := odd.filter single
  { k with
    obCnt := min 65535 (k.obCnt + ones.length)
    obWires := (ones.filter nat.contains).foldl (fun m e => mput m e.2 (min 31 (mget 0 m e.2 + 1))) k.obWires }

/-- R275: the K indices of a step that contribute. -/
def stepCnt (x : StepIn) (ks : List (Nat × Nat × Nat)) : Nat :=
  let da := tExt x.a.t.dw 1
  let db := tExt x.b.t.dw 0
  (ks.filter fun k =>
    match x.sparse with
    | 0 => decide (k.1 < da) && decide (k.1 < db)
    | 1 => decide (k.1 < db)
    | _ => decide (k.1 < da)).length

/-- R275: the lane widths of a step. -/
def stepWidths (x : StepIn) : Nat × Nat :=
  (laneWidth x.a (x.pa.any fun p => pairZp p != 0), laneWidth x.b (pairZp x.pb != 0))

/-- R275: StepBound. -/
def stepBound (x : StepIn) (cnt : Nat) : Nat :=
  let w := stepWidths x
  let sh := ((List.range 128).map fun i => (stepShift x i).toNat).foldl max 0
  cnt * 2 ^ (w.1 - 1) * 2 ^ (w.2 - 1) * 2 ^ sh

/-- R289: the tokens a step costs. -/
def stepCost (x : StepIn) (span cnt : Nat) : Nat :=
  let w := stepWidths x
  let cw := if w.1 + w.2 ≤ 16 then 1 else if w.1 + w.2 ≤ 32 then 2 else 3
  (span + 2) * cw * ceilDiv cnt 32

/-- R240, R274: the residues after a step. -/
def stepRes (b : Basis) (neg : Bool) (x : StepIn) (nk : Nat) (ea eb : Array (Option Nat)) (old : Map Nat) : Map Nat :=
  resOf b fun h k =>
    let m := b.mod h
    let i := k / 64
    let c := k % 64
    let p := x.pa.getD i 0
    let sum := (List.range nk).foldl (fun a t =>
      a + laneDigit x.a b h p (ea.getD (i * nk + t) none) * laneDigit x.b b h x.pb (eb.getD (c * nk + t) none)) 0
    let d := sum % m * pow2Mod (stepShift x i).toNat m % m
    (mget 0 old (8192 * h + k) + (if neg then m - d else d)) % m

/-- R241: the cycles that a step with these K indices holds the column. -/
def stepCycles (x : StepIn) (nk : Nat) : Nat := nk * (if x.a.res || x.b.res then 4 else 1)

/-- R273, R288: at a K-step boundary the operand-bus spares that are due are mapped, and their counts start afresh. -/
def obusMap (k : Column) : Column :=
  { k with obSpares := min 64 (k.obSpares + k.obPend.length), obPend := [], obWires := k.obPend.foldl mdel k.obWires }

/-- R291, R373: the operation has no step in flight. -/
def Work.landed (w : Work) : Work := { w with flight := none, first := none }

/-- R240: the slot and the token after a step that faults. -/
def failStep (s : State) (core idx : Nat) (e : Token) (a : Nat) (c : Cause) (d : Dword) : State :=
  failOp ((s.setAcc core e.cslot a { s.acc core e.cslot a with st := .invalid }).modToken core idx fun t =>
    { t with work := t.work.landed }) core idx c d false

/-- R223, R240, R297: an access of a step has failed: it faults the step, or halts the context and leaves the step undone. -/
def stopStep (s : State) (core idx : Nat) (e : Token) (a : Nat) (c : Cause) (d : Dword) (dm : Bool) : State :=
  if haltsContext s (e.site core).who c d then
    haltOp (s.modToken core idx fun t => { t with work := t.work.landed }) core idx c d dm
  else failStep s core idx e a c d

/-- The elements of a step: A by rows, B by columns. -/
def stepElems (s : State) (w : Site) (x : StepIn) (ks : List (Nat × Nat × Nat)) :
    Mem (List (Option Nat) × List (Option Nat)) :=
  let ca := (List.range 128).flatMap fun (i : Nat) => ks.map fun k => [(i : Int), (k.2.1 : Int)]
  let cb := (List.range 64).flatMap fun (c : Nat) => ks.map fun k => [(k.2.2 : Int), (c : Int)]
  (readOpt s w x.a.t.dw ca).bind fun s1 ea => (readOpt s1 w x.b.t.dw cb).bind fun s2 eb => .ok s2 (ea, eb)

/-- R108, R239: the pairs and the masks of an operation's next step, and what the step uses. -/
def readStep (s : State) (w : Site) (prog : Nat) (eacc : Int) : Op → Mem StepIn
  | .mma _ _ _ ta tb sa sb sparse nc wa wb mask =>
    (readPairs s w sa (128 * prog) 128).bind fun s1 pa =>
      (readPairs s1 w sb prog 1).bind fun s2 pb =>
        (readMasks s2 w sparse mask prog).bind fun s3 ms =>
          .ok s3 { j := prog, a := sideOf ta wa, b := sideOf tb wb, pa := pa, pb := pb.headD 0, masks := ms, sparse := sparse,
                   nc := nc, eacc := eacc }
  | _ => .wait

/-- R240: the K indices of a step. -/
def StepIn.ks (x : StepIn) : List (Nat × Nat × Nat) := stepKs x.sparse x.nc x.j x.masks

/-- R273, R289, R290: a step that has the turn starts, or holds the turn until its heat tokens are there. Its tokens are debited,
the armed injections and the errors of the bus fall into its beats, and a double error is kept in `first` for its end. -/
def beginStep (s : State) (core idx : Nat) (e : Token) (x : StepIn) (span : Nat) (nat : List (Nat × Nat)) : State :=
  let nk := x.ks.length
  let cost := stepCost x span (stepCnt x x.ks)
  if heatNow s core < cost then s.modCol core fun k => { k with stalled := some idx }
  else
    let errs := injected (s.core core).col.armed nk ++ nat
    ((chargeUnit s core idx).modCol core fun k =>
      { busCounts (obusMap k) errs nat with
        heat := heatNow s core - cost, heatAt := s.cycle, turn := some e.cslot, stalled := none, armed := [], dummy := false
      }).modToken core idx fun t =>
        { t with started := true, work := { t.work with flight := some (s.cycle + stepCycles x nk), first := busDouble errs } }

/-- R240, R273, R275: the end of a step whose inputs have been read: its checks, then its products and its bound. A double error of the
bus is reported only when no check fails; what it counts and the injection that made it are spent at the step's begin in either case
(assumption 112). -/
def finishStep (s : State) (core idx : Nat) (e : Token) (neg : Bool) (acc n : Nat) (b : Basis) (x : StepIn)
    (ea eb : List (Option Nat)) : State :=
  let v := s.acc core e.cslot acc
  let nk := x.ks.length
  match laneFault x nk ea.toArray eb.toArray with
  | some (c, d) => failStep s core idx e acc c d
  | none =>
    match e.work.first with
    | some w => failStep s core idx e acc .operandBus (stepDetail x.j w (decide (64 ≤ w)))
    | none =>
      let gb := min (2 ^ 64 - 1) (v.gb + stepBound x (stepCnt x x.ks))
      let v1 : AccSlot :=
        { v with res := stepRes b neg x nk ea.toArray eb.toArray v.res, gb := gb, gt := v.gt || guardTrips b gb,
                 st := if n ≤ x.j + 1 then .live else .held }
      (s.setAcc core e.cslot acc v1).modToken core idx fun t => { t with work := { t.work.landed with prog := x.j + 1 } }

/-- R240: the end of the step in flight. -/
def endStep (s : State) (core idx : Nat) (e : Token) (neg : Bool) (acc n : Nat) (b : Basis) (x : StepIn) : State :=
  match stepFault x with
  | some (c, d) => failStep s core idx e acc c d
  | none =>
    match stepElems s (e.site core) x x.ks with
    | .wait => s
    | .bad c d dm => stopStep s core idx e acc c d dm
    | .ok s1 (ea, eb) => finishStep s1 core idx e neg acc n b x ea eb

/-- R218, R289, R290: the operation can start a step: it has one ready, its turn, and the first place among those of its slot, or the
turn that its step has kept. -/
def stepTurn (s : State) (core idx : Nat) (e : Token) : Bool :=
  kReady s (core, idx, e) && mayTurn s core e.cslot e.work.heard (some idx) &&
    (stallHolder s core == some idx || takesTurn s core idx e (turnRivals s core e))

/-- R240, R241, R289: a K-step starts, when it has its turn and its heat tokens; the step in flight ends once its beats have been
sent. -/
def execKStep (core idx : Nat) (s : State) : Host.Outcome State Fault Refusal :=
  let e := s.token core idx
  match e.op with
  | .mma neg acc n _ _ _ _ _ _ _ _ _ =>
    let v := s.acc core e.cslot acc
    let due := match e.work.flight with
      | some t => e.gen != 0 && e.st == .running && e.work.fault.isNone && decide (t ≤ s.cycle)
      | none => stepTurn s core idx e
    if !due then .next s
    else match basisOf s e.ctx v.bid with
      | none => .next (failStep s core idx e acc .badBasis 0)
      | some b =>
        match readStep s (e.site core) e.work.prog v.eacc e.op with
        | .wait => .next s
        | .bad c d dm => .next (stopStep s core idx e acc c d dm)
        | .ok s1 x =>
          .next (if e.work.flight.isSome then endStep s1 core idx e neg acc n b x
            else countSkips (beginStep s1 core idx e x v.span (Config.busErrors s.free)) core idx (turnRivals s core e))
  | _ => .next s

/-- R273: a wire of the operand bus has had its sixteenth correction: its spare is mapped at the next K-step boundary. -/
def execObusWireCountFull (core wire : Nat) (s : State) : Host.Outcome State Fault Refusal :=
  let k := (s.core core).col
  if mget 0 k.obWires wire < 16 ∨ k.obPend.contains wire || decide (64 ≤ k.obSpares + k.obPend.length) then .next s
  else .next (s.modCol core fun k => { k with obPend := k.obPend ++ [wire] })

/-! ## Reconstruction (R277 to R282) -/

/-- R278: what Reconstruct answers. -/
inductive Recon where
  | ok (v : Int)
  | corrected (v : Int) (chan : Nat)
  | overflow
  | uncorrectable
  deriving DecidableEq, Repr

/-- R278: reconstruct the tuple with digits `r`; `erased` is the column's erased channel. -/
def reconstruct (b : Basis) (erased : Option Nat) (gt : Bool) (r : Nat → Nat) : Recon :=
  let live := b.live
  match erased.filter live.contains with
  | some h =>
    let p := projection b (live.filter (· != h)) r
    if p.2 then .ok p.1 else if gt then .overflow else .uncorrectable
  | none =>
    if legitimate b r then .ok (primaryValue b r)
    else if gt then .overflow
    else match live.filter fun h => (projection b (live.filter (· != h)) r).2 with
      | [h] => .corrected (projection b (live.filter (· != h)) r).1 h
      | _ => .uncorrectable

/-- R281: the wire that a correction is attributed to: the only bit in which the digits differ. -/
def wrongBit (got right : Nat) : Option Nat :=
  match (List.range 9).filter fun i => got / 2 ^ i % 2 != right / 2 ^ i % 2 with
  | [i] => some i
  | _ => none

/-- R281, R287: one correction in a column: element `k` received digit `got` of channel `h` where `right` was due. -/
def chargeWire (c : Column) (k h got right : Nat) : Column :=
  let c1 := { c with chCnt := mput c.chCnt h (min 65535 (mget 0 c.chCnt h + 1)) }
  match wrongBit got right with
  | some i =>
    let w := 144 * h + 9 * (k % 16) + i
    { c1 with wires := mput c1.wires w (mget 0 c1.wires w + 1) }
  | none => c1

/-- R285, R286: RCR at the end of a beat, from its events as (element, outcome). -/
def rcrBeat (r : Rcr) (idx acc slot : Nat) (events : List Recon) : Rcr :=
  let corr := events.filterMap fun e => match e with | .corrected _ h => some h | _ => none
  let ovf := (events.filter (· == .overflow)).length
  let unc := (events.filter (· == .uncorrectable)).length
  if corr.isEmpty && ovf = 0 && unc = 0 then r
  else
    let r1 := if r.v then { r with multi := true } else { r with v := true, ftok := idx, facc := acc, fslot := slot }
    { r1 with
      ovf := r.ovf || decide (0 < ovf)
      unc := r.unc || decide (0 < unc)
      ccnt := min 0xFFFF (r.ccnt + corr.length)
      ucnt := min 0xFF (r.ucnt + unc)
      fch := if r.fch = 0xF then corr.headD 0xF else r.fch }

/-! ## Drains (R242 to R245) -/

/-- The digits of element `k` as they reach the reconstruction unit (R270). -/
def received (x : AccSlot) (b : Basis) (k h : Nat) : Nat :=
  (accDigit x h k + mget 0 x.arm (8192 * h + k)) % b.mod h

/-- R243: the epilogue type. -/
def epiTy (fmt : Ty) : Ty := if fmt == .f64 then .f64 else .f32

/-- R243: X × 2^EACC. -/
def drainValue (v eacc : Int) : Fp := if v = 0 then .zero false else .fin v eacc

/-- R103: a code of one floating type in another. -/
def recode (dst src : Ty) (sat : Bool) (c : Nat) : Nat := ((fmtOf dst).ofFp .ne sat ((fmtOf src).decode c)).1

/-- R244: the side row of row `i`: MP, MC and L as .f32 codes. -/
def sideRow (s : State) (w : Site) (par i : Nat) : Mem (Nat × Nat × Nat) :=
  (localRead s w 2 (par + 16 * i) 12).bind fun s1 x => .ok s1 (x % 2 ^ 32, x / 2 ^ 32 % 2 ^ 32, x / 2 ^ 64 % 2 ^ 32)

/-- .f32 minus infinity. -/
def negInf32 : Nat := 0xFF800000

/-- R244: FEXP2 of a difference that is rounded once. -/
def exp2Diff (a b : Nat) : Nat := (fexp2 (fsub f32 .ne false a b).1).1

/-- R244: the statistics of a row over the values `ts`, as .f32 codes: the new MP, MC and L. -/
def rowStat (sat : Bool) (mc l : Nat) (ts : List Nat) : Nat × Nat × Nat :=
  let mx := match ts with | [] => negInf32 | t :: rest => rest.foldl (fun m t => (fminmax f32 true m t).1) t
  let mn := (fminmax f32 true mc mx).1
  let f := if mc = negInf32 then 0 else exp2Diff mc mn
  let sum := ts.foldl (fun a t => (fadd f32 .ne sat a (exp2Diff t mn)).1) 0
  (mc, mn, (fadd f32 .ne sat (fmul f32 .ne sat l f).1 sum).1)

/-- R243: the output code of a type from an exact value. -/
def roundTo (fmt : Ty) (sat : Bool) (x : Fp) : Nat := (intoTy fmt .ne sat x).1

/-- What a drain needs of its operation. -/
structure Drain where
  fmt : Ty
  raw : Bool
  epi : Nat
  sat : Bool
  dst : Tn
  bias : Option Tn
  par : Nat
  row0 : Int
  col0 : Int

/-- R243, R244: the output code of element `k` whose value is `v`, but for .rstat. -/
def drainOut (s : State) (w : Site) (d : Drain) (eacc : Int) (k : Nat) (v : Int) : Mem Nat :=
  let et := epiTy d.fmt
  let x := drainValue v eacc
  let t := ((fmtOf et).ofFp .ne d.sat x).1
  let col : Int := d.col0 + (k % 64 : Nat)
  let out (s : State) (t : Nat) : Mem Nat := .ok s (roundTo d.fmt d.sat ((fmtOf et).decode t))
  match d.epi with
  | 1 =>
    match d.bias with
    | none => out s t
    | some bt => (readOr0 s w bt.dw [col]).bind fun s1 b => out s1 (fadd (fmtOf et) .ne d.sat t (recode et .f32 d.sat b)).1
  | 2 =>
    let lo := recode et .f32 d.sat (d.par % 2 ^ 32)
    let hi := recode et .f32 d.sat (d.par / 2 ^ 32)
    out s (fminmax (fmtOf et) true lo (fminmax (fmtOf et) false t hi).1).1
  | 4 =>
    let pos := [d.row0 + (k / 64 : Nat), col]
    (sideRow s w d.par (k / 64)).bind fun s1 r =>
      let f := if r.1 = negInf32 then 0 else exp2Diff r.1 r.2.1
      (readOr0 s1 w d.dst.dw pos).bind fun s2 o =>
        out s2 (fadd f32 .ne d.sat (fmul f32 .ne d.sat o f).1 t).1
  | _ => .ok s (roundTo d.fmt d.sat x)

/-- The position of element `k` in the destination. -/
def drainPos (d : Drain) (k : Nat) : List Int := [d.row0 + (k / 64 : Nat), d.col0 + (k % 64 : Nat)]

/-- R243: the output codes of elements that have been reconstructed, with their places. A failed element is written as zero. -/
def drainOuts (s : State) (w : Site) (d : Drain) (eacc : Int) : List (Nat × Option Int) → Mem (List (List Int × Nat))
  | [] => .ok s []
  | (k, v) :: rest =>
    (match v with
    | some v => drainOut s w d eacc k v
    | none => Mem.ok s 0).bind fun s1 y =>
      (drainOuts s1 w d eacc rest).bind fun s2 ys => .ok s2 ((drainPos d k, y) :: ys)

/-- R243: write elements that have been reconstructed. -/
def drainWrite (s : State) (w : Site) (d : Drain) (eacc : Int) (vs : List (Nat × Option Int)) : Mem Unit :=
  (drainOuts s w d eacc vs).bind fun s1 ys => writeMany s1 w d.dst ys

/-- R244: the value of an element for .rstat, in .f32. -/
def statValue (d : Drain) (eacc v : Int) : Nat :=
  recode .f32 (epiTy d.fmt) d.sat ((fmtOf (epiTy d.fmt)).ofFp .ne d.sat (drainValue v eacc)).1

/-- R244: a row of .rstat, whose values `vals` are (element, .f32 code), none for a failed element. -/
def statRow (s : State) (w : Site) (d : Drain) (i : Nat) (vals : List (Nat × Option Nat)) : Mem Unit :=
  (sideRow s w d.par i).bind fun s1 r =>
    let st := rowStat d.sat r.2.1 r.2.2 (vals.filterMap (·.2))
    (localWrite s1 w 2 (d.par + 16 * i) 12 fun _ => st.1 + st.2.1 * 2 ^ 32 + st.2.2 * 2 ^ 64).bind fun s2 _ =>
      writeMany s2 w d.dst (vals.map fun e =>
        (drainPos d e.1, match e.2 with
          | some t => roundTo d.fmt d.sat (f32.decode (exp2Diff t st.2.1))
          | none => 0))

/-- The value an outcome stands for. -/
def Recon.value : Recon → Option Int
  | .ok v | .corrected v _ => some v
  | _ => none

/-- R281: what a beat adds to the column's counts. -/
def beatColumn (c : Column) (x : AccSlot) (b : Basis) (outs : List (Nat × Recon)) : Column :=
  outs.foldl (fun c o =>
    match o.2 with
    | .corrected v h => chargeWire c o.1 h (received x b o.1 h) (digit v (b.mod h))
    | _ => c) c

/-- R243: the operation's counts after a beat: overflows, uncorrectable elements, and the first failing element. -/
def beatWork (w : Work) (outs : List (Nat × Recon)) (buf : Map Nat) : Work :=
  let bad := outs.filter fun o => o.2.value.isNone
  { w with
    prog := w.prog + 16
    counts := [w.counts.getD 0 0 + (outs.filter fun o => o.2 == .overflow).length,
               w.counts.getD 1 0 + (outs.filter fun o => o.2 == .uncorrectable).length]
    first := match w.first with | some f => some f | none => bad.head?.map (·.1)
    buf := buf }

/-- R232, R243: the fault of a drain whose last beat is written. -/
def drainFault (w : Work) : Option (Cause × Dword × Bool) :=
  match w.first with
  | none => none
  | some k =>
    let o := w.counts.getD 0 0
    let u := w.counts.getD 1 0
    some (if 0 < o then .residueOvf else .residueUnc,
      BitVec.ofNat 64 (o * 2 ^ 32 + u * 2 ^ 16 + k % 64 * 2 ^ 8 + k / 64), false)

/-- R243: the slot once the last beat is written. -/
def drainedAcc (x : AccSlot) (b : Basis) (z : Bool) : AccSlot :=
  if z then zeroAcc x b x.bid x.eacc else { x with st := .live }

/-- R243, R286: the effects of a beat on the slot, the column, RCR and the token. -/
def finishBeat (s : State) (core idx : Nat) (e : Token) (acc : Nat) (b : Basis) (z raw : Bool)
    (outs : List (Nat × Recon)) (buf : Map Nat) : State :=
  let x := s.acc core e.cslot acc
  let w := beatWork e.work outs buf
  let last := decide (8192 ≤ w.prog)
  let arm := if raw then x.arm else x.arm.filter fun a => !(outs.any fun o => o.1 == a.1 % 8192)
  let x1 := { x with arm := arm }
  let s1 := (chargeUnit s core idx).setAcc core e.cslot acc (if last then drainedAcc x1 b z else x1)
  let s2 := s1.modCore core fun k =>
    { k with col := beatColumn k.col x b outs, rcr := rcrBeat k.rcr idx acc e.cslot (outs.map (·.2)) }
  let er := if raw then (erasedLive s core b).map fun h => ((.channelErased, BitVec.ofNat 64 h, false) : Cause × Dword × Bool)
    else drainFault w
  s2.modToken core idx fun t => { t with started := true, work := if last then { w with fault := er } else w }

/-- R238: one beat of an MRS: 16 elements, digit for digit, and after the last of them the control word. -/
def storeBeat (s : State) (core : Nat) (e : Token) (acc : Nat) (b : Basis) (dst : Tn) (area : Nat) : Mem Unit :=
  let x := s.acc core e.cslot acc
  let w := e.site core
  let ks := (List.range 16).map fun i => e.work.prog + i
  let xs := ks.map fun k => ([((k / 64 : Nat) : Int), ((k % 64 : Nat) : Int)], quadOf b fun h => accDigit x h k)
  (writeMany s w dst xs).bind fun s1 _ =>
    if area = 0 ∨ e.work.prog + 16 < 8192 then .ok s1 () else flatWrite s1 w.who area 16 (accWord x)

/-- R238, R243, R283, R286: one beat of 16 elements. -/
def execDrainBeat (core idx : Nat) (s : State) : Host.Outcome State Fault Refusal :=
  let e := s.token core idx
  match e.op with
  | .mdr acc fmt epi sat z dst bias par row0 col0 =>
    if !(e.active && e.work.accepted && decide (e.work.prog < 8192) && !rangeBlocked s core idx e) then .next s
    else
      let x := s.acc core e.cslot acc
      match basisOf s e.ctx x.bid with
      | none => .next (failOp s core idx .badBasis 0 false)
      | some b =>
        let w := e.site core
        let d : Drain := { fmt := (Ty.ofCode fmt).getD .none, raw := fmt == 0, epi := epi, sat := sat, dst := dst, bias := bias,
                           par := par.toNat, row0 := row0, col0 := col0 }
        let ks := (List.range 16).map fun i => e.work.prog + i
        let finish (outs : List (Nat × Recon)) (buf : Map Nat) (a : Mem Unit) : Host.Outcome State Fault Refusal :=
          match a with
          | .ok s1 _ => .next (finishBeat s1 core idx e acc b z d.raw outs buf)
          | .wait => .next s
          | .bad c i dm => .next (stopOp s core idx c i dm)
        if d.raw then
          finish [] [] (writeMany s w dst (ks.map fun k => (drainPos d k, quadOf b fun h => accDigit x h k)))
        else
          let outs := ks.map fun k => (k, reconstruct b (s.core core).col.erased.head? x.gt (received x b k))
          if epi = 3 then
            let buf := outs.foldl (fun m o => match o.2.value with
              | some v => mput m (o.1 % 64) (statValue d x.eacc v)
              | none => m) e.work.buf
            if e.work.prog / 16 % 4 < 3 then finish outs buf (.ok s ())
            else
              let i := e.work.prog / 64
              finish outs [] (statRow s w d i ((List.range 64).map fun c => (64 * i + c, mfind buf c)))
          else finish outs [] (drainWrite s w d x.eacc (outs.map fun o => (o.1, o.2.value)))
  | .mrs acc dst area =>
    if !(e.active && e.work.accepted && decide (e.work.prog < 8192) && !rangeBlocked s core idx e) then .next s
    else match basisOf s e.ctx (s.acc core e.cslot acc).bid with
      | none => .next (failOp s core idx .badBasis 0 false)
      | some b =>
        match storeBeat s core e acc b dst area with
        | .ok s1 _ => .next (finishBeat s1 core idx e acc b false true [] [])
        | .wait => .next s
        | .bad c i dm => .next (stopOp s core idx c i dm)
  | _ => .next s

/-- R282: a drain wire's count has reached 64: a spare is mapped, or the channel is erased, at the next drain. -/
def execDrainWireCountFull (core ch wire : Nat) (s : State) : Host.Outcome State Fault Refusal :=
  let k := (s.core core).col
  if mget 0 k.wires (144 * ch + wire) < 64 || decide (10 ≤ ch) || decide (144 ≤ wire) || k.pendSpare.contains (ch, wire)
      || k.pendErase.contains ch || k.erased.contains ch then .next s
  else if mget 0 k.spares ch + (k.pendSpare.filter fun p => p.1 == ch).length < 4 then
    .next (s.modCol core fun k => { k with pendSpare := k.pendSpare ++ [(ch, wire)] })
  else .next (s.modCol core fun k => { k with pendErase := k.pendErase ++ [ch] })

/-- R408: the bucket's refill. -/
def execHeatRefill (core : Nat) (s : State) : Host.Outcome State Fault Refusal :=
  .next (s.modCol core fun k => { k with heat := heatNow s core, heatAt := s.cycle })

end Sys2Proof.Machine
end

