-- ==== Sys2Proof/Machine/EngineLife.lean ====
section
/-! DEFINITION. The life of an operation from its start to its terminal state (R213 to R217, R223 to R225): start, completion
with its counter, fault with its record and action, and cancellation. -/

namespace Sys2Proof.Machine

/-! ## Start (R214, R215) -/

/-- The tensors of an operation. -/
def Op.tns : Op → List Tn
  | .cpt d x _ _ _ _ | .cpg _ _ _ d x _ _ | .coll _ _ d x _ _ => [d, x]
  | .cvb _ _ _ d x sc _ => d ++ [x] ++ sc
  | .mrl _ _ t _ | .mrs _ t _ | .relay t _ _ _ _ => [t]
  | .mma _ _ _ a b sa sb _ _ _ _ _ => [a, b] ++ sa.toList ++ sb.toList
  | .mdr _ _ _ _ _ d b _ _ _ => d :: b.toList
  | .mop _ y x _ _ => [y, x]
  | .none | .cpl _ _ _ _ | .mzero _ _ _ => []

/-- R234, R235, R246: the residue tags of a copy or of a reduction name different bases. -/
def badBasisAtStart (e : Token) : Bool :=
  let bids := ((e.op.tns.filter fun t => tagResidue (tTag t.dw)).map fun t => tagBid (tTag t.dw)).eraseDups
  match e.op with
  | .cpt _ _ _ _ _ _ | .cpg _ _ _ _ _ _ _ => decide (2 ≤ bids.length)
  | .coll kind _ _ _ _ _ => decide (kind ≤ 1) && decide (2 ≤ bids.length)
  | _ => false

/-- The operation runs. -/
def startToken (s : State) (core idx : Nat) (f : Work → Work) : State :=
  s.modToken core idx fun e => { e with st := .running, work := f e.work }

/-- The operation runs and has made its first access (R214). -/
def startedToken (s : State) (core idx : Nat) (f : Work → Work) : State :=
  (startToken s core idx f).modToken core idx fun e => { e with started := true }

/-- R399, R400: the first messages of a collective need the links to all other members: a lost one faults it, and it waits while one
retrains. -/
def firstSent (s : State) (core idx : Nat) (o : CollOp) : Option State :=
  let e := s.token core idx
  match (e.peers s).find? fun m => linkTo s m == .lost with
  | some m => some (failOp s core idx .peerDown (BitVec.ofNat 64 m) false)
  | none => if (e.peers s).all fun m => linkTo s m == .up then some (sendFirst s e o) else none

/-- R246, R399, R400, R402: a collective starts: its descriptor is checked, a kept abort faults it before any traffic, its shapes are
checked, and its first messages are sent. While an access of it halts the context it has not started, and reads its descriptor again. -/
def collBegin (s : State) (core idx : Nat) (e : Token) (o : CollOp) : State :=
  if e.work.group ≠ [] then startToken s core idx fun w => { w with heard := s.time, hear := [] }
  else match collStart s core e with
    | .wait => s
    | .bad c i dm =>
      if haltsContext s (e.site core).who c i then haltOp s core idx c i dm
      else failOp (startedToken s core idx id) core idx c i dm
    | .ok s1 none => failOp (startedToken s1 core idx id) core idx .badShape 0 false
    | .ok s1 (some (g, fits)) =>
      match keptAbort s (g.getD 0 0) (g.getD 1 0) with
      | some a =>
        failOp (startedToken { s1 with aborts := s1.aborts.filter (· != a) } core idx id) core idx .peerAbort
          (BitVec.ofNat 64 a.origin) false
      | none =>
        if fits then
          (firstSent (startedToken s1 core idx fun w => { w with group := g, heard := s.time }) core idx o).getD s
        else failOp (startedToken s1 core idx fun w => { w with group := g, accepted := true }) core idx .badShape 0 false

/-- R247, R329: a relayout starts, or resumes. -/
def relayBegin (s : State) (core idx : Nat) (e : Token) : State :=
  match relayStart s core idx e with
  | .wait => s
  | .bad c i dm => stopOp (startedToken s core idx id) core idx c i dm
  | .ok s1 _ => startedToken s1 core idx fun w => { w with accepted := true }

/-- R286: a drain that resumes takes its place among the drains of the core. -/
def mayResume (s : State) (core idx : Nat) (e : Token) : Bool :=
  !(e.cls == 3 && e.work.accepted && decide (e.work.prog < 8192)) || drainFree s core idx

/-- R247, R400: what an operation does at its start. -/
def startEffect (s : State) (core idx : Nat) (e : Token) : State :=
  if badBasisAtStart e && !e.started then failOp (startedToken s core idx id) core idx .badBasis 0 false
  else match e.op with
    | .coll kind rop dst src _ root => collBegin s core idx e { kind := kind, rop := rop, dst := dst, src := src, root := root }
    | .relay _ _ _ _ _ => if e.work.accepted then startToken s core idx id else relayBegin s core idx e
    | _ => if mayResume s core idx e then startToken s core idx id else s

/-- R213 to R215: a pending operation starts, or faults with PRED_FAULT. One that is to be cancelled does not start (R225). -/
def execOperationStart (core idx : Nat) (s : State) : Host.Outcome State Fault Refusal :=
  let e := s.token core idx
  if predFailed s core e then .next (failOp s core idx .predFault 0 false)
  else if startable s core e then .next (startEffect s core idx e)
  else .next s

/-! ## Completion (R216, R217, R236) -/

/-- Every unit of the operation has been performed. -/
def opFinished (s : State) (e : Token) : Bool :=
  match e.op with
  | .mzero _ _ _ | .mrl _ _ _ _ => e.work.accepted
  | .mma _ _ n _ _ _ _ _ _ _ _ _ => e.work.accepted && decide (n ≤ e.work.prog)
  | .mdr _ _ _ _ _ _ _ _ _ _ | .mrs _ _ _ => e.work.accepted && decide (8192 ≤ e.work.prog)
  | .coll _ _ _ _ _ _ => e.work.group != [] && decide (collTotal e ≤ e.work.prog) && e.work.pend.isEmpty
  | .relay _ _ _ _ _ => e.work.accepted && decide (relayTotal e ≤ relayCursor e)
  | _ => !unitsLeft s e

/-- R236: the counts of a conversion are added to its area. -/
def addCounts (s : State) (w : Who) (area : Nat) : List Nat → Mem Unit
  | [] => .ok s ()
  | n :: rest => (flatRmw s w area 8 fun x => (x + n) % 2 ^ 64).bind fun s1 _ => addCounts s1 w (area + 8) rest

/-- R236: the counts of the blocks written go to the count area of a conversion. -/
def convCounts (s : State) (core : Nat) (e : Token) : Mem Unit :=
  match e.op with
  | .cvb _ _ _ _ _ _ area =>
    if area = 0 ∨ e.work.prog = 0 then .ok s () else addCounts s (e.site core).who area ((List.range 3).map fun j => e.work.counts.getD j 0)
  | _ => .ok s ()

/-- R195, R216: what the counter rises by. -/
def increment (e : Token) : Nat :=
  match e.op with
  | .mop _ _ _ _ true => e.work.counts.headD 0
  | _ => e.cinc.toNat

/-- R216: the counter addition. -/
def addCounter (s : State) (core : Nat) (e : Token) : Mem Unit :=
  if e.caddr = 0 then .ok s ()
  else (flatRmw s (e.site core).who e.caddr.toNat 8 fun x => min (x + increment e) (2 ^ 64 - 1)).bind fun s1 _ => .ok s1 ()

/-- R217: the cause of a counter addition that fails. -/
def counterCause (c : Cause) : Cause := if c = .memUnc then .memUnc else .counterFault

/-- The operation has made its last accesses but for the counter's. -/
def settled (s : State) (core idx : Nat) : State :=
  s.modToken core idx fun e => { e with work := { e.work with counts := [], accepted := if e.cls = 5 then false else e.work.accepted } }

/-- R216, R217, R236, R329: the operation has performed its last unit: its counts, its record and its counter, or none while one
of them waits. A lost link to the counter halts the context, and all of it is done again (R399). -/
def opEnd (s : State) (core idx : Nat) (e : Token) : Option State :=
  match (convCounts s core e).bind fun s1 _ => relayFinish s1 core e with
  | .wait => none
  | .bad c i dm => some (stopOp s core idx c i dm)
  | .ok s1 _ =>
    match addCounter s1 core e with
    | .wait => none
    | .bad c i dm =>
      some <| if c = .pageNp ∧ lostLink s (e.site core).who e.caddr.toNat = true then haltOp s core idx c i dm
        else failOp (settled s1 core idx) core idx (counterCause c) i dm
    | .ok s2 _ => some (endToken s2 core idx .done)

/-- R213: the operation has finished and can become done. -/
def canEnd (s : State) (core idx : Nat) (e : Token) : Bool := e.active && opFinished s e && (opEnd s core idx e).isSome

def execOperationDone (core idx : Nat) (s : State) : Host.Outcome State Fault Refusal :=
  let e := s.token core idx
  if e.active && opFinished s e then .next ((opEnd s core idx e).getD s) else .next s

/-! ## Stopping short (R225) -/

/-- R225, R243: a drain that stops leaves its slot live; R44: a matrix operation that is cancelled leaves it invalid. -/
def slotAfterStop (s : State) (core : Nat) (e : Token) (cancel : Bool) : State :=
  match accOf e.op with
  | some a =>
    let q := s.slot core e.cslot
    if !e.work.accepted || q.ctx != e.ctx || q.st == .empty then s
    else if e.cls = 2 then
      if cancel then s.setAcc core e.cslot a { s.acc core e.cslot a with st := .invalid } else s
    else if (s.acc core e.cslot a).st == .held then s.setAcc core e.cslot a { s.acc core e.cslot a with st := .live }
    else s
  | none => s

/-- R225, R236, R329, R402: the effects that a fault or a cancel has beside the token's own; none while one of them waits. Counts
that cannot be added are lost. -/
def stopShort (s : State) (core : Nat) (e : Token) (cancel : Bool) : Option State :=
  let counted : Option State := match convCounts s core e with | .ok s1 _ => some s1 | .wait => none | .bad _ _ _ => some s
  counted.bind fun s1 => (relayStop (slotAfterStop s1 core e cancel) core e).map fun s2 => sendAborts s2 e

/-! ## Faults (R223, R224) -/

/-- R224: the fault record. -/
def faultRecord (s : State) (core idx : Nat) (e : Token) (c : Cause) (detail : Dword) : List Byte :=
  natBytes 32 ((e.word core idx).toNat + c.code * 2 ^ 32 + e.tag.toNat * 2 ^ 48 + s.cycle * 2 ^ 64 + detail.toNat * 2 ^ 128
    + (min e.work.prog (2 ^ 32 - 1) + e.cls * 2 ^ 32 + e.owner * 2 ^ 36 + e.det.toNat * 2 ^ 42 + e.orph.toNat * 2 ^ 43
      + e.fact.toNat * 2 ^ 44 + e.cslot * 2 ^ 46 + e.ctx * 2 ^ 48) * 2 ^ 192)

/-- R223, R266: the record goes to the ring, or is lost; none while the write waits. -/
def recordFault (s : State) (core idx : Nat) (e : Token) (c : Cause) (detail : Dword) : Option State :=
  match s.ctx? e.ctx with
  | none => some s
  | some k =>
    if k.frsize = 0 ∨ k.frsize ≤ ringUsed k false then some (s.modCtx e.ctx fun k => { k with frlost := k.frlost + 1 })
    else ringWrite s e.ctx core e.cslot false (faultRecord s core idx e c detail)

/-- R223, R226, R371: the fault action. A context that neither runs nor halts is marked to halt when it is restored. -/
def faultAction (s : State) (core idx : Nat) (e : Token) (c : Cause) (detail : Dword) (dm : Bool) : State :=
  match e.fact.toNat with
  | 1 =>
    if e.attached then modOwner s core e fun x => { x with owed := x.owed ++ [(e.word core idx, c.code)] } else s
  | 2 => postOpHalt s core e c detail dm 1
  | _ => s

/-- R223: an operation that has met a fault writes its record, becomes faulted and applies its fault action. -/
def execOperationFault (core idx : Nat) (s : State) : Host.Outcome State Fault Refusal :=
  let e := s.token core idx
  match e.work.fault with
  | none => .next s
  | some (c, detail, dm) =>
    if e.gen = 0 ∨ !(e.st == .pending || e.st == .running) then .next s
    else match (recordFault s core idx e c detail).bind fun s1 => stopShort s1 core e false with
      | none => .next s
      | some s2 =>
        let s3 := s2.modToken core idx fun t => { t with cause := c.code, detail := detail, dm := dm }
        .next (faultAction (endToken s3 core idx .faulted) core idx e c detail dm)

/-! ## Cancellation (R225) -/

/-- R213, R225: the cancellation of a token that is not terminal, or nothing while an effect of it waits. -/
def cancelToken (s : State) (core idx : Nat) : State :=
  let e := s.token core idx
  match stopShort s core e true with
  | some s1 => endToken s1 core idx .cancelled
  | none => s

/-- R213, R225: the cancellation takes effect, unless the operation ends first: done, or faulted. A copy that runs first completes the
destination lines that it has begun. -/
def execOperationCancelled (core idx : Nat) (s : State) : Host.Outcome State Fault Refusal :=
  let e := s.token core idx
  if e.gen != 0 && e.cancel && !e.st.terminal && e.work.fault.isNone && !predFailed s core e && !canEnd s core idx e
      && !(e.active && lineBegun e) then
    .next (cancelToken s core idx)
  else .next s

end Sys2Proof.Machine
end

