-- ==== Sys2Proof/Machine/Token.lean ====
section
/-! DEFINITION. The token and task instructions (R250 to R262): DETACH, ADOPT, CANCEL, PRIO, TSTAT, SUSPEND with its
continuations, and SPAWN. -/

namespace Sys2Proof.Machine

/-! ## Token control (R252 to R256) -/

/-- Write D and complete. -/
def doneWith (s : State) (r : Ref) (x : Strand) (d : Opnd) (n : Nat) : Res :=
  .done (s.setStrand r (writeUni d (BitVec.ofNat 64 n) x)) 0

/-- R251: the token operand of an instruction. -/
def tokenArg (s : State) (r : Ref) (x : Strand) (f : T3) : Word := BitVec.ofNat 32 (uniOp s r x f.a)

def execDetach (f : T3) (s : State) : Host.Outcome State Fault Refusal :=
  issue (.detach f) s fun s r x =>
    match resolve s r.core x.slot (tokenArg s r x f) with
    | .current i =>
      let e := s.token r.core i
      if e.owner = r.strid ∧ e.attached = true then
        doneWith (s.modToken r.core i fun e => { e with det := true }) r
          (if e.st.terminal then x else x.subCount e.cls 1) f.d 1
      else doneWith s r x f.d 0
    | _ => doneWith s r x f.d 0

/-- R253: the orphans that an adopting strand takes. -/
def adoptable (s : State) (r : Ref) (x : Strand) : List Nat :=
  ((s.core r.core).tokens.filter fun e =>
    e.2.gen != 0 && e.2.orph && !e.2.ringed && e.2.owner == r.strid && e.2.cslot == x.slot && e.2.ctx == x.ctx).map (·.1)

def execAdopt (f : T3) (s : State) : Host.Outcome State Fault Refusal :=
  issue (.adopt f) s fun s r x =>
    match s.team? r.core x.tslot with
    | some t =>
      if t.adopter = r.strid then
        let ids := adoptable s r x
        let s1 := ids.foldl (fun s i => s.modToken r.core i fun e => { e with orph := false }) s
        let y := ids.foldl (fun (y : Strand) i =>
          let e := s.token r.core i
          if e.st.terminal then y else y.addCount e.cls 1) x
        doneWith s1 r y f.d ids.length
      else doneWith s r x f.d 0
    | none => doneWith s r x f.d 0

def execCancel (f : T3) (s : State) : Host.Outcome State Fault Refusal :=
  issue (.cancel f) s fun s r x =>
    let t := tokenArg s r x f
    match resolve s r.core x.slot t with
    | .current i =>
      if (s.token r.core i).st.terminal then doneWith s r x f.d 0
      else
        let s1 := s.modToken r.core i fun e => { e with cancel := true }
        if f.opx.getLsbD 0 then startWait s1 r { x with wait := .cancel t f.d } else doneWith s1 r x f.d 1
    | _ => doneWith s r x f.d 0

/-- R254: a CANCEL.wait ends. -/
def execCancelWaitEnd (core strid : Nat) (s : State) : Host.Outcome State Fault Refusal :=
  let r : Ref := { core := core, strid := strid }
  match s.strand? r with
  | none => .next s
  | some x =>
    match x.wait with
    | .cancel t d =>
      let e := s.token core (tokIdx t)
      if e.st.terminal && mayRun s r { x with wait := .none } then
        .next (endWait s r x d (if e.st == .cancelled then 1 else 0))
      else .next s
    | _ => .next s

/-- R255: PRIO. The detail 0 of its BAD_PARAM is the model's (assumption 110). -/
def execPrio (f : T3) (s : State) : Host.Outcome State Fault Refusal :=
  issue (.prio f) s fun s r x =>
    let n := uniOp s r x f.b
    if 4 ≤ n then .trap .badParam 0
    else match resolve s r.core x.slot (tokenArg s r x f) with
      | .current i =>
        if (s.token r.core i).st.terminal then doneWith s r x f.d 0
        else doneWith (s.modToken r.core i fun e => { e with prio := BitVec.ofNat 2 n }) r x f.d 1
      | _ => doneWith s r x f.d 0

/-- R256: the summary of a token. -/
def tokenSummary (s : State) (r : Ref) (n : Named) : Nat :=
  match n with
  | .null => 3 * 2 ^ 62 + 3 * 2 ^ 29
  | .foreign => 2 * 2 ^ 62
  | .stale => 2 ^ 62
  | .current i =>
    let e := s.token r.core i
    e.tag.toNat * 2 ^ 32 + e.st.code * 2 ^ 29 + e.cls * 2 ^ 25 + e.prio.toNat * 2 ^ 23 + e.det.toNat * 2 ^ 22
      + e.orph.toNat * 2 ^ 21 + (if e.owner = r.strid then 1 else 0) * 2 ^ 20 + e.cause

def execTstat (f : T3) (s : State) : Host.Outcome State Fault Refusal :=
  issue (.tstat f) s fun s r x =>
    let n := resolve s r.core x.slot (tokenArg s r x f)
    let sel := bitsOf f.opx 0 3
    let v := if sel = 4 then tokenSummary s r n
      else match n with
        | .current i => ((s.token r.core i).dwords.getD sel 0).toNat
        | _ => 0
    doneWith s r x f.d v

/-! ## Continuations (R257 to R260) -/

/-- R257, R258: STATE of a token as a block records it; none while the token is not terminal. -/
def contState (s : State) (core slot : Nat) (t : Word) : Option Nat :=
  match resolve s core slot t with
  | .null => some 3
  | .foreign | .stale => some 0
  | .current i => if (s.token core i).st.terminal then some (s.token core i).st.code else none

/-- R259: the task record of a block. -/
def contRecord (rpc block : Nat) (t : Word) (st : Nat) : List Word :=
  [BitVec.ofNat 32 rpc, BitVec.ofNat 32 (3 * 2 ^ 30 + block % 2 ^ 28), t, BitVec.ofNat 32 st, 0, 0, 0, 0]

/-- R259, R362: push one continuation of a context, behind those that wait. -/
def pushCont (s : State) (ctx : Nat) (p : Susp) (slot : Nat) (w : List Word) : State :=
  let cl := clusterOf p.core
  let wait (s : State) : State := s.modQueue cl p.queue fun k => { k with waiting := k.waiting ++ [.cont ctx p.core p.tok w] }
  if !(s.queue cl p.queue).waiting.isEmpty then wait s
  else match push s cl p.queue p.core w with
    | .ok s1 => s1
    | .full | .wait => wait s
    | .fault s1 c i dm => ringFault (wait s1) cl p.queue p.core slot c i dm

/-- R259: the blocks of one SUSPEND, in ascending SLANE order. A write of STATE that faults halts the context (SRC 6), and the
blocks not yet queued stay owed. -/
def pushBlocks (s : State) (ctx : Nat) (p : Susp) (st : Nat) : List Nat → State × List Nat
  | [] => (s, [])
  | b :: rest =>
    let base := match s.ctx? ctx with | some c => c.contbase | none => 0
    match flatWrite s (hwWho ctx p.core) (base + 128 * b + 20) 4 st with
    | .ok s1 _ => pushBlocks (pushCont s1 ctx p p.slot (contRecord p.rpc b p.tok st)) ctx p st rest
    | .bad c i dm =>
      (postHalt s ctx { cause := c, tinfo := i, src := 6, core := p.core, slot := p.slot, dm := dm }, b :: rest)
    | .wait => (s, b :: rest)

/-- R260: when the token of a SUSPEND became terminal; one that names no entry was so from the start. -/
def suspEnded (s : State) (p : Susp) : Nat :=
  match resolve s p.core p.slot p.tok with | .current i => (s.token p.core i).ended | _ => 0

/-- R260: a SUSPEND takes its place among those whose token became terminal no later. -/
def placeSusp (s : State) (p : Susp) : List Susp → List Susp
  | [] => [p]
  | o :: rest => if suspEnded s o ≤ suspEnded s p then o :: placeSusp s p rest else p :: o :: rest

/-- R259, R260: SUSPENDs in the order in which their tokens became terminal, then of issue. -/
def bySuspEnd (s : State) (l : List Susp) : List Susp := l.foldl (fun acc p => placeSusp s p acc) []

/-- R259: queue the continuations of SUSPENDs in order, up to the first that cannot be queued whole: it keeps the blocks left,
and those after it wait behind it. -/
def pushSusps (s : State) (ctx : Nat) : List Susp → State
  | [] => s
  | p :: rest =>
    match contState s p.core p.slot p.tok with
    | none => pushSusps s ctx rest
    | some st =>
      let a := pushBlocks s ctx p st p.blocks
      if a.2.isEmpty then pushSusps (a.1.modCtx ctx fun c => { c with susp := c.susp.erase p }) ctx rest
      else a.1.modCtx ctx fun c => { c with susp := c.susp.map fun o => if o = p then { p with blocks := a.2 } else o }

/-- R259, R260: the continuations of a context owed by the SUSPENDs that `sel` names. -/
def pushOwed (s : State) (ctx : Nat) (sel : Susp → Bool) : State :=
  match s.ctx? ctx with
  | none => s
  | some c => pushSusps s ctx (bySuspEnd s (c.susp.filter sel))

/-- R258: the bytes of a block. -/
def blockNat (x : Strand) (t : Word) (mask rb l : Nat) : Nat :=
  x.pc + 1 + (mask * 2 ^ 16 + rb) * 2 ^ 32 + t.toNat * 2 ^ 64 + (x.role * 2 ^ 10 + l) * 2 ^ 96
    + (List.range 16).foldl (fun a i =>
        if mask / 2 ^ i % 2 = 1 then a + (x.vreg l (rb + i)).toNat * 2 ^ (32 * (8 + i)) else a) 0

def writeBlocks (s : State) (w : Who) (base : Nat) (g : Nat → Nat) : List (Nat × Nat) → Mem Unit
  | [] => .ok s ()
  | (b, l) :: rest => (flatWrite s w (base + 128 * b) 128 (g l)).bind fun s1 _ => writeBlocks s1 w base g rest

/-- R257: the first register of the window that is not below the task budget. -/
def overBudget (rb mask tbud : Nat) : Option Nat :=
  ((List.range 16).map fun i => (i, rb + i)).findSome? fun e =>
    if mask / 2 ^ e.1 % 2 = 1 ∧ tbud ≤ e.2 then some e.2 else none

/-- R256 to R260. The continuation's PC is checked first (R57, assumption 22). The outstanding instructions settle before the
registers are saved (R68). -/
def suspendBody (f : T3) : State → Ref → Strand → Res := fun s r x =>
  let mask := bitsOf f.opx 0 16
  let q := bitsOf f.opx 16 2
  let rb := if mask = 0 then 0 else Opnd.vIndex f.b
  let t := tokenArg s r x f
  match s.ctx? x.ctx with
  | none => .done s 0
  | some c =>
    if !pcOk (x.pc + 1 : Nat) then .halt .pcRange 0 false
    else if !ownsQueue s x r.core q then .trap .badQueue (BitVec.ofNat 64 q)
    else match overBudget rb mask c.tbud with
      | some v => .trap .badParam (BitVec.ofNat 64 v)
      | none =>
        let lanes := x.activeLanes
        if c.contsize = 0 then .trap .contFull 0
        else if !settledNow x s.cycle then .stall
        else
          let y := settle x
          let w := hwWho x.ctx r.core
          match flatRead s w (c.contbase + 4) 4 with
          | .wait => .stall
          | .bad e i dm => .halt e i dm
          | .ok s1 free =>
            if free < lanes.length then .trap .contFull (BitVec.ofNat 64 free)
            else
              match (takeBlocks s1 w c.contbase lanes.length).bind fun s2 bs =>
                  (writeBlocks s2 w c.contbase (blockNat y t mask rb) (bs.zip lanes)).bind fun s3 _ => .ok s3 bs with
              | .wait => .stall
              | .bad e i dm => .halt e i dm
              | .ok s2 bs =>
                let p : Susp := { core := r.core, slot := x.slot, tok := t, queue := q, rpc := x.pc + 1, blocks := bs }
                let s3 := s2.modCtx x.ctx fun c => { c with susp := c.susp ++ [p] }
                afterLeaving (pushOwed s3 x.ctx fun o => o.core == r.core && o.slot == x.slot && o.tok == t) r y x.active

def execSuspend (f : T3) (s : State) : Host.Outcome State Fault Refusal := issue (.suspend f) s (suspendBody f)

/-- The slot of a core runs a context. -/
def slotRuns (s : State) (ctx core slot : Nat) : Bool :=
  let q := s.slot core slot
  q.st == .running && q.ctx == ctx && !q.line && !q.freezing

/-- R259: a token has become terminal: the continuations tied to it are queued, where its slot runs. -/
def execContinuationPush (core idx : Nat) (s : State) : Host.Outcome State Fault Refusal :=
  .next (s.ctxs.foldl (fun s c =>
    pushOwed s c.1 fun p => p.core == core && tokIdx p.tok == idx && decide (p.slot < 2) && slotRuns s c.1 core p.slot) s)

/-! ## SPAWN (R262) -/

def spawnBody (f : T3) : State → Ref → Strand → Res := fun s r x =>
  let va := uniOp s r x f.a
  if !vaOk va then .halt .vaRange (BitVec.ofNat 64 va) false
  else if va % 256 ≠ 0 then .trap .misalign (BitVec.ofNat 64 va)
  else match flatRead s (x.who r) va 256 with
    | .ok s1 n => startWait s1 r { x with wait := .spawn (natBytes 256 n) f.d }
    | .wait => .stall
    | .bad c i dm => .halt c i dm

def execSpawn (f : T3) (s : State) : Host.Outcome State Fault Refusal := issue (.spawn f) s (spawnBody f)

/-- R262: the record has been read: it is checked and submitted. -/
def execSpawnReadDone (core strid : Nat) (s : State) : Host.Outcome State Fault Refusal :=
  let r : Ref := { core := core, strid := strid }
  match s.strand? r with
  | none => .next s
  | some x =>
    match x.wait with
    | .spawn bytes d =>
      let y := { x with wait := .none }
      if !mayRun s r y then .next s
      else
        let n := leNat bytes
        let rec_ := (List.range 32).map fun i => (BitVec.ofNat 64 (n / 2 ^ (64 * i)) : Dword)
        (match submit s rec_ (if x.pl == 0 then some x.ctx else none) with
        | .refused off => .next (takeTrap (s.setStrand r y) r y y.pc y.active .badLaunch (BitVec.ofNat 64 off))
        | .busy => .next (endWait s r x d 0)
        | .yes s1 => .next (endWait s1 r x d 1))
    | _ => .next s

end Sys2Proof.Machine
end

