-- ==== Sys2Proof/Machine/Slots.lean ====
section
/-! DEFINITION. What happens to a slot as a whole: parking (R213, R225, R373), freezing (R268, R382), stop records (R374 to
R376), the halt controller (R371, R372, R380), killing (R227, R378), saving and restoring (R226, R381 to R383, R387), and
resuming (R377). -/

namespace Sys2Proof.Machine

/-! ## Parking (R213, R225, R373) -/

/-- The token-table entries of a slot that belong to the slot's context. -/
def slotTokens (s : State) (core slot ctx : Nat) : List Nat :=
  ((s.core core).tokens.filter fun t => t.2.gen != 0 && t.2.cslot == slot && t.2.ctx == ctx).map (·.1)

/-- R213, R380: an operation parks unless it ends first: by a fault it has met, by its cancellation, or because it is done. -/
def parks (s : State) (core idx : Nat) (e : Token) : Bool :=
  (e.st == .pending || e.st == .running) && e.work.fault.isNone && !predFailed s core e && !e.cancel && !canEnd s core idx e

/-- R213, R373: an operation parks. A halt abandons its step in flight; a freeze lets the step end first. -/
def parkToken (s0 : State) (core idx : Nat) (halt : Bool) : State :=
  let s := if parks s0 core idx (s0.token core idx) then blockBoundary s0 core idx else s0
  let e := s.token core idx
  if !parks s core idx e || (!halt && e.work.flight.isSome) then s
  else s.setToken core idx
    { e with st := .parked, started := false, stuck := false, work := if e.work.flight.isSome then e.work.landed else e.work }

def parkTokens (s : State) (core slot ctx : Nat) (halt : Bool) (sel : Token → Bool) : State :=
  (slotTokens s core slot ctx).foldl (fun s i => if sel (s.token core i) then parkToken s core i halt else s) s

/-- R225: the classes that a freeze parks. -/
def freezeParks (e : Token) : Bool := e.cls == 2 || e.cls == 3 || e.cls == 5

/-- R213, R377: parked entries return to pending, and an access that halted the context is made again. -/
def unpark (s : State) (core slot ctx : Nat) : State :=
  (slotTokens s core slot ctx).foldl (fun s i =>
    s.modToken core i fun e => { e with st := if e.st == .parked then .pending else e.st, stuck := false }) s

/-! ## Freezing (R268, R380) -/

/-- R206, R268, R437: a strand in a wait is saved at that instruction, which runs again; one in BAR or SYNCG, or whose records wait
for room, has completed its arrival and waits on. -/
def restWait : Wait → Wait
  | .bar b p => .bar b p
  | .push q rs => .push q rs
  | .syncg => .syncg
  | _ => .none

/-- Change every strand of a slot. -/
def modStrands (s : State) (core slot : Nat) (f : Nat → Strand → Strand) : State :=
  s.modCore core fun k =>
    { k with strands := k.strands.map fun e => if e.2.slot == slot then (e.1, f e.1 e.2) else e }

/-- R390: HALT tells both nodes of a context that has no RUNNING slot any more. -/
def haltMessage (s : State) (ctx : Nat) (h : HaltInfo) : State :=
  if runsSomewhere s ctx then s
  else sendBoth s 0x83 ctx [BitVec.ofNat 64 (h.cause.code * 2 ^ 32), BitVec.ofNat 64 ((!h.fatal).toNat * 2 ^ 43)]

/-- A strand once its slot is frozen: what it was waiting for is executed again, and a trap owed waits for the end of that wait
(R34). -/
def restStrand (x : Strand) : Strand :=
  let w := restWait x.wait
  { x with wait := w, rewait := x.rewait || w != x.wait, withheldAt := none }

/-- R226: the operations of a slot that is frozen make an access again that halted the context. -/
def unstick (s : State) (core slot ctx : Nat) : State :=
  (slotTokens s core slot ctx).foldl (fun s i => s.modToken core i fun e => { e with stuck := false }) s

/-- R68, R268, R380: once every strand has settled and no step is in flight, the slot is FROZEN and its strands leave their issue
slots. A halt of the context whose line has not arrived marks it. -/
def tryFreeze (s : State) (core slot : Nat) : State :=
  let q := s.slot core slot
  if !(q.st == .running && q.freezing && !q.line) then s
  else
    let s0 := (slotStrands s core slot).foldl (fun s e =>
      if e.2.stopped then s else performAll s { core := core, strid := e.1 }) s
    let s1 := parkTokens s0 core slot q.ctx false freezeParks
    let xs := slotStrands s1 core slot
    if !(xs.all fun e => settledNow e.2 s1.cycle) || (slotTokens s1 core slot q.ctx).any fun i => (s1.token core i).work.flight.isSome then s1
    else
      let s2 := xs.foldl (fun s e => unbindStrand s { core := core, strid := e.1 } e.2.islot) s1
      let s3 := (modStrands (unstick s2 core slot q.ctx) core slot fun _ x => settle x).modSlot core slot fun q =>
        { q with st := .frozen, freezing := false }
      match (s.ctx? q.ctx).bind (·.halt) with
      | none => s3
      | some h => haltMessage (markSlot s3 core slot q.ctx (h.cause, h.dm)) q.ctx h

/-- R204, R225, R268, R382: the freeze of a RUNNING slot takes effect. -/
def freezeSlot (s : State) (core slot : Nat) : State :=
  let s1 := (modStrands s core slot fun _ => restStrand).modSlot core slot fun q => { q with freezing := true, pausedAt := s.cycle }
  tryFreeze s1 core slot

/-! ## Stop records (R374 to R376) -/

/-- R374: a 64-byte record of the halt area, its first two doublewords common to all. -/
def stopRecord (kind ctx core slot clk : Nat) (c : Cause) (rest : List Nat) : List Byte :=
  natBytes 64 (((kind * 2 ^ 60 + c.code * 2 ^ 32 + ctx * 2 ^ 16 + core * 2 ^ 8 + slot * 2 ^ 7) :: clk :: rest).zipIdx.map
    fun e => e.1 % 2 ^ 64 * 2 ^ (64 * e.2)).sum

/-- R374: the doublewords of the header. -/
def headerDwords (h : HaltInfo) (nstr nops : Nat) : List Nat :=
  let named := h.src = 0 ∨ h.src = 1 ∨ h.src = 6
  [ nstr * 2 ^ 32 + nops
  , h.tinfo.toNat
  , min h.later 65535 * 2 ^ 48 + h.src * 2 ^ 44 + (!h.fatal).toNat * 2 ^ 43
      + (if named then h.core * 2 ^ 8 + h.slot * 2 ^ 7 else 0) ]

/-- R372, R437: the stop PC. A wait that has issued lies behind it. -/
def stopPc (x : Strand) : Nat :=
  match x.wait with
  | .none | .bar _ _ | .push _ _ => x.pc
  | _ => match advance x with | some y => y.pc | none => x.pc

/-- R375: the doublewords of a strand's record in the halt `h`. -/
def strandDwords (s : State) (h : HaltInfo) (core i : Nat) (x : Strand) : List Nat :=
  let bars := match s.team? core x.tslot with | some t => t.bars | none => []
  let wait : Nat := match x.wait with
    | .bar b _ =>
      let k := mget Bar.zero bars b
      2 ^ 63 + b * 2 ^ 59 + k.expected * 2 ^ 53 + k.arrivals * 2 ^ 47 + k.roles.toNat * 2 ^ 43
    | .token t _ => t.toNat
    | _ => 0
  [ stopPc x * 2 ^ 32 + i * 2 ^ 26 + x.role * 2 ^ 24 + x.tslot * 2 ^ 19
  , min 8 (x.llo + x.held.length) * 2 ^ 60 + x.ssw.toNat
  , (Mask.summary x.live).toNat * 2 ^ 32 + (Mask.summary x.active).toNat
  , wait
  , if x.stopped ∧ h.core = core ∧ h.slot = x.slot ∧ h.strid = some i then x.stinfo.toNat else 0 ]

/-- R376: the doublewords of an operation's record. -/
def opDwords (core idx : Nat) (e : Token) : List Nat :=
  let runs := e.cls = 4 ∧ (e.st = .running ∨ e.st = .pending)
  [ (e.word core idx).toNat * 2 ^ 32 + e.cls * 2 ^ 28 + (if runs then TokSt.running.code else e.st.code) * 2 ^ 25
      + (if runs then 2 ^ 24 else 0)
  , e.work.prog
  , if e.st == .faulted then e.detail.toNat else 0 ]

/-- R374: write record `n` of a slot's halt area. -/
def writeStop (s : State) (core slot n : Nat) (r : List Byte) : State :=
  let a := (s.slot core slot).savebase + 64 * n
  if physOk a then storeBytes s a r else s

/-- Write records in order from number `n`. -/
def writeStops (s : State) (core slot n : Nat) : List (List Byte) → State
  | [] => s
  | r :: rest => writeStops (writeStop s core slot n r) core slot (n + 1) rest

/-- R372, R375: the halt line arrives at a slot: its strands stop and their records are formed, its operations park, and a
freeze not yet complete ends. -/
def lineArrives (s : State) (core slot : Nat) : State :=
  let q := s.slot core slot
  match (s.ctx? q.ctx).bind (·.halt) with
  | none => s
  | some h =>
    let ops := (slotTokens s core slot q.ctx).filter fun i => !(s.token core i).st.terminal
    let s1 := s.modSlot core slot fun q => { q with line := true, freezing := false, lineOps := ops }
    let s2 := parkTokens s1 core slot q.ctx true fun e => e.cls != 4 || s.pfail
    writeStops s2 core slot 1 ((slotStrands s2 core slot).map fun e =>
      stopRecord 2 q.ctx core slot s.cycle h.cause (strandDwords s2 h core e.1 e.2))

/-- R213, R372, R373: every operation of the slot has stopped, or runs on into memory. -/
def opsStopped (s : State) (core slot ctx : Nat) : Bool :=
  (slotTokens s core slot ctx).all fun i =>
    let e := s.token core i
    e.st.terminal || (e.work.fault.isNone && !e.cancel && (e.st == .parked || (e.cls == 4 && !s.pfail && !canEnd s core i e)))

/-- R374, R376: the operation records and the header are written, and the slot is HALTED. -/
def becomeHalted (s : State) (core slot : Nat) : State :=
  let q := s.slot core slot
  match (s.ctx? q.ctx).bind (·.halt) with
  | none => s
  | some h =>
    let n := (slotStrands s core slot).length
    let s1 := writeStops s core slot (n + 1) (q.lineOps.map fun i =>
      stopRecord 3 q.ctx core slot s.cycle h.cause (opDwords core i (s.token core i)))
    let s2 := writeStop s1 core slot 0 (stopRecord 1 q.ctx core slot s.cycle h.cause (headerDwords h n q.lineOps.length))
    haltMessage (s2.modSlot core slot fun q => { q with st := .halted, line := false, lineOps := [] }) q.ctx h

/-! ## The halt controller (R371, R380) -/

/-- R371: what a cause makes of a halt in force, or the halt it begins. -/
def joinHalt (lasting : Bool) (old : Option HaltInfo) (h : HaltReq) : HaltInfo :=
  let fatal := !h.cause.resumable h.dm lasting
  match old with
  | some o => { o with later := o.later + 1, fatal := o.fatal || fatal }
  | none => { cause := h.cause, tinfo := h.tinfo, src := h.src, core := h.core, slot := h.slot, dm := h.dm,
              strid := h.strid, later := 0, fatal := fatal, since := h.at_ }

/-- The slots of a context in a state, as (core, slot). -/
def slotsIn (s : State) (ctx : Nat) (sel : Slot → Bool) : List (Nat × Nat) :=
  s.cores.flatMap fun k => (k.2.slots.filter fun q => q.2.ctx == ctx && q.2.st != .empty && sel q.2).map fun q => (k.1, q.1)

/-- R380: the SHADOW and FROZEN slots of a context are marked. -/
def markIdle (s : State) (ctx : Nat) (c : Cause × Bool) : State :=
  (slotsIn s ctx fun q => q.st == .shadow || q.st == .frozen).foldl (fun s p => markSlot s p.1 p.2 ctx c) s

/-- R371, R374: the header of a HALTED slot of the context counts a later cause, and says whether the halt is still resumable. -/
def recountHeader (s : State) (h : HaltInfo) (core slot : Nat) : State :=
  let a := (s.slot core slot).savebase
  if physOk a then storeNat s (a + 32) 8 ((headerDwords h 0 0).getD 2 0) else s

/-- R371: the headers that a context's halt has written count its later causes. -/
def recountHeaders (s : State) (ctx : Nat) : State :=
  match (s.ctx? ctx).bind (·.halt) with
  | none => s
  | some h => (slotsIn s ctx fun q => q.st == .halted).foldl (fun s p => recountHeader s h p.1 p.2) s

/-- R371: the controller takes the next cause of a context. With no slot RUNNING the cause only marks what is frozen. -/
def takeHalt (s : State) (ctx : Nat) : State :=
  match s.ctx? ctx with
  | none => s
  | some c =>
    match c.haltQ with
    | [] => s
    | h :: rest =>
      let s1 := s.setCtx ctx { c with haltQ := rest }
      if c.halt.isNone && !runsSomewhere s ctx then
        if (slotsIn s ctx fun q => q.st == .halted).isEmpty then markIdle s1 ctx (h.cause, h.dm) else s1
      else
        let s2 := if c.halt.isNone then markIdle s1 ctx (h.cause, h.dm) else s1
        recountHeaders (s2.modCtx ctx fun c => { c with halt := some (joinHalt c.persistent c.halt h) }) ctx

/-! ## Emptying and killing (R24, R227, R378) -/

/-- R24: the slot becomes EMPTY: its strands and teams are gone, and so are its injections. A push that waits keeps its place
when its strand has been saved (R363). -/
def emptySlot (s : State) (core slot : Nat) : State :=
  let xs := slotStrands s core slot
  let s1 := xs.foldl (fun s e => unbindStrand s { core := core, strid := e.1 } e.2.islot) s
  let gone (r : Ref) : Bool := r.core == core && xs.any fun e => e.1 == r.strid
  let s2 := s1.modCore core fun k =>
    { k with
      strands := k.strands.filter fun e => e.2.slot != slot
      teams := k.teams.filter fun e => e.2.slot != slot
      einjq := k.einjq.filter fun j => j.cslot != slot
      slots := mput k.slots slot { Slot.reset with saves := (mget Slot.reset k.slots slot).saves } }
  s2.modCluster (clusterOf core) fun k => { k with queues := k.queues.map fun e => (e.1, { e.2 with
    claims := e.2.claims.filter fun c => !gone c.1 }) }

/-- R260: the continuations of a context that wait for ring room are discarded. -/
def dropConts (s : State) (ctx : Nat) : State :=
  { s with clusters := s.clusters.map fun k => (k.1, { k.2 with queues := k.2.queues.map fun q => (q.1, { q.2 with
      waiting := q.2.waiting.filter fun p => match p with | .cont c _ _ _ => c != ctx | .strand _ => true }) }) }

/-- R260: the continuations that a context owes are discarded. -/
def dropOwed (s : State) (ctx : Nat) : State := (dropConts s ctx).modCtx ctx fun c => { c with susp := [] }

/-- R213, R225, R378: the operations of a killed context are cancelled, all in one step (assumption 108), but for one that has met a
fault, or whose predecessor has failed: that one ends faulted. -/
def cancelAll (s : State) (ctx : Nat) : State :=
  { s with cores := s.cores.map fun k => (k.1, { k.2 with tokens := k.2.tokens.map fun t => (t.1,
      if t.2.gen != 0 && t.2.ctx == ctx && !t.2.st.terminal then
        { t.2 with cancel := true, work :=
            if predFailed s k.1 t.2 then { t.2.work with fault := some (.predFault, 0, false) } else t.2.work }
      else t.2) }) }

/-- R260, R378: kill a context. One that runs halts first (R371). -/
def killContext (s : State) (ctx : Nat) (c : Cause) (info : Dword) : State :=
  match s.ctx? ctx with
  | none => s
  | some k =>
    let s1 := (dropConts (cancelAll s ctx) ctx).setCtx ctx { k with killed := true, susp := [], heldRecs := [] }
    let s2 := { s1 with launches := s1.launches.filter fun l => l.2.ctx != ctx
                        images := s1.images.filter fun g => g.ctx != ctx }
    if runsSomewhere s2 ctx then
      postHalt s2 ctx { cause := c, tinfo := info, src := 3, core := 0, slot := 0, dm := false }
    else s2

/-! ## Saving (R226, R381, R382) -/

/-- R226, R382: an operation that the save waits for: a copy, conversion or bank-side operation with a range in the slot that is
not terminal. -/
def holdsSave (q : Slot) (idx : Nat) (e : Token) : Bool :=
  !e.st.terminal && (e.cls == 0 || e.cls == 1 || e.cls == 6) && q.ranges.any fun g => g.idx == idx

/-- R226, R234: an operation of another core of the cluster writes the slot's scratchpad by multicast and is not terminal. -/
def castHolds (s : State) (core slot ctx : Nat) : Bool :=
  (List.range 4).any fun i =>
    let c := 4 * clusterOf core + i
    c != core && (s.core c).tokens.any fun t =>
      t.2.gen != 0 && t.2.ctx == ctx && !t.2.st.terminal && match t.2.op with
        | .cpt _ _ _ _ _ mc => (castSites s c t.2 mc).contains (core, some slot)
        | _ => false

/-- R226: the save may begin. -/
def saveReady (s : State) (core slot ctx : Nat) : Bool :=
  ((slotTokens s core slot ctx).all fun i => !holdsSave (s.slot core slot) i (s.token core i)) && !castHolds s core slot ctx

/-- R133, R381: the image of an accumulator slot. -/
def accImage (s : State) (ctx : Nat) (x : AccSlot) : List Byte :=
  match basisOf s ctx x.bid with
  | none => []
  | some b => (List.range 8192).flatMap fun e => natBytes 16 (quadOf b fun h => accDigit x h e)

/-- R381: the image word. -/
def imageWord (core slot count : Nat) (bad : Bool) (marked : Option (Cause × Bool)) : Nat :=
  2 ^ 63 + bad.toNat * 2 ^ 62 + (match marked with | some c => 2 ^ 61 + c.1.code * 2 ^ 45 | none => 0) + core * 2 ^ 37 + slot * 2 ^ 36
    + count % 2 ^ 36

/-- The bytes of a local store from address 0. -/
def localBytes (m : Map Byte) (n : Nat) : List Byte := (List.range n).map fun a => mget 0 m a

/-- R297: a double error in a pool word of the slot: of its stores or of its strands' vector registers. -/
def poolBad (s : State) (core slot : Nat) : Bool :=
  !(s.slot core slot).dbl.isEmpty || (slotStrands s core slot).any fun e => !e.2.dbl.isEmpty

/-- R381, R382: what the spill engine writes to the save area, the image word last. The forms of the control image, of the
register-file units and of the stack areas are private to the device (assumptions 20, 38). -/
def writeImage (s : State) (core slot count : Nat) : State :=
  let q := s.slot core slot
  let put (s : State) (off : Nat) (bs : List Byte) : State :=
    if bs.isEmpty || !physOk (q.savebase + off) then s else storeBytes s (q.savebase + off) bs
  let n := (count * 192 + core) * 2 + slot
  let s0 := (slotStrands s core slot).foldl (fun s e =>
    put s (0xA000 + 2048 * e.1) ((Config.controlImage (2 * (n * 64 + e.1) + 1)).take (64 * e.2.rstk.length))) s
  let s1 := put s0 0x2A008 ((Config.controlImage (4 * n)).take (0x10000 - 8))
  let s2 := (q.accs.filter fun a => a.2.st != .invalid).foldl (fun s a =>
    put s (0x3A000 + 0x20000 * a.1) (accImage s q.ctx a.2)) s1
  let s3 := put s2 0xBA000 ((Config.controlImage (4 * n + 2)).take (16384 * q.rf))
  let s4 := put s3 (0xBA000 + 16384 * q.rf) (localBytes q.scratch (16384 * q.sp))
  let s5 := put s4 (0xBA000 + 16384 * (q.rf + q.sp)) (localBytes q.accst (16384 * q.acc))
  put s5 0x2A000 (natBytes 8 (imageWord core slot count (poolBad s core slot) q.marked))

/-- R381, R385: the control image of a slot. -/
def controlOf (s : State) (core slot count : Nat) : Image :=
  let q := s.slot core slot
  let k := s.core core
  { core := core, slot := slot, count := count, ctx := q.ctx, strands := k.strands.filter fun e => e.2.slot == slot,
    teams := k.teams.filter fun e => e.2.slot == slot,
    tokens := k.tokens.filter fun t => t.2.gen != 0 && t.2.cslot == slot && t.2.ctx == q.ctx, data := q,
    einj := k.einjq.filter fun j => j.cslot == slot,
    bases := match s.ctx? q.ctx with | some c => c.bases | none => []
    susps := match s.ctx? q.ctx with | some c => c.susp.filter fun p => p.core == core && p.slot == slot | none => [] }

/-- R259: the number by which SUSPENDs know the image of a saved slot. -/
def imageSlot (slot count : Nat) : Nat := 2 + 2 * count + slot

/-- R259: the SUSPENDs of a context on a core that know their slot as `old` know it as `new`. -/
def moveSusps (s : State) (ctx core old new : Nat) : State :=
  s.modCtx ctx fun c => { c with susp := c.susp.map fun p => if p.core = core ∧ p.slot = old then { p with slot := new } else p }

/-- R382: save a FROZEN slot; it becomes EMPTY. -/
def saveSlot (s : State) (core slot : Nat) : State :=
  let q := s.slot core slot
  let count := q.saves + 1
  let s0 := charge s q.ctx 13 1
  let img := controlOf s0 core slot count
  let s1 := emptySlot (writeImage s0 core slot count) core slot
  let same (g : Image) : Bool := g.core == core && g.slot == slot && g.data.savebase == q.savebase
  moveSusps { s1.modSlot core slot fun q => { q with saves := count } with
    images := s1.images.filter (fun g => !same g) ++ [img] } q.ctx core slot (imageSlot slot count)

/-! ## Restoring (R226, R260, R348, R383, R387) -/

/-- The image that an image word names. -/
def findImage (s : State) (core w : Nat) : Option Image :=
  let owner := w / 2 ^ 37 % 256
  let slot := w / 2 ^ 36 % 2
  let count := w % 2 ^ 36
  s.images.find? fun g => g.slot == slot && g.count == count && (g.core == owner || (g.tokens.isEmpty && owner == core))

/-- The nonzero bytes of a stretch of memory, as a local store. -/
def loadStore (s : State) (base n : Nat) : Map Byte :=
  (List.range n).filterMap fun i =>
    let b := Memory.byte s.mem (base + i)
    if b = 0 then none else some (i, b)

/-- R381: the residues of an accumulator slot, from its image in memory. -/
def loadAcc (s : State) (ctx base : Nat) (x : AccSlot) : AccSlot :=
  match x.st, basisOf s ctx x.bid with
  | .invalid, _ | _, none => x
  | _, some b => { x with res := resOf b fun h e => quadDigit b (loadNat s (base + 16 * e) 16) h }

/-- R381: a saved slot's data with its stores and residues as memory holds them. -/
def loadData (s : State) (ctx sb : Nat) (q : Slot) : Slot :=
  { q with
    scratch := loadStore s (sb + 0xBA000 + 16384 * q.rf) (16384 * q.sp)
    accst := loadStore s (sb + 0xBA000 + 16384 * (q.rf + q.sp)) (16384 * q.acc)
    accs := q.accs.map fun a => (a.1, loadAcc s ctx (sb + 0x3A000 + 0x20000 * a.1) a.2) }

/-- R226: an entry of the image as it comes back: the live one, where the core still holds it, with its new CSLOT. -/
def backToken (s : State) (core slot : Nat) (halted : Bool) (t : Nat × Token) : Nat × Token :=
  let live := s.token core t.1
  let e := if live.gen = t.2.gen && live.ctx == t.2.ctx then live else t.2
  (t.1, { e with cslot := slot, st := if e.st == .parked && !halted then .pending else e.st })

/-- The numbers below `n` that the owners of `ids` take on a core: their own where that is free there, else the lowest free one;
none when there are too few (assumption 85). -/
def renumber (n : Nat) (used : Nat → Bool) (ids : List Nat) : Option (List (Nat × Nat)) :=
  ids.foldl (fun m i => m.bind fun l =>
    let free (j : Nat) : Bool := !used j && l.all fun e => e.2 != j
    if free i then some (l ++ [(i, i)])
    else ((List.range n).find? fun j => free j && !ids.contains j).map fun j => l ++ [(i, j)]) (some [])

/-- The new number of an old one. -/
def newNumber (m : List (Nat × Nat)) (i : Nat) : Nat := (mfind m i).getD i

/-- R383: the numbers that the strands and the teams of an image take on a core. -/
def imageNumbers (s : State) (core : Nat) (g : Image) : Option (List (Nat × Nat) × List (Nat × Nat)) :=
  match renumber 64 (mhas (s.core core).strands) (g.strands.map (·.1)), renumber 32 (mhas (s.core core).teams) (g.teams.map (·.1)) with
  | some a, some b => some (a, b)
  | _, _ => none

/-- An image with the numbers of its strands and teams changed. -/
def Image.renamed (g : Image) (a b : List (Nat × Nat)) : Image :=
  { g with
    strands := g.strands.map fun e => (newNumber a e.1, { e.2 with tslot := newNumber b e.2.tslot })
    teams := g.teams.map fun t =>
      (newNumber b t.1, { t.2 with members := t.2.members.map (newNumber a), adopter := newNumber a t.2.adopter }) }

/-- The same for an entry of the image. -/
def Token.renamed (e : Token) (a b : List (Nat × Nat)) : Token := { e with owner := newNumber a e.owner, team := newNumber b e.team }

/-- R68: an outstanding instruction of a restored strand has no window and is not counted in LLO: what is left of it is replayed
before the strand issues again. A pop that waited for a record of a queue that is gone finds none (R37, assumption 106). -/
def restoredLong (o : LongOp) : LongOp :=
  let d := match o.instr with | .qpop f | .mov f => Opnd.vIndex f.d | _ => 0
  { o with left := 0, replay := true, pops := []
           writes := o.writes ++ o.pops.flatMap fun l => recordWrites d l (List.replicate 8 0) }

/-- R68: a strand as an image gives it back. -/
def restoredStrand (slot : Nat) (x : Strand) : Strand := { x with slot := slot, long := x.long.map restoredLong, dbl := [] }

/-- R383: an image is laid into an EMPTY slot of a core. On another core than the one it was saved on, the instruction cache starts
empty, since an IFENCE of a restored strand holds there as well (R345, R348). -/
def layImage (s : State) (core slot : Nat) (p : Pair) (g : Image) (data : Slot) (halted : Bool) : State :=
  let nums := (imageNumbers s core g).getD ([], [])
  let h := g.renamed nums.1 nums.2
  let data : Slot := { data with st := if halted then .halted else .shadow, pbase := p.pbase, psize := p.psize, savebase := p.savebase,
                                 saves := (s.slot core slot).saves, freezing := false, line := false, dbl := [] }
  let s1 := s.modCore core fun k =>
    { k with
      strands := h.strands.foldl (fun m e => mput m e.1 (restoredStrand slot e.2)) k.strands
      teams := h.teams.foldl (fun m t => mput m t.1 { t.2 with slot := slot }) k.teams
      tokens := h.tokens.foldl (fun m t =>
        let u := backToken s core slot halted t
        mput m u.1 (u.2.renamed nums.1 nums.2)) k.tokens
      einjq := k.einjq ++ h.einj.map fun j => { j with cslot := slot }
      icache := if g.core = core then k.icache else []
      slots := mput k.slots slot data }
  let s2 := moveSusps s1 g.ctx g.core (imageSlot g.slot g.count) slot
  h.strands.foldl (fun s e =>
    match e.2.wait with
    | .push q _ =>
      if (s.queue (clusterOf core) q).waiting.contains (.strand e.2.serial) then s
      else s.modQueue (clusterOf core) q fun u => { u with waiting := u.waiting ++ [.strand e.2.serial] }
    | _ => s) s2

/-- R354: the strands of a slot are bound to issue slots, and may issue from cycle `at_`. -/
def bindSlot (s : State) (core slot at_ : Nat) : State :=
  (slotStrands s core slot).foldl (fun s e =>
    (bindStrand s { core := core, strid := e.1 }).modStrand { core := core, strid := e.1 } fun x =>
      { x with notBefore := max x.notBefore at_ }) s

/-- R380, R390: a slot whose image is marked becomes HALTED with that cause. HALT tells of a context that did not halt before. -/
def haltMarked (s : State) (core slot : Nat) (c : Cause × Bool) (src : Nat) : State :=
  let q := s.slot core slot
  let req : HaltReq := { cause := c.1, tinfo := 0, src := src, core := core, slot := slot, dm := c.2, at_ := s.time }
  let s1 := s.modSlot core slot fun q => { q with st := .halted, marked := none }
  match s.ctx? q.ctx with
  | none => s1
  | some k =>
    match k.halt with
    | some _ => s1
    | none =>
      let h := joinHalt k.persistent none req
      haltMessage (s1.modCtx q.ctx fun k => { k with halt := some h }) q.ctx h

/-- R204: the watchdogs of a slot's barriers have not counted `d` cycles. -/
def shiftBars (s : State) (core slot d : Nat) : State :=
  s.modCore core fun k => { k with teams := k.teams.map fun t =>
    if t.2.slot == slot then (t.1, { t.2 with bars := t.2.bars.map fun b => (b.1, { b.2 with first := b.2.first + d }) }) else t }

/-- R268, R372, R383: a SHADOW slot becomes RUNNING, its first strand issuing from cycle `at_`; a marked one becomes HALTED. The
line of a halt in force is on its way to it. -/
def runSlot (s : State) (core slot at_ : Nat) : State :=
  let q := s.slot core slot
  match q.marked with
  | some c => haltMarked (bindSlot s core slot at_) core slot c 1
  | none =>
    let s1 := (shiftBars (bindSlot s core slot at_) core slot (s.cycle - q.pausedAt)).modSlot core slot fun q => { q with st := .running }
    s1.modCtx q.ctx fun c => { c with halt := c.halt.map fun h => { h with since := s.time } }

/-- R223, R329, R387: an entry not terminal at the power failure becomes faulted with PFAIL, with its record. While a write that it
needs waits (R310), it has met the fault and has not ended. -/
def pfailToken (s : State) (core idx : Nat) : State :=
  let e := s.token core idx
  if e.st.terminal then s
  else match (recordFault s core idx e .pfail 0).bind fun s1 => stopShort s1 core e false with
    | none => failOp (s.modToken core idx fun t => { t with st := .pending }) core idx .pfail 0 false
    | some s2 =>
      let s3 := endToken (s2.modToken core idx fun t => { t with cause := Cause.pfail.code, detail := 0 }) core idx .faulted
      faultAction s3 core idx e .pfail 0 false

/-- R387: a slot's data as a power-fail image gives it: stores zero, matrix slots live. -/
def flashData (q : Slot) : Slot :=
  { q with scratch := [], accst := [], accs := q.accs.map fun a => (a.1, if a.2.st == .held then { a.2 with st := .live } else a.2) }

/-- R383: the core has numbers for the image's strands and teams, and no entry that the image holds is in use by another
operation (assumption 85). -/
def imageFits (s : State) (core : Nat) (g : Image) : Bool :=
  (imageNumbers s core g).isSome &&
    g.tokens.all fun t =>
      let live := s.token core t.1
      live.gen == 0 || (live.gen == t.2.gen && live.ctx == t.2.ctx) || reusable s core t.1

/-- The context's pair for a core and slot. -/
def pairOf (s : State) (ctx core slot : Nat) : Option Pair :=
  (s.ctx? ctx).bind fun c => c.pairs.find? fun p => p.core == core && p.slot == slot

/-- R260: the continuations owed by a restored slot are queued before a strand of it issues. -/
def pushRestored (s : State) (ctx core slot : Nat) : State := pushOwed s ctx fun p => p.core == core && p.slot == slot

/-- R383, R387: restore the image at `sb` into a slot; none when it is refused. -/
def restoreSlot (s : State) (core slot sb : Nat) (run : Bool) : Option State :=
  if (s.slot core slot).st != .empty || !physOk (sb + 0x2A000) then none
  else
    let w := loadNat s (sb + 0x2A000) 8
    let good (g : Image) (p : Pair) : Bool :=
      p.psize == g.data.psize && imageFits s core g &&
        (match s.ctx? g.ctx with | some c => !c.killed && c.ending.isNone | none => false)
    if w / 2 ^ 63 = 1 then
      if w / 2 ^ 62 % 2 = 1 ∨ w / 2 ^ 37 % 256 ≠ core then none
      else match findImage s core w with
        | none => none
        | some g =>
          match pairOf s g.ctx core slot with
          | none => none
          | some p =>
            let word := if w / 2 ^ 61 % 2 = 1 then (Cause.ofCode (w / 2 ^ 45 % 2 ^ 16)).map fun c => (c, false) else none
            let mark := match g.data.marked with | some c => some c | none => word
            if !good g p then none
            else
              let s0 := { charge s g.ctx 14 1 with images := s.images.filter (· != g) }
              let s1 := wakeCluster (layImage s0 core slot p g (loadData s g.ctx sb g.data) mark.isSome) (clusterOf core)
              some <|
                match mark with
                | some c => haltMarked (bindSlot s1 core slot s.cycle) core slot c 1
                | none =>
                  let s2 := pushRestored s1 g.ctx core slot
                  if run then runSlot s2 core slot s.cycle else s2
    else match s.flash.find? fun f => f.valid && f.core == core && f.img.data.savebase == sb with
      | none => none
      | some f =>
        let g := f.img
        match pairOf s g.ctx core slot with
        | none => none
        | some p =>
          if !good g p then none
          else
            let s0 := storeBytes (charge s g.ctx 14 1) sb f.halt
            let owed := g.susps.map fun p => { p with slot := slot }
            let s1 := (layImage s0 core slot p g (flashData g.data) true).modCtx g.ctx fun c =>
              { c with bases := g.bases, susp := c.susp ++ owed }
            let s2 := g.tokens.foldl (fun s t => pfailToken s core t.1) s1
            some (haltMarked (bindSlot (wakeCluster s2 (clusterOf core)) core slot s.cycle) core slot (.pfail, false) 4)

/-! ## Resuming (R377) -/

/-- R68, R197: the replay of an outstanding instruction completes it at the resume: those of a restored strand, and HLD. -/
def replayEnds (o : LongOp) : Bool := o.todo.isEmpty && o.pops.isEmpty && (o.replay || Instr.isHld o.instr)

/-- R68: the outstanding instructions whose replay completes them are completed. -/
def endReplays (x : Strand) : Strand :=
  (x.long.filter replayEnds).foldl completeOne { x with long := x.long.filter fun o => !replayEnds o }

/-- R68, R377: the accesses that a strand owes are made, each once, and it can go on. One that fails again halts the context
again; one that waits (R310) is made later. -/
def replayStrand (s : State) (r : Ref) : State :=
  (performAll (s.modStrand r fun x => { x with stopped := false, stinfo := 0 }) r).modStrand r fun x =>
    if x.stopped then x else endReplays x

/-- R223: write the ring records held on chip, in order, up to one that fails again. -/
def rewriteRecs (s : State) (ctx core slot : Nat) : List HeldRec → State
  | [] => s
  | h :: rest =>
    match ringWrite s ctx core slot h.orphan h.bytes with
    | none => s.modCtx ctx fun c => { c with heldRecs := c.heldRecs ++ h :: rest }
    | some s1 =>
      if (match s1.ctx? ctx with | some c => c.heldRecs.isEmpty | none => true) then rewriteRecs s1 ctx core slot rest
      else s1.modCtx ctx fun c => { c with heldRecs := c.heldRecs ++ rest }

/-- A next state, or the state as it was. -/
def orElse (s : State) (o : Host.Outcome State Fault Refusal) : State := match o with | .next s1 => s1 | _ => s

/-- R362: the ring accesses of a context's queues that faulted are made again. -/
def retryRings (s : State) (ctx : Nat) : State :=
  s.clusters.foldl (fun s k => k.2.queues.foldl (fun s q =>
    if q.2.owner == some ctx && q.2.stuck then
      let s1 := s.modQueue k.1 q.1 fun q => { q with stuck := false }
      let s2 := orElse s1 (execQueueRefill k.1 q.1 s1)
      if (s2.queue k.1 q.1).stuck then s2 else orElse s2 (execRingRoomPush k.1 q.1 s2)
    else s) s) s

/-- R377: resume a context whose slots are HALTED. -/
def resumeContext (s : State) (ctx : Nat) : State :=
  let ps := slotsIn s ctx fun q => q.st == .halted
  let s1 := ps.foldl (fun s p => (slotStrands s p.1 p.2).foldl (fun s e => replayStrand s { core := p.1, strid := e.1 }) s) s
  let held := match s1.ctx? ctx with | some c => c.heldRecs | none => []
  let at_ := ps.headD (0, 0)
  let s2 := rewriteRecs (s1.modCtx ctx fun c => { c with heldRecs := [], halt := none }) ctx at_.1 at_.2 held
  let s3 := retryRings s2 ctx
  let again := match s3.ctx? ctx with | some c => c.haltQ | none => []
  let open_ (s : State) : State := ps.foldl (fun s p => s.modSlot p.1 p.2 fun q => { q with st := .running }) s
  if again.isEmpty then
    let s4 := ps.foldl (fun s p => unpark s p.1 p.2 ctx) s3
    let s5 := pushOwed s4 ctx fun p => ps.contains (p.core, p.slot)
    let s6 := ps.foldl (fun s p => s.modCore p.1 fun k => { k with teams := k.teams.map fun t =>
      if t.2.slot == p.2 then (t.1, { t.2 with bars := t.2.bars.map fun b => (b.1, { b.2 with first := s.cycle }) }) else t }) s5
    open_ s6
  else
    let s4 := again.foldl (fun s _ => takeHalt s ctx) (open_ s3)
    ps.foldl (fun s p => lineArrives s p.1 p.2) s4

end Sys2Proof.Machine
end

