-- ==== Sys2Proof/Machine/Csr.lean ====
section
/-! DEFINITION. Control and status registers (R263 to R267, R285 to R287, R307), and the system instructions SWAP, CLKR and
EINJ (R268 to R270). -/

namespace Sys2Proof.Machine

/-! ## Reading (R263, R264) -/

/-- Which registers an index reaches: those of a context, and of a core and slot. -/
structure CsrAt where
  ctx : Nat
  core : Nat
  slot : Nat
  deriving DecidableEq, Repr

/-- R285: RCR. -/
def rcrWord (k : Core) : Dword :=
  let r := k.rcr
  let eras := (k.col.erased.eraseDups.map fun h => 2 ^ (10 + h)).sum
  let spu := k.col.spares.any fun e => e.2 != 0
  BitVec.ofNat 64 (r.v.toNat * 2 ^ 63 + r.ovf.toNat * 2 ^ 62 + r.unc.toNat * 2 ^ 61 + r.multi.toNat * 2 ^ 60 + r.fch * 2 ^ 56
    + r.ccnt * 2 ^ 40 + r.ucnt * 2 ^ 32 + r.ftok * 2 ^ 23 + r.facc * 2 ^ 21 + r.fslot * 2 ^ 20 + eras + spu.toNat * 2 ^ 9
    + k.col.down.toNat * 2 ^ 8)

/-- R287: CHDAT for a value of CHSEL. -/
def chdatWord (s : State) (sel : Dword) : Dword :=
  let k := (s.core (sel.extractLsb' 0 8).toNat).col
  let h := (sel.extractLsb' 8 4).toNat
  if h = 10 then BitVec.ofNat 64 (k.obSpares * 2 ^ 16 + k.obCnt)
  else BitVec.ofNat 64 (k.down.toNat * 2 ^ 20 + (k.erased.contains h).toNat * 2 ^ 19 + mget 0 k.spares h * 2 ^ 16 + mget 0 k.chCnt h)

/-- R293: POOLW. -/
def poolWord (q : Slot) : Dword :=
  BitVec.ofNat 64 (q.psize * 2 ^ 32 + q.pbase * 2 ^ 24 + q.rf * 2 ^ 16 + q.sp * 2 ^ 8 + q.acc)

/-- R267: what BASINST reads: the valid bits and the spans of the basis table. -/
def basinstWord (c : Ctx) : Dword :=
  BitVec.ofNat 64 (((List.range 8).map fun e => match mfind c.bases e with
    | some b => 2 ^ e + b.span * 2 ^ (8 + 4 * e)
    | none => 0).sum)

/-- R263, R264: what CSR `i` reads. -/
def csrRead (s : State) (a : CsrAt) (i : Nat) : Dword :=
  let n (k : Nat) : Dword := BitVec.ofNat 64 k
  let ctx (f : Ctx → Dword) : Dword := match s.ctx? a.ctx with | some c => f c | none => 0
  let k := s.core a.core
  let q := s.slot a.core a.slot
  let cl := clusterOf a.core
  if 0x010 ≤ i ∧ i ≤ 0x017 then
    n (accWord (s.acc a.core a.slot ((i - 0x010) / 2)) / 2 ^ (64 * (i % 2)))
  else if 0x048 ≤ i ∧ i ≤ 0x057 then
    let u := s.queue cl ((i - 0x048) / 4)
    n (match i % 4 with | 0 => u.base | 1 => u.size | 2 => u.head | _ => u.tail)
  else match i with
  | 0x000 => ctx basinstWord
  | 0x020 => rcrWord k
  | 0x022 => k.chsel
  | 0x023 => chdatWord s k.chsel
  | 0x030 => ctx fun c => n c.frbase | 0x031 => ctx fun c => n c.frsize | 0x032 => ctx fun c => n c.frhead
  | 0x033 => ctx fun c => n c.frtail | 0x034 => ctx fun c => n c.frlost
  | 0x038 => ctx fun c => n c.orbase | 0x039 => ctx fun c => n c.orsize | 0x03A => ctx fun c => n c.orhead
  | 0x03B => ctx fun c => n c.ortail
  | 0x040 => ctx fun c => n c.contbase | 0x041 => ctx fun c => n c.contsize | 0x042 => ctx fun c => n c.tbud
  | 0x060 => ctx fun c => n c.bwdog
  | 0x070 => ctx fun c => n c.codebase | 0x071 => ctx (·.handler)
  | 0x072 => n q.savebase
  | 0x073 => ctx fun c => n (c.persistent.toNat * 4 + c.level.toNat)
  | 0x074 => poolWord q
  | 0x078 => n ((s.slot a.core 0).st.code + (s.slot a.core 1).st.code * 8)
  | 0x080 => k.invbase
  | 0x081 => k.invcmd
  | _ => 0

/-! ## Writing (R263 to R266) -/

/-- R265: a size that is 0 or a power of two within limits. -/
def sizeOk (n lo hi : Nat) : Bool := n == 0 || ((List.range 25).any fun k => n == 2 ^ k && decide (lo ≤ n) && decide (n ≤ hi))

/-- R285: a W1C write to RCR at system level; none when it sets a reserved bit. -/
def rcrPut (r : Rcr) (w : Dword) : Option Rcr :=
  if w.extractLsb' 0 8 != 0 then none
  else
    let r1 := if w.getLsbD 63 then { Rcr.reset with ovf := r.ovf, unc := r.unc } else r
    some { r1 with ovf := r1.ovf && !w.getLsbD 62, unc := r1.unc && !w.getLsbD 61 }

/-- R264 to R266: a register of a context takes a value; none when the value is outside its limits, and the context itself
for a register that is read only. -/
def ctxPut (c : Ctx) (i x : Nat) (w : Dword) : Option Ctx :=
  let on (ok : Bool) (c : Ctx) : Option Ctx := if ok then some c else none
  match i with
  | 0x030 => on (x % 64 == 0) { c with frbase := x }
  | 0x031 => on (sizeOk x 16 (2 ^ 24)) { c with frsize := x }
  | 0x033 => on (decide (c.frtail ≤ x) && decide (x ≤ c.frhead)) { c with frtail := x }
  | 0x034 => some { c with frlost := x }
  | 0x038 => on (x % 64 == 0) { c with orbase := x }
  | 0x039 => on (sizeOk x 16 (2 ^ 24)) { c with orsize := x }
  | 0x03B => on (decide (c.ortail ≤ x) && decide (x ≤ c.orhead)) { c with ortail := x }
  | 0x040 => on (x % 128 == 0) { c with contbase := x }
  | 0x041 => on (x == 0 || (decide (2 ≤ x) && decide (x ≤ 2 ^ 28))) { c with contsize := x }
  | 0x042 => on (x == 0 || (decide (8 ≤ x) && decide (x ≤ 256) && x % 8 == 0)) { c with tbud := x }
  | 0x060 => on (decide (2 ^ 10 ≤ x) && decide (x ≤ 2 ^ 40)) { c with bwdog := x }
  | 0x070 => on (x % 64 == 0) { c with codebase := x }
  | 0x071 => on (w.extractLsb' 32 31 == 0) { c with handler := w }
  | 0x073 => on (decide (x < 8) && x % 4 != 3) { c with persistent := w.getLsbD 2, level := w.extractLsb' 0 2 }
  | _ => some c

/-- R386: the persistent mark would bring the persistent total above the flash. -/
def markOverflows (s : State) (ctx : Nat) (c : Ctx) (w : Dword) : Bool :=
  w.getLsbD 2 && !c.persistent && !flashFits s (ctxFlash s ctx c)

/-- R264: a register of a core, a cluster or a slot takes a value. -/
def placePut (s : State) (a : CsrAt) (i x : Nat) (w : Dword) (system : Bool) : Option State :=
  let on (ok : Bool) (s : State) : Option State := if ok then some s else none
  let cl := clusterOf a.core
  if 0x048 ≤ i ∧ i ≤ 0x057 then
    let u := (i - 0x048) / 4
    (match i % 4 with
    | 0 => on (x % 32 == 0) (s.modQueue cl u fun k => { k with base := x })
    | 1 => on (sizeOk x 32 (2 ^ 24)) (s.modQueue cl u fun k => { k with size := x })
    | _ => some s)
  else match i with
  | 0x020 =>
    if !system then some s
    else (rcrPut (s.core a.core).rcr w).map fun r => s.modCore a.core fun k => { k with rcr := r }
  | 0x022 =>
    on (decide (x < 2 ^ 12) && decide (x % 256 ≤ 191) && decide (x / 256 ≤ 10)) (s.modCore a.core fun k => { k with chsel := w })
  | 0x072 =>
    on (x % 4096 == 0) ((s.modSlot a.core a.slot fun q => if q.ctx = a.ctx then { q with savebase := x } else q).modCtx a.ctx fun c =>
      { c with pairs := c.pairs.map fun p => if p.core == a.core && p.slot == a.slot then { p with savebase := x } else p })
  | 0x080 => on (x % 2 ^ 16 == 0) (s.modCore a.core fun k => { k with invbase := w })
  | _ => some s

/-- R264: the registers of a context. -/
def ofContext (i : Nat) : Bool :=
  i == 0x000 || (decide (0x030 ≤ i) && decide (i ≤ 0x042)) || i == 0x060 || i == 0x070 || i == 0x071 || i == 0x073
/-- R264: the registers of a context slot. -/
def ofSlot (i : Nat) : Bool := (decide (0x010 ≤ i) && decide (i ≤ 0x017)) || i == 0x072 || i == 0x074

/-- R263: write a register that has no further effect; none when BAD_CSR applies. `system` is the writer's level, which the
registers writable only at system level need. -/
def csrPut (s : State) (a : CsrAt) (i : Nat) (w : Dword) (system : Bool) : Option State :=
  let x := w.toNat
  if ofContext i then
    match s.ctx? a.ctx with
    | none => none
    | some c =>
      if i = 0x034 && !system then some s
      else if i = 0x073 && markOverflows s a.ctx c w then none
      else (ctxPut c i x w).map (s.setCtx a.ctx)
  else placePut s a i x w system

/-- The registers that a strand reaches. -/
def csrAt (r : Ref) (x : Strand) : CsrAt := { ctx := x.ctx, core := r.core, slot := x.slot }

/-- R370: TINFO of BAD_CSR. -/
def csrInfo (f : I32) : Dword := BitVec.ofNat 64 f.csr

/-- R263: the value a CSRW writes. -/
def csrValue (s : State) (r : Ref) (x : Strand) (f : I32) : Dword := BitVec.ofNat 64 (uniOp s r x f.a)

/-- R263: CSRW to a register without an effect of its own. -/
def csrwBody (f : I32) : State → Ref → Strand → Res := fun s r x =>
  match csrPut s (csrAt r x) f.csr (csrValue s r x f) (1 ≤ x.pl.toNat) with
  | some s1 => .done s1 0
  | none => .trap .badCsr (csrInfo f)

def execCsrr (f : I32) (s : State) : Host.Outcome State Fault Refusal :=
  issue (.csrr f) s fun s r x => .done (s.setStrand r (writeUni f.d (csrRead s (csrAt r x) f.csr) x)) 0

def execCsrw (f : I32) (s : State) : Host.Outcome State Fault Refusal := issue (.csrw f) s (csrwBody f)

/-- R285: the write 1 to clear of RCR. -/
def execRcrClear (f : I32) (s : State) : Host.Outcome State Fault Refusal := issue (.rcrClear f) s (csrwBody f)

/-- R287: CHSEL. -/
def execChselWrite (f : I32) (s : State) : Host.Outcome State Fault Refusal := issue (.chselWrite f) s (csrwBody f)

/-- R265: FRTAIL and ORTAIL. -/
def execRingTailWrite (f : I32) (s : State) : Host.Outcome State Fault Refusal := issue (.ringTailWrite f) s (csrwBody f)

/-- R386: CTXCFG. -/
def execPersistentMarkSet (f : I32) (s : State) : Host.Outcome State Fault Refusal :=
  issue (.persistentMarkSet f) s (csrwBody f)

/-! ## BASINST (R46 to R48, R267) -/

/-- R48: an operation names basis entry `e`. -/
def Op.namesBasis (o : Op) (e : Nat) : Bool :=
  (match o with | .mzero _ bid _ => bid == e | _ => false) ||
    o.tns.any fun t => tagResidue (tTag t.dw) && tagBid (tTag t.dw) == e

/-- R48: an accumulator slot of a slot holds residues in entry `e`. -/
def slotUses (q : Slot) (ctx e : Nat) : Bool :=
  q.ctx == ctx && q.st != .empty && q.accs.any fun a => a.2.st != .invalid && a.2.bid == e

/-- R48: entry `e` of a context is in use. -/
def basisInUse (s : State) (ctx e : Nat) : Bool :=
  (s.cores.any fun k => (k.2.slots.any fun q => slotUses q.2 ctx e) ||
    k.2.tokens.any fun t => t.2.gen != 0 && t.2.ctx == ctx && !t.2.st.terminal && t.2.op.namesBasis e) ||
  s.images.any fun g => slotUses g.data ctx e

/-- R267: what an installation meets. -/
inductive Install where
  | ok (s : State)
  | trap (c : Cause) (info : Dword)
  | halt (c : Cause) (info : Dword) (dm : Bool)
  | wait

/-- R267: a write of `a` to BASINST. -/
def install (s : State) (w : Who) (a : Nat) : Install :=
  let e := a % 8
  let va := a / 32 * 32
  if a / 8 % 4 ≠ 0 then .trap .badCsr 0
  else if basisInUse s w.ctx e then .trap .basisBusy (BitVec.ofNat 64 e)
  else if !vaOk va then .halt .vaRange (BitVec.ofNat 64 va) false
  else match flatDwords s w va 4 with
    | .wait => .wait
    | .bad c i dm => .halt c i dm
    | .ok s1 ds =>
      match checkBasis ds with
      | .error i => .trap .badBasis i
      | .ok b => .ok (s1.modCtx w.ctx fun c => { c with bases := mput c.bases e b })

def basinstBody (f : I32) : State → Ref → Strand → Res := fun s r x =>
  match install s (x.who r) (csrValue s r x f).toNat with
  | .ok s1 => .done s1 0
  | .trap c i => .trap c i
  | .halt c i dm => .halt c i dm
  | .wait => .stall

def execBasinstWrite (f : I32) (s : State) : Host.Outcome State Fault Refusal := issue (.basinstWrite f) s (basinstBody f)

/-! ## INVCMD (R307) -/

/-- R307: an invalidation is requested. -/
def requestInval (s : State) (ctx base pages ticket : Nat) (by_ : Option Ref) : State :=
  { s with invals := s.invals ++ [{ ticket := ticket, ctx := ctx, base := base, pages := pages, by_ := by_ }] }

def execInvcmdWrite (f : I32) (s : State) : Host.Outcome State Fault Refusal :=
  issue (.invcmdWrite f) s fun s r x =>
    let w := csrValue s r x f
    let target := (w.extractLsb' 48 16).toNat
    match s.ctx? target with
    | none => .trap .badCsr (csrInfo f)
    | some c =>
      if c.secure != x.sec then .trap .badCsr (csrInfo f)
      else if (advance x).isNone then .halt .pcRange 0 false
      else
        let ticket := s.nextId
        let s1 := (s.modCore r.core fun k => { k with invcmd := w }).setStrand r { x with wait := .inval ticket }
        .set (requestInval { s1 with nextId := ticket + 1 } target (s.core r.core).invbase.toNat (w.extractLsb' 0 48).toNat
          ticket (some r))

/-! ## SWAP, CLKR, EINJ (R268 to R270) -/

def execSwap (f : T3) (s : State) : Host.Outcome State Fault Refusal :=
  issue (.swap f) s fun s r x =>
    let other := 1 - x.slot
    let q := s.slot r.core other
    if q.st == .frozen || q.st == .halted then .trap .swapState (csrRead s (csrAt r x) 0x078)
    else match advance x with
      | none => .halt .pcRange 0 false
      | some y =>
        let s1 := freezeSlot (actIn (s.setStrand r y) r.core x.slot) r.core x.slot
        .set (if q.st == .shadow then runSlot s1 r.core other (s.cycle + 64) else s1)

def execClkr (f : T3) (s : State) : Host.Outcome State Fault Refusal :=
  issue (.clkr f) s fun s r x =>
    if f.opx.getLsbD 0 then
      let k := s.core r.core
      match f.d with
      | .s d => .done (s.setStrand r ((x.setS d.toNat k.timeHost).setS (d.toNat + 1) k.timeClk)) 0
      | _ => .done s 0
    else .done (s.setStrand r (writeUni f.d (BitVec.ofNat 64 s.cycle) x)) 0

/-- R270: the fields of A for .acc and .wire. -/
def einjOf (x : Strand) (seq acc a : Nat) (wire : Bool) : Einj :=
  { owner := x.serial, cslot := x.slot, seq := seq, wire := wire, acc := acc,
    key := (a % 128) * 64 + a / 2 ^ 8 % 64, chan := a / 2 ^ 16 % 16, delta := a / 2 ^ 20 % 512 }

/-- R270: EINJ. -/
def einjBody (f : T3) : State → Ref → Strand → Res := fun s r x =>
  let a := uniOp s r x f.a
  let mode := bitsOf f.opx 0 2
  let acc := bitsOf f.opx 2 2
  if mode = 2 then
    let w := a % 2 ^ 13
    let two : Bool := a / 2 ^ 13 % 2 == 1
    if 2 ^ 14 ≤ a ∨ 6143 < w ∨ (two && w == 6143) = true then .trap .badParam 0
    else .done (s.modCol r.core fun k => { k with armed := k.armed ++ [(w, two)] }) 0
  else
    let h := a / 2 ^ 16 % 16
    let used := a % 2 ^ 7 + a / 2 ^ 8 % 2 ^ 6 * 2 ^ 8 + h * 2 ^ 16 + a / 2 ^ 20 % 2 ^ 9 * 2 ^ 20
    if a ≠ used ∨ !(decide (h < (s.acc r.core x.slot acc).span) || h == 8 || h == 9) then .trap .badParam 0
    else
      let s1 := { s with nextId := s.nextId + 1 }
      .done (s1.modCore r.core fun k => { k with einjq := k.einjq ++ [einjOf x s.nextId acc a (mode == 1)] }) 0

def execEinj (f : T3) (s : State) : Host.Outcome State Fault Refusal := issue (.einj f) s (einjBody f)

end Sys2Proof.Machine
end

