-- ==== Sys2Proof/Machine/Host.lean ====
section
/-! DEFINITION. The Oroson host ports: frames and who may send them (R389, R390, R395, R396), launches, resume and kill (R350,
R377, R378), and host accesses to memory (R393, R394). -/

namespace Sys2Proof.Machine

/-! ## Frames (R389) -/

/-- The port's record. -/
def State.port (s : State) (p : Nat) : Port := mget (Port.reset p) s.ports p
def State.modPort (s : State) (p : Nat) (f : Port → Port) : State := { s with ports := mput s.ports p (f (s.port p)) }

/-- R389: the bytes that the authentication tag covers. -/
def frameBytes (fr : Frame) : List Byte :=
  natBytes 16 (fr.typ.toNat * 2 ^ 56 + fr.rpl.toNat * 2 ^ 48 + fr.len.toNat * 2 ^ 32 + fr.seq.toNat
    + (fr.node.toNat * 2 ^ 48 + fr.ctxid.toNat * 2 ^ 32) * 2 ^ 64) ++ natBytes 8 fr.pa.toNat ++ fr.payload

/-- R389: the frame is well formed: reserved bits zero, no reply (the device asks nothing), and LEN as the payload. -/
def frameOk (fr : Frame) : Bool :=
  !fr.rsvd && !fr.rpl && decide (fr.len.toNat ≤ 4096) && fr.payload.length == fr.len.toNat

/-- What becomes of a frame at its port. -/
inductive Heard where
  | dropped (s : State)
  | taken (s : State)

/-- R389: a SEQ that lies ahead of the next one leaves a gap; any other is a duplicate. -/
def seqGap (p : Port) (seq : Nat) : Bool := decide ((seq + 2 ^ 32 - p.rx) % 2 ^ 32 < 2 ^ 31)

/-- R389: a frame is carried out when its tag verifies and its SEQ is the next. A gap makes the device ask for the frames from the
next SEQ on. -/
def hear (s : State) (fr : Frame) : Heard :=
  let p := s.port fr.port
  if 2 ≤ fr.port ∨ !p.up then .dropped s
  else if p.node.isSome && !Config.tagOk p.key (frameBytes fr) fr.tag then
    .dropped (s.modPort fr.port fun p => { p with dropped := p.dropped + 1 })
  else if !frameOk fr then .dropped s
  else if fr.seq.toNat != p.rx then
    .dropped (if seqGap p fr.seq.toNat then s.modPort fr.port fun p => { p with asked := p.asked ++ [p.rx] } else s)
  else .taken (s.modPort fr.port fun p => { p with rx := (p.rx + 1) % 2 ^ 32 })

/-- R390: who may send a request. -/
inductive Sender where
  | any | reader | member | owner
  deriving DecidableEq, Repr

/-- R390, R395, R417: the sender may make the request: none but an answer before there is an owner, none in recovery. -/
def mayAsk (s : State) (port : Nat) (who : Sender) : Bool :=
  let n := (s.port port).node
  s.booted && match who with
    | .any => true
    | .reader => n.isSome && s.owner.isSome && n != s.owner
    | .member => n.isSome && s.owner.isSome
    | .owner => n.isSome && n == s.owner

/-- R390: REFUSE. -/
def refuseFrame (s : State) (fr : Frame) : State := sendTo s fr.port 0x8F (some fr.seq.toNat) fr.ctxid.toNat []

/-- R389, R390: the frame of every request: it is heard, its sender is checked, and `f` carries it out. -/
def hostStep (fr : Frame) (who : Sender) (s : State) (f : State → Host.Outcome State Fault Refusal) :
    Host.Outcome State Fault Refusal :=
  match hear s fr with
  | .dropped s1 => .next s1
  | .taken s1 => if mayAsk s1 fr.port who then f s1 else .next (refuseFrame s1 fr)

/-- R390: a type that no request has. -/
def execUnassignedType (fr : Frame) (s : State) : Host.Outcome State Fault Refusal :=
  hostStep fr .any s fun s1 => .next (refuseFrame s1 fr)

/-! ## Ownership (R395, R396) -/

/-- R396: a node becomes owner, which OWNER announces. -/
def newOwner (s : State) (n : Nat) : State :=
  sendBoth { s with owner := some n, lastBeat := s.time } 0x87 0 [BitVec.ofNat 64 n]

/-- R395: ANSWER: a valid answer to the port's challenge authenticates its node; the first makes it owner. -/
def execAnswer (fr : Frame) (s : State) : Host.Outcome State Fault Refusal :=
  hostStep fr .any s fun s1 =>
    let p := s1.port fr.port
    if p.node.isSome || !Config.answerOk s1.nodeKeys (Config.challenge p.chal) fr.node fr.payload then .next (refuseFrame s1 fr)
    else
      let s2 := s1.modPort fr.port fun p => { p with node := some fr.node.toNat, key := Config.sessionKey fr.payload fr.node }
      .next (if s2.owner.isNone then newOwner s2 fr.node.toNat else s2)

/-- R396: BEAT. -/
def execBeat (fr : Frame) (s : State) : Host.Outcome State Fault Refusal :=
  hostStep fr .owner s fun s1 => .next { s1 with lastBeat := s1.time }

/-- R396: RELEASE names an authenticated reader as the next owner. -/
def execRelease (fr : Frame) (s : State) : Host.Outcome State Fault Refusal :=
  hostStep fr .owner s fun s1 =>
    let n := ((dwordAt fr.payload 0).extractLsb' 0 16).toNat
    if 2 ≤ fr.payload.length ∧ s1.owner ≠ some n ∧ s1.ports.any (fun p => p.2.up && p.2.node == some n) then
      .next (newOwner s1 n)
    else .next (refuseFrame s1 fr)

/-- R396: CLAIM by a reader, when no heartbeat has come for 250 ms. -/
def execClaim (fr : Frame) (s : State) : Host.Outcome State Fault Refusal :=
  hostStep fr .reader s fun s1 =>
    match (s1.port fr.port).node with
    | some n => if s1.lastBeat + 250000 * microsecond ≤ s1.time then .next (newOwner s1 n) else .next (refuseFrame s1 fr)
    | none => .next (refuseFrame s1 fr)

/-! ## Work (R350, R377, R378, R394) -/

/-- R350, R351, R390: LAUNCH, answered by LREPLY. -/
def execLaunch (fr : Frame) (s : State) : Host.Outcome State Fault Refusal :=
  hostStep fr .owner s fun s1 =>
    if fr.payload.length ≠ 256 then .next (refuseFrame s1 fr)
    else
      let d := (List.range 32).map (dwordAt fr.payload)
      let reply (s : State) (x : Nat) : State := sendTo s fr.port 0x81 (some fr.seq.toNat) (lCtx d) [BitVec.ofNat 64 x]
      .next (match submit s1 d none with
        | .refused off => reply s1 (2 + off * 2 ^ 8)
        | .busy => reply s1 1
        | .yes s2 => reply s2 0)

/-- R377: the context is halted, its halt is resumable, and no slot of it still stops. -/
def resumable (s : State) (ctx : Nat) : Bool :=
  match (s.ctx? ctx).bind (·.halt) with
  | none => false
  | some h => !h.fatal && !runsSomewhere s ctx && !(slotsIn s ctx fun q => q.st == .halted).isEmpty &&
      (match s.ctx? ctx with | some c => !c.killed && c.haltQ.isEmpty | none => false)

/-- R377: RESUME. A fatal halt refuses it. -/
def execResume (fr : Frame) (s : State) : Host.Outcome State Fault Refusal :=
  hostStep fr .owner s fun s1 =>
    let ctx := fr.ctxid.toNat
    if fr.payload.isEmpty && resumable s1 ctx then .next (resumeContext s1 ctx) else .next (refuseFrame s1 fr)

/-- R378: KILL. -/
def execKill (fr : Frame) (s : State) : Host.Outcome State Fault Refusal :=
  hostStep fr .owner s fun s1 =>
    let ctx := fr.ctxid.toNat
    match s1.ctx? ctx with
    | none => .next (refuseFrame s1 fr)
    | some c => .next (if c.killed then s1 else killContext s1 ctx .kill 0)

/-- R394: TIME reaches every core, each of which records it with its CLK. -/
def execTime (fr : Frame) (s : State) : Host.Outcome State Fault Refusal :=
  hostStep fr .owner s fun s1 =>
    if fr.payload.length ≠ 8 then .next (refuseFrame s1 fr)
    else .next ((List.range 192).foldl (fun s c => s.modCore c fun k =>
      { k with timeHost := dwordAt fr.payload 0, timeClk := BitVec.ofNat 64 s.cycle }) s1)

/-! ## Memory (R393) -/

/-- R305: the stretches of this device's memory. -/
def memRanges : List (Nat × Nat) :=
  [(0, 0x2FFFFFFFFF), (0x4000000000, 0x6FFFFFFFFF), (0x8000000000, 0x87FFFFFFFF)]

/-- R305: `n` bytes from an address lie in one stretch of memory. -/
def memRange (a n : Nat) : Bool := memRanges.any fun r => decide (r.1 ≤ a) && decide (a + n ≤ r.2 + 1)

/-- R309: a byte as an access that no rule lets fail reads it: a free value in a line that cannot be corrected. -/
def rawByte (s : State) (a : Nat) : Byte :=
  if uncLine s a 1 then (Config.freeWord (s.free * 2 ^ 64 + a)).setWidth 8 else Memory.byte s.mem a

def rawBytes (s : State) (a n : Nat) : List Byte := (List.range n).map fun i => rawByte s (a + i)

/-- R305: `n` bytes from an address lie in the device window. -/
def deviceRange (a n : Nat) : Bool := isDevice a && isDevice (a + (n - 1))

/-- R393: MEMRD. The frame names the address, and its payload holds the byte count (assumption 24). -/
def execMemrd (fr : Frame) (s : State) : Host.Outcome State Fault Refusal :=
  hostStep fr .member s fun s1 =>
    let a := fr.pa.toNat
    let n := (dwordAt fr.payload 0).toNat
    let data (bs : List Byte) : Host.Outcome State Fault Refusal :=
      .next (sendLen s1 fr.port 0x85 (some fr.seq.toNat) 0 n (dwordsIn bs))
    if fr.payload.length ≠ 8 ∨ 4096 < n then .next (refuseFrame s1 fr)
    else if memRange a n then data (rawBytes s1 a n)
    else if deviceRange a n then data (natBytes n (deviceRead s1 a n))
    else .next (refuseFrame s1 fr)

/-- R393: MEMWR. The frame names the address, and its payload holds the bytes (assumption 24). -/
def execMemwr (fr : Frame) (s : State) : Host.Outcome State Fault Refusal :=
  hostStep fr .owner s fun s1 =>
    let a := fr.pa.toNat
    if memRange a fr.payload.length then .next (storeBytes s1 a fr.payload)
    else if deviceRange a fr.payload.length then .next (deviceWrite s1 a fr.payload)
    else .next (refuseFrame s1 fr)

end Sys2Proof.Machine
end

