-- ==== Sys2Proof/Machine/Mgmt.lean ====
section
/-! DEFINITION. The management processor: its requests and replies (R391, R392), one at a time for each port. -/

namespace Sys2Proof.Machine

/-! ## Replies (R391) -/

/-- R391: what a request gives: its effect and a reply body; a refusal with its STATUS and OFF and no effect; or an effect
that is under way, with the unit it concerns. -/
inductive MRes where
  | done (s : State) (body : List Dword)
  | fail (status off : Nat)
  | wait (s : State) (ctx core slot : Nat) (args : List Nat)

/-- R391: MREPLY. -/
def mreply (s : State) (port seq : Nat) (head : Dword) (status off : Nat) (body : List Dword) : State :=
  sendTo s port 0x88 (some seq) 0
    (((head &&& 0xFFFFFFFF0000FFFF#64) ||| BitVec.ofNat 64 (off % 256 * 2 ^ 24 + status * 2 ^ 16)) :: body)

/-- The requests that name a meaning: the state, the ticket of the request and the frame. -/
abbrev MBody := State → Nat → Frame → MRes

/-- R391: carry out one request. -/
def runMgmt (s : State) (fr : Frame) (f : MBody) : State :=
  let head := dwordAt fr.payload 0
  match f s s.nextId fr with
  | .done s1 body => mreply s1 fr.port fr.seq.toNat head 0 0 body
  | .fail status off => mreply s fr.port fr.seq.toNat head status off []
  | .wait s1 ctx core slot args =>
    { s1 with nextId := s.nextId + 1
              mgmt := s1.mgmt ++ [{ ticket := s.nextId, port := fr.port, seq := fr.seq.toNat, head := head, ctx := ctx,
                                    core := core, slot := slot, args := args }] }

/-- R391: a request of the owner; while an earlier one of its port has not replied, it waits. -/
def mgmtStep (fr : Frame) (s : State) (f : MBody) : Host.Outcome State Fault Refusal :=
  hostStep fr .owner s fun s1 =>
    if s1.mgmt.any fun m => m.port == fr.port then
      .next (s1.modPort fr.port fun p => { p with later := p.later ++ [fr] })
    else .next (runMgmt s1 fr f)

/-! ## Fields (R392) -/

/-- Doubleword `i` of a request's body. -/
def bodyDw (fr : Frame) (i : Nat) : Dword := dwordAt fr.payload (1 + i)
def bodyNat (fr : Frame) (i lo n : Nat) : Nat := ((bodyDw fr i).extractLsb' lo n).toNat

/-- R391: OFF of the byte that holds bit `lo` of doubleword `i` of the body. -/
def fieldOff (i lo : Nat) : Nat := 8 + 8 * i + lo / 8

/-- R391, R392: the length and SARG of a request. -/
def header (fr : Frame) (n : Nat) (sarg : Bool) (k : MRes) : MRes :=
  if fr.payload.length ≠ 8 + 8 * n then .fail 1 0 else if !sarg then .fail 1 2 else k

/-- R392: a field that must pass a test. -/
def field (i lo : Nat) (ok : Bool) (k : MRes) : MRes := if ok then k else .fail 1 (fieldOff i lo)

/-- R392: the bits of doubleword `i` from `lo`, `n` of them, must be zero. -/
def zeroField (fr : Frame) (i lo n : Nat) (k : MRes) : MRes :=
  match (List.range n).find? fun j => (bodyDw fr i).getLsbD (lo + j) with
  | some j => .fail 1 (fieldOff i (lo + j))
  | none => k

/-- R391: a state conflict, or a world that does not permit the request. -/
def unless_ (ok : Bool) (status off : Nat) (k : MRes) : MRes := if ok then k else .fail status off

/-- R392: the context that a request names. -/
def withCtx (s : State) (fr : Frame) (i lo : Nat) (k : Nat → Ctx → MRes) : MRes :=
  let id := bodyNat fr i lo 16
  match s.ctx? id with
  | none => .fail 1 (fieldOff i lo)
  | some c => k id c

/-! ## Contexts (R23, R264, R266, R293, R352) -/

/-- R266: a context at its creation. -/
def newCtx (secure : Bool) (level : BitVec 2) (lasting : Bool) (codebase root : Nat) : Ctx :=
  { secure := secure, level := level, persistent := lasting, codebase := codebase, root := root, handler := 0,
    bases := [(0, defaultBasis)], frbase := 0, frsize := 0, frhead := 0, frtail := 0, frlost := 0, orbase := 0, orsize := 0,
    orhead := 0, ortail := 0, contbase := 0, contsize := 0, tbud := 0, bwdog := 2 ^ 24, pairs := [], lastPair := none,
    haltQ := [], halt := none, susp := [], heldRecs := [], ending := none, killed := false, energy := 0 }

/-- R266, R392: CREATE. -/
def createBody : MBody := fun s _ fr =>
  header fr 3 (fr.sarg == 0) <|
    field 0 17 (bodyNat fr 0 17 2 != 3) <| zeroField fr 0 20 44 <| field 1 0 (bodyNat fr 1 0 64 % 64 == 0) <|
      field 2 0 (bodyNat fr 2 0 64 % 4096 == 0 && decide (bodyNat fr 2 0 64 < 2 ^ 52)) <|
        let id := bodyNat fr 0 0 16
        unless_ (s.ctx? id).isNone 4 (fieldOff 0 0) <|
          let c := newCtx ((bodyDw fr 0).getLsbD 16) ((bodyDw fr 0).extractLsb' 17 2) ((bodyDw fr 0).getLsbD 19)
            (bodyNat fr 1 0 64) (bodyNat fr 2 0 64)
          unless_ (!c.persistent || flashFits s 0) 4 (fieldOff 0 19) <| .done (s.setCtx id c) []

/-- R392: pair `j` of a PLACE. -/
def pairAt (fr : Frame) (j : Nat) : Pair :=
  { core := bodyNat fr (1 + 2 * j) 0 8, slot := bodyNat fr (1 + 2 * j) 8 1, pbase := bodyNat fr (1 + 2 * j) 16 6,
    psize := bodyNat fr (1 + 2 * j) 24 7, savebase := bodyNat fr (2 + 2 * j) 0 64 }

/-- R293: the parts of the two slots of a core are not disjoint. An empty part meets nothing. -/
def partsClash (p q : Pair) : Bool :=
  p.core == q.core && p.slot != q.slot && p.psize != 0 && q.psize != 0 && overlap p.pbase p.psize q.pbase q.psize

/-- R293, R392: a field of pair `j` that the payload alone shows to be wrong, as OFF. -/
def pairError (fr : Frame) (ps : List Pair) (j : Nat) : Option Nat :=
  let p := pairAt fr j
  let i := 1 + 2 * j
  let zero (lo n : Nat) : Option Nat := if bodyNat fr i lo n = 0 then none else some (fieldOff i lo)
  if 191 < p.core then some (fieldOff i 0)
  else match zero 9 7 with
    | some o => some o
    | none =>
      match zero 22 2 with
      | some o => some o
      | none =>
        if 64 < p.pbase + p.psize then some (fieldOff i 24)
        else match zero 31 33 with
          | some o => some o
          | none =>
            if p.savebase = 0 ∨ p.savebase % 4096 ≠ 0 then some (fieldOff (i + 1) 0)
            else if (ps.take j).any fun q => q.core == p.core && q.slot == p.slot then some (fieldOff i 0)
            else none

/-- R293, R392, R413: what the device's state has against pair `j`, as STATUS and OFF: its slot is not EMPTY, the slot is of
the other world, or its part of the pool overlaps the part of the core's other slot. -/
def pairConflict (s : State) (fr : Frame) (ps : List Pair) (secure : Bool) (j : Nat) : Option (Nat × Nat) :=
  let p := pairAt fr j
  let i := 1 + 2 * j
  if (s.slot p.core p.slot).st ≠ .empty then some (4, fieldOff i 0)
  else if s.secure.contains p.core != secure then some (3, fieldOff i 0)
  else if ((s.ctxs.flatMap fun c => c.2.pairs) ++ ps.take j).any (partsClash p) then some (1, fieldOff i 16)
  else none

/-- R392: PLACE. -/
def placeBody : MBody := fun s _ fr =>
  let n := fr.sarg
  header fr (2 * n + 2) (decide (1 ≤ n) && decide (n ≤ 254)) <|
    withCtx s fr 0 0 fun id c =>
      zeroField fr 0 16 48 <|
        let ps := (List.range n).map (pairAt fr)
        match (List.range n).findSome? (pairError fr ps) with
        | some off => .fail 1 off
        | none =>
          zeroField fr (2 * n + 1) 0 64 <|
            unless_ (!c.killed && c.ending.isNone) 4 (fieldOff 0 0) <|
              match (List.range n).findSome? (pairConflict s fr ps c.secure) with
              | some e => .fail e.1 e.2
              | none =>
                let kept := c.pairs.filter fun q => !ps.any fun p => p.core == q.core && p.slot == q.slot
                let c1 := { c with pairs := kept ++ ps }
                unless_ (!c.persistent || decide (flashTotal (s.setCtx id c1) ≤ 2 ^ 28)) 4 (fieldOff 0 0) <|
                  .done (s.setCtx id c1) []

/-- R392: CSRSET: a system-level CSRW of the context. -/
def csrsetBody : MBody := fun s ticket fr =>
  let i := fr.sarg
  header fr 2 (csrAssigned i) <|
    withCtx s fr 0 0 fun id c =>
      let core := bodyNat fr 0 16 8
      let slot := bodyNat fr 0 24 1
      let place := if ofContext i then core == 0 else c.pairs.any fun p => p.core == core
      let lane := if ofSlot i then c.pairs.any fun p => p.core == core && p.slot == slot else slot == 0
      field 0 16 place <| field 0 24 lane <| zeroField fr 0 25 39 <|
        let w := bodyDw fr 1
        let bad : MRes := .fail 1 (fieldOff 1 0)
        if i = 0x000 then
          match install s (hwWho id core) w.toNat with
          | .ok s1 => .done s1 []
          | .wait => .fail 2 0
          | .trap _ _ | .halt _ _ _ => bad
        else if i = 0x081 then
          let target := (w.extractLsb' 48 16).toNat
          match s.ctx? target with
          | none => bad
          | some t =>
            if t.secure != c.secure then bad
            else
              let s1 := s.modCore core fun k => { k with invcmd := w }
              .wait (requestInval s1 target (s.core core).invbase.toNat (w.extractLsb' 0 48).toNat ticket none) target core 0 []
        else match csrPut s { ctx := id, core := core, slot := slot } i w true with
          | some s1 => .done s1 []
          | none => bad

/-- R227: no slot holds the context any more, and none of its launches waits. -/
def contextGone (s : State) (ctx : Nat) : Bool :=
  (slotsIn s ctx fun _ => true).isEmpty && s.launches.all fun l => l.2.ctx != ctx

/-- R392, R412: the context is discarded, with the events that were counted for it. Its token-table entries are free, and keep their
generations. -/
def discardCtx (s : State) (ctx : Nat) : State :=
  { s with
    ctxs := mdel s.ctxs ctx
    launches := s.launches.filter fun l => l.2.ctx != ctx
    images := s.images.filter fun g => g.ctx != ctx
    energyUse := s.energyUse.filter fun e => e.1 / 16 != ctx
    cores := s.cores.map fun k => (k.1, { k.2 with tokens := k.2.tokens.map fun t =>
      (t.1, if t.2.ctx = ctx then { t.2 with ctx := 2 ^ 16 } else t.2) }) }

/-- R227, R392, R412: TEARDOWN. -/
def teardownBody : MBody := fun s ticket fr =>
  header fr 1 (fr.sarg == 0) <|
    withCtx s fr 0 0 fun id c =>
      zeroField fr 0 16 48 <|
        unless_ c.ending.isNone 4 (fieldOff 0 0) <|
          if contextGone s id then .done (discardCtx s id) [BitVec.ofNat 64 c.energy]
          else .wait (s.modCtx id fun c => { c with ending := some ticket }) id 0 0 []

/-! ## Memory (R307, R310) -/

/-- R307: INVAL. -/
def invalBody : MBody := fun s ticket fr =>
  header fr 3 (fr.sarg == 0) <|
    withCtx s fr 0 0 fun id _ =>
      zeroField fr 0 16 48 <| field 1 0 (bodyNat fr 1 0 64 % 2 ^ 16 == 0) <|
        .wait (requestInval s id (bodyNat fr 1 0 64) (bodyNat fr 2 0 64) ticket none) id 0 0 []

/-- R310: QUIESCE. Accesses are performed at once here, so nothing is left to wait for. -/
def quiesceBody : MBody := fun s _ fr =>
  header fr 2 (fr.sarg == 0) <|
    withCtx s fr 0 0 fun id _ => zeroField fr 0 16 48 <| field 1 0 (vaOk (bodyNat fr 1 0 64)) <| .wait s id 0 0 []

/-- R310: PCOPY. -/
def pcopyBody : MBody := fun s _ fr =>
  header fr 3 (fr.sarg == 0) <|
    let src := bodyNat fr 0 0 64
    let dst := bodyNat fr 1 0 64
    let n := bodyNat fr 2 0 64
    field 2 0 (n % 2 ^ 16 == 0) <| field 0 0 (memRange src n) <| field 1 0 (memRange dst n) <| .wait s 0 0 0 [src, dst, n]

/-! ## Slots (R382, R383) -/

/-- R382: FREEZE. -/
def freezeBody : MBody := fun s _ fr =>
  header fr 1 (fr.sarg == 0) <|
    let core := bodyNat fr 0 0 8
    let slot := bodyNat fr 0 8 1
    field 0 0 (decide (core ≤ 191)) <| zeroField fr 0 9 55 <|
      let q := s.slot core slot
      unless_ (q.st == .running && !q.line && !q.freezing) 4 (fieldOff 0 0) <|
        .wait (freezeSlot s core slot) q.ctx core slot [0x20]

/-- R383: RESTORE. -/
def restoreBody : MBody := fun s _ fr =>
  header fr 2 (fr.sarg == 0) <|
    let core := bodyNat fr 0 0 8
    let slot := bodyNat fr 0 8 1
    field 0 0 (decide (core ≤ 191)) <| zeroField fr 0 10 54 <| field 1 0 (bodyNat fr 1 0 64 % 4096 == 0) <|
      match restoreSlot s core slot (bodyNat fr 1 0 64) ((bodyDw fr 0).getLsbD 9) with
      | some s1 => .done s1 []
      | none => .fail 4 (fieldOff 0 0)

/-! ## Queues, policy and numbers (R356, R361, R398, R405, R410) -/

/-- R361, R392: the queue holds no record, nor does its ring. -/
def queueIdle (k : Queue) : Bool := k.recs.isEmpty && k.ringCount == 0 && k.forming.isEmpty && k.waiting.isEmpty

/-- R361: bind a queue to a context, or to none. -/
def bindQueue (owner : Option Nat) (dispatch : Bool) (s : State) (fr : Frame) : MRes :=
  let cl := bodyNat fr 0 0 8
  let u := fr.sarg % 4
  unless_ (queueIdle (s.queue cl u)) 4 (fieldOff 0 0) <|
    .done (s.modQueue cl u fun k => { k with owner := owner, dispatch := dispatch, base := 0, size := 0, stuck := false }) []

/-- R361: QBIND. -/
def qbindBody : MBody := fun s _ fr =>
  header fr 1 (decide (fr.sarg < 16)) <|
    field 0 0 (decide (bodyNat fr 0 0 8 ≤ 47)) <| zeroField fr 0 8 8 <|
      withCtx s fr 0 16 fun id _ => zeroField fr 0 32 32 <| bindQueue (some id) (fr.sarg / 4 % 2 == 1) s fr

/-- R361: QBIND with unbind set. -/
def qunbindBody : MBody := fun s _ fr =>
  header fr 1 (decide (fr.sarg < 16)) <|
    field 0 0 (decide (bodyNat fr 0 0 8 ≤ 47)) <| zeroField fr 0 8 8 <| zeroField fr 0 32 32 <| bindQueue none false s fr

/-- R356: POLICY. -/
def policyBody : MBody := fun s _ fr =>
  header fr 1 (decide (fr.sarg ≤ 1)) <|
    let core := bodyNat fr 0 0 8
    field 0 0 (decide (core ≤ 191)) <| zeroField fr 0 8 56 <|
      .done (s.modCore core fun k => { k with rrNext := some (fr.sarg == 1) }) []

/-- R398: DEVNUM. -/
def devnumBody : MBody := fun s _ fr =>
  header fr 0 (decide (fr.sarg ≤ 1023)) <| unless_ s.ctxs.isEmpty 4 2 <| .done { s with devnum := fr.sarg } []

/-- R405: a cap in watts. -/
def capOk (w : Nat) : Bool := decide (800 ≤ w) && decide (w ≤ 3000)

/-- R405: POWERCAP. -/
def powercapBody : MBody := fun s _ fr =>
  header fr 0 (capOk fr.sarg) <| .done { s with kettle := { s.kettle with cport := fr.sarg } } []

/-- R405: STEPCAP. -/
def stepcapBody : MBody := fun s _ fr =>
  header fr 1 (capOk fr.sarg) <|
    let n := bodyNat fr 0 0 3
    field 0 0 (n != 0) <| zeroField fr 0 3 61 <|
      .done { s with kettle := { s.kettle with caps := mput s.kettle.caps n fr.sarg } } []

/-- R290, R411: neither context slot has accepted column work in the core's column, running or parked. -/
def columnIdle (k : Core) : Bool :=
  k.tokens.all fun t =>
    let q := mget Slot.reset k.slots t.2.cslot
    !(t.2.gen != 0 && t.2.cls == 2 && t.2.work.accepted && !t.2.st.terminal && q.st != .empty && q.ctx == t.2.ctx)

/-- R405: the code of the power-step pins that is in effect: a changed one once it has been stable for 2 µs. -/
def pinNow (s : State) : BitVec 3 :=
  if s.kettle.pinAt + 2 * microsecond ≤ s.time then s.kettle.pinNext else s.kettle.pin

/-- R405, R406: the cap in force. -/
def capNow (s : State) : Nat :=
  let k := s.kettle
  if s.pfail then 300 else max 800 (min k.cport (if pinNow s = 0 then 3000 else mget 3000 k.caps (pinNow s).toNat))

/-- R411: the Kettle has a use for dummy steps. -/
def ballastWanted (s : State) : Bool :=
  let k := s.kettle
  k.ballastEn && mget 0 k.depths 1 == 0 && decide (k.power < min k.ballastFloor (capNow s - 100))

/-- R359, R411: dummy steps run in the column of a core whose cluster has power. -/
def ballastRuns (s : State) (core : Nat) (k : Core) : Bool :=
  k.col.dummy && columnIdle k && ballastWanted s && !(s.cluster (clusterOf core)).gated

/-- R411: dummy steps end in every column once there is no use for them. -/
def endBallast (s : State) : State :=
  if ballastWanted s then s
  else { s with cores := s.cores.map fun k => (k.1, { k.2 with col := { k.2.col with dummy := false } }) }

/-- R410: the ballast level register. -/
def ballastWord (s : State) : Dword :=
  BitVec.ofNat 64 (s.kettle.ballastEn.toNat * 2 ^ 31 + s.kettle.ballastFloor * 2 ^ 16
    + (s.cores.filter fun k => ballastRuns s k.1 k.2).length)

/-- R410: BALLAST, read. -/
def ballastReadBody : MBody := fun s _ fr => header fr 0 (fr.sarg == 0) <| .done s [ballastWord s]

/-- R410: BALLAST, write. ACT and the reserved bits take no value. -/
def ballastWriteBody : MBody := fun s _ fr =>
  header fr 1 (fr.sarg == 1) <|
    field 0 16 (decide (bodyNat fr 0 16 12 ≤ 3000)) <|
      let s1 := endBallast
        { s with kettle := { s.kettle with ballastEn := (bodyDw fr 0).getLsbD 31, ballastFloor := bodyNat fr 0 16 12 } }
      .done s1 [ballastWord s1]

/-- R412: ENERGY. -/
def energyBody : MBody := fun s _ fr =>
  header fr 1 (fr.sarg == 0) <|
    let id := bodyNat fr 0 0 16
    if id = 0xFFFF then zeroField fr 0 16 48 <| .done s [BitVec.ofNat 64 s.kettle.energySys]
    else withCtx s fr 0 0 fun _ c => zeroField fr 0 16 48 <| .done s [BitVec.ofNat 64 c.energy]

/-! ## Trust (R417, R419) -/

/-- R417: the firmware image in module flash. -/
def flashImage (s : State) : List Byte := s.fwImage.getD Config.factoryImage

/-- R414: the committed region table as bytes. -/
def regionBytes (s : State) : List Byte :=
  (List.range 64).flatMap fun i =>
    let e := mget { d0 := 0, d1 := 0 } s.regions i
    natBytes 8 e.d0.toNat ++ natBytes 8 e.d1.toNat

/-- R413, R419: the world of every core, one bit each, in three doublewords. -/
def worldDwords (s : State) : List Dword :=
  (List.range 3).map fun j => BitVec.ofNat 64
    ((List.range 64).foldl (fun a i => if s.secure.contains (64 * j + i) then a + 2 ^ i else a) 0)

/-- R419: what a report tells under its signatures: the nonce, the digests of the firmware and of the region table, the security
version, the fuse counter, the device number, the worlds and the exhaustion bit. -/
def reportText (s : State) (nonce : List Dword) (exhausted : Bool) : List Dword :=
  nonce ++ Config.sha384 (flashImage s) ++ Config.sha384 (regionBytes s) ++
    [BitVec.ofNat 64 s.fwVersion, BitVec.ofNat 64 s.fuses, BitVec.ofNat 64 s.devnum] ++ worldDwords s ++
    [BitVec.ofNat 64 exhausted.toNat]

/-- The doublewords of an LMS signature of the parameter set of R417 (assumption 18). -/
def lmsDwords : Nat := 222

/-- R419: ATTEST: the leaf index is committed before the report leaves; once every leaf is used the LMS field is zero. -/
def attestBody : MBody := fun s _ fr =>
  header fr 4 (fr.sarg == 0) <|
    let left := decide (s.lmsIndex < 2 ^ 20)
    let text := reportText s ((List.range 4).map (bodyDw fr)) (!left)
    .done { s with lmsIndex := if left then s.lmsIndex + 1 else s.lmsIndex }
      (text ++ Config.identitySign text ++ if left then Config.lmsSign s.lmsIndex text else List.replicate lmsDwords 0)

/-- R417: FUSEUP. -/
def fuseupBody : MBody := fun s _ fr =>
  header fr 0 (decide (1 ≤ fr.sarg) && decide (fr.sarg ≤ 64) && decide (fr.sarg ≤ s.fwVersion) && decide (s.fuses ≤ fr.sarg)) <|
    .done { s with fuses := fr.sarg } []

/-- R392: a code that no request has. -/
def unknownBody : MBody := fun _ _ _ => .fail 5 0

/-! ## The requests -/

def execCreate (fr : Frame) (s : State) : Host.Outcome State Fault Refusal := mgmtStep fr s createBody
def execPlace (fr : Frame) (s : State) : Host.Outcome State Fault Refusal := mgmtStep fr s placeBody
def execCsrset (fr : Frame) (s : State) : Host.Outcome State Fault Refusal := mgmtStep fr s csrsetBody
def execTeardown (fr : Frame) (s : State) : Host.Outcome State Fault Refusal := mgmtStep fr s teardownBody
def execInval (fr : Frame) (s : State) : Host.Outcome State Fault Refusal := mgmtStep fr s invalBody
def execQuiesce (fr : Frame) (s : State) : Host.Outcome State Fault Refusal := mgmtStep fr s quiesceBody
def execPcopy (fr : Frame) (s : State) : Host.Outcome State Fault Refusal := mgmtStep fr s pcopyBody
def execFreeze (fr : Frame) (s : State) : Host.Outcome State Fault Refusal := mgmtStep fr s freezeBody
def execRestore (fr : Frame) (s : State) : Host.Outcome State Fault Refusal := mgmtStep fr s restoreBody
def execQbind (fr : Frame) (s : State) : Host.Outcome State Fault Refusal := mgmtStep fr s qbindBody
def execQunbind (fr : Frame) (s : State) : Host.Outcome State Fault Refusal := mgmtStep fr s qunbindBody
def execPolicy (fr : Frame) (s : State) : Host.Outcome State Fault Refusal := mgmtStep fr s policyBody
def execDevnum (fr : Frame) (s : State) : Host.Outcome State Fault Refusal := mgmtStep fr s devnumBody
def execPowercap (fr : Frame) (s : State) : Host.Outcome State Fault Refusal := mgmtStep fr s powercapBody
def execStepcap (fr : Frame) (s : State) : Host.Outcome State Fault Refusal := mgmtStep fr s stepcapBody
def execBallastRead (fr : Frame) (s : State) : Host.Outcome State Fault Refusal := mgmtStep fr s ballastReadBody
def execBallastWrite (fr : Frame) (s : State) : Host.Outcome State Fault Refusal := mgmtStep fr s ballastWriteBody
def execEnergy (fr : Frame) (s : State) : Host.Outcome State Fault Refusal := mgmtStep fr s energyBody
def execAttest (fr : Frame) (s : State) : Host.Outcome State Fault Refusal := mgmtStep fr s attestBody
def execFuseup (fr : Frame) (s : State) : Host.Outcome State Fault Refusal := mgmtStep fr s fuseupBody
def execMgmtUnknownCode (fr : Frame) (s : State) : Host.Outcome State Fault Refusal := mgmtStep fr s unknownBody

/-! ## Requests that wait (R391) -/

/-- The meaning of a request, by its code. -/
def bodyOf (fr : Frame) : MBody :=
  match fr.mgmtCode with
  | 0x0001 => createBody | 0x0002 => placeBody | 0x0003 => csrsetBody | 0x0004 => teardownBody | 0x0010 => invalBody
  | 0x0011 => quiesceBody | 0x0012 => pcopyBody | 0x0020 => freezeBody | 0x0021 => restoreBody
  | 0x0030 => if fr.sarg / 8 % 2 == 0 then qbindBody else qunbindBody
  | 0x0031 => policyBody | 0x0040 => devnumBody | 0x0100 => powercapBody | 0x0101 => stepcapBody
  | 0x0102 => if fr.sarg == 0 then ballastReadBody else ballastWriteBody
  | 0x0103 => energyBody | 0x0110 => attestBody | 0x0111 => fuseupBody
  | _ => unknownBody

/-- R391: the requests of a port that have waited are carried out in order, up to one that waits itself. -/
def drainLater (s : State) (port : Nat) : List Frame → State
  | [] => s.modPort port fun p => { p with later := [] }
  | fr :: rest =>
    if s.mgmt.any fun m => m.port == port then s.modPort port fun p => { p with later := fr :: rest }
    else drainLater (runMgmt s fr (bodyOf fr)) port rest

/-- R391: a request that was under way replies, and the next of its port begins. -/
def finishMgmt (s : State) (m : Mgmt) (status off : Nat) (body : List Dword) : State :=
  let s1 := mreply { s with mgmt := s.mgmt.filter fun o => o.ticket != m.ticket } m.port m.seq m.head status off body
  drainLater s1 m.port (s1.port m.port).later

/-- The request of a ticket. -/
def mgmtOf (s : State) (ticket : Nat) : Option Mgmt := s.mgmt.find? fun m => m.ticket == ticket

/-- The code of a request under way. -/
def Mgmt.code (m : Mgmt) : Nat := (m.head.extractLsb' 0 16).toNat

/-- R382: the freeze of a slot that a request waits for. -/
def freezeRequest (s : State) (core slot : Nat) : Option Mgmt :=
  s.mgmt.find? fun m => m.code == 0x20 && m.core == core && m.slot == slot

end Sys2Proof.Machine
end

