-- ==== Sys2Proof/Machine/Ends.lean ====
section
/-! DEFINITION. The events of halts and slots (R371, R372, R227, R382), and the ends of requests that the management
processor has under way (R307, R310). -/

namespace Sys2Proof.Machine

/-! ## Halts (R371, R372) -/

/-- R371: a cause reaches the context's halt controller. -/
def execHaltCause (ctx : Nat) (s : State) : Host.Outcome State Fault Refusal := .next (takeHalt s ctx)

/-- R380: the halt line may reach the slot in this cycle. One that reaches it in the cycle of a SWAP or of a trap comes before them,
so none comes after them. -/
def lineMay (s : State) (q : Slot) : Bool :=
  q.st == .running && !q.line && q.actedAt != s.cycle + 1 &&
    match s.ctx? q.ctx with | some c => c.halt.isSome | none => false

/-- R372, R380: the halt line of the slot's context reaches the core. A freeze that it ends is answered as a state conflict. -/
def execHaltLineArrival (core slot : Nat) (s : State) : Host.Outcome State Fault Refusal :=
  if lineMay s (s.slot core slot) then
    let s1 := lineArrives s core slot
    .next (match freezeRequest s1 core slot with
      | some m => finishMgmt s1 m 4 (fieldOff 0 0) []
      | none => s1)
  else .next s

/-- R372, R373: every strand and operation of the slot has stopped: the slot is HALTED. -/
def execSlotHalted (core slot : Nat) (s : State) : Host.Outcome State Fault Refusal :=
  let q := s.slot core slot
  if q.st == .running && q.line && opsStopped s core slot q.ctx then .next (becomeHalted s core slot) else .next s

/-- R372: 20 µs. -/
def haltLimit : Nat := 20 * microsecond

/-- R372: a slot of the context has not halted within 20 µs of the first cause: the context is killed. -/
def execStopTimeout (ctx : Nat) (s : State) : Host.Outcome State Fault Refusal :=
  match s.ctx? ctx with
  | none => .next s
  | some c =>
    match c.halt, slotsIn s ctx fun q => q.st == .running with
    | some h, p :: _ =>
      if h.since + haltLimit ≤ s.time && !c.killed then
        .next (killContext s ctx .stopTimeout (BitVec.ofNat 64 p.1))
      else .next s
    | _, _ => .next s

/-! ## Saving and emptying (R226, R227, R378, R382) -/

/-- R227: a slot of a context that ends can become EMPTY: nothing runs in it, and its entries can be reallocated. -/
def endsNow (s : State) (core slot ctx : Nat) : Bool :=
  let q := s.slot core slot
  q.st == .running && !q.line && !q.freezing && (slotStrands s core slot).isEmpty &&
    ((s.core core).teams.all fun t => t.2.slot != slot) && (s.launches.all fun l => l.2.ctx != ctx) &&
    (slotTokens s core slot ctx).all fun i => reusable s core i

/-- R227, R372: a slot of a killed context can become EMPTY: it has stopped, or 20 µs have passed, and its operations are
terminal. -/
def deadNow (s : State) (core slot ctx : Nat) (c : Ctx) : Bool :=
  let q := s.slot core slot
  let late := match c.halt with | some h => decide (h.since + haltLimit ≤ s.time) | none => false
  (q.st == .shadow || q.st == .frozen || q.st == .halted || (q.st == .running && late)) &&
    (slotTokens s core slot ctx).all fun i => (s.token core i).st.terminal

/-- R392, R412: a context that ends and holds no slot any more is discarded, and its TEARDOWN replies with its account. -/
def endContext (s : State) (ctx : Nat) : State :=
  match s.ctx? ctx with
  | none => s
  | some c =>
    match c.ending with
    | none => s
    | some ticket =>
      if !contextGone s ctx then s
      else match mgmtOf s ticket with
        | some m => finishMgmt (discardCtx s ctx) m 0 0 [BitVec.ofNat 64 c.energy]
        | none => discardCtx s ctx

/-- R391, R392: every context whose end only waited for a slot or for a launch that is gone now is discarded. -/
def endContexts (s : State) : State := s.ctxs.foldl (fun s c => endContext s c.1) s

/-- R382: a freeze ends, or the spill engine has saved a FROZEN slot. -/
def execSlotSave (core slot : Nat) (s : State) : Host.Outcome State Fault Refusal :=
  let q := s.slot core slot
  if q.st == .running && q.freezing then .next (tryFreeze s core slot)
  else if q.st == .frozen && saveReady s core slot q.ctx then
    let s1 := saveSlot s core slot
    let s2 := match freezeRequest s1 core slot with
      | some m => finishMgmt s1 m 0 0 []
      | none => s1
    .next (endContext s2 q.ctx)
  else .next s

/-- R24, R227: the slot becomes EMPTY at the end of a teardown or of a kill. A freeze of it that waits is a state conflict. A context
that holds nothing any more is discarded. -/
def execContextTeardownEnd (core slot : Nat) (s : State) : Host.Outcome State Fault Refusal :=
  let q := s.slot core slot
  match s.ctx? q.ctx with
  | none => .next (endContexts s)
  | some c =>
    if q.st == .empty then .next (endContexts s)
    else if (c.killed && deadNow s core slot q.ctx c) || (c.ending.isSome && !c.killed && endsNow s core slot q.ctx) then
      let s0 := if c.killed then dropOwed s q.ctx else s
      let s1 := emptySlot s0 core slot
      let s2 := match freezeRequest s1 core slot with
        | some m => finishMgmt s1 m 4 (fieldOff 0 0) []
        | none => s1
      .next (endContext s2 q.ctx)
    else .next (endContexts s)

/-! ## Translation and pages (R307, R310) -/

/-- R307: the cached leaf translates part of the range. -/
def Inval.covers (v : Inval) (e : TlbE) : Bool :=
  let base := v.base % 2 ^ 57
  e.ctx == v.ctx && (v.pages == 0 || (decide (base < e.base + e.size) && decide (e.base < base + v.pages * 2 ^ 16)))

/-- R307: an invalidation completes. -/
def execInvalidationComplete (ticket : Nat) (s : State) : Host.Outcome State Fault Refusal :=
  match s.invals.find? fun v => v.ticket == ticket with
  | none => .next s
  | some v =>
    let s1 := { s with invals := s.invals.filter (fun u => u.ticket != ticket)
                       tlb := s.tlb.map fun d => (d.1, d.2.filter fun e => !v.covers e)
                       cores := s.cores.map fun k => (k.1, { k.2 with tlb := k.2.tlb.filter fun e => !v.covers e }) }
    let s2 := match v.by_ with
      | none => s1
      | some r =>
        let s2 := s1.modCore r.core fun k => { k with invcmd := 0 }
        match s2.strand? r with
        | some x => (match x.wait with
          | .inval t => if t = ticket then endWait s2 r x (.imm 0) 0 else s2
          | _ => s2)
        | none => s2
    .next (match mgmtOf s2 ticket with
      | some m =>
        finishMgmt (if m.code = 3 then s2.modCore m.core fun k => { k with invcmd := 0 } else s2) m 0 0 []
      | none => s2)

/-- R310: a quiesce completes. An access of the model translates when it is performed, so one that has not been performed translates
again after the quiesce (assumption 15). -/
def execQuiesceComplete (ticket : Nat) (s : State) : Host.Outcome State Fault Refusal :=
  match mgmtOf s ticket with
  | some m => if m.code = 0x11 then .next (finishMgmt s m 0 0 []) else .next s
  | none => .next s

/-- R310: the management processor's copier has written every byte. -/
def execPcopyComplete (ticket : Nat) (s : State) : Host.Outcome State Fault Refusal :=
  match mgmtOf s ticket with
  | some m =>
    if m.code = 0x12 then
      .next (finishMgmt (storeBytes s (m.args.getD 1 0) (rawBytes s (m.args.getD 0 0) (m.args.getD 2 0))) m 0 0 [])
    else .next s
  | none => .next s

end Sys2Proof.Machine
end

