-- ==== Sys2Proof/Machine/Fabric.lean ====
section
/-! DEFINITION. The edges and guards of the device: host and UALink links (R396, R399), requests from peer devices (R397,
R398), and the commit of the region table (R416). -/

namespace Sys2Proof.Machine

/-! ## Links (R396, R399) -/

/-- R395: a port sends a new challenge. -/
def challengePort (s : State) (p : Nat) : State :=
  let n := s.nextId + 2
  let s1 := { s with nextId := s.nextId + 1 }.modPort p fun k => { k with chal := n, node := none, key := 0 }
  sendTo s1 p 0x86 none 0 (dwordsIn (Config.challenge n))

/-- R396, R399: a link drops: a host port loses its authentication; a UALink port begins to retrain. -/
def execLinkDrop (host : Bool) (port : Nat) (s : State) : Host.Outcome State Fault Refusal :=
  if host then
    if port < 2 then .next (s.modPort port fun p => { p with up := false, node := none, key := 0 }) else .next s
  else if 12 ≤ port then .next s
  else match mget .up s.links port with
    | .up => .next { s with links := mput s.links port (.retraining s.time) }
    | .retraining _ | .lost => .next s

/-- R396, R399: a link returns to service: a host port sends a new challenge. -/
def execLinkReturn (host : Bool) (port : Nat) (s : State) : Host.Outcome State Fault Refusal :=
  if host then
    if port < 2 && !(s.port port).up then .next (challengePort (s.modPort port fun p => { p with up := true }) port) else .next s
  else if port < 12 then .next { s with links := mput s.links port .up }
  else .next s

/-- R399: a link that has retrained for 1 s is lost, which the nodes are told. What waits on it then fails. -/
def execLinkLost (port : Nat) (s : State) : Host.Outcome State Fault Refusal :=
  match mget .up s.links port with
  | .retraining t =>
    if t + oneSecond ≤ s.time then
      .next (postEvent { s with links := mput s.links port .lost } .linkLost [BitVec.ofNat 64 port])
    else .next s
  | .up | .lost => .next s

/-! ## Requests from peers (R397, R398) -/

/-- R397, R398, R415: a request of `n` bytes at an address of this device's memory passes the region table: the whole of it the old
table or the whole of it the new one (R416). -/
def peerOk (s : State) (k : Access) (a n : Nat) : Bool :=
  let allows (pa : Nat) : Bool := regionAllowsBy s (oldTable s a) false k true pa
  decide (1 ≤ n) && decide (n ≤ 256) && memRange a n && allows a && allows (a + n - 1)

/-- R398: the answer to a peer: 2 performed, with data, or 3 an error. -/
def peerAnswer (s : State) (rq : PeerReq) (ok : Bool) (bs : List Byte) : State :=
  linkMsg s rq.src (if ok then 2 else 3) 0 (dwordsIn bs)

def execPeerRead (rq : PeerReq) (s : State) : Host.Outcome State Fault Refusal :=
  if peerOk s .read rq.addr rq.size then .next (peerAnswer (countHot s rq.addr) rq true (rawBytes s rq.addr rq.size))
  else .next (peerAnswer s rq false [])

/-- R397: the bytes of a write whose mask is set. -/
def maskedBytes (s : State) (rq : PeerReq) : List Byte :=
  (List.range rq.size).map fun i => if rq.mask.getD i false then rq.data.getD i 0 else Memory.byte s.mem (rq.addr + i)

/-- R309: a write clears the mark of a line only when it writes the whole line. -/
def markedAfter (s : State) (rq : PeerReq) : List Nat :=
  s.unc.filter fun l => !((List.range 64).all fun i =>
    decide (rq.addr ≤ l * 64 + i) && decide (l * 64 + i < rq.addr + rq.size) && rq.mask.getD (l * 64 + i - rq.addr) false)

def execPeerWrite (rq : PeerReq) (s : State) : Host.Outcome State Fault Refusal :=
  if peerOk s .write rq.addr rq.size then
    let s1 := countHot s rq.addr
    .next (peerAnswer { s1 with mem := Memory.putBytes s1.mem rq.addr (maskedBytes s rq), unc := markedAfter s rq } rq true [])
  else .next (peerAnswer s rq false [])

/-- R397: an atomic. `op` is AOP (R192), plus 16 for the unsigned minimum and maximum; for compare-and-swap the new value
follows the old one in the data. -/
def execPeerAtomic (rq : PeerReq) (s : State) : Host.Outcome State Fault Refusal :=
  let n := if rq.dwide then 8 else 4
  let aop := rq.op % 16
  let uns := rq.op / 16 == 1
  let known := decide (aop ≤ 7) && decide (rq.op < 32) && (!uns || aop == 1 || aop == 2)
  if known && rq.addr % n == 0 && peerOk s .atomic rq.addr n then
    let old := rawBytes s rq.addr n
    let new := atomicNew aop uns n (leNat old) (leNat (rq.data.take n)) (leNat ((rq.data.drop n).take n))
    .next (peerAnswer (storeNat (countHot s rq.addr) rq.addr n new) rq true old)
  else .next (peerAnswer s rq false [])

/-! ## The region table (R416) -/

/-- R416: a write of 1 to RTCOMMIT. -/
def execRtcommit (s : State) : Host.Outcome State Fault Refusal := .next (commitRegions s)

/-- R416: every checker uses the new table. -/
def execRtcommitComplete (s : State) : Host.Outcome State Fault Refusal := .next { s with rtBusy := false }

end Sys2Proof.Machine
end

