-- ==== Sys2Proof/Machine/Issue.lean ====
section
/-! DEFINITION. The issue slots (R354 to R357), the power allowance (R358), power gating (R359, R360), and the completion of
long-latency instructions (R66). -/

namespace Sys2Proof.Machine

/-! ## Readiness (R354) -/

/-- R52, R182, R188, R222: the body of an instruction that can stall at issue. -/
def stallBody (i : Instr) : Option (State → Ref → Strand → Res) :=
  match i with
  | .cpl f => some (cplBody f) | .cpt f => some (cptBody f) | .cpg f => some (cpgBody f) | .cvb f => some (cvbBody f)
  | .mzero f => some (mzeroBody f) | .mrl f => some (mrlBody f) | .mrs f => some (mrsBody f)
  | .mma f => some (mmaBody f false) | .mms f => some (mmaBody f true) | .mdr f => some (mdrBody f)
  | .coll f => some (collBody f) | .relay f => some (relayBody f) | .mop f => some (mopBody f)
  | .ld f => some (ldBody f) | .st f => some (stBody f) | .lds f => some (ldsBody f) | .sts f => some (stsBody f)
  | .atom f => some (atomicBody i f f.d.isS) | .red f => some (atomicBody i f false)
  | .ldt f => some (tensorBody i f false) | .stt f => some (tensorBody i f true)
  | .hld f => some (hldBody f) | .hget f => some (hgetBody f)
  | .exit f => some (exitBody f) | .suspend f => some (suspendBody f) | .spawn f => some (spawnBody f)
  | .basinstWrite f => some (basinstBody f)
  | .syncg f => some (syncgBody f)
  | .bar f => some (barBody f true) | .bara f => some (barBody f false)
  | _ => none

/-- The body's answer is that the instruction cannot issue yet, or a trap that has to wait for the strand to settle. -/
def Res.stalls (s : State) (x : Strand) : Res → Bool
  | .stall => true
  | .trap _ _ | .trapAt _ _ _ _ _ => trapWaits s x
  | _ => false

/-- R68, R354: the instruction cannot issue yet: a scratchpad conflict, a full token table, a full scoreboard, an access that waits
or has to follow one not yet made, or a trap that has to wait until the strand has settled. -/
def issueStalls (s : State) (r : Ref) (x : Strand) (i : Instr) : Bool :=
  if (decodeFault i x).isSome then trapWaits s x
  else x.passes i && match stallBody i with | none => false | some b => (b s r x).stalls s x

/-- R358: the power allowance withholds the instruction. -/
def withholds (s : State) (r : Ref) (x : Strand) (i : Instr) : Bool :=
  let k := s.cluster (clusterOf r.core)
  let c := energyClass i
  c != .e0 && (powerWithheld (paNow k (rhoOf s) s.cycle) c (energyCost s r x i) ||
    match k.owed with | some o => o != r && (s.strand? o).isSome | none => false)

/-- R57, R354: the strand's next instruction as the issue slot finds it, once its word is in the instruction cache. A word that
does not decode and a fetch that fails are found as well. -/
def nextInstr (s : State) (r : Ref) (x : Strand) : Option (Option Instr) :=
  if !wordCached s r x then none
  else match fetch s r x with
    | .word w => (match decode w with | .ok i => some (some i) | .error _ => some none)
    | .halt _ _ _ => some none
    | .wait => none

/-- R354: ready but for the power allowance. -/
def readyButPower (s : State) (r : Ref) (x : Strand) : Bool :=
  let k := s.cluster (clusterOf r.core)
  mayRun s r x && !k.gated && decide (k.wakeTime ≤ s.time) &&
    (if owesTrap x then canSettle x || (handlerOf s x).isNone
    else decide (x.notBefore ≤ s.cycle) && match nextInstr s r x with
      | none => false
      | some none => !x.long.any fun o => o.left == 0
      | some (some i) => !windowBlocked s.cycle x i && decide (availableAt x i ≤ s.cycle) && !issueStalls s r x i)

/-- R358: the strand is held by the power allowance alone. -/
def heldByPower (s : State) (r : Ref) (x : Strand) : Bool :=
  readyButPower s r x && !owesTrap x && match nextInstr s r x with
    | some (some i) => withholds s r x i
    | _ => false

/-- R354: the strand is ready. -/
def isReady (s : State) (r : Ref) (x : Strand) : Bool := readyButPower s r x && !heldByPower s r x

/-! ## The choice (R356) -/

/-- The bound strands of an issue slot, in the order of its list. -/
def boundStrands (s : State) (core : Nat) (q : ISlot) : List (Nat × Strand) :=
  q.order.filterMap fun i => (s.strand? { core := core, strid := i }).map fun x => (i, x)

/-- The strand that comes first by a test, of those of a list. -/
def firstBy (better : Nat × Strand → Nat × Strand → Bool) (l : List (Nat × Strand)) : Option Nat :=
  (l.foldl (fun b y => match b with | none => some y | some z => if better y z then some y else some z) none).map (·.1)

/-- A list from just after one of its members, cyclically. -/
def after (l : List Nat) (last : Option Nat) : List Nat :=
  match last.bind fun i => l.findIdx? (· == i) with
  | some k => l.drop (k + 1) ++ l.take (k + 1)
  | none => l

/-- R356: the strand an issue slot takes, of those that are ready. -/
def pickStrand (rr : Bool) (q : ISlot) (rdy : List (Nat × Strand)) : Option Nat :=
  match rdy.filter fun y => decide (1024 ≤ y.2.waits) with
  | [] =>
    if rr then (after q.order q.last).find? fun i => rdy.any fun y => y.1 == i
    else match q.greedy with
      | some g => if rdy.any fun y => y.1 == g then some g
        else firstBy (fun y z => decide (y.2.age < z.2.age) || (y.2.age == z.2.age && decide (y.1 < z.1))) rdy
      | none => firstBy (fun y z => decide (y.2.age < z.2.age) || (y.2.age == z.2.age && decide (y.1 < z.1))) rdy
  | late => firstBy (fun y z => decide (z.2.waits < y.2.waits) || (y.2.waits == z.2.waits && decide (y.1 < z.1))) late

/-- R356: a change of policy takes effect when neither issue slot is held. -/
def applyPolicy (s : State) (core : Nat) : State :=
  let k := s.core core
  match k.rrNext with
  | some b =>
    if [0, 1].all fun i => decide ((mget ISlot.reset k.islots i).hold ≤ s.cycle) then
      s.modCore core fun k => { k with rr := b, rrNext := none }
    else s
  | none => s

/-- R356, R358: what the cycle counts for the strands of the slot, before one of them is chosen: one that issues counts afresh. -/
def countWaits (s : State) (core : Nat) (ys : List (Nat × Strand)) : State :=
  ys.foldl (fun s' y =>
    let r : Ref := { core := core, strid := y.1 }
    s'.modStrand r fun x =>
      { x with
        waits := if isReady s r y.2 then x.waits + 1 else x.waits
        withheldAt := if heldByPower s r y.2 then some (x.withheldAt.getD s.cycle) else none }) s

/-- R68, R335: the strand cannot go on before the accesses that it owes have been made. -/
def mustPerform (s : State) (r : Ref) (x : Strand) : Bool :=
  accessesOwed x && (x.wait == .syncg || owesTrap x || match nextInstr s r x with
    | some (some i) => orderBlocked x i || issueStalls s r x i
    | some none => true
    | none => false)

/-- R298, R301, R345: what the fetch path does for a strand in a cycle. A word that is not in the instruction cache is brought
in after a time that the manual does not give, and one that is there may be read again: by free choices (assumption 3). -/
def fetchAhead (s : State) (r : Ref) (x : Strand) : State :=
  if !mayRun s r x then s
  else if wordCached s r x then icacheRefresh s (x.who r) x.pc
  else if Config.freeBool (s.free * 2 ^ 64 + 3 * 2 ^ 62 + r.strid) then icacheFill s (x.who r) x.pc
  else s

/-- What happens for the bound strands of an issue slot before it chooses: their words are fetched, and accesses that hold them back
are made. -/
def prepareSlot (s : State) (core : Nat) (q : ISlot) : State :=
  (boundStrands s core q).foldl (fun s y =>
    let r : Ref := { core := core, strid := y.1 }
    let s1 := fetchAhead s r y.2
    if (mayRun s1 r y.2 || (y.2.wait == .syncg && mayRun s1 r { y.2 with wait := .none })) && mustPerform s1 r y.2 then performAll s1 r else s1) s

/-- R143, R158, R187: an instruction whose latency is exact: it returns in the cycle in which it is due. -/
def exactLatency : Instr → Bool
  | .lds _ | .frcp _ | .frsq _ | .fexp2 _ | .flog2 _ | .fsin _ | .fcos _ | .matchLanes _ | .redux _ | .scan _ | .topk _ => true
  | .atom f => f.opx.getLsbD 1
  | _ => false

/-- R143, R158, R187, R355: the result returns in this cycle, or its registers are written because its window is spent (R66). -/
def returnDue (s : State) (o : LongOp) : Bool :=
  (o.arrived && o.left == 0) || (!o.arrived && exactLatency o.instr && decide (o.due ≤ s.cycle))

/-- R24: nothing keeps the strand's outstanding instructions from completing. -/
def mayComplete (s : State) (r : Ref) (x : Strand) : Bool :=
  let q := s.slot r.core x.slot
  q.st == .running && !q.line && !q.freezing && !x.stopped

/-- R444: a result returns in this cycle to a strand of the core. It returns before an issue slot chooses, so that an instruction it
holds back can issue in the same cycle. -/
def resultsDue (s : State) (core : Nat) : Bool :=
  (s.core core).strands.any fun e =>
    mayComplete s { core := core, strid := e.1 } e.2 && e.2.long.any fun o => o.pops.isEmpty && returnDue s o

/-- R356, R444: the issue slot works once in a cycle, after the results of the cycle: it selects at most one ready strand, whose instruction the next step
executes. -/
def execIssueSelect (core islot : Nat) (s : State) : Host.Outcome State Fault Refusal :=
  let q := mget ISlot.reset (s.core core).islots islot
  if q.worked = s.cycle + 1 ∨ s.sel.isSome ∨ resultsDue s core then .next s
  else
    let s1 := prepareSlot (applyPolicy s core) core q
    let s2 := countWaits s1 core (boundStrands s1 core q)
    let rdy := (boundStrands s2 core q).filter fun y => isReady s1 { core := core, strid := y.1 } y.2
    let chosen := if s2.cycle < q.hold then none else pickStrand (s2.core core).rr q rdy
    let s3 := s2.modCore core fun k => { k with islots := mput k.islots islot { q with worked := s2.cycle + 1 } }
    match chosen with
    | none => .next s3
    | some i =>
      let r : Ref := { core := core, strid := i }
      let s4 := s3.modCluster (clusterOf core) fun c => { c with owed := if c.owed = some r then none else c.owed }
      .next { s4 with sel := some r }

/-! ## Long latency (R66) -/

/-- R66: the result of the `n`-th outstanding instruction has returned, and its accesses have been made. While its window covers
instructions that have not issued, its registers wait; after that they are written. To HLD that rule does not apply (R197). -/
def returned (s : State) (r : Ref) (x : Strand) (n : Nat) (o : LongOp) : State :=
  if o.left = 0 ∨ Instr.isHld o.instr then takeDeferred (s.setStrand r (completeOne { x with long := x.long.eraseIdx n } o)) r
  else if o.arrived then s
  else takeDeferred (s.setStrand r (arrive x n o)) r

/-- R66, R355: the `n`-th outstanding instruction of a strand returns, no earlier than its latency lets it. Accesses of it that have
not been made are made first (R68, R334). -/
def execLongLatencyComplete (core strid n : Nat) (s : State) : Host.Outcome State Fault Refusal :=
  let r : Ref := { core := core, strid := strid }
  match s.strand? r with
  | none => .next s
  | some x =>
    match x.long[n]? with
    | none => .next s
    | some o =>
      if !(mayComplete s r x && o.pops.isEmpty && decide (o.due ≤ s.cycle)) then .next s
      else
        let a := doAll o.instr (x.site r) o.tn o.pc s (o.writes, o.trap) o.todo
        let o1 : LongOp := { o with writes := a.2.1.1, trap := a.2.1.2, todo := a.2.2.1 }
        match stopOf o.instr (x.site r) o.tn a.1 a.2.2.1 a.2.2.2 with
        | none => .next (endSyncg (returned a.1 r { x with long := x.long.set n o1 } n o1) r)
        | some .wait => .next s
        | some (.halt c i dm) => .next (haltStrand a.1 r { x with long := x.long.set n o1 } c i dm)

/-! ## The power allowance (R358) -/

/-- Every cluster's allowance is brought up to the present cycle: the refill rate is about to change. -/
def commitAllowances (s : State) : State :=
  { s with clusters := s.clusters.map fun c => (c.1, { c.2 with pa := paNow c.2 (rhoOf s) s.cycle, paAt := s.cycle }) }

def execPowerAllowanceRefill (cluster : Nat) (s : State) : Host.Outcome State Fault Refusal :=
  .next (s.modCluster cluster fun k => { k with pa := paNow k (rhoOf s) s.cycle, paAt := s.cycle })

/-- The strands of a cluster. -/
def clusterStrands (s : State) (cl : Nat) : List (Ref × Strand) :=
  (List.range 4).flatMap fun i => (s.core (4 * cl + i)).strands.map fun e => ({ core := 4 * cl + i, strid := e.1 }, e.2)

/-- R358: a lane instruction has been withheld in 1,024 consecutive cycles: every other one of the cluster is withheld until
it issues. -/
def execWithholdTimeout (cluster : Nat) (s : State) : Host.Outcome State Fault Refusal :=
  let late := (clusterStrands s cluster).find? fun e =>
    heldByPower s e.1 e.2 && match e.2.withheldAt with | some t => decide (t + 1024 ≤ s.cycle) | none => false
  let owed := (s.cluster cluster).owed
  match late, owed with
  | some e, none => .next (s.modCluster cluster fun k => { k with owed := some e.1 })
  | some e, some o => if (s.strand? o).isNone then .next (s.modCluster cluster fun k => { k with owed := some e.1 }) else .next s
  | none, _ => .next s

/-! ## Power gating (R359, R360) -/

/-- R359: the cluster is idle. -/
def clusterIdle (s : State) (cl : Nat) : Bool :=
  (clusterStrands s cl).isEmpty &&
    ((List.range 4).all fun i => (s.core (4 * cl + i)).tokens.all fun t =>
      t.2.gen == 0 || !(t.2.st == .running || t.2.st == .parked)) &&
    ((s.cluster cl).queues.all fun q => q.2.recs.isEmpty && q.2.ringCount == 0 && q.2.forming.isEmpty && q.2.waiting.isEmpty)

/-- R359: the cluster has been idle for 64 µs of wall-clock time (R9). -/
def gateDue (s : State) (cl : Nat) : Bool :=
  let k := s.cluster cl
  !k.gated && clusterIdle s cl && decide (k.busyAt + 64 * microsecond ≤ s.time)

/-- R359, R411: a cluster loses its power, and dummy steps end in its columns. -/
def gateCluster (s : State) (cluster : Nat) : State :=
  let s1 := s.modCluster cluster fun k => { k with gated := true, gatedAt := s.cycle + 1 }
  { s1 with cores := s1.cores.map fun k =>
      if clusterOf k.1 = cluster then (k.1, { k.2 with col := { k.2.col with dummy := false } }) else k }

/-- R359: after 64 µs of idleness the cluster is power-gated. -/
def execClusterGate (cluster : Nat) (s : State) : Host.Outcome State Fault Refusal :=
  if gateDue s cluster then .next (gateCluster s cluster) else .next s

end Sys2Proof.Machine
end

