-- ==== Sys2Proof/Machine/Power.lean ====
section
/-! DEFINITION. Power, heat and the device's own care of its memory (R311 to R313, R405 to R412), power failure (R385, R387),
and reset and boot (R35, R395, R417). -/

namespace Sys2Proof.Machine

/-! ## Caps and throttling (R405 to R407) -/

/-- R405: the power-step pins show another code, which takes effect once it has been stable for 2 µs. -/
def execStepPinChange (code : BitVec 3) (s : State) : Host.Outcome State Fault Refusal :=
  if s.kettle.pinNext = code then .next s
  else .next { s with kettle := { s.kettle with pin := pinNow s, pinNext := code, pinAt := s.time } }

/-- R407: the greatest depth of each step. -/
def maxDepth (step : Nat) : Nat := match step with | 6 => 3 | 7 => 4 | 8 => 3 | _ => 1

/-- R407: the depths as a list, in the order of the table. -/
def depthList (d : Map Nat) : List Nat := (List.range 8).map fun i => mget 0 d (i + 1)

/-- R407: apply the next depth of the order. -/
def applyNext (d : Map Nat) : Option (Map Nat) :=
  ((List.range 8).find? fun i => decide (mget 0 d (i + 1) < maxDepth (i + 1))).map fun i => mput d (i + 1) (mget 0 d (i + 1) + 1)

/-- R407: release the deepest applied depth. -/
def releaseLast (d : Map Nat) : Map Nat :=
  match (List.range 8).reverse.find? fun i => decide (0 < mget 0 d (i + 1)) with
  | some i => mput d (i + 1) (mget 0 d (i + 1) - 1)
  | none => d

/-- R407: apply depths until the predicted power is low enough. -/
def applyUntil (watts limit : Nat) : Nat → Map Nat → Map Nat
  | 0, d => d
  | n + 1, d =>
    match applyNext d with
    | none => d
    | some d1 => if Config.predictedPower watts (depthList d1) ≤ limit then d1 else applyUntil watts limit n d1

/-- R408: every column's bucket is brought up to the present cycle: the refill rate is about to change. -/
def commitHeat (s : State) : State :=
  { s with cores := s.cores.map fun k => (k.1, { k.2 with col := { k.2.col with heat := heatNow s k.1, heatAt := s.cycle } }) }

/-- R358, R404, R408: change what the rates depend on. -/
def withKettle (s : State) (f : Kettle → Kettle) : State :=
  let s1 := commitAllowances (commitHeat s)
  { s1 with kettle := f s1.kettle }

/-- R9: 10 µs. -/
def tickTime : Nat := 10 * microsecond

/-- R407: the depths after a tick. While a critical response holds, the order rests (R409). -/
def nextDepths (s : State) (watts : Nat) (low : Option Nat) : Map Nat :=
  let k := s.kettle
  if k.saved.isSome then k.depths
  else if capNow s < watts then applyUntil watts (capNow s - 50) 16 k.depths
  else match low with
    | some t => if t + 1000 * microsecond ≤ s.time then releaseLast k.depths else k.depths
    | none => k.depths

/-- R407: every 10 µs the Kettle compares the mean input power, `watts`, with the cap. -/
def execKettleTick (watts : Nat) (s : State) : Host.Outcome State Fault Refusal :=
  if s.time < s.kettle.tickAt + tickTime then .next s
  else
    let low := if watts + 150 < capNow s then some (s.kettle.lowAt.getD s.time) else none
    let d := nextDepths s watts low
    .next (endBallast (withKettle s fun k => { k with power := watts, tickAt := s.time, lowAt := low, depths := d }))

/-! ## Temperatures (R408, R409, R311) -/

/-- R403: the layer of a domain. -/
def layerOf (d : Nat) : Nat := d % 60 / 4
def isLogic (d : Nat) : Bool := decide (layerOf d ≤ 10)

/-- Some domain of a kind reaches a temperature. -/
def anyHot (temps : Map Nat) (logic : Bool) (t : Nat) : Bool :=
  (List.range 120).any fun d => isLogic d == logic && decide (t ≤ mget 25 temps d)

/-- R409: the critical response begins, holds, or ends. -/
def critical (s : State) (temps : Map Nat) (k : Kettle) : Kettle :=
  let hot := anyHot temps true 115 || anyHot temps false 100
  let cool := !anyHot temps true 105 && !anyHot temps false 95
  match k.saved with
  | none => if hot then { k with saved := some k.depths, coolAt := none } else k
  | some d =>
    let since := if cool then some (k.coolAt.getD s.time) else none
    match since with
    | some t =>
      if t + 1000 * microsecond ≤ s.time then { k with saved := none, depths := d, coolAt := none } else { k with coolAt := since }
    | none => { k with coolAt := none }

/-- R311: the hot-page table of a die's stacked tier, as (page, count). -/
def hotPages (s : State) (die : Nat) : List Dword :=
  (hotTop s (2 * die)).map fun e => BitVec.ofNat 64 (e.1 * 2 ^ 16 + e.2)

/-- R311, R408: the DRAM domains at 85 °C or above. -/
def hotLayers (temps : Map Nat) : List Nat :=
  (List.range 120).filter fun d => !isLogic d && decide (85 ≤ mget 25 temps d)

/-- R408, R409: a sample of temperatures. A hot DRAM layer is told once for each crossing. -/
def execTemperatureSample (temps : List (Nat × Nat)) (s : State) : Host.Outcome State Fault Refusal :=
  let new := temps.foldl (fun m e => if e.1 < 120 then mput m e.1 e.2 else m) s.kettle.temps
  let hot := hotLayers new
  let s1 := withKettle s fun k => critical s new { k with temps := new, hotPosted := hot }
  let s2 := (hot.filter fun d => !s.kettle.hotPosted.contains d).foldl (fun s d =>
    postEvent s .hotLayer (BitVec.ofNat 64 d :: hotPages s (d / 60))) s1
  .next (if s1.kettle.saved.isSome && s.kettle.saved.isNone then postEvent s2 .critical [] else s2)

/-! ## Ballast (R410, R411) -/

/-- R411: dummy steps start or stop in a column. -/
def execBallastDummyStep (core : Nat) (s : State) : Host.Outcome State Fault Refusal :=
  let run := ballastWanted s && columnIdle (s.core core) && !(s.cluster (clusterOf core)).gated
  .next (s.modCol core fun k => { k with dummy := run })

/-! ## Energy (R412) -/

/-- R412: the energy events of a context in the present interval, as (kind, count). -/
def energyEvents (s : State) (ctx : Nat) : List (Nat × Nat) :=
  (s.energyUse.filter fun e => e.1 / 16 == ctx && e.2 != 0).map fun e => (e.1 % 16, e.2)

/-- R412: a context's share of the interval's energy: the estimate of its events and of the traffic they caused (kind 15, as
(context, transfers), assumption 91); nothing when it had no event. -/
def energyShare (s : State) (traffic : List (Nat × Nat)) (ctx : Nat) : Nat :=
  if (energyEvents s ctx).isEmpty then 0 else Config.energyEstimate (energyEvents s ctx ++ [(15, mget 0 traffic ctx)])

/-- R412: the measured energy of an interval, in microjoules, is divided: each context's share to its account, the rest to the
system's. `traffic` counts each context's transfers in the L2s, the TLBs, the DRAM and the links. -/
def execEnergyInterval (measured : Nat) (traffic : List (Nat × Nat)) (s : State) : Host.Outcome State Fault Refusal :=
  if s.time < s.kettle.energyAt + 1000 * microsecond then .next s
  else
    let total := (s.ctxs.map fun c => energyShare s traffic c.1).sum
    let rest : Int := (s.kettle.energySys : Int) + measured - total
    .next { s with
      ctxs := s.ctxs.map fun c => (c.1, { c.2 with energy := (c.2.energy + energyShare s traffic c.1) % 2 ^ 64 })
      energyUse := []
      kettle := { s.kettle with energySys := (rest % (2 ^ 64 : Int)).toNat, energyAt := s.time } }

/-! ## The care of memory (R311 to R313) -/

/-- R311: every 2^24 cycles the counts of a die's hot-page tables are halved. -/
def execHotPageDecay (die : Nat) (s : State) : Host.Outcome State Fault Refusal :=
  if mget 0 s.hotAt die + 2 ^ 24 ≤ s.cycle then
    let half (e : Nat × Nat) : Option (Nat × Nat) :=
      if homeDie (e.1 * 2 ^ 16) != die then some e else if e.2 / 2 = 0 then none else some (e.1, e.2 / 2)
    .next { s with hot := s.hot.filterMap half, hotAt := mput s.hotAt die s.cycle }
  else .next s

/-- R312: the refresh interval of a bin at a temperature. -/
def refreshInterval (bin temp : Nat) : Nat :=
  32000 * microsecond / 2 ^ bin / 2 ^ (if temp ≤ 60 then 0 else (temp - 60 + 9) / 10)

/-- R312: the bin of a row: as the last boot measured it (assumption 97), or the shorter one that patrol has found since. -/
def binOf (s : State) (row : Nat) : Nat := max (Config.bootBin s.boots row % 4) (mget 0 s.rowBin row)

/-- R312: the spare rows of a bank that are in use, those of the last boot with those of patrol. -/
def sparesUsed (s : State) (bank : Nat) : Nat := min 32 (Config.bootSpares s.boots bank % 33 + mget 0 s.spareRows bank)

/-- R312: the interval of a row of the stacked tier expires, and it is refreshed. `domain` is the row's layer quadrant. -/
def execRefresh (row domain : Nat) (s : State) : Host.Outcome State Fault Refusal :=
  let due := mget 0 s.refreshed row + refreshInterval (binOf s row) (mget 25 s.kettle.temps domain)
  if due ≤ s.time then .next { s with refreshed := mput s.refreshed row s.time } else .next s

/-- R312: patrol has measured a row: it moves to a shorter bin only, or, below the shortest, to a spare row of its bank. With
none left, its page is to be retired. -/
def measureRow (s : State) (line row bank bin : Nat) : State :=
  if bin ≤ 3 then { s with rowBin := mput s.rowBin row (max (mget 0 s.rowBin row) bin) }
  else if sparesUsed s bank < 32 then { s with spareRows := mput s.spareRows bank (mget 0 s.spareRows bank + 1) }
  else postEvent s .pageRetire [BitVec.ofNat 64 (line * 64 / 2 ^ 16)]

/-- R313: 24 hours. -/
def oneDay : Nat := 86400 * oneSecond

/-- R407, R313: step 2 of the throttle order defers patrol, but for a line that is about to pass its 24 hours (assumption 98). -/
def patrolRuns (s : State) (line : Nat) : Bool :=
  mget 0 s.kettle.depths 2 == 0 || decide (mget 0 s.patrolled line + oneDay ≤ s.time + Config.patrolMargin)

/-- R309, R312, R313: patrol reads a line: it marks one that cannot be corrected, and may have measured its row. -/
def execPatrol (line : Nat) (uncorrectable : Bool) (row : Option (Nat × Nat × Nat)) (s : State) :
    Host.Outcome State Fault Refusal :=
  if !patrolRuns s line then .next s
  else
    let s1 := { s with patrolled := mput s.patrolled line s.time
                       unc := if uncorrectable && !s.unc.contains line then s.unc ++ [line] else s.unc }
    .next (match row with
      | some (r, b, n) => measureRow s1 line r b n
      | none => s1)

/-! ## Power failure (R385, R387) -/

/-- R385: PFAIL is asserted: every context halts, and collectives stop at a chunk boundary. -/
def execPfail (s : State) : Host.Outcome State Fault Refusal :=
  if s.pfail then .next s
  else
    let halt (c : Ctx) : Ctx :=
      if c.killed then c
      else { c with haltQ := c.haltQ ++ [{ cause := .pfail, tinfo := 0, src := 4, core := 0, slot := 0, dm := false, at_ := s.time }] }
    let stop (t : Token) : Token :=
      if t.gen != 0 && t.cls == 4 && t.work.fault.isNone && (t.st == .pending || t.st == .running) then
        { t with st := .parked, started := false }
      else t
    .next { s with
      pfail := true
      drained := []
      ctxs := s.ctxs.map fun e => (e.1, halt e.2)
      cores := s.cores.map fun k => (k.1, { k.2 with tokens := k.2.tokens.map fun t => (t.1, stop t.2) }) }

/-- R385: the slots to drain, in order: contexts by CTXID, slots by (core, slot). -/
def drainOrder (s : State) : List (Nat × Nat) :=
  (s.ctxs.filter fun e => e.2.persistent && !e.2.killed).flatMap fun e => slotsIn s e.1 fun _ => true

/-- R385: the state of a stopped slot is written to module flash, and then its valid mark. -/
def execPfailDrain (core slot : Nat) (s : State) : Host.Outcome State Fault Refusal :=
  let next := (drainOrder s).find? fun p => !s.drained.contains p
  let q := s.slot core slot
  if s.pfail && s.holdUp && next == some (core, slot) && q.st != .running then
    let f : Flash := { core := core, slot := slot, valid := true, halt := rawBytes s q.savebase 0xA000,
                       img := controlOf s core slot (q.saves + 1) }
    let other := s.flash.filter fun g => !(g.core == core && g.slot == slot && g.img.data.savebase == q.savebase)
    .next { s with flash := other ++ [f], drained := s.drained ++ [(core, slot)] }
  else .next s

/-- R385: the hold-up store is empty: no further image gets its valid mark. -/
def execHoldUpRunsOut (s : State) : Host.Outcome State Fault Refusal :=
  if s.pfail then .next { s with holdUp := false } else .next s

/-! ## Reset and boot (R35, R395, R417) -/

/-- R281 to R289: what a column keeps in flash. A spare mapping or an erasure that waits for the next drain or K-step is dropped
(assumption 115). -/
def Column.afterReset (k : Column) : Column :=
  { Column.reset with erased := k.erased, down := k.down, spares := k.spares, obSpares := k.obSpares }

/-- R417: the boot ROM's verdict on the firmware image in flash: both signatures, then the security version. -/
def bootVerdict (s : State) : Bool :=
  Config.imageOk (flashImage s) && decide (s.fuses ≤ Config.imageVersion (flashImage s))

/-- R417: the device `t` once the boot ROM has verified the image that `s` holds: a failed check keeps it in recovery. -/
def bootImage (s t : State) : State :=
  if bootVerdict s then { t with booted := true, fwVersion := Config.imageVersion (flashImage s) }
  else { t with booted := false, fwVersion := s.fwVersion }

/-- The device after a reset: the state of `State.reset`, but for what secure NVM, fuses and module flash hold, for the pins
and the links, and for the model's own counters. -/
def resetDevice (s : State) : State :=
  let t := { State.reset with
    clusters := (List.range 48).map fun c => (c, { Cluster.reset with busyAt := s.time })
    time := s.time, agenda := s.agenda, free := s.free, nextId := s.nextId, out := s.out, secure := s.secure
    cores := s.cores.map fun k => (k.1, { Core.reset with col := k.2.col.afterReset })
    ports := s.ports.map fun p => (p.1, { Port.reset p.1 with up := p.2.up })
    boots := s.boots + 1, patrolled := s.patrolled, nodeKeys := s.nodeKeys, lmsIndex := s.lmsIndex, fuses := s.fuses, fwImage := s.fwImage
    links := s.links, flash := s.flash
    kettle := { Kettle.reset with pin := s.kettle.pin, pinNext := s.kettle.pinNext, pinAt := s.kettle.pinAt,
                                  temps := s.kettle.temps, tickAt := s.time, energyAt := s.time }
    refreshed := s.refreshed }
  challengePort (challengePort (bootImage s t) 0) 1

/-- R312: the boot has measured rows that need a spare in a bank that has none left: their pages are to be retired. -/
def bootRetire (s : State) : State :=
  (Config.bootRetires s.boots).foldl (fun s e =>
    if sparesUsed s e.2 = 32 then postEvent s .pageRetire [BitVec.ofNat 64 e.1] else s) s

def execDeviceReset (s : State) : Host.Outcome State Fault Refusal := .next (bootRetire (resetDevice s))

/-- R387: power returns: the device starts afresh and lists the valid images. -/
def execPowerReturn (s : State) : Host.Outcome State Fault Refusal :=
  if !s.pfail then .next s
  else
    let s1 := bootRetire (resetDevice s)
    .next (postEvent s1 .powerFailImages ((s1.flash.filter (·.valid)).map fun f =>
      BitVec.ofNat 64 (f.img.ctx * 2 ^ 16 + f.core * 2 + f.slot)))

/-- R417: in recovery a host uploads a firmware image, which is verified in the same way. -/
def execImageUpload (image : List Byte) (s : State) : Host.Outcome State Fault Refusal :=
  if s.booted then .next s else .next (bootImage { s with fwImage := some image } { s with fwImage := some image })

end Sys2Proof.Machine
end

