-- ==== Sys2Proof/Machine/Dispatch.lean ====
section
/-! DEFINITION. The dispatcher: one arm per row of the opcode table, each a direct call of that row's meaning. -/

namespace Sys2Proof.Machine

def exec (i : Instr) (s : State) : Host.Outcome State Fault Refusal :=
  match i with
  | .add f => Sys2Proof.Machine.execAdd f s
  | .addI32 f => Sys2Proof.Machine.execAddI32 f s
  | .sub f => Sys2Proof.Machine.execSub f s
  | .mul f => Sys2Proof.Machine.execMul f s
  | .mulI32 f => Sys2Proof.Machine.execMulI32 f s
  | .mulh f => Sys2Proof.Machine.execMulh f s
  | .mad f => Sys2Proof.Machine.execMad f s
  | .abs f => Sys2Proof.Machine.execAbs f s
  | .neg f => Sys2Proof.Machine.execNeg f s
  | .min f => Sys2Proof.Machine.execMin f s
  | .max f => Sys2Proof.Machine.execMax f s
  | .and f => Sys2Proof.Machine.execAnd f s
  | .andI32 f => Sys2Proof.Machine.execAndI32 f s
  | .or f => Sys2Proof.Machine.execOr f s
  | .orI32 f => Sys2Proof.Machine.execOrI32 f s
  | .xor f => Sys2Proof.Machine.execXor f s
  | .xorI32 f => Sys2Proof.Machine.execXorI32 f s
  | .andn f => Sys2Proof.Machine.execAndn f s
  | .shl f => Sys2Proof.Machine.execShl f s
  | .shr f => Sys2Proof.Machine.execShr f s
  | .sar f => Sys2Proof.Machine.execSar f s
  | .bfx f => Sys2Proof.Machine.execBfx f s
  | .bfi f => Sys2Proof.Machine.execBfi f s
  | .popc f => Sys2Proof.Machine.execPopc f s
  | .clz f => Sys2Proof.Machine.execClz f s
  | .brev f => Sys2Proof.Machine.execBrev f s
  | .cmp f => Sys2Proof.Machine.execCmp f s
  | .cmpI32 f => Sys2Proof.Machine.execCmpI32 f s
  | .sel f => Sys2Proof.Machine.execSel f s
  | .mov f => Sys2Proof.Machine.execMov f s
  | .movI32 f => Sys2Proof.Machine.execMovI32 f s
  | .movl f => Sys2Proof.Machine.execMovl f s
  | .lea f => Sys2Proof.Machine.execLea f s
  | .leaI32 f => Sys2Proof.Machine.execLeaI32 f s
  | .maddm f => Sys2Proof.Machine.execMaddm f s
  | .msubm f => Sys2Proof.Machine.execMsubm f s
  | .mmulm f => Sys2Proof.Machine.execMmulm f s
  | .mmacm f => Sys2Proof.Machine.execMmacm f s
  | .mred f => Sys2Proof.Machine.execMred f s
  | .rspl f => Sys2Proof.Machine.execRspl f s
  | .rmrc f => Sys2Proof.Machine.execRmrc f s
  | .fadd f => Sys2Proof.Machine.execFadd f s
  | .fsub f => Sys2Proof.Machine.execFsub f s
  | .fmul f => Sys2Proof.Machine.execFmul f s
  | .ffma f => Sys2Proof.Machine.execFfma f s
  | .fmin f => Sys2Proof.Machine.execFmin f s
  | .fmax f => Sys2Proof.Machine.execFmax f s
  | .fcmp f => Sys2Proof.Machine.execFcmp f s
  | .fclass f => Sys2Proof.Machine.execFclass f s
  | .frcp f => Sys2Proof.Machine.execFrcp f s
  | .frsq f => Sys2Proof.Machine.execFrsq f s
  | .fexp2 f => Sys2Proof.Machine.execFexp2 f s
  | .flog2 f => Sys2Proof.Machine.execFlog2 f s
  | .fsin f => Sys2Proof.Machine.execFsin f s
  | .fcos f => Sys2Proof.Machine.execFcos f s
  | .cvt f => Sys2Proof.Machine.execCvt f s
  | .cvts f => Sys2Proof.Machine.execCvts f s
  | .part f => Sys2Proof.Machine.execPart f s
  | .shfl f => Sys2Proof.Machine.execShfl f s
  | .perm f => Sys2Proof.Machine.execPerm f s
  | .vote f => Sys2Proof.Machine.execVote f s
  | .matchLanes f => Sys2Proof.Machine.execMatchLanes f s
  | .redux f => Sys2Proof.Machine.execRedux f s
  | .scan f => Sys2Proof.Machine.execScan f s
  | .topk f => Sys2Proof.Machine.execTopk f s
  | .bcast f => Sys2Proof.Machine.execBcast f s
  | .vget f => Sys2Proof.Machine.execVget f s
  | .vset f => Sys2Proof.Machine.execVset f s
  | .bra f => Sys2Proof.Machine.execBra f s
  | .braDiv f => Sys2Proof.Machine.execBraDiv f s
  | .brx f => Sys2Proof.Machine.execBrx f s
  | .brxDiv f => Sys2Proof.Machine.execBrxDiv f s
  | .call f => Sys2Proof.Machine.execCall f s
  | .ret f => Sys2Proof.Machine.execRet f s
  | .rcv f => Sys2Proof.Machine.execRcv f s
  | .loop f => Sys2Proof.Machine.execLoop f s
  | .lbrk f => Sys2Proof.Machine.execLbrk f s
  | .exit f => Sys2Proof.Machine.execExit f s
  | .nop f => Sys2Proof.Machine.execNop f s
  | .trap f => Sys2Proof.Machine.execTrap f s
  | .tret f => Sys2Proof.Machine.execTret f s
  | .yield f => Sys2Proof.Machine.execYield f s
  | .grow f => Sys2Proof.Machine.execGrow f s
  | .shrnk f => Sys2Proof.Machine.execShrnk f s
  | .ld f => Sys2Proof.Machine.execLd f s
  | .st f => Sys2Proof.Machine.execSt f s
  | .lds f => Sys2Proof.Machine.execLds f s
  | .sts f => Sys2Proof.Machine.execSts f s
  | .ldt f => Sys2Proof.Machine.execLdt f s
  | .stt f => Sys2Proof.Machine.execStt f s
  | .atom f => Sys2Proof.Machine.execAtom f s
  | .red f => Sys2Proof.Machine.execRed f s
  | .pref f => Sys2Proof.Machine.execPref f s
  | .fence f => Sys2Proof.Machine.execFence f s
  | .ifence f => Sys2Proof.Machine.execIfence f s
  | .mop f => Sys2Proof.Machine.execMop f s
  | .hld f => Sys2Proof.Machine.execHld f s
  | .hset f => Sys2Proof.Machine.execHset f s
  | .hget f => Sys2Proof.Machine.execHget f s
  | .bar f => Sys2Proof.Machine.execBar f s
  | .bara f => Sys2Proof.Machine.execBara f s
  | .syncg f => Sys2Proof.Machine.execSyncg f s
  | .waitt f => Sys2Proof.Machine.execWaitt f s
  | .waitk f => Sys2Proof.Machine.execWaitk f s
  | .waitc f => Sys2Proof.Machine.execWaitc f s
  | .cpl f => Sys2Proof.Machine.execCpl f s
  | .cpt f => Sys2Proof.Machine.execCpt f s
  | .cpg f => Sys2Proof.Machine.execCpg f s
  | .cvb f => Sys2Proof.Machine.execCvb f s
  | .mma f => Sys2Proof.Machine.execMma f s
  | .mms f => Sys2Proof.Machine.execMms f s
  | .mzero f => Sys2Proof.Machine.execMzero f s
  | .mdr f => Sys2Proof.Machine.execMdr f s
  | .mrs f => Sys2Proof.Machine.execMrs f s
  | .mrl f => Sys2Proof.Machine.execMrl f s
  | .coll f => Sys2Proof.Machine.execColl f s
  | .relay f => Sys2Proof.Machine.execRelay f s
  | .detach f => Sys2Proof.Machine.execDetach f s
  | .adopt f => Sys2Proof.Machine.execAdopt f s
  | .cancel f => Sys2Proof.Machine.execCancel f s
  | .prio f => Sys2Proof.Machine.execPrio f s
  | .tstat f => Sys2Proof.Machine.execTstat f s
  | .suspend f => Sys2Proof.Machine.execSuspend f s
  | .qpush f => Sys2Proof.Machine.execQpush f s
  | .qpop f => Sys2Proof.Machine.execQpop f s
  | .spawn f => Sys2Proof.Machine.execSpawn f s
  | .csrr f => Sys2Proof.Machine.execCsrr f s
  | .csrw f => Sys2Proof.Machine.execCsrw f s
  | .swap f => Sys2Proof.Machine.execSwap f s
  | .clkr f => Sys2Proof.Machine.execClkr f s
  | .einj f => Sys2Proof.Machine.execEinj f s
  | .pair f => Sys2Proof.Machine.execPair f s
  | .basinstWrite f => Sys2Proof.Machine.execBasinstWrite f s
  | .rcrClear f => Sys2Proof.Machine.execRcrClear f s
  | .chselWrite f => Sys2Proof.Machine.execChselWrite f s
  | .invcmdWrite f => Sys2Proof.Machine.execInvcmdWrite f s
  | .ringTailWrite f => Sys2Proof.Machine.execRingTailWrite f s
  | .persistentMarkSet f => Sys2Proof.Machine.execPersistentMarkSet f s
  | .rtcommit => Sys2Proof.Machine.execRtcommit s
  | .rtcommitComplete => Sys2Proof.Machine.execRtcommitComplete s
  | .longLatencyComplete core strid n => Sys2Proof.Machine.execLongLatencyComplete core strid n s
  | .growGrant core slot => Sys2Proof.Machine.execGrowGrant core slot s
  | .growFail core => Sys2Proof.Machine.execGrowFail core s
  | .waittEnd core strid => Sys2Proof.Machine.execWaittEnd core strid s
  | .waitkEnd core strid => Sys2Proof.Machine.execWaitkEnd core strid s
  | .waitcEnd core strid => Sys2Proof.Machine.execWaitcEnd core strid s
  | .cancelWaitEnd core strid => Sys2Proof.Machine.execCancelWaitEnd core strid s
  | .spawnReadDone core strid => Sys2Proof.Machine.execSpawnReadDone core strid s
  | .operationStart core idx => Sys2Proof.Machine.execOperationStart core idx s
  | .sequencerAcceptMzero core idx => Sys2Proof.Machine.execSequencerAcceptMzero core idx s
  | .sequencerAcceptMrl core idx => Sys2Proof.Machine.execSequencerAcceptMrl core idx s
  | .sequencerAcceptMma core idx => Sys2Proof.Machine.execSequencerAcceptMma core idx s
  | .sequencerAcceptMdr core idx => Sys2Proof.Machine.execSequencerAcceptMdr core idx s
  | .sequencerAcceptMrs core idx => Sys2Proof.Machine.execSequencerAcceptMrs core idx s
  | .sequencerAcceptEinj core n => Sys2Proof.Machine.execSequencerAcceptEinj core n s
  | .kStep core idx => Sys2Proof.Machine.execKStep core idx s
  | .obusWireCountFull core wire => Sys2Proof.Machine.execObusWireCountFull core wire s
  | .drainBeat core idx => Sys2Proof.Machine.execDrainBeat core idx s
  | .drainWireCountFull core ch wire => Sys2Proof.Machine.execDrainWireCountFull core ch wire s
  | .copyLine core idx => Sys2Proof.Machine.execCopyLine core idx s
  | .conversionBlock core idx => Sys2Proof.Machine.execConversionBlock core idx s
  | .mopBlock core idx => Sys2Proof.Machine.execMopBlock core idx s
  | .relayoutUnit core idx => Sys2Proof.Machine.execRelayoutUnit core idx s
  | .chunkStep core idx data => Sys2Proof.Machine.execChunkStep core idx data s
  | .operationDone core idx => Sys2Proof.Machine.execOperationDone core idx s
  | .operationFault core idx => Sys2Proof.Machine.execOperationFault core idx s
  | .operationCancelled core idx => Sys2Proof.Machine.execOperationCancelled core idx s
  | .continuationPush core idx => Sys2Proof.Machine.execContinuationPush core idx s
  | .teamRetire core tslot => Sys2Proof.Machine.execTeamRetire core tslot s
  | .contextTeardownEnd core slot => Sys2Proof.Machine.execContextTeardownEnd core slot s
  | .queueRefill cluster q => Sys2Proof.Machine.execQueueRefill cluster q s
  | .ringRoomPush cluster q => Sys2Proof.Machine.execRingRoomPush cluster q s
  | .dispatchChoice cluster q => Sys2Proof.Machine.execDispatchChoice cluster q s
  | .taskStrandStart cluster q => Sys2Proof.Machine.execTaskStrandStart cluster q s
  | .teamPlacement launch => Sys2Proof.Machine.execTeamPlacement launch s
  | .ldone launch => Sys2Proof.Machine.execLdone launch s
  | .issueSelect core islot => Sys2Proof.Machine.execIssueSelect core islot s
  | .powerAllowanceRefill cluster => Sys2Proof.Machine.execPowerAllowanceRefill cluster s
  | .withholdTimeout cluster => Sys2Proof.Machine.execWithholdTimeout cluster s
  | .clusterGate cluster => Sys2Proof.Machine.execClusterGate cluster s
  | .heatRefill core => Sys2Proof.Machine.execHeatRefill core s
  | .barWatchdog core tslot bar => Sys2Proof.Machine.execBarWatchdog core tslot bar s
  | .haltCause ctx => Sys2Proof.Machine.execHaltCause ctx s
  | .haltLineArrival core slot => Sys2Proof.Machine.execHaltLineArrival core slot s
  | .slotHalted core slot => Sys2Proof.Machine.execSlotHalted core slot s
  | .stopTimeout ctx => Sys2Proof.Machine.execStopTimeout ctx s
  | .slotSave core slot => Sys2Proof.Machine.execSlotSave core slot s
  | .pfail => Sys2Proof.Machine.execPfail s
  | .pfailDrain core slot => Sys2Proof.Machine.execPfailDrain core slot s
  | .powerReturn => Sys2Proof.Machine.execPowerReturn s
  | .deviceReset => Sys2Proof.Machine.execDeviceReset s
  | .imageUpload image => Sys2Proof.Machine.execImageUpload image s
  | .launch fr => Sys2Proof.Machine.execLaunch fr s
  | .resume fr => Sys2Proof.Machine.execResume fr s
  | .kill fr => Sys2Proof.Machine.execKill fr s
  | .memrd fr => Sys2Proof.Machine.execMemrd fr s
  | .memwr fr => Sys2Proof.Machine.execMemwr fr s
  | .time fr => Sys2Proof.Machine.execTime fr s
  | .beat fr => Sys2Proof.Machine.execBeat fr s
  | .release fr => Sys2Proof.Machine.execRelease fr s
  | .claim fr => Sys2Proof.Machine.execClaim fr s
  | .answer fr => Sys2Proof.Machine.execAnswer fr s
  | .unassignedType fr => Sys2Proof.Machine.execUnassignedType fr s
  | .create fr => Sys2Proof.Machine.execCreate fr s
  | .place fr => Sys2Proof.Machine.execPlace fr s
  | .csrset fr => Sys2Proof.Machine.execCsrset fr s
  | .teardown fr => Sys2Proof.Machine.execTeardown fr s
  | .inval fr => Sys2Proof.Machine.execInval fr s
  | .invalidationComplete ticket => Sys2Proof.Machine.execInvalidationComplete ticket s
  | .quiesce fr => Sys2Proof.Machine.execQuiesce fr s
  | .pcopy fr => Sys2Proof.Machine.execPcopy fr s
  | .freeze fr => Sys2Proof.Machine.execFreeze fr s
  | .restore fr => Sys2Proof.Machine.execRestore fr s
  | .qbind fr => Sys2Proof.Machine.execQbind fr s
  | .qunbind fr => Sys2Proof.Machine.execQunbind fr s
  | .policy fr => Sys2Proof.Machine.execPolicy fr s
  | .devnum fr => Sys2Proof.Machine.execDevnum fr s
  | .powercap fr => Sys2Proof.Machine.execPowercap fr s
  | .stepcap fr => Sys2Proof.Machine.execStepcap fr s
  | .ballastRead fr => Sys2Proof.Machine.execBallastRead fr s
  | .ballastWrite fr => Sys2Proof.Machine.execBallastWrite fr s
  | .energy fr => Sys2Proof.Machine.execEnergy fr s
  | .attest fr => Sys2Proof.Machine.execAttest fr s
  | .fuseup fr => Sys2Proof.Machine.execFuseup fr s
  | .mgmtUnknownCode fr => Sys2Proof.Machine.execMgmtUnknownCode fr s
  | .linkDrop host port => Sys2Proof.Machine.execLinkDrop host port s
  | .linkReturn host port => Sys2Proof.Machine.execLinkReturn host port s
  | .linkLost port => Sys2Proof.Machine.execLinkLost port s
  | .peerRead rq => Sys2Proof.Machine.execPeerRead rq s
  | .peerWrite rq => Sys2Proof.Machine.execPeerWrite rq s
  | .peerAtomic rq => Sys2Proof.Machine.execPeerAtomic rq s
  | .abortReceived gid seq origin => Sys2Proof.Machine.execAbortReceived gid seq origin s
  | .abortExpiry gid seq => Sys2Proof.Machine.execAbortExpiry gid seq s
  | .peerDown core idx peer => Sys2Proof.Machine.execPeerDown core idx peer s
  | .stepPinChange code => Sys2Proof.Machine.execStepPinChange code s
  | .kettleTick watts => Sys2Proof.Machine.execKettleTick watts s
  | .temperatureSample temps => Sys2Proof.Machine.execTemperatureSample temps s
  | .ballastDummyStep core => Sys2Proof.Machine.execBallastDummyStep core s
  | .energyInterval measured traffic => Sys2Proof.Machine.execEnergyInterval measured traffic s
  | .hotPageDecay die => Sys2Proof.Machine.execHotPageDecay die s
  | .refresh row domain => Sys2Proof.Machine.execRefresh row domain s
  | .patrol line uncorrectable row => Sys2Proof.Machine.execPatrol line uncorrectable row s
  | .quiesceComplete ticket => Sys2Proof.Machine.execQuiesceComplete ticket s
  | .pcopyComplete ticket => Sys2Proof.Machine.execPcopyComplete ticket s
  | .holdUpRunsOut => Sys2Proof.Machine.execHoldUpRunsOut s

end Sys2Proof.Machine
end

