-- ==== Sys2Proof/Machine/Run.lean ====
section
/-! DEFINITION. What the next step executes: the word at the PC of the strand just selected (R57, R58, R82), the head of the
agenda once its cycle has come, or an event or a cycle of the clock that a free choice names (assumption 2). -/

namespace Sys2Proof.Machine

/-- What the next step does: execute an instruction or an event, or nothing more. -/
inductive Todo where
  | run (s : State) (i : Instr)
  | idle (s : State)

/-! ## The word of the selected strand -/

/-- R82, R83: the word does not decode: the strand traps, unless it still has to take an earlier trap or to wait. -/
def badWord (s : State) (r : Ref) (x : Strand) (c : DecodeCause) (w : IWord) : State :=
  if owesTrap x then takeDeferred s r
  else if x.long.any fun o => o.left == 0 then s
  else takeTrap s r x x.pc x.active (decodeCause c) (wordInfo w)

/-- R57, R58: fetch and decode the strand's next word. -/
def startStrand (s : State) (r : Ref) : Todo :=
  match s.strand? r with
  | none => .idle s
  | some x =>
    if !mayRun s r x then .idle s
    else match fetch s r x with
      | .word w =>
        match decode w with
        | .ok i => .run s i
        | .error c => .idle (badWord s r x c w)
      | .wait => .idle s
      | .halt c info dm => .idle (haltStrand s r x c info dm)

/-! ## The clock (R35, R359, R404) -/

/-- R334: at a cycle of the clock some of the accesses that strands owe are made, by free choices (assumption 3). -/
def performSome (s : State) : State :=
  s.cores.foldl (fun s k => k.2.strands.foldl (fun s e =>
    let r : Ref := { core := k.1, strid := e.1 }
    match s.strand? r with
    | some x =>
      let q := s.slot r.core x.slot
      if accessesOwed x && q.st == .running && !q.line && !x.stopped then
        performOwed (fun pc a => Config.freeBool (s.free * 2 ^ 64 + 2 ^ 62 + (pc * 1024 + a.lane) % 2 ^ 61)) s r
      else s
    | none => s) s) s

/-- R359: the clusters that have not been idle in the cycle. -/
def noteBusy (s : State) : State :=
  (List.range 48).foldl (fun s cl => if clusterIdle s cl then s else s.modCluster cl fun k => { k with busyAt := s.time }) s

/-- R35, R404: the clock reaches the next cycle. -/
def clockTick (s : State) : State :=
  performSome (noteBusy { s with cycle := s.cycle + 1, time := s.time + cycleUnits s })

/-! ## The events of the device (assumption 2) -/

/-- The events that the tokens of a core may be ready for. -/
def tokenEvents (core idx : Nat) (e : Token) : List Instr :=
  [.operationStart core idx, .sequencerAcceptMzero core idx, .sequencerAcceptMrl core idx, .sequencerAcceptMma core idx,
   .sequencerAcceptMdr core idx, .sequencerAcceptMrs core idx, .kStep core idx, .drainBeat core idx, .copyLine core idx,
   .conversionBlock core idx, .mopBlock core idx, .relayoutUnit core idx, .chunkStep core idx [], .operationDone core idx,
   .operationFault core idx, .operationCancelled core idx, .continuationPush core idx] ++ e.members.map (Instr.peerDown core idx)

/-- The events of a strand. -/
def strandEvents (core i : Nat) (x : Strand) : List Instr :=
  (List.range x.long.length).map (Instr.longLatencyComplete core i) ++
    [.waittEnd core i, .waitkEnd core i, .waitcEnd core i, .cancelWaitEnd core i, .spawnReadDone core i]

/-- R273, R282: the wires of a column that have had their last correction. -/
def wireEvents (core : Nat) (k : Column) : List Instr :=
  ((k.wires.filter fun e : Nat × Nat => decide (64 ≤ e.2)).map fun e => Instr.drainWireCountFull core (e.1 / 144) (e.1 % 144)) ++
    (k.obWires.filter fun e : Nat × Nat => decide (16 ≤ e.2)).map fun e => Instr.obusWireCountFull core e.1

/-- The watchdogs of a core's barriers. -/
def watchdogs (core : Nat) (k : Core) : List Instr :=
  k.teams.flatMap fun e => e.2.bars.map fun b => Instr.barWatchdog core e.1 b.1

/-- The events of a core. -/
def coreEvents (core : Nat) (k : Core) : List Instr :=
  [.issueSelect core 0, .issueSelect core 1, .growGrant core 0, .growGrant core 1, .growFail core, .heatRefill core,
   .ballastDummyStep core] ++
    ([0, 1].flatMap fun i =>
      [Instr.haltLineArrival core i, .slotHalted core i, .slotSave core i, .pfailDrain core i, .contextTeardownEnd core i]) ++
    (k.strands.flatMap fun e => strandEvents core e.1 e.2) ++
    (k.tokens.flatMap fun e => if e.2.gen != 0 then tokenEvents core e.1 e.2 else []) ++
    ((List.range k.einjq.length).map (Instr.sequencerAcceptEinj core)) ++ wireEvents core k.col ++
    (k.teams.map fun e => Instr.teamRetire core e.1) ++ watchdogs core k

/-- The events of a cluster. -/
def clusterEvents (cl : Nat) : List Instr :=
  [.powerAllowanceRefill cl, .withholdTimeout cl] ++
    (List.range 4).flatMap fun q => [.queueRefill cl q, .ringRoomPush cl q, .dispatchChoice cl q, .taskStrandStart cl q]

/-- The events of the rest of the device, and those of its cores and clusters. An event that is not due changes nothing. -/
def deviceEvents (s : State) : List Instr :=
  (s.cores.flatMap fun e => coreEvents e.1 e.2) ++ (s.clusters.flatMap fun e => clusterEvents e.1) ++ (List.range 48).map Instr.clusterGate ++
    (s.launches.flatMap fun e => [.teamPlacement e.1, .ldone e.1]) ++
    (s.ctxs.flatMap fun e => [.haltCause e.1, .stopTimeout e.1, .contextTeardownEnd 0 0]) ++
    (s.invals.map fun e => .invalidationComplete e.ticket) ++
    (s.mgmt.flatMap fun e => [.quiesceComplete e.ticket, .pcopyComplete e.ticket]) ++
    (s.aborts.map fun a => .abortExpiry a.gid a.seq) ++ (s.links.map fun l => .linkLost l.1) ++
    [.rtcommitComplete, .hotPageDecay 0, .hotPageDecay 1]

/-! ## What may not wait (R66, R204, R241, R356, R359, R364, R372, R399, R401, R416) -/

/-- The outstanding instructions of a strand that complete in this cycle. -/
def returnsDue (s : State) (core i : Nat) (x : Strand) : List Instr :=
  (x.long.zipIdx.filter fun o => returnDue s o.1).map fun o => .longLatencyComplete core i o.2

/-- R372: a halt of the slot's context began this long ago. -/
def haltedFor (s : State) (ctx limit : Nat) : Bool :=
  match (s.ctx? ctx).bind (·.halt) with | some h => decide (h.since + limit ≤ s.time) | none => false

/-- What a core has to do before the clock goes on. Every stop record is written before 20 µs are over (R372): a cycle is shorter than
200 units. A matrix operation is done in the cycle in which its last step or beat ends (R292). -/
def coreDue (s : State) (core : Nat) (k : Core) : List Instr :=
  ([0, 1].flatMap fun i =>
    let ctx := (s.slot core i).ctx
    (if haltedFor s ctx (2 * microsecond) then [Instr.haltLineArrival core i] else []) ++
      if haltedFor s ctx (haltLimit - 200) then
        ((slotTokens s core i ctx).flatMap fun t =>
          [.operationStart core t, .operationFault core t, .operationDone core t, .operationCancelled core t, .copyLine core t]) ++
          [.slotHalted core i]
      else []) ++
    (k.strands.flatMap fun e => returnsDue s core e.1 e.2) ++ [.growGrant core 0, .growGrant core 1, .growFail core] ++
    ((k.tokens.filter fun e => match e.2.work.flight with | some t => decide (t ≤ s.cycle) | none => false).map fun e => .kStep core e.1) ++
    ((k.tokens.filter fun e => e.2.cls == 2 || e.2.cls == 3).map fun e => .operationDone core e.1) ++
    (k.tokens.flatMap fun e => e.2.members.map (Instr.peerDown core e.1)) ++ wireEvents core k.col

/-- R372: the causes that have been on their way for 2 µs. -/
def causesDue (s : State) : List Instr :=
  (s.ctxs.filter fun c => match c.2.haltQ with | h :: _ => decide (h.at_ + 2 * microsecond ≤ s.time) | [] => false).map fun c =>
    .haltCause c.1

/-- What has to happen before the clock goes on: the issue slots last, but for the watchdogs, which an arrival of the same cycle
stops (R437). -/
def dueEvents (s : State) : List Instr :=
  causesDue s ++ (s.cores.flatMap fun e => coreDue s e.1 e.2) ++ (s.ctxs.map fun c => .stopTimeout c.1) ++
    (s.clusters.flatMap fun c => .withholdTimeout c.1 :: (List.range 4).map (Instr.taskStrandStart c.1)) ++
    (List.range 48).map Instr.clusterGate ++ (s.links.map fun l => .linkLost l.1) ++
    (if decide (s.rtAt + 2 * microsecond ≤ s.time) then [.rtcommitComplete] else []) ++ [.hotPageDecay 0, .hotPageDecay 1] ++
    (s.cores.flatMap fun e => [.issueSelect e.1 0, .issueSelect e.1 1]) ++ s.cores.flatMap fun e => watchdogs e.1 e.2

/-- The event changes the device. -/
def moves (s : State) (i : Instr) : Bool := match exec i s with | .next t => t != s | _ => false

/-- One of the events is presented, or the clock advances by one cycle, once nothing is due any more. -/
def freeStep (s : State) : Todo :=
  let es := deviceEvents s
  match es[Config.freeNat (s.free * 2 ^ 64) % (es.length + 1)]? with
  | some i => .run s i
  | none =>
    match (dueEvents s).find? (moves s) with
    | some i => .run s i
    | none => .idle (clockTick s)

/-! ## The agenda -/

/-- The host port of a frame that claims ownership. -/
def claimPort : Instr → Option Nat
  | .claim fr => some fr.port
  | _ => none

/-- The host port at which an event arrives as a frame. -/
def arrivesAt (s : State) : Nat × Instr → Option Nat
  | (t, .launch f) | (t, .resume f) | (t, .kill f) | (t, .memrd f) | (t, .memwr f) | (t, .time f) | (t, .beat f) | (t, .release f)
  | (t, .claim f) | (t, .answer f) | (t, .unassignedType f) => if t ≤ s.cycle then some f.port else none
  | (t, .create f) | (t, .place f) | (t, .csrset f) | (t, .teardown f) | (t, .inval f) | (t, .quiesce f) | (t, .pcopy f)
  | (t, .freeze f) | (t, .restore f) | (t, .qbind f) | (t, .qunbind f) | (t, .policy f) | (t, .devnum f) | (t, .powercap f)
  | (t, .stepcap f) | (t, .ballastRead f) | (t, .ballastWrite f) | (t, .energy f) | (t, .attest f) | (t, .fuseup f)
  | (t, .mgmtUnknownCode f) => if t ≤ s.cycle then some f.port else none
  | _ => none

/-- R396: two claims of one cycle are decided in favour of port 0: before a claim on port 1 its frames of the cycle, with a claim
among them, come first. -/
def agendaIndex (s : State) (i : Instr) (rest : List (Nat × Instr)) : Nat :=
  if claimPort i == some 1 && rest.any fun e => decide (e.1 ≤ s.cycle) && claimPort e.2 == some 0 then
    match rest.findIdx? fun e => arrivesAt s e == some 0 with
    | some n => n + 1
    | none => 0
  else 0

/-- What the next step does. An agenda entry waits for its cycle; one that is an instruction of a program, or is ill formed, is
dropped. -/
def nextTodo (s : State) : Todo :=
  let s := { s with free := s.free + 1 }
  match s.sel with
  | some r => startStrand { s with sel := none, cur := r } r
  | none =>
    match s.agenda with
    | (t, i) :: rest =>
      if s.cycle < t then freeStep s
      else
        let n := agendaIndex s i rest
        let j := match s.agenda[n]? with | some e => e.2 | none => i
        let s1 := { s with agenda := s.agenda.eraseIdx n }
        if j.isProgram || !j.wellFormed then .idle s1 else .run s1 j
    | [] => freeStep s

/-! ## Placing a word where the next step fetches it -/

/-- A code region and tables that map it: three table levels at 0x10000, one leaf over the first gibibyte (R303, R304). -/
def bootMem : Map Byte :=
  Memory.putNat (Memory.putNat (Memory.putNat [] 0x10000 8 (0x11000 + 1)) 0x11000 8 (0x12000 + 1)) 0x12000 8
    (3 + 2 ^ 52 + 2 ^ 53 + 2 ^ 54 + 2 ^ 55 + 2 ^ 58)

/-- A context whose code lies at 0x100000. -/
def bootCtx : Ctx :=
  { secure := true, level := 2, persistent := false, codebase := 0x100000, root := 0x10000, handler := 0,
    bases := [(0, defaultBasis)], frbase := 0, frsize := 0, frhead := 0, frtail := 0, frlost := 0, orbase := 0, orsize := 0,
    orhead := 0, ortail := 0, contbase := 0, contsize := 0, tbud := 0, bwdog := 2 ^ 24, pairs := [], lastPair := none,
    haltQ := [], halt := none, susp := [], heldRecs := [], ending := none, killed := false, energy := 0 }

/-- R353: the device with one team of one strand of one lane placed and just selected. -/
def bootStrand (s : State) : State :=
  let slot : Slot := { Slot.reset with st := .running, ctx := 1, psize := 40, rf := 16, sp := 8, acc := 8 }
  let team : Team := { ctx := 1, slot := 0, members := [0], adopter := 0, bars := [], spt := 0, act := 0, linear := 0,
                       launch := none, rfHeld := 0 }
  let x := freshStrand (some bootCtx) 1 0 0 0 1 256 0 1
  let isl : ISlot := { ISlot.reset with order := [0] }
  let core : Core := { Core.reset with strands := [(0, x)], teams := [(0, team)], slots := [(0, slot)], islots := [(0, isl)] }
  { s with mem := bootMem, ctxs := [(1, bootCtx)], cores := [(0, core)], sel := some { core := 0, strid := 0 }, unc := [],
           tlb := [] }

/-- The physical addresses of the three units of the word that the selected strand would fetch. -/
def fetchPlaces (s : State) : Option (Nat × List Nat) :=
  match s.sel with
  | none => none
  | some r =>
    match s.strand? r with
    | none => none
    | some x =>
      if !mayRun s r x || decide (2 ^ 32 ≤ x.pc) then none
      else
        let va := codeAddr s x.ctx x.pc
        let ks := [va, va + 4, va + 8].filterMap fun a =>
          match fetchAt s (x.who r) a, translate s (x.who r) .fetch a with
          | .ok _, .ok key mt => if mt < 2 then some key else none
          | _, _ => none
        if ks.length = 3 then some (r.core, ks) else none

/-- Store a word at the places of its three units, and drop what the instruction cache holds of them. -/
def putUnits (s : State) (core : Nat) (ks : List Nat) (w : IWord) : State :=
  let mem := ks.zipIdx.foldl (fun m e => Memory.putNat m e.1 4 (w.extractLsb' (32 * e.2) 32).toNat) s.mem
  State.modCore { s with mem := mem } core fun k => { k with icache := k.icache.map fun l =>
    { units := l.units.filter fun u => !ks.contains (u.1 * 4) } }

/-- The device with the word `w` where its next step fetches: in place when a strand is selected that can fetch, else with
a program loaded and a strand of it selected. -/
def placeWord (s : State) (w : IWord) : State :=
  match fetchPlaces s with
  | some (core, ks) => putUnits s core ks w
  | none => putUnits (bootStrand s) 0 [0x100000, 0x100004, 0x100008] w

end Sys2Proof.Machine
end

