-- ==== Sys2Proof/Machine/Step.lean ====
section
/-! DEFINITION. One step of the device: what `nextTodo` finds is executed. A program comes to run by a launch (R349 to
R353) or, for the host's probes, by `State.withFetchWord`. -/

namespace Sys2Proof.Machine

def step (s : State) : Host.Outcome State Fault Refusal :=
  match nextTodo s with
  | .idle s1 => .next s1
  | .run s1 i => exec i s1

/-- The device with the instruction whose bits are `w` where its next step fetches (assumption 1). -/
def State.withFetchWord (s : State) (nbits w : Nat) : State := placeWord s (BitVec.ofNat 96 (w % 2 ^ nbits))

end Sys2Proof.Machine
end

