-- ==== Sys2Proof/Safety.lean ====
section
/-! DEFINITION. What counts as a safe run: the words that claims about the machine are stated in. `Acts` says when an
instruction of a strand takes effect, `Becomes` what is left unchanged when it has, and the definitions after it say what
registers then hold. -/

namespace Sys2Proof.Safety

open Sys2Proof.Machine

/-- The memory of the device is in its canonical form. -/
def MemoryOk (s : State) : Prop := Memory.wf s.mem = true

/-- If the outcome is a next state, it satisfies `P`. -/
def NextOnly (o : Host.Outcome State Fault Refusal) (P : State → Prop) : Prop := ∀ t, o = .next t → P t

/-- Every step from a state with `Inv` that answers a next state answers one with `Inv`. -/
def Kept (Inv : State → Prop) : Prop := ∀ s, Inv s → NextOnly (step s) Inv

/-- `t` has the strands, the contexts, the tokens and the clocks of `s`. -/
def SameAgents (s t : State) : Prop :=
  t.ctxs = s.ctxs ∧ (∀ r, t.strand? r = s.strand? r) ∧ (∀ core idx, t.token core idx = s.token core idx) ∧ t.cycle = s.cycle ∧
    t.time = s.time

/-- Every strand of a slot is the strand of its number. -/
def OwnStrands (s : State) (core slot : Nat) : Prop :=
  ∀ e ∈ slotStrands s core slot, s.strand? { core := core, strid := e.1 } = some e.2

/-- Every token-table entry is the entry of its core and index. -/
def OwnTokens (s : State) : Prop := ∀ k ∈ s.cores, ∀ t ∈ k.2.tokens, s.token k.1 t.1 = t.2

/-! ## When an instruction of a strand issues -/

/-- `x` is the strand being executed, and `i` passes what R24, R34, R65, R67, R82, R174 and R297 ask before it issues: the strand may
run, owes no trap, no window is closed, no decode cause applies, no lane instruction stands in a handler, and no vector register that
it reads has a double error. -/
def Issues (i : Instr) (s : State) (x : Strand) : Prop :=
  s.strand? s.cur = some x ∧ mayRun s s.cur x = true ∧ (x.defer = [] ∨ x.hm = true) ∧ windowBlocked s.cycle x i = false ∧
    decodeFault i x = none ∧ (x.hm = false ∨ i.isLane = false) ∧ regBad x i = false

/-- The instruction issues and passes its guard (R62). -/
def Acts (i : Instr) (s : State) (x : Strand) : Prop := Issues i s x ∧ x.passes i = true

/-- R57, R161: the PC that follows lies in the range of the register. -/
def NextPcOk (x : Strand) : Prop := (loopNext x.pc x.lstk).1 < 2 ^ 32

/-! ## What is left unchanged -/

/-- `u` and `t` agree on everything but strand `r`, the issue slots of the cores (R356), the power allowances (R358) and the counts
of energy events (R412): on all of memory, every other strand, every context, token, slot, queue and special unit. -/
def Agree (r : Ref) (u t : State) : Prop :=
  t = { u with cores := t.cores, clusters := t.clusters, energyUse := t.energyUse } ∧ (∀ q, q ≠ r → t.strand? q = u.strand? q) ∧
    (∀ c, { t.core c with strands := [], islots := [] } = { u.core c with strands := [], islots := [] }) ∧
    (∀ k, { t.cluster k with pa := 0, paAt := 0 } = { u.cluster k with pa := 0, paAt := 0 })

/-- `i` completes: the strand becomes `y`, and everything else is as in `u`. -/
def Becomes (i : Instr) (s u : State) (y : Strand) : Prop :=
  ∃ t, exec i s = .next t ∧ t.strand? s.cur = some y ∧ Agree s.cur u t

/-- The strand as it is once `i` has issued: one instruction nearer the end of every window (R65), with the availability of the
results and the age that the issue slot keeps (R355, R356). -/
def bookkept (i : Instr) (s : State) (x : Strand) : Strand := tick s s.cur x i

/-- The strand at a PC, with a loop stack. -/
def moved (n : Nat × List LoopEntry) (y : Strand) : Strand := { y with pc := n.1, lstk := n.2 }

/-- The strand past the instruction (R161), its registers as they were. -/
def past (i : Instr) (s : State) (x : Strand) : Strand := moved (loopNext x.pc x.lstk) (bookkept i s x)

/-- The strand past the instruction, but for its v, s, p and c registers, the marks of those v registers (R297), and FPSR. -/
def PastBut (i : Instr) (s : State) (x y : Strand) : Prop :=
  y = { past i s x with v := y.v, s := y.s, p := y.p, c := y.c, fpsr := y.fpsr, dbl := y.dbl }

/-- R161: a waiting instruction of strand `x` ends with `w` in its destination: the strand is past it, and everything else is as
in `u`. -/
def Ended (u : State) (r : Ref) (x : Strand) (d : Opnd) (w : Dword) (t : State) : Prop :=
  t.strand? r = some (writeUni d w (moved (loopNext x.pc x.lstk) { x with wait := .none })) ∧ Agree r u t

/-- R24, R57: nothing keeps the waiting strand `x` from going on, and it owes no trap. -/
def CanEnd (s : State) (r : Ref) (x : Strand) : Prop :=
  s.strand? r = some x ∧ mayRun s r { x with wait := .none } = true ∧ NextPcOk x ∧ x.defer = []

/-! ## Results in registers -/

/-- R25, R27, R121: in each lane of `ls` destination `d`, of `n` vector registers, holds what `f` gives, and every other register
is as in `x`. A write to p7 is discarded. No register of a lane has a double error that it had not before (R297). -/
def LaneWrites (x y : Strand) (ls : List Nat) (n : Nat) (d : Opnd) (f : Nat → Dword) : Prop :=
  (∀ l r, r < 256 → y.vreg l r = match d with
    | .v k =>
      if l ∈ ls ∧ r = k.toNat then (f l).setWidth 32
      else if l ∈ ls ∧ n = 2 ∧ r = k.toNat + 1 then (f l).extractLsb' 32 32
      else x.vreg l r
    | _ => x.vreg l r) ∧
  (∀ l r, l < 1024 → y.pbit l r = match d with
    | .p k => if l ∈ ls ∧ r = k.toNat ∧ r ≠ 7 then f l != 0 else x.pbit l r
    | _ => x.pbit l r) ∧
  y.s = x.s ∧ y.c = x.c ∧ ∀ k ∈ y.dbl, k ∈ x.dbl

/-- R26, R27: a strand-uniform destination holds `w`, and every other register is as in `x`. A write to c7 is discarded. -/
def UniWrites (x y : Strand) (d : Opnd) (w : Dword) : Prop :=
  (∀ r, y.sreg r = match d with | .s k => if r = k.toNat then w else x.sreg r | _ => x.sreg r) ∧
  (∀ r, y.creg r = match d with | .c k => if r = k.toNat ∧ r ≠ 7 then w != 0 else x.creg r | _ => x.creg r) ∧
  y.v = x.v ∧ y.p = x.p ∧ y.dbl = x.dbl

/-- The flags that some lanes raise together (R34). -/
def laneFlags (ls : List Nat) (f : Nat → Dword × BitVec 6) : BitVec 6 := ls.foldl (fun a l => a ||| (f l).2) 0

/-- R25: a destination of two vector registers is an even pair. -/
def PairOk (n : Nat) (d : Opnd) : Prop := match d with | .v k => n = 2 → k.toNat % 2 = 0 | _ => True

/-- A lane instruction whose acting lanes (R120) receive in `d` what `f` gives, with its flags: where `P` holds and no flag
traps (R34) it completes, writes these registers and sticky flags, and changes no other register and nothing else of the
device. -/
def LaneRule (i : Instr) (P : State → Strand → Prop) (n : Nat) (d : Opnd)
    (f : State → Strand → Nat → Dword × BitVec 6) : Prop :=
  ∀ s x, Acts i s x → P s x → NextPcOk x → PairOk n d → fpTraps x (laneFlags (x.acting i.hdr) (f s x)) = false →
    ∃ y, Becomes i s s y ∧ PastBut i s x y ∧ LaneWrites x y (x.acting i.hdr) n d (fun l => (f s x l).1) ∧
      y.fpsr = x.fpsr ||| (laneFlags (x.acting i.hdr) (f s x)).setWidth 32

/-- The same for a strand-uniform instruction (R61). -/
def UniRule (i : Instr) (d : Opnd) (f : State → Strand → Dword × BitVec 6) : Prop :=
  ∀ s x, Acts i s x → NextPcOk x → fpTraps x (f s x).2 = false →
    ∃ y, Becomes i s s y ∧ PastBut i s x y ∧ UniWrites x y d (f s x).1 ∧ y.fpsr = x.fpsr ||| (f s x).2.setWidth 32

/-- R61: an instruction whose destination makes it a lane or a strand-uniform one; `g` gives its result from the values that
its operands have. -/
def KindRule (i : Instr) (n : Nat) (d : Opnd) (g : Reader → Dword × BitVec 6) : Prop :=
  if d.isV || d.isP then LaneRule i (fun _ _ => True) n d fun s x l => g (laneReader s s.cur x l)
  else UniRule i d fun s x => g (uniReader s s.cur x)

/-- An instruction of fixed latency that changes the strand by `f` where `P` holds, and nothing else: `f` is given the device
and the strand before the instruction, and the strand past it. -/
def FixedRule (i : Instr) (P : State → Strand → Prop) (f : State → Strand → Strand → Strand) : Prop :=
  ∀ s x, Acts i s x → P s x → NextPcOk x → Becomes i s s (f s x (past i s x))

/-- An instruction of fixed latency that also changes the device: `g` is given the device once the instruction has issued, and
`f` the strand as for `FixedRule`. Outside the strand the device is then as `g` leaves it. -/
def DeviceRule (i : Instr) (P : State → Strand → Prop) (g : Strand → State → State) (f : State → Strand → Strand → Strand) :
    Prop :=
  ∀ s x, Acts i s x → P s x → NextPcOk x → Becomes i s (g x (issued s s.cur x i)) (f s x (past i s x))

/-- An instruction that sets the PC itself, or waits where it is: `f` is given the strand once the instruction has issued. -/
def SetRule (i : Instr) (P : State → Strand → Prop) (f : State → Strand → Strand → Strand) : Prop :=
  ∀ s x, Acts i s x → P s x → Becomes i s s (f s x (bookkept i s x))

/-- Where `P` holds, the instruction traps before it has any effect (R83, R368). -/
def TrapRule (i : Instr) (P : State → Strand → Prop) (c : Cause) (info : State → Strand → Dword) : Prop :=
  ∀ s x, Acts i s x → P s x → exec i s = .next (takeTrap s s.cur x x.pc x.active c (info s x))

/-- Where `P` holds, the instruction halts its context before it has any effect (R372). -/
def HaltRule (i : Instr) (P : State → Strand → Prop) (c : Cause) (info : State → Strand → Dword) : Prop :=
  ∀ s x, Acts i s x → P s x → exec i s = .next (haltStrand s s.cur x c (info s x) false)

/-- R64, R66: a long-latency instruction completes its issue where `P` holds: its results and flags are outstanding and no
register has changed. -/
def LongRule (i : Instr) (P : State → Strand → Prop) (f : State → Strand → List RegW × BitVec 6) : Prop :=
  FixedRule i P fun s x y => { y with long := y.long ++ [newLong i (issued s s.cur x i) s.cur (bookkept i s x) (f s x).1 (f s x).2] }

/-! ## Residue bases -/

/-- R46, R47: what a basis that is installed satisfies. -/
def BasisOk (b : Basis) : Prop :=
  1 ≤ b.span ∧ b.span ≤ 8 ∧ (∀ m ∈ b.prim, 2 ≤ m ∧ m ≤ 256 ∧ m < b.q0 ∧ m < b.q1) ∧ b.q0 ≤ 512 ∧ b.q1 ≤ 512 ∧
    (b.prim ++ [b.q0, b.q1]).Pairwise Nat.Coprime

/-- R46, R115: `v` lies in the legitimate range and has the digits `r` on some channels. -/
def Names (b : Basis) (chans : List Nat) (r : Nat → Nat) (v : Int) : Prop :=
  -((b.range / 2 : Nat) : Int) ≤ v ∧ v < ((b.range + 1) / 2 : Nat) ∧ ∀ h ∈ chans, v % (b.mod h : Int) = r h

/-! ## Issue checks -/

/-- R231: the issue checks of an engine instruction in their order, each with whether it fails, its cause and its detail: the first
that fails traps, and where none does the instruction asks for `a`. -/
def firstCheck (l : List (Bool × Cause × Nat)) (a : Asked) : Chk Asked :=
  match l.find? (·.1) with
  | some e => .error (.trap e.2.1 (BitVec.ofNat 64 e.2.2))
  | none => .ok a

/-! ## Management requests -/

/-- R391: the device once its management processor has come to `r` for the request in `fr`: the reply is sent, or the request is
under way with the ticket `n`. -/
def mgmtAnswer (s : State) (n : Nat) (fr : Frame) : MRes → State
  | .done v body => mreply v fr.port fr.seq.toNat (dwordAt fr.payload 0) 0 0 body
  | .fail status off => mreply s fr.port fr.seq.toNat (dwordAt fr.payload 0) status off []
  | .wait v ctx core slot args =>
    { v with
      nextId := n + 1
      mgmt := v.mgmt ++ [{ ticket := n, port := fr.port, seq := fr.seq.toNat, head := dwordAt fr.payload 0, ctx := ctx,
                           core := core, slot := slot, args := args }] }

/-- R391: request `i`, whose meaning is `f`, comes to `r`; and a frame that holds it, from the owner and heard by its port while
no earlier request of the port is under way, executes to the next state that `r` gives. -/
def MgmtDoes (i : Instr) (f : MBody) (s : State) (n : Nat) (fr : Frame) (r : MRes) : Prop :=
  f s n fr = r ∧ ∀ s0, hear s0 fr = .taken s → mayAsk s fr.port .owner = true → (∀ m ∈ s.mgmt, m.port ≠ fr.port) →
    s.nextId = n → exec i s0 = .next (mgmtAnswer s n fr r)

/-! ## Accesses to memory -/

/-- R14, R334: the accesses of an instruction that are made at its issue, in any order, and those that are left to be made
later: `v` and `y` are the device and the strand once the instruction has issued. -/
def madeNow (i : Instr) (v : State) (r : Ref) (y : Strand) (accs : List LaneAcc) : List LaneAcc :=
  (anyOrder v.free accs).filter fun a => !passedBy i (y.site r) v y a
def leftOver (i : Instr) (v : State) (r : Ref) (y : Strand) (accs : List LaneAcc) : List LaneAcc :=
  (anyOrder v.free accs).filter (passedBy i (y.site r) v y)

/-- R179, R335: no access of an instruction overlaps one that the strand still owes, every one passes its checks, and those of
`madeNow` are made: the device is then `u`, `ws` are the registers that they give, and `trap` what the instruction owes at
its completion. -/
def Performed (i : Instr) (tn : Option (Nat × Nat × List (BitVec 64))) (v : State) (r : Ref) (y : Strand)
    (accs : List LaneAcc) (u : State) (ws : List RegW) (trap : Option (Cause × Dword)) : Prop :=
  overlapOwed i tn v r y accs = false ∧ checkAll i (y.site r) tn v accs = none ∧
    doAll i (y.site r) tn y.pc v ([], none) (madeNow i v r y accs) = (u, (ws, trap), [], none)

/-- R64, R334: the strand `z`, with the instruction outstanding: `ws` and `trap` are what the accesses made have given, and `rest`
those left. -/
def outstanding (i : Instr) (tn : Option (Nat × Nat × List (BitVec 64))) (u : State) (r : Ref) (y : Strand) (ws : List RegW)
    (trap : Option (Cause × Dword)) (rest : List LaneAcc) (z : Strand) : Strand :=
  { z with long := z.long ++ [{ newLong i u r y ws 0 with todo := rest, tn := tn, trap := trap }] }

/-- R334: the strand `z`, which owes the accesses that are left of an instruction of fixed latency. -/
def owing (i : Instr) (tn : Option (Nat × Nat × List (BitVec 64))) (y : Strand) (rest : List LaneAcc) (z : Strand) : Strand :=
  { z with held := z.held ++
      if rest.isEmpty then [] else [{ pc := y.pc, instr := i, mask := y.active, todo := rest, tn := tn, rmw := readsToo i tn rest }] }

/-- R180, R182: the checks of a flat access that need no translation. -/
def FlatOk (accs : List LaneAcc) (size : Nat) : Prop := ∀ a ∈ accs, vaOk a.ea = true ∧ a.ea % size = 0

/-- R181, R182, R188: the checks of a scratchpad access, and no conflicting range of an operation. -/
def ScratchOk (q : Slot) (accs : List LaneAcc) (size : Nat) (wr : Bool) : Prop :=
  ∀ a ∈ accs, a.ea % size = 0 ∧ a.ea + size ≤ spaceSize q 1 ∧ conflicts q a.ea size wr = false

/-- The accesses of LD (R180, R186). -/
def ldAccs (s : State) (x : Strand) (f : MForm) : List LaneAcc :=
  if f.d.isS then [laneAcc 0 (flatEaU s s.cur x f) 0 0]
  else (x.acting f.hd).map fun l => laneAcc l (flatEa s s.cur x f l) 0 0

/-- The accesses of ST. -/
def stAccs (s : State) (x : Strand) (f : MForm) : List LaneAcc :=
  if f.d.isS then [laneAcc 0 (flatEaU s s.cur x f) (storeValue x f.d (szBytes f.sz) 0) 0]
  else (x.acting f.hd).map fun l => laneAcc l (flatEa s s.cur x f l) (storeValue x f.d (szBytes f.sz) l) 0

/-- The accesses of LDS and STS (R181, R187). -/
def ldsAccs (s : State) (x : Strand) (f : MForm) : List LaneAcc :=
  (x.acting f.hd).map fun l => laneAcc l (localEa s s.cur x f l) 0 0
def stsAccs (s : State) (x : Strand) (f : MForm) : List LaneAcc :=
  (x.acting f.hd).map fun l => laneAcc l (localEa s s.cur x f l) (storeValue x f.d (szBytes f.sz) l) 0

/-- R191, R192: the checks of an atomic that need no translation. -/
def AtomOk (s : State) (x : Strand) (f : MForm) (accs : List LaneAcc) : Prop :=
  if f.loc then ScratchOk (s.slot s.cur.core x.slot) accs (szBytes f.sz) true else FlatOk accs (szBytes f.sz)

/-- The bytes of memory, as (first place, count), that an access of kind `k` to `n` bytes at `va` reaches: none where it does
not translate, or where it reaches a device register. -/
def storePlace (s : State) (w : Who) (k : Access) (va n : Nat) : List (Nat × Nat) :=
  match translate s w k va with
  | .ok key mt => if mt = 3 then [] else [(key, n)]
  | _ => []

/-- The bytes that writing the parts of one piece, each in one page, reaches. -/
def partKeys (s : State) (w : Who) (f : Nat → Nat) : List (Nat × Nat) → List (Nat × Nat)
  | [] => []
  | (a, n) :: rest =>
    storePlace s w .write a n ++
      match flatUpdate s w a n fun x => f x % 2 ^ (8 * n) with
      | .ok s1 _ => partKeys s1 w (fun x => f x / 2 ^ (8 * n)) rest
      | _ => []

/-- The bytes that writing the pieces of an element (R321) reaches. -/
def pieceKeys (s : State) (w : Site) (space : Nat) : List (Nat × Nat) → List (Nat → Nat) → List (Nat × Nat)
  | (a, n) :: rest, f :: fs =>
    (if space = 0 then partKeys s w.who f (pageParts a n) else []) ++
      match spaceWrite s w space a n f with
      | .ok s1 _ => pieceKeys s1 w space rest fs
      | _ => []
  | _, _ => []

/-- The bytes of memory that one access of a storing instruction stores to. -/
def storedBy (i : Instr) (w : Site) (tn : Option (Nat × Nat × List (BitVec 64))) (s : State) (a : LaneAcc) :
    List (Nat × Nat) :=
  match i with
  | .st f => storePlace s w.who .write a.ea (szBytes f.sz)
  | .atom f | .red f => if f.loc then [] else storePlace s w.who .atomic a.ea (szBytes f.sz)
  | .stt _ =>
    let d := (recordNow s w.who tn).2
    match inExtents d a.coords with
    | some c =>
      (match elemAt s w d c with
      | .ok s1 e => pieceKeys s1 w (tSpace d) e.pieces (elemStores d e.tag e.q e.span (canonElem s w.who.ctx e.tag a.data))
      | _ => [])
    | none => storePlace s w.who .atomic ((recordNow s w.who tn).1 + 80) 8
  | _ => []

/-- The bytes that the accesses of a list store to, each seen in the device that those before it leave. -/
def storedAll (i : Instr) (w : Site) (tn : Option (Nat × Nat × List (BitVec 64))) : State → List LaneAcc → List (Nat × Nat)
  | _, [] => []
  | s, a :: rest =>
    storedBy i w tn s a ++ match accDo i w tn 0 s a with
      | .ok s1 _ => storedAll i w tn s1 rest
      | _ => []

/-- A place lies outside every range of a list. -/
def Outside (p : Nat) (ks : List (Nat × Nat)) : Prop := ∀ e ∈ ks, p < e.1 ∨ e.1 + e.2 ≤ p

end Sys2Proof.Safety
end

