-- ==== Sys2Proof/Certificates/Slice0/Obligations.lean ====
section
/-! DEFINITION. The statements for the provers, in the words of `Sys2Proof.Safety`. -/

open Sys2Proof Sys2Proof.Machine Sys2Proof.Safety

/-! # Arithmetic, logic, conversions and cross-lane instructions (R77 to R80, R120 to R157) -/

/-- R120, R121, R123: the arithmetic instructions: the exact result, fitted to the type, in each acting lane or once for the
strand, and FPSR.SAT where a result was clamped; nothing else changes. R124: the logical instructions, on W-bit patterns, on
predicates and conditions bit by bit, and on masks. R125 to R127: shifts, bit fields and bit counts. R128, R129: comparison
into a predicate or a condition, and selection. R130, R131: immediates, literals and addresses. -/
def Obligations.IntegerResults : Prop :=
  ((∀ f : T3,
     KindRule (.add f) f.ty.vregs f.d (fun rd => fitted f.ty f.sat (intVal f.ty rd f.a + intVal f.ty rd f.b)) ∧
     KindRule (.sub f) f.ty.vregs f.d (fun rd => fitted f.ty f.sat (intVal f.ty rd f.a - intVal f.ty rd f.b)) ∧
     KindRule (.mul f) f.ty.vregs f.d (fun rd => fitted f.ty f.sat (intVal f.ty rd f.a * intVal f.ty rd f.b)) ∧
     KindRule (.mad f) f.ty.vregs f.d
       (fun rd => fitted f.ty f.sat (intVal f.ty rd f.a * intVal f.ty rd f.b + intVal f.ty rd f.c)) ∧
     KindRule (.abs f) f.ty.vregs f.d (fun rd => fitted f.ty f.sat (intVal f.ty rd f.a).natAbs) ∧
     KindRule (.neg f) f.ty.vregs f.d (fun rd => fitted f.ty f.sat (-(intVal f.ty rd f.a))) ∧
     KindRule (.mulh f) f.ty.vregs f.d
       (fun rd => fitted f.ty false (intVal f.ty rd f.a * intVal f.ty rd f.b / (2 ^ f.ty.bits : Nat))) ∧
     KindRule (.min f) f.ty.vregs f.d (fun rd => fitted f.ty false (min (intVal f.ty rd f.a) (intVal f.ty rd f.b))) ∧
     KindRule (.max f) f.ty.vregs f.d (fun rd => fitted f.ty false (max (intVal f.ty rd f.a) (intVal f.ty rd f.b)))) ∧
   ∀ f : I32,
     KindRule (.addI32 f) f.ty.vregs f.d (fun rd => fitted f.ty false (intVal f.ty rd f.a + immVal f)) ∧
     KindRule (.mulI32 f) f.ty.vregs f.d (fun rd => fitted f.ty false (intVal f.ty rd f.a * immVal f))) ∧
  ((∀ f : T3, (f.d.isV = true ∨ f.d.isS = true) →
     KindRule (.and f) f.ty.vregs f.d (fun rd => pattern f.ty (bitsVal f.ty rd f.a &&& bitsVal f.ty rd f.b)) ∧
     KindRule (.or f) f.ty.vregs f.d (fun rd => pattern f.ty (bitsVal f.ty rd f.a ||| bitsVal f.ty rd f.b)) ∧
     KindRule (.xor f) f.ty.vregs f.d (fun rd => pattern f.ty (bitsVal f.ty rd f.a ^^^ bitsVal f.ty rd f.b)) ∧
     KindRule (.andn f) f.ty.vregs f.d (fun rd => pattern f.ty (andNot (bitsVal f.ty rd f.a) (bitsVal f.ty rd f.b)))) ∧
   (∀ f : I32,
     KindRule (.andI32 f) f.ty.vregs f.d
       (fun rd => pattern f.ty (bitsVal f.ty rd f.a &&& immI32 f.ty f.imm % 2 ^ f.ty.bits)) ∧
     KindRule (.orI32 f) f.ty.vregs f.d
       (fun rd => pattern f.ty (bitsVal f.ty rd f.a ||| immI32 f.ty f.imm % 2 ^ f.ty.bits)) ∧
     KindRule (.xorI32 f) f.ty.vregs f.d
       (fun rd => pattern f.ty (bitsVal f.ty rd f.a ^^^ immI32 f.ty f.imm % 2 ^ f.ty.bits))) ∧
   (∀ f : T3, (f.d.isP = true ∨ f.d.isC = true) →
     KindRule (.and f) f.ty.vregs f.d (fun rd => (BitVec.ofNat 64 ((rd 1 f.a &&& rd 1 f.b) % 2), 0)) ∧
     KindRule (.or f) f.ty.vregs f.d (fun rd => (BitVec.ofNat 64 ((rd 1 f.a ||| rd 1 f.b) % 2), 0)) ∧
     KindRule (.xor f) f.ty.vregs f.d (fun rd => (BitVec.ofNat 64 ((rd 1 f.a ^^^ rd 1 f.b) % 2), 0)) ∧
     KindRule (.andn f) f.ty.vregs f.d (fun rd => (BitVec.ofNat 64 (andNot (rd 1 f.a) (rd 1 f.b) % 2), 0))) ∧
   ∀ (f : T3) (k : BitVec 3), f.d = .k k →
     FixedRule (.and f) (fun _ _ => True) (fun _ x y => y.setK k.toNat (maskOp x f.a &&& maskOp x f.b)) ∧
     FixedRule (.or f) (fun _ _ => True) (fun _ x y => y.setK k.toNat (maskOp x f.a ||| maskOp x f.b)) ∧
     FixedRule (.xor f) (fun _ _ => True) (fun _ x y => y.setK k.toNat (maskOp x f.a ^^^ maskOp x f.b)) ∧
     FixedRule (.andn f) (fun _ _ => True) (fun _ x y => y.setK k.toNat (maskOp x f.a &&& ~~~maskOp x f.b))) ∧
  (∀ f : T3,
     KindRule (.shl f) f.ty.vregs f.d
       (fun rd => pattern f.ty (shiftLeft f.ty.bits (bitsVal f.ty rd f.a) (rd 1 f.b))) ∧
     KindRule (.shr f) f.ty.vregs f.d
       (fun rd => pattern f.ty (shiftRight f.ty.bits (bitsVal f.ty rd f.a) (rd 1 f.b))) ∧
     KindRule (.sar f) f.ty.vregs f.d
       (fun rd => pattern f.ty (shiftArith f.ty.bits (bitsVal f.ty rd f.a) (rd 1 f.b))) ∧
     KindRule (.bfx f) f.ty.vregs f.d (fun rd => bfExtract f.ty (bitsVal f.ty rd f.a) (bfControl f rd)) ∧
     KindRule (.bfi f) f.ty.vregs f.d
       (fun rd => bfInsert f.ty (bitsVal f.ty rd f.a) (bitsVal f.ty rd f.c) (bfControl f rd)) ∧
     KindRule (.popc f) f.ty.vregs f.d (fun rd => pattern f.ty (popCount f.ty.bits (bitsVal f.ty rd f.a))) ∧
     KindRule (.clz f) f.ty.vregs f.d (fun rd => pattern f.ty (leadingZeros f.ty.bits (bitsVal f.ty rd f.a))) ∧
     KindRule (.brev f) f.ty.vregs f.d (fun rd => pattern f.ty (reverseBits f.ty.bits (bitsVal f.ty rd f.a)))) ∧
  ((∀ f : T3,
     KindRule (.cmp f) f.ty.vregs f.d (fun rd => boolRes (combine (bitsOf f.opx 4 2)
       (intRel (bitsOf f.opx 0 4) (intVal f.ty rd f.a) (intVal f.ty rd f.b)) (rd 1 f.d != 0))) ∧
     KindRule (.sel f) f.ty.vregs f.d
       (fun rd => pattern f.ty (if rd 1 f.c != 0 then bitsVal f.ty rd f.a else bitsVal f.ty rd f.b))) ∧
   ∀ f : I32,
     KindRule (.cmpI32 f) f.ty.vregs f.d (fun rd => boolRes (combine (bitsOf f.opx 4 2)
       (intRel (bitsOf f.opx 0 4) (intVal f.ty rd f.a) (immVal f)) (rd 1 f.d != 0)))) ∧
  ((∀ f : I32, KindRule (.movI32 f) f.ty.vregs f.d (fun _ => pattern f.ty (immI32 f.ty f.imm))) ∧
   (∀ f : LForm, (f.d.isP = false) → KindRule (.movl f) 2 f.d (fun _ => (f.lit, 0))) ∧
   (∀ f : T3, f.d.isP = false → KindRule (.lea f) 2 f.d (fun rd =>
     (BitVec.ofInt 64 ((rd 2 f.a : Int) + leaExt (f.opx.getLsbD 3) (rd 1 f.b) * (2 ^ bitsOf f.opx 0 3 : Nat)), 0))) ∧
   ∀ f : I32, f.d.isP = false → KindRule (.leaI32 f) 2 f.d (fun rd =>
     (BitVec.ofInt 64 ((rd 2 f.a : Int) + f.imm.toInt), 0)))

/-- R31, R121, R130: MOV: copies among registers, flags into and out of registers, masks, and writes of special registers with the
BAD_SPR trap. Type code 0x00 means .i32, but an untyped MOV from an s register to an s register copies all 64 bits: that is the
model's reading, log entry 26. (Its forms on queue ports are with the queues.) -/
def Obligations.MoveResults : Prop :=
  ∀ f : T3, f.d.isQp = false → f.a.isQp = false →
    ((f.d.isV = true ∨ f.d.isP = true ∨ f.d.isS = true ∨ f.d.isC = true) →
      ((f.d.isP || f.d.isC || f.a.isP || f.a.isC) = true →
        KindRule (.mov f) f.ty.vregs f.d (fun rd => boolRes (rd f.ty.vregs f.a != 0))) ∧
      ((f.d.isP || f.d.isC || f.a.isP || f.a.isC) = false → f.d.isS = true → f.a.isS = true → f.ty = .none →
        KindRule (.mov f) 2 f.d (fun rd => (BitVec.ofNat 64 (rd 2 f.a), 0))) ∧
      ((f.d.isP || f.d.isC || f.a.isP || f.a.isC) = false → ¬(f.d.isS = true ∧ f.a.isS = true ∧ f.ty = .none) →
        KindRule (.mov f) f.ty.vregs f.d (fun rd => pattern f.ty (bitsVal f.ty rd f.a)))) ∧
    (∀ k, f.d = .k k → FixedRule (.mov f) (fun _ _ => True) (fun _ x y => y.setK k.toNat (maskOp x f.a))) ∧
    (∀ k, f.d = .spr k → TrapRule (.mov f)
      (fun s x => sprWrite x k.toNat (BitVec.ofNat 64 (uniOp s s.cur x f.a)) = none) .badSpr
      (fun _ _ => BitVec.ofNat 64 k.toNat)) ∧
    (f.d = .spr 0x21 → FixedRule (.mov f)
      (fun s x => uniOp s s.cur x f.a % 2 ^ 32 < 5)
      (fun s x y => { y with lpr := BitVec.ofNat 32 (uniOp s s.cur x f.a) })) ∧
    (f.d = .spr 0x22 → FixedRule (.mov f)
      (fun s x => BitVec.ofNat 32 (uniOp s s.cur x f.a) &&& 0xFFE0FCC0#32 = 0)
      (fun s x y => { y with fpsr := BitVec.ofNat 32 (uniOp s s.cur x f.a) })) ∧
    (∀ k, f.d = .spr k → k.toNat ≠ 0x21 → k.toNat ≠ 0x22 → FixedRule (.mov f) (fun _ x => x.hm = false) fun _ _ y => y) ∧
    ∀ k, f.d = .spr k → ∀ s x z, Acts (.mov f) s x →
      sprWrite (bookkept (.mov f) s x) k.toNat (BitVec.ofNat 64 (uniOp s s.cur x f.a)) = some z → NextPcOk z →
      Becomes (.mov f) s s (moved (loopNext z.pc z.lstk) z)

/-- R92, R93, R123: what `fitted` gives: a result in the range of its type unchanged and without a flag; otherwise, with
SAT, the nearer end of the range and the flag; otherwise a number of the range that differs by a multiple of 2^W. R125 bit
by bit: the results of SHL, SHR and SAR of a W-bit pattern by a count. -/
def Obligations.NumberRules : Prop :=
  (∀ (t : Ty) (sat : Bool) (x : Int),
     (intLo t ≤ x → x ≤ intHi t → intFit t sat x = (x, false)) ∧
     (x < intLo t → intFit t true x = (intLo t, true)) ∧
     (intHi t < x → intFit t true x = (intHi t, true)) ∧
     ((x < intLo t ∨ intHi t < x) → (intFit t false x).2 = false ∧ intLo t ≤ (intFit t false x).1 ∧
       (intFit t false x).1 ≤ intHi t ∧ ∃ k : Int, (intFit t false x).1 = x + k * (2 ^ t.bits : Nat))) ∧
  (∀ (w a n k : Nat), 0 < w → a < 2 ^ w → k < w →
     (shiftLeft w a n).testBit k = (decide (n ≤ k) && a.testBit (k - n)) ∧
     (shiftRight w a n).testBit k = (decide (n + k < w) && a.testBit (n + k)) ∧
     (shiftArith w a n).testBit k = if n + k < w then a.testBit (n + k) else a.testBit (w - 1))

/-- R132: the modular instructions: each operand digit reduced, the result modulo the modulus of the lane or channel; a lane
modulus outside 2..512 gives all ones and FPSR.IV; an invalid basis or idle channel traps with BAD_BASIS before any lane is
written. R132 to R134: RSPL writes each acting lane's digit quad and RMRC its value and check; an invalid basis traps with
BAD_BASIS. The detail 0 of these traps is the model's choice, log entry 41. R277, R278: what the value and the check of a residue
word are: the value is the number of the balanced range that has the primary digits, and the word is legitimate where its redundant
digits are that number's. -/
def Obligations.ResidueResults : Prop :=
  (∀ f : T3,
     LaneRule (.maddm f) (fun s x => modSource s x f ≠ .invalid) 1 f.d (fun s x l =>
       modResult (modSource s x f) (laneOp s s.cur x 1 l f.c) fun m =>
         (laneOp s s.cur x 1 l f.a % m + laneOp s s.cur x 1 l f.b % m) % m) ∧
     LaneRule (.msubm f) (fun s x => modSource s x f ≠ .invalid) 1 f.d (fun s x l =>
       modResult (modSource s x f) (laneOp s s.cur x 1 l f.c) fun m =>
         (laneOp s s.cur x 1 l f.a % m + (m - laneOp s s.cur x 1 l f.b % m)) % m) ∧
     LaneRule (.mmulm f) (fun s x => modSource s x f ≠ .invalid) 1 f.d (fun s x l =>
       modResult (modSource s x f) (laneOp s s.cur x 1 l f.c) fun m =>
         (laneOp s s.cur x 1 l f.a % m) * (laneOp s s.cur x 1 l f.b % m) % m) ∧
     LaneRule (.mmacm f) (fun s x => modSource s x f ≠ .invalid) 1 f.d (fun s x l =>
       modResult (modSource s x f) (laneOp s s.cur x 1 l f.c) fun m =>
         ((laneOp s s.cur x 1 l f.a % m) * (laneOp s s.cur x 1 l f.b % m) + laneOp s s.cur x 1 l f.c % m) % m) ∧
     LaneRule (.mred f) (fun s x => modSource s x f ≠ .invalid) 1 f.d (fun s x l =>
       modResult (modSource s x f) (laneOp s s.cur x 1 l f.c) fun m =>
         digit (intVal f.ty (laneReader s s.cur x l) f.a) m) ∧
     ∀ i, i = Instr.maddm f ∨ i = .msubm f ∨ i = .mmulm f ∨ i = .mmacm f ∨ i = .mred f →
       TrapRule i (fun s x => modSource s x f = .invalid) .badBasis fun _ _ => 0) ∧
  (∀ (b : Basis) (r : Nat → Nat), BasisOk b → (∀ h ∈ b.live, r h < b.mod h) →
     Names b (List.range b.span) r (primaryValue b r) ∧ (∀ v, Names b (List.range b.span) r v → v = primaryValue b r) ∧
     (legitimate b r = true ↔ ∃ v, Names b b.live r v)) ∧
  (∀ f : T3,
     (∀ b, FixedRule (.rspl f) (fun s x => basisOf s x.ctx (bitsOf f.opx 4 3) = some b) fun s x y =>
       (x.acting f.hd).foldl (fun y l => setQuad l (Opnd.vIndex f.d)
         (quadOf b fun h => digit (intVal f.ty (laneReader s s.cur x l) f.a) (b.mod h)) y) y) ∧
     (∀ b, FixedRule (.rmrc f) (fun s x => basisOf s x.ctx (bitsOf f.opx 4 3) = some b) fun _ x y =>
       (x.acting f.hd).foldl (fun y l =>
         let q := quadDigit b (getQuad x l (Opnd.vIndex f.a))
         (writeLane 2 f.d l (intReg (primaryValue b q)) y).setPbit l (bitsOf f.opx 8 3) (legitimate b q)) y) ∧
     TrapRule (.rspl f) (fun s x => basisOf s x.ctx (bitsOf f.opx 4 3) = none) .badBasis (fun _ _ => 0) ∧
     TrapRule (.rmrc f) (fun s x => basisOf s x.ctx (bitsOf f.opx 4 3) = none) .badBasis fun _ _ => 0)

/-- R135 to R139: the floating-point instructions, rounded by RND or FPSR.RM, with their flags. R141, R142: the conversions.
R77 to R80: a pair: in each acting lane both halves read the strand as it was, then the first half writes and then the
second. R34: when a condition that an instruction raises is enabled, the instruction completes first, with its results and
sticky flags, and then FP_TRAP is taken: TPC is the next instruction, TINFO the conditions and the PC that raised them. Said
of FADD, FMUL and CVT. -/
def Obligations.FloatingResults : Prop :=
  (∀ f : T3,
     LaneRule (.fadd f) (fun _ _ => True) f.ty.vregs f.d (fun s x l => let rd := laneReader s s.cur x l
       codeRes (fadd (fmtOf f.ty) (rmode f.rnd x.fpsr) f.sat (codeVal f.ty rd f.a) (codeVal f.ty rd f.b))) ∧
     LaneRule (.fsub f) (fun _ _ => True) f.ty.vregs f.d (fun s x l => let rd := laneReader s s.cur x l
       codeRes (fsub (fmtOf f.ty) (rmode f.rnd x.fpsr) f.sat (codeVal f.ty rd f.a) (codeVal f.ty rd f.b))) ∧
     LaneRule (.fmul f) (fun _ _ => True) f.ty.vregs f.d (fun s x l => let rd := laneReader s s.cur x l
       codeRes (fmul (fmtOf f.ty) (rmode f.rnd x.fpsr) f.sat (codeVal f.ty rd f.a) (codeVal f.ty rd f.b))) ∧
     LaneRule (.ffma f) (fun _ _ => True) f.ty.vregs f.d (fun s x l => let rd := laneReader s s.cur x l
       codeRes (ffma (fmtOf f.ty) (rmode f.rnd x.fpsr) f.sat (codeVal f.ty rd f.a) (codeVal f.ty rd f.b)
         (codeVal f.ty rd f.c))) ∧
     LaneRule (.fmin f) (fun _ _ => True) f.ty.vregs f.d (fun s x l => let rd := laneReader s s.cur x l
       codeRes (fminmax (fmtOf f.ty) false (codeVal f.ty rd f.a) (codeVal f.ty rd f.b))) ∧
     LaneRule (.fmax f) (fun _ _ => True) f.ty.vregs f.d (fun s x l => let rd := laneReader s s.cur x l
       codeRes (fminmax (fmtOf f.ty) true (codeVal f.ty rd f.a) (codeVal f.ty rd f.b))) ∧
     LaneRule (.fcmp f) (fun _ _ => True) f.ty.vregs f.d (fun s x l => fcmpRes f (laneReader s s.cur x l)) ∧
     LaneRule (.fclass f) (fun _ _ => True) 1 f.d (fun s x l =>
       (BitVec.ofNat 64 (fclass (fmtOf f.ty) (codeVal f.ty (laneReader s s.cur x l) f.a)), 0))) ∧
  (∀ f : T3,
     LaneRule (.cvt f) (fun _ _ => True) f.ty.vregs f.d (fun s x l =>
       cvt f.ty (f.srcTy.getD .none) (rmode f.rnd x.fpsr) f.sat
         (codeVal (f.srcTy.getD .none) (laneReader s s.cur x l) f.a)) ∧
     LaneRule (.cvts f) (fun _ _ => True) f.ty.vregs f.d (fun s x l =>
       cvts f.ty (f.srcTy.getD .none) (rmode f.rnd x.fpsr) f.sat
         (codeVal (f.srcTy.getD .none) (laneReader s s.cur x l) f.a) (laneOp s s.cur x 1 l f.b % 65536))) ∧
  (∀ (f : PairForm) (s : State) (x : Strand), Acts (.pair f) s x → NextPcOk x →
     let a := (x.acting f.hd).foldl (fun acc l => halfWrite f.op1 x l (halfWrite f.op0 x l acc)) (past (.pair f) s x, 0)
     fpTraps x a.2 = false → Becomes (.pair f) s s (addFlags a.2 a.1)) ∧
  (∀ (i : Instr) (n : Nat) (d : Opnd) (f : State → Strand → Nat → Dword × BitVec 6),
     (∃ g : T3, i = .fadd g ∧ n = g.ty.vregs ∧ d = g.d ∧ f = fun s x l => let rd := laneReader s s.cur x l
         codeRes (fadd (fmtOf g.ty) (rmode g.rnd x.fpsr) g.sat (codeVal g.ty rd g.a) (codeVal g.ty rd g.b))) ∨
     (∃ g : T3, i = .fmul g ∧ n = g.ty.vregs ∧ d = g.d ∧ f = fun s x l => let rd := laneReader s s.cur x l
         codeRes (fmul (fmtOf g.ty) (rmode g.rnd x.fpsr) g.sat (codeVal g.ty rd g.a) (codeVal g.ty rd g.b))) ∨
     (∃ g : T3, i = .cvt g ∧ n = g.ty.vregs ∧ d = g.d ∧ f = fun s x l =>
       cvt g.ty (g.srcTy.getD .none) (rmode g.rnd x.fpsr) g.sat
         (codeVal (g.srcTy.getD .none) (laneReader s s.cur x l) g.a)) →
     ∀ s x, Acts i s x → NextPcOk x → PairOk n d → x.hm = false → canSettle x = true →
       fpTraps x (laneFlags (x.acting i.hdr) (f s x)) = true →
       ∃ u y, exec i s = .next (takeTrap u s.cur y (past i s x).pc x.active .fpTrap
           (fpInfo x.pc (laneFlags (x.acting i.hdr) (f s x)))) ∧
         u.strand? s.cur = some { y with defer := [(.fpTrap, fpInfo x.pc (laneFlags (x.acting i.hdr) (f s x)))] } ∧
         Agree s.cur s u ∧ PastBut i s x y ∧ LaneWrites x y (x.acting i.hdr) n d (fun l => (f s x l).1) ∧
         y.fpsr = x.fpsr ||| (laneFlags (x.acting i.hdr) (f s x)).setWidth 32)

/-- R64, R140: the special functions read at issue; their results and flags come at completion. R64, R151, R153 to R155:
MATCH, REDUX, SCAN and TOPK: what they write at their completion. -/
def Obligations.LongLatencyResults : Prop :=
  (∀ (f : T3) (i : Instr) (g : Nat → Nat × BitVec 6),
     (i = .frcp f ∧ g = frcp) ∨ (i = .frsq f ∧ g = frsq) ∨ (i = .fexp2 f ∧ g = fexp2) ∨ (i = .flog2 f ∧ g = flog2Code) ∨
       (i = .fsin f ∧ g = fsin) ∨ (i = .fcos f ∧ g = fcos) →
     LongRule i (fun _ _ => True) fun s x =>
       ((x.acting f.hd).flatMap fun l => laneWrites 1 f.d l
           (BitVec.ofNat 64 (g (codeVal .f32 (laneReader s s.cur x l) f.a)).1),
         (x.acting f.hd).foldl (fun a l => a ||| (g (codeVal .f32 (laneReader s s.cur x l) f.a)).2) 0)) ∧
  (∀ f : T3,
     LongRule (.matchLanes f) (fun _ _ => True) (fun _ x => (matchWrites f x (x.acting f.hd), 0)) ∧
     LongRule (.redux f) (fun _ _ => True) (fun _ x => reduxAll f x (x.acting f.hd)) ∧
     LongRule (.scan f) (fun _ _ => True) (fun _ x => scanAll f x (x.acting f.hd)) ∧
     LongRule (.topk f) (fun _ _ => True) (fun s x => ((x.acting f.hd).flatMap fun l =>
       laneWrites 1 f.d l (BitVec.ofNat 64 (rankOf f x (x.acting f.hd) l)) ++
         predWrite f l (decide (rankOf f x (x.acting f.hd) l < laneOp s s.cur x 1 l f.b)), 0)))

/-- R147 to R150, R152: shuffles, permutes, broadcasts, votes and ranks. R156, R157: VGET reads one live lane into an s
register or a condition; VSET writes one live lane, and nothing where the lane is not live. -/
def Obligations.CrossLaneResults : Prop :=
  (∀ f : T3,
     LaneRule (.shfl f) (fun _ _ => True) f.ty.vregs f.d (fun s x l => (BitVec.ofNat 64 (srcLane x f.ty.vregs f.a
       (shflLane (bitsOf f.opx 0 2) x.tile l (laneOp s s.cur x 1 l f.b))), 0)) ∧
     LaneRule (.perm f) (fun _ _ => True) f.ty.vregs f.d (fun s x l =>
       (BitVec.ofNat 64 (srcLane x f.ty.vregs f.a (laneOp s s.cur x 1 l f.b)), 0)) ∧
     LaneRule (.bcast f) (fun _ _ => True) f.ty.vregs f.d (fun s x l => (BitVec.ofNat 64 (srcLane x f.ty.vregs f.a
       (if f.opx.getLsbD 0 then (tileActing x.tile (x.acting f.hd) l).headD l
         else tileFirst x.tile l + laneOp s s.cur x 1 l f.b % x.tile)), 0)) ∧
     LaneRule (.part f) (fun _ _ => True) 1 f.d (fun _ x l => (BitVec.ofNat 64 (partCount f x (x.acting f.hd) l), 0)) ∧
     (f.d.isV = true → LaneRule (.vote f) (fun _ _ => True) 1 f.d (fun _ x l =>
       (BitVec.ofNat 64 (laneWord ((tileActing x.tile (x.acting f.hd) l).filter (predOf x f.a))), 0))) ∧
     (f.d.isP = true → LaneRule (.vote f) (fun _ _ => True) 1 f.d (fun _ x l => boolRes
       (voteOf (bitsOf f.opx 0 2) ((tileActing x.tile (x.acting f.hd) l).map (predOf x f.a))))) ∧
     (∀ k, f.d = .c k → FixedRule (.vote f) (fun _ _ => True) fun _ x y =>
       y.setC k.toNat (voteOf (bitsOf f.opx 0 2) ((x.acting f.hd).map (predOf x f.a)))) ∧
     ∀ k, f.d = .k k → FixedRule (.vote f) (fun _ _ => True) fun _ x y =>
       y.setK k.toNat ((x.acting f.hd).foldl (fun m l => Mask.set m l (predOf x f.a l)) 0)) ∧
  (∀ f : T3,
     UniRule (.vget f) f.d (fun s x => (vgetValue f x (uniOp s s.cur x f.b % 2 ^ 32), 0)) ∧
     FixedRule (.vset f) (fun s x => x.isLive (uniOp s s.cur x f.b % 2 ^ 32) = true) (fun s x y =>
       writeLane f.ty.vregs f.d (uniOp s s.cur x f.b % 2 ^ 32) (BitVec.ofNat 64 (uniOp s s.cur x f.a)) y) ∧
     FixedRule (.vset f) (fun s x => x.isLive (uniOp s s.cur x f.b % 2 ^ 32) = false) fun _ _ y => y)

/-! # Control, traps and halts (R34, R40 to R42, R57, R62, R82, R83, R158 to R178, R367 to R372) -/

/-- R57, R160, R162: a taken uniform branch goes to its target, leaves the loops that do not hold the target, and is not
ready for the next three cycles; a target outside the PC's range halts with PC_RANGE. R57, R160, R167: CALL keeps the return
PC in its register and goes to its target, and halts with PC_RANGE where either is out of range; RET goes to the PC its
register names. R57: an instruction after which the PC would leave its range halts with PC_RANGE, without any effect. Said
of one that is guarded off, of NOP, and of the waits WAITT, WAITK, GROW and CANCEL.wait. -/
def Obligations.UniformBranchesAndCalls : Prop :=
  ((∀ f : I32,
     SetRule (.bra f) (fun _ x => pcOk (x.pc + f.imm.toInt) = true) (fun s x y =>
       redirect { y with lstk := unwindLoops (x.pc + f.imm.toInt).toNat x.lstk } s.cycle (x.pc + f.imm.toInt).toNat) ∧
     HaltRule (.bra f) (fun _ x => pcOk (x.pc + f.imm.toInt) = false) .pcRange (fun _ _ => 0)) ∧
   ∀ f : T3, SetRule (.brx f) (fun _ _ => True) fun s x y =>
     redirect { y with lstk := unwindLoops (uniOp s s.cur x f.a % 2 ^ 32) x.lstk } s.cycle (uniOp s s.cur x f.a % 2 ^ 32)) ∧
  ((∀ f : I32, SetRule (.call f) (fun _ x => x.pc + 1 < 2 ^ 32 ∧ pcOk (x.pc + f.imm.toInt) = true) (fun s x y =>
     redirect (writeUni f.d (BitVec.ofNat 64 (x.pc + 1)) y) s.cycle (x.pc + f.imm.toInt).toNat) ∧
     HaltRule (.call f) (fun _ x => ¬(x.pc + 1 < 2 ^ 32 ∧ pcOk (x.pc + f.imm.toInt) = true)) .pcRange fun _ _ => 0) ∧
   ∀ f : T3, SetRule (.ret f) (fun _ _ => True) fun s x y => redirect y s.cycle (uniOp s s.cur x f.a % 2 ^ 32)) ∧
  ((∀ (i : Instr) (s : State) (x : Strand), i.isProgram = true → Issues i s x → x.passes i = false → ¬NextPcOk x →
     exec i s = .next (haltStrand s s.cur x .pcRange 0 false)) ∧
   (∀ f, HaltRule (.nop f) (fun _ x => ¬NextPcOk x) .pcRange fun _ _ => 0) ∧
   (∀ f i, i = Instr.waitt f ∨ i = .waitk f → HaltRule i (fun _ x => x.owed = [] ∧ ¬NextPcOk x) .pcRange fun _ _ => 0) ∧
   ∀ f i, i = Instr.grow f ∨ i = .cancel f → HaltRule i (fun _ x => ¬NextPcOk x) .pcRange fun _ _ => 0)

/-- R39, R163, R164: a divergent branch. Where every active lane goes the same way it is a plain jump; otherwise it pushes a
DIV entry that holds the reconvergence PC, the whole active mask, and the lanes that go on later with their PC, and goes on
with the others. BRX.div merges the lanes left into the entry that the same branch has pushed. A PC out of range halts with
PC_RANGE (R57), which is checked before the room of the stack (the model's choice, log entry 22), and a stack without room halts
with RSTK_OVERFLOW or RSTK_SPILL (R40). R40, R165: RCV: with no
entry that reconverges here it does nothing; an entry whose deferred lanes live starts them at their PC; an entry whose
deferred lanes are gone restores the mask and leaves the stack. -/
def Obligations.DivergenceAndReconvergence : Prop :=
  ((∀ f : I32,
     let dest (x : Strand) : Int := x.pc + (f.imm.extractLsb' 0 16).toInt
     SetRule (.braDiv f) (fun _ x => x.active &&& ~~~actingMask x f.hd = 0 ∧ pcOk (dest x) = true)
       (fun s x y => redirect y s.cycle (dest x).toNat) ∧
     HaltRule (.braDiv f) (fun _ x => x.active &&& ~~~actingMask x f.hd = 0 ∧ pcOk (dest x) = false) .pcRange (fun _ _ => 0) ∧
     let rpc (x : Strand) : Int := x.pc + (f.imm.extractLsb' 16 16).toInt
     let inRange (x : Strand) : Prop := pcOk (dest x) = true ∧ pcOk (rpc x) = true ∧ x.pc + 1 < 2 ^ 32
     SetRule (.braDiv f) (fun s x => x.active &&& ~~~actingMask x f.hd ≠ 0 ∧ pushFails s s.cur x = none ∧ inRange x)
       (fun s x y => redirect { y with
         rstk := .div (rpc x).toNat x.active (x.pc + 1) (x.active &&& ~~~actingMask x f.hd) :: x.rstk,
         active := actingMask x f.hd } s.cycle (dest x).toNat) ∧
     HaltRule (.braDiv f) (fun _ x => x.active &&& ~~~actingMask x f.hd ≠ 0 ∧ ¬inRange x) .pcRange (fun _ _ => 0) ∧
     ∀ c i, HaltRule (.braDiv f) (fun s x => x.active &&& ~~~actingMask x f.hd ≠ 0 ∧ inRange x ∧
       pushFails s s.cur x = some (c, i)) c fun _ _ => i) ∧
   ∀ f : T3,
     let dest (s : State) (x : Strand) : Nat := brxTarget s s.cur x f (x.activeLanes.headD 0)
     let go (s : State) (x : Strand) : Mask :=
       Mask.ofPred x.nlanes fun l => Mask.bit x.active l && brxTarget s s.cur x f l == dest s x
     let off (x : Strand) : Int := x.pc + (f.opx.extractLsb' 0 16).toInt
     let rpc (x : Strand) : Nat := (off x).toNat
     let inRange (s : State) (x : Strand) : Prop :=
       pcOk (off x) = true ∧ ∀ l ∈ x.activeLanes, brxTarget s s.cur x f l < 2 ^ 32
     SetRule (.brxDiv f) (fun s x => x.active &&& ~~~go s x = 0 ∧ pcOk (dest s x) = true)
       (fun s x y => redirect y s.cycle (dest s x)) ∧
     HaltRule (.brxDiv f) (fun s x => x.active &&& ~~~go s x = 0 ∧ pcOk (dest s x) = false) .pcRange (fun _ _ => 0) ∧
     (∀ c i, HaltRule (.brxDiv f) (fun s x => x.active &&& ~~~go s x ≠ 0 ∧ inRange s x ∧
       (∀ m dm rest, x.rstk ≠ .div (rpc x) m x.pc dm :: rest) ∧ pushFails s s.cur x = some (c, i)) c fun _ _ => i) ∧
     (∀ m dm rest, SetRule (.brxDiv f)
       (fun s x => x.active &&& ~~~go s x ≠ 0 ∧ x.rstk = .div (rpc x) m x.pc dm :: rest ∧ inRange s x)
       (fun s x y => redirect { y with
         rstk := .div (rpc x) m x.pc (x.active &&& ~~~go s x) :: rest, active := go s x } s.cycle (dest s x))) ∧
     SetRule (.brxDiv f)
       (fun s x => x.active &&& ~~~go s x ≠ 0 ∧ (∀ m dm rest, x.rstk ≠ .div (rpc x) m x.pc dm :: rest) ∧
         pushFails s s.cur x = none ∧ inRange s x)
       (fun s x y => redirect { y with
         rstk := .div (rpc x) x.active x.pc (x.active &&& ~~~go s x) :: x.rstk, active := go s x } s.cycle (dest s x)) ∧
     HaltRule (.brxDiv f) (fun s x => x.active &&& ~~~go s x ≠ 0 ∧ ¬inRange s x) .pcRange fun _ _ => 0) ∧
  (∀ f : T3,
     FixedRule (.rcv f) (fun _ x => ∀ q m d dm rest, x.rstk = .div q m d dm :: rest → q ≠ x.pc) (fun _ _ y => y) ∧
     (∀ m d dm rest, SetRule (.rcv f) (fun _ x => x.rstk = .div x.pc m d dm :: rest ∧ dm &&& x.live ≠ 0) fun s x y =>
       redirect { y with rstk := .div x.pc m d 0 :: rest, active := dm &&& x.live } s.cycle d) ∧
     (∀ x p m d dm rest, dm &&& x.live = 0 →
       reconverge x p (.div p m d dm :: rest) = reconverge { x with active := m &&& x.live } p rest) ∧
     FixedRule (.rcv f) (fun _ x => (reconverge x x.pc x.rstk).2 = false) (fun _ x y =>
       { y with rstk := (reconverge x x.pc x.rstk).1.rstk, active := (reconverge x x.pc x.rstk).1.active }) ∧
     SetRule (.rcv f) (fun _ x => (reconverge x x.pc x.rstk).2 = true) fun s x y =>
       redirect { y with rstk := (reconverge x x.pc x.rstk).1.rstk, active := (reconverge x x.pc x.rstk).1.active }
         s.cycle (reconverge x x.pc x.rstk).1.pc)

/-- R41, R168, R169: LOOP with a count opens a loop over the instructions that follow, with none goes past its end, and
traps with LOOP_OVERFLOW when four are open; a PC of it out of range halts with PC_RANGE (R57), checked first (the model's
choice, log entry 22); LBRK leaves the innermost loop, and with its jump goes past the loop's end. R161: the PC after an
instruction: at the last instruction of the innermost loop it goes back while the count is not spent, and the loop ends when
it is; elsewhere it is the next instruction. -/
def Obligations.Loops : Prop :=
  ((∀ f : I32,
     (∀ s x, Acts (.loop f) s x → uniOp s s.cur x f.a % 2 ^ 32 ≠ 0 → x.lstk.length < 4 →
       x.pc + 1 < 2 ^ 32 → pcOk (x.pc + f.imm.toInt) = true →
       let n := loopNext x.pc ({
         start := BitVec.ofNat 32 (x.pc + 1), last := BitVec.ofInt 32 (x.pc + f.imm.toInt),
         count := BitVec.ofNat 32 (uniOp s s.cur x f.a % 2 ^ 32 - 1) } :: x.lstk)
       n.1 < 2 ^ 32 → Becomes (.loop f) s s (moved n (bookkept (.loop f) s x))) ∧
     SetRule (.loop f) (fun s x => uniOp s s.cur x f.a % 2 ^ 32 = 0 ∧ pcOk (x.pc + f.imm.toInt + 1) = true)
       (fun _ x y => { y with pc := (x.pc + f.imm.toInt + 1).toNat }) ∧
     HaltRule (.loop f) (fun s x => uniOp s s.cur x f.a % 2 ^ 32 = 0 ∧ pcOk (x.pc + f.imm.toInt + 1) = false ∨
       uniOp s s.cur x f.a % 2 ^ 32 ≠ 0 ∧ ¬(x.pc + 1 < 2 ^ 32 ∧ pcOk (x.pc + f.imm.toInt) = true)) .pcRange (fun _ _ => 0) ∧
     TrapRule (.loop f) (fun s x => uniOp s s.cur x f.a % 2 ^ 32 ≠ 0 ∧ 4 ≤ x.lstk.length ∧ x.pc + 1 < 2 ^ 32 ∧
       pcOk (x.pc + f.imm.toInt) = true) .loopOverflow fun _ _ => 0) ∧
   ∀ f : T3,
     FixedRule (.lbrk f) (fun _ x => x.lstk = []) (fun _ _ y => y) ∧
     (∀ e rest s x, Acts (.lbrk f) s x → x.lstk = e :: rest → f.opx.getLsbD 0 = false → (loopNext x.pc rest).1 < 2 ^ 32 →
       Becomes (.lbrk f) s s (moved (loopNext x.pc rest) (bookkept (.lbrk f) s x))) ∧
     ∀ e rest, SetRule (.lbrk f) (fun _ x => x.lstk = e :: rest ∧ f.opx.getLsbD 0 = true ∧ pcOk (e.last.toNat + 1 : Nat) = true)
       fun _ _ y => { y with lstk := rest, pc := e.last.toNat + 1 }) ∧
  (∀ (p : Nat) (e : LoopEntry) (rest : List LoopEntry),
     (e.last.toNat ≠ p → loopNext p (e :: rest) = (p + 1, e :: rest)) ∧
     (e.last.toNat = p → e.count ≠ 0 → loopNext p (e :: rest) = (e.start.toNat, { e with count := e.count - 1 } :: rest)) ∧
     (e.last.toNat = p → e.count = 0 → loopNext p (e :: rest) = loopNext p rest) ∧ loopNext p [] = (p + 1, []))

/-- R166, R171: EXIT removes the acting lanes. While lanes stay active the strand goes on; when none stays active the
deferred path of the top entry starts, or the entry's own lanes go on at its reconvergence PC, each with the delay of a taken
branch (for the second case the model's choice, log entries 99 and 32); when none is left the strand ends, once its outstanding
instructions have settled (R68), and stalls until then. -/
def Obligations.ExitedLanes : Prop :=
  ∀ f : T3,
    let gone (x : Strand) : Strand := removeLanes x (actingMask x f.hd)
    FixedRule (.exit f) (fun _ x => (gone x).live ≠ 0 ∧ (gone x).active ≠ 0)
      (fun _ x y => { y with live := (gone x).live, active := (gone x).active }) ∧
    (∀ q m d dm rest, SetRule (.exit f) (fun _ x => (gone x).live ≠ 0 ∧ (gone x).active = 0 ∧
        x.rstk = .div q m d dm :: rest ∧ dm &&& (gone x).live ≠ 0) fun s x y =>
      redirect { y with live := (gone x).live, active := dm &&& (gone x).live, rstk := .div q m d 0 :: rest } s.cycle d) ∧
    (∀ q m d dm rest, SetRule (.exit f) (fun _ x => (gone x).live ≠ 0 ∧ (gone x).active = 0 ∧
        x.rstk = .div q m d dm :: rest ∧ dm &&& (gone x).live = 0) fun s x y =>
      redirect { y with live := (gone x).live, active := m &&& (gone x).live, rstk := rest } s.cycle q) ∧
    FixedRule (.exit f) (fun _ x => (gone x).live ≠ 0 ∧ (gone x).active = 0 ∧ ∀ q m d dm rest, x.rstk ≠ .div q m d dm :: rest)
      (fun _ x y => { y with live := (gone x).live, active := (gone x).live }) ∧
    ∀ s x, Acts (.exit f) s x → (gone x).live = 0 →
      (settledNow (bookkept (.exit f) s x) s.cycle = false → exec (.exit f) s = .next s) ∧
      (settledNow (bookkept (.exit f) s x) s.cycle = true → ∃ t, exec (.exit f) s = .next t ∧ t.strand? s.cur = none ∧
        (∀ q : Ref, q ≠ s.cur → t.strand? q = s.strand? q) ∧ t.mem = s.mem)

/-- R63, R172, R200, R201: NOP, YIELD and FENCE only advance the PC, a yielding instruction after handing over its issue
slot; IFENCE also empties the core's instruction cache. R176 to R178: GROW to a budget the strand already has gives 1 at
once, and to a larger one waits; SHRNK lowers the budget. -/
def Obligations.HintsFencesAndBudget : Prop :=
  (∀ f : T3,
     FixedRule (.nop f) (fun _ _ => True) (fun _ _ y => y) ∧
     FixedRule (.yield f) (fun _ _ => True) (fun _ _ y => y) ∧
     FixedRule (.fence f) (fun _ _ => True) (fun _ _ y => y) ∧
     (∀ s x t, Acts (.yield f) s x → NextPcOk x → exec (.yield f) s = .next t →
       (mget ISlot.reset (t.core s.cur.core).islots x.islot).greedy = none ∧
       (mget ISlot.reset (t.core s.cur.core).islots x.islot).order.getLast? = some s.cur.strid) ∧
     ∀ s x, Acts (.ifence f) s x → NextPcOk x →
       ∃ t, exec (.ifence f) s = .next t ∧ t.strand? s.cur = some (past (.ifence f) s x) ∧
         (t.core s.cur.core).icache = [] ∧ t.mem = s.mem ∧ ∀ q, q ≠ s.cur → t.strand? q = s.strand? q) ∧
  (∀ f : T3,
     FixedRule (.grow f) (fun _ x => 8 * bitsOf f.opx 0 6 ≤ x.budget) (fun _ _ y => writeUni f.d 1 y) ∧
     SetRule (.grow f) (fun _ x => x.budget < 8 * bitsOf f.opx 0 6 ∧ NextPcOk x)
       (fun s _ y => { y with wait := .grow (8 * bitsOf f.opx 0 6) f.d s.free }) ∧
     FixedRule (.shrnk f) (fun _ _ => True) fun _ x y => { y with budget := min x.budget (8 * bitsOf f.opx 0 6) })

/-- R368: where the context has a handler and the stack room, a trap completes the outstanding instructions, pushes a TRAP
entry with TPC, the mask and SSW, records the cause and its detail, sets HM and goes to the handler. R369, R372: a trap in
handler mode halts the context with NESTED_TRAP, and one without a handler halts it with its own cause: the strand stops
where it is, and the cause is on its way to the halt controller. -/
def Obligations.TrapsAndHalts : Prop :=
  (∀ (s : State) (r : Ref) (x : Strand) (tpc pc : Nat) (m : Mask) (c : Cause) (info : Dword),
     x.hm = false → handlerOf s x = some pc → canSettle x = true → pushFails s r (settle x) = none →
     ∃ t y, takeTrap s r x tpc m c info = t ∧ t.strand? r = some y ∧ Agree r (actIn s r.core x.slot) t ∧
       y = { settle x with
         rstk := .trap (BitVec.ofNat 32 tpc) m (settle x).ssw :: (settle x).rstk, active := m, hm := true, pc := pc,
         tcause := BitVec.ofNat 32 c.code, tinfo := info, tpc := BitVec.ofNat 32 tpc, tssw := (settle x).ssw,
         notBefore := settledAt x s.cycle + 16 }) ∧
  (∀ (s : State) (r : Ref) (x : Strand) (tpc : Nat) (m : Mask) (c : Cause) (info : Dword),
     (x.hm = true → takeTrap s r x tpc m c info = haltStrand s r x .nestedTrap (BitVec.ofNat 64 c.code) false) ∧
     (x.hm = false → handlerOf s x = none → takeTrap s r x tpc m c info = haltStrand s r x c info false) ∧
     (haltStrand s r x c info false).strand? r = some { x with stopped := true, stinfo := info } ∧
     (haltStrand s r x c info false).mem = s.mem ∧
     ∀ k, s.ctx? x.ctx = some k → ∃ k', (haltStrand s r x c info false).ctx? x.ctx = some k' ∧
       k'.haltQ = k.haltQ ++ [{ cause := c, tinfo := info, src := if c = .memUnc ∧ info.extractLsb' 62 2 ≠ 0 then 5 else 0,
                                core := r.core, slot := x.slot, dm := false, strid := some r.strid, at_ := s.time }])

/-- R173: TRAP takes SW_TRAP: the TRAP entry holds the next PC, TINFO the immediate, and the handler starts in handler mode
with the active mask unchanged; a context without a handler halts. -/
def Obligations.SoftwareTrap : Prop :=
  (∀ (f : I32) (s : State) (x : Strand) (pc : Nat), Acts (.trap f) s x → x.hm = false → handlerOf s x = some pc →
    canSettle x = true → pushFails s s.cur x = none → x.pc + 1 < 2 ^ 32 →
    ∃ t y, exec (.trap f) s = .next t ∧ t.strand? s.cur = some y ∧ Agree s.cur (actIn s s.cur.core x.slot) t ∧
      y.pc = pc ∧ y.hm = true ∧ y.active = x.active ∧ y.tcause = BitVec.ofNat 32 Cause.swTrap.code ∧
      y.tinfo = f.imm.setWidth 64 ∧ y.tpc = BitVec.ofNat 32 (x.pc + 1) ∧ y.live = x.live ∧ y.k = x.k ∧
      ∃ ssw, y.rstk = .trap (BitVec.ofNat 32 (x.pc + 1)) x.active ssw :: x.rstk) ∧
  ∀ (f : I32) (s : State) (x : Strand), Acts (.trap f) s x → x.hm = false → handlerOf s x = none → x.pc + 1 < 2 ^ 32 →
    exec (.trap f) s = .next (haltStrand (issued s s.cur x (.trap f)) s.cur (bookkept (.trap f) s x) .swTrap
      (f.imm.setWidth 64) false)

/-- R82, R83: a decode cause traps at the instruction before it has any effect, whatever its guard, with bits [95:32] of the
word in TINFO. R25, R82, R250, R264, R268, R270: where the decode causes come from beside the word itself: a vector register
at or above the budget is ILL_OPND, and a level below the one an instruction needs is PRIV. R174: a lane instruction in
handler mode halts the context with HM_LANE. -/
def Obligations.DecodeCausesTrap : Prop :=
  (∀ (i : Instr) (s : State) (x : Strand) (c : Cause), i.isProgram = true → s.strand? s.cur = some x →
     mayRun s s.cur x = true → (x.defer = [] ∨ x.hm = true) → windowBlocked s.cycle x i = false →
     decodeFault i x = some c →
     exec i s = .next (takeTrap s s.cur x x.pc x.active c ((encode i).extractLsb' 32 64))) ∧
  (∀ (i : Instr) (x : Strand), i.staticCause = none →
     (budgetOk i x.budget = false → decodeFault i x = some .illOpnd) ∧
     (budgetOk i x.budget = true → x.pl.toNat < levelOf i → decodeFault i x = some .priv) ∧
     (budgetOk i x.budget = true → levelOf i ≤ x.pl.toNat → decodeFault i x = none) ∧
     (∀ f, levelOf (.swap f) = 1) ∧ (∀ f, levelOf (.einj f) = 2)) ∧
  (∀ (i : Instr) (s : State) (x : Strand), i.isProgram = true → i.isLane = true → s.strand? s.cur = some x →
     mayRun s s.cur x = true → x.hm = true → windowBlocked s.cycle x i = false → decodeFault i x = none →
     exec i s = .next (haltStrand s s.cur x .hmLane ((encode i).extractLsb' 32 64) false))

/-- R62: a lane instruction acts where an active lane's predicate passes, a strand-uniform one where its condition does; the
reserved guard is ILL_RES; an instruction that is guarded off has no effect but to count: the strand is past it. -/
def Obligations.GuardedOff : Prop :=
  ∀ (i : Instr) (s : State) (x : Strand),
    (i.isLane = true → (x.passes i = true ↔
      ∃ l, l < x.nlanes ∧ Mask.bit x.active l = true ∧ x.pbit l i.hdr.gi.toNat ≠ i.hdr.neg)) ∧
    (i.isLane = false → (x.passes i = true ↔ x.creg i.hdr.gi.toNat ≠ i.hdr.neg)) ∧
    (i.isProgram = true → i.hdr.neg = true → i.hdr.gi = 7 → i.staticCause = some .illRes) ∧
    (i.isProgram = true → Issues i s x → x.passes i = false → NextPcOk x → Becomes i s s (past i s x))

/-- R42, R175: TRET in handler mode with a good TSSW pops the TRAP entry and restores PC, mask and level, and leaves handler
mode, going to the lanes of the stack's top entry where the mask is left empty (R166); a bad TSSW halts with BAD_SSW;
outside a handler it traps with ILL_TRET. -/
def Obligations.ReturnFromTrap : Prop :=
  ∀ f : T3,
    (∀ tpc m w rest, SetRule (.tret f) (fun _ x => x.hm = true ∧ x.rstk = .trap tpc m w :: rest ∧ tsswBad x w = false ∧
        m &&& x.live ≠ 0 ∧ x.defer = []) fun s x y =>
      redirect { y with
        rstk := rest, active := m &&& x.live, pl := w.extractLsb' 10 2, hm := false, tpc := tpc,
        tssw := w } s.cycle tpc.toNat) ∧
    (∀ tpc m w rest, HaltRule (.tret f) (fun _ x => x.hm = true ∧ x.rstk = .trap tpc m w :: rest ∧ tsswBad x w = true)
      .badSsw fun _ _ => w.setWidth 64) ∧
    (∀ tpc m w rest, SetRule (.tret f) (fun _ x => x.hm = true ∧ x.rstk = .trap tpc m w :: rest ∧ tsswBad x w = false ∧
        m &&& x.live = 0 ∧ x.defer = [] ∧ ∀ q m d dm more, rest ≠ .div q m d dm :: more) fun s x y =>
      redirect { y with
        rstk := rest, active := x.live, pl := w.extractLsb' 10 2, hm := false, tpc := tpc,
        tssw := w } s.cycle tpc.toNat) ∧
    (∀ tpc m w q m' d dm more, SetRule (.tret f) (fun _ x => x.hm = true ∧ x.rstk = .trap tpc m w :: .div q m' d dm :: more ∧
        tsswBad x w = false ∧ m &&& x.live = 0 ∧ x.defer = [] ∧ dm &&& x.live ≠ 0) fun s x y =>
      redirect { y with
        rstk := .div q m' d 0 :: more, active := dm &&& x.live, pl := w.extractLsb' 10 2, hm := false,
        tpc := tpc, tssw := w } s.cycle d) ∧
    (∀ tpc m w q m' d dm more, SetRule (.tret f) (fun _ x => x.hm = true ∧ x.rstk = .trap tpc m w :: .div q m' d dm :: more ∧
        tsswBad x w = false ∧ m &&& x.live = 0 ∧ x.defer = [] ∧ dm &&& x.live = 0) fun s x y =>
      redirect { y with
        rstk := more, active := m' &&& x.live, pl := w.extractLsb' 10 2, hm := false, tpc := tpc,
        tssw := w } s.cycle q) ∧
    TrapRule (.tret f) (fun _ x => x.hm = false) .illTret fun _ _ => 0

/-! # Memory (R6, R179 to R201) -/

/-- R6, R182, R183, R186, R192, R308: one access of a lane to memory: a load gives the bytes at the place the address translates
to, a store writes them, and an atomic gives the old bytes and writes the new value, which no marked line may hold. An access
to device memory reads or writes the bytes of the registers there. R303, R304: the walk of a context's tree: good entries of the
levels, indexed by the bits of the address, lead to a leaf of 1 GiB, 2 MiB or 64 KiB; an entry that is not valid ends it without a
page, and a reserved bit, a wrong LEAF, a misaligned address or one outside the range of its memory type is bad. R182, R304, R308,
R310, R415: where no TLB holds a leaf of the address, an access reaches the page's address plus the offset where the leaf and the
region table allow it, and fails with PAGE_NP, PT_BAD, PAGE_PERM (resumable where DM is set) or ATOM_TARGET elsewhere; a page that
migrates makes it wait. -/
def Obligations.FlatAccessOfALane : Prop :=
  (∀ (mem : Map Byte) (va : Nat),
    let entry (table i : Nat) : BitVec 64 := BitVec.ofNat 64 (Memory.nat mem (table + 8 * i) 8)
    let good (e : BitVec 64) : Prop := e.getLsbD 0 = true ∧ e &&& 0xF0000000000000FC = 0
    let down (e : BitVec 64) (align : Nat) : Prop :=
      good e ∧ e.getLsbD 1 = false ∧ e &&& 0x0FF0000000000000 = 0 ∧ leafAddr e % align = 0
    let leaf (e : BitVec 64) (n : Nat) : Prop := good e ∧ e.getLsbD 1 = true ∧ leafAddr e % 2 ^ n = 0 ∧ inRange (leafMt e) (leafAddr e) = true
    (∀ root e4 e3 e2, e4 = entry root (va / 2 ^ 48 % 512) → e3 = entry (leafAddr e4) (va / 2 ^ 39 % 512) →
      e2 = entry (leafAddr e3) (va / 2 ^ 30 % 512) → down e4 4096 → down e3 4096 →
      (leaf e2 30 → walk mem root va = .leaf 2 e2) ∧
      ∀ e1, e1 = entry (leafAddr e2) (va / 2 ^ 21 % 512) → down e2 4096 →
        (leaf e1 21 → walk mem root va = .leaf 1 e1) ∧
        ∀ e0, e0 = entry (leafAddr e1) (va / 2 ^ 16 % 32) → down e1 256 → leaf e0 16 → walk mem root va = .leaf 0 e0) ∧
    ∀ level table, level ≤ 4 → let e := entry table (if level = 0 then va / 2 ^ 16 % 32 else va / 2 ^ (12 + 9 * level) % 512)
      (e.getLsbD 0 = false → walkFrom mem va level table = .absent) ∧
      (e.getLsbD 0 = true → (¬good e ∨ (e.getLsbD 1 = true ∧ 3 ≤ level) ∨ (e.getLsbD 1 = false ∧ level = 0) ∨
        (e.getLsbD 1 = true ∧ level < 3 ∧ ¬leaf e (if level = 0 then 16 else 12 + 9 * level)) ∨
        (e.getLsbD 1 = false ∧ 0 < level ∧ ¬down e (if level = 1 then 256 else 4096))) → walkFrom mem va level table = .bad)) ∧
  (∀ (s : State) (w : Who) (k : Access) (va : Nat) (c : Ctx), s.ctx? w.ctx = some c → va < 2 ^ 57 →
    tlbFind (s.core w.core).tlb w.ctx va = none → tlbFind (l2Tlb s w.core) w.ctx va = none →
    (walk s.mem c.root va = .absent → translate s w k va = .bad .pageNp false) ∧
    (walk s.mem c.root va = .bad → translate s w k va = .bad .ptBad false) ∧
    ∀ level e, walk s.mem c.root va = .leaf level e →
      let pa := leafAddr e + va % 2 ^ leafShift level
      let permits : Prop := (match k with
        | .read => e.getLsbD 52 = true
        | .write => e.getLsbD 53 = true
        | .atomic => e.getLsbD 52 = true ∧ e.getLsbD 53 = true
        | .fetch => e.getLsbD 54 = true ∧ leafMt e < 2) ∧ (w.user = true → e.getLsbD 55 = true)
      (e.getLsbD 56 = true → translate s w k va = .wait) ∧
      (e.getLsbD 56 = false → ¬permits → translate s w k va = .bad .pagePerm (e.getLsbD 57)) ∧
      (e.getLsbD 56 = false → permits → c.secure = false → s.rtBusy = false → tableAllows s.regions k false pa = false →
        translate s w k va = .bad .pagePerm (e.getLsbD 57)) ∧
      (e.getLsbD 56 = false → permits → (c.secure = true ∨ s.rtBusy = false ∧ tableAllows s.regions k false pa = true) →
        (leafMt e < 2 → translate s w k va = .ok pa (leafMt e)) ∧
        (leafMt e = 3 → k = .atomic → translate s w k va = .bad .atomTarget false) ∧
        (leafMt e = 3 → k = .read ∨ (k = .write ∧ (c.secure = true ∨ regionPage pa = false)) → translate s w k va = .ok pa 3))) ∧
  ∀ (f : MForm) (w : Site) (pc : Nat) (s : State) (a : LaneAcc) (key mt : Nat), vaOk (a.ea % 2 ^ 64) = true →
    (translate s w.who .read a.ea = .ok key mt → mt ≠ 3 → uncLine s key (szBytes f.sz) = false →
      accDo (.ld f) w none pc s a = .ok (noteAccess s w.who a.ea key)
        (loadWrites f.d (szBytes f.sz) f.sx a.lane (Memory.nat s.mem key (szBytes f.sz)), none)) ∧
    (translate s w.who .read a.ea = .ok key 3 → accDo (.ld f) w none pc s a = .ok (tlbFill s w.who a.ea)
        (loadWrites f.d (szBytes f.sz) f.sx a.lane (deviceRead s key (szBytes f.sz)), none)) ∧
    (translate s w.who .write a.ea = .ok key 3 → accDo (.st f) w none pc s a =
        .ok (deviceWrite (tlbFill s w.who a.ea) key (natBytes (szBytes f.sz) a.data)) ([], none)) ∧
    (translate s w.who .write a.ea = .ok key mt → mt ≠ 3 → ∃ t, accDo (.st f) w none pc s a = .ok t ([], none) ∧
      (∀ p, p < key ∨ key + szBytes f.sz ≤ p → Memory.byte t.mem p = Memory.byte s.mem p) ∧
      Memory.nat t.mem key (szBytes f.sz) = a.data % 2 ^ (8 * szBytes f.sz)) ∧
    (translate s w.who .atomic a.ea = .ok key mt → uncLine s key (szBytes f.sz) = false → f.loc = false →
      ∃ t ws, accDo (.atom f) w none pc s a = .ok t (ws, none) ∧
        (f.nr = false → ws = loadWrites f.d (szBytes f.sz) f.sx a.lane (Memory.nat s.mem key (szBytes f.sz))) ∧
        (∀ p, p < key ∨ key + szBytes f.sz ≤ p → Memory.byte t.mem p = Memory.byte s.mem p) ∧
        Memory.nat t.mem key (szBytes f.sz) = atomicNew f.aop f.uns (szBytes f.sz)
          (Memory.nat s.mem key (szBytes f.sz)) a.data a.data2 % 2 ^ (8 * szBytes f.sz))

/-- R64, R179, R182, R185, R186, R192, R197, R334, R335: LD, LDS, HLD and the returning atomics: where no access overlaps one that
the strand owes and every one passes its checks, they are made, but for those left to be made later, and the instruction is
outstanding with the registers it will write. R179, R182, R185, R191, R192: ST, STS, RED and the atomics that return nothing:
the same, and the strand goes on. R335, R341: a store or an atomic that overlaps an access the strand owes waits for it; a load of one
lane takes the value that a store of its own strand is to write to all of its bytes. -/
def Obligations.LoadsAndStoresComplete : Prop :=
  ∀ (f : MForm) (s u : State) (x : Strand) (ws : List RegW) (trap : Option (Cause × Dword)), NextPcOk x →
    let r := s.cur
    let made (i : Instr) (accs : List LaneAcc) : Prop :=
      Acts i s x ∧ Performed i none (issued s r x i) r (bookkept i s x) accs u ws trap
    let rest (i : Instr) (accs : List LaneAcc) : List LaneAcc := leftOver i (issued s r x i) r (bookkept i s x) accs
    let long (i : Instr) (accs : List LaneAcc) : Prop :=
      made i accs → Becomes i s u (outstanding i none u r (bookkept i s x) ws trap (rest i accs) (past i s x))
    let fixed (i : Instr) (accs : List LaneAcc) : Prop :=
      made i accs → Becomes i s u (owing i none (bookkept i s x) (rest i accs) (past i s x))
    let flat (accs : List LaneAcc) : Prop := FlatOk accs (szBytes f.sz)
    let scratch (accs : List LaneAcc) (wr : Bool) : Prop := ScratchOk (s.slot r.core x.slot) accs (szBytes f.sz) wr
    (flat (ldAccs s x f) → long (.ld f) (ldAccs s x f)) ∧
    (scratch (ldsAccs s x f) false → long (.lds f) (ldsAccs s x f)) ∧
    (FlatOk [laneAcc 0 (flatEaU s r x f) 0 0] 128 → long (.hld f) [laneAcc 0 (flatEaU s r x f) 0 0]) ∧
    (f.nr = false → AtomOk s x f (atomicAccs s r x f f.d.isS) → long (.atom f) (atomicAccs s r x f f.d.isS)) ∧
    (flat (stAccs s x f) → fixed (.st f) (stAccs s x f)) ∧
    (scratch (stsAccs s x f) true → fixed (.sts f) (stsAccs s x f)) ∧
    (AtomOk s x f (atomicAccs s r x f false) → fixed (.red f) (atomicAccs s r x f false)) ∧
    (f.nr = true → AtomOk s x f (atomicAccs s r x f f.d.isS) → fixed (.atom f) (atomicAccs s r x f f.d.isS)) ∧
    (let waits (i : Instr) (accs : List LaneAcc) : Prop :=
       Acts i s x → overlapOwed i none (issued s r x i) r (bookkept i s x) accs = true → exec i s = .next s
     (flat (stAccs s x f) → waits (.st f) (stAccs s x f)) ∧ (scratch (stsAccs s x f) true → waits (.sts f) (stsAccs s x f)) ∧
     (AtomOk s x f (atomicAccs s r x f false) → waits (.red f) (atomicAccs s r x f false)) ∧
     (AtomOk s x f (atomicAccs s r x f f.d.isS) → waits (.atom f) (atomicAccs s r x f f.d.isS))) ∧
    (let takes (i : Instr) (accs : List LaneAcc) : Prop := ∀ a n, accs = [a] → Acts i s x →
       forwarded i none (issued s r x i) r (bookkept i s x) a = some n → checkAll i (x.site r) none (issued s r x i) accs = none →
       Becomes i s (issued s r x i) (outstanding i none (issued s r x i) r (bookkept i s x)
         (loadWrites f.d (szBytes f.sz) f.sx a.lane n) none [] (past i s x))
     (flat (ldAccs s x f) → takes (.ld f) (ldAccs s x f)) ∧ (scratch (ldsAccs s x f) false → takes (.lds f) (ldsAccs s x f))) ∧
    ∀ (i : Instr) (a : LaneAcc) (o : Held) (key n m : Nat), i = .ld f → (semOf i).getLsbD 0 = false → x.held = [o] → x.long = [] →
      (∃ g b, o.instr = .st g ∧ o.todo = [b] ∧ coreLocal (.st g) = true ∧ o.mask &&& x.active ≠ 0 ∧ n = szBytes g.sz ∧ m = b.data ∧
        ∃ mt, translate s (x.who r) .write b.ea = .ok key mt) →
      ∀ at_ mt, translate s (x.who r) .read a.ea = .ok at_ mt → key ≤ at_ → at_ + szBytes f.sz ≤ key + n → 0 < szBytes f.sz →
        forwarded i none s r x a = some (m / 2 ^ (8 * (at_ - key)) % 2 ^ (8 * szBytes f.sz))

/-- R189, R190, R319, R334, R335: LDT and STT: with a handle that holds a record, to which the strand owes no access, and where nothing traps
and no element lies outside the address space, the accesses at the
lanes' coordinates are made, but for those left to be made later; LDT is then outstanding, and STT has completed with FPSR.SAT
where a value was clamped. -/
def Obligations.TensorAccessesComplete : Prop :=
  ∀ (f : MTForm) (i : Instr) (s v u : State) (x : Strand) (h : Handle) (pa : Nat) (d : Rec) (ws : List RegW) (k : BitVec 4)
    (accs : List LaneAcc), (i = .ldt f ∨ i = .stt f) → NextPcOk x → Acts i s x → f.a = .h k →
    let y := (bookkept i s x).setH k.toNat h
    let r := s.cur
    recordOwed (issued s r x i) r (bookkept i s x) (x.hreg k.toNat) = false →
    useHandle (issued s r x i) (x.who r) x.ctx (x.hreg k.toNat) = .ok v h pa d →
    tensorTrap v r (bookkept i s x) i f d ((x.acting f.hd).map fun l => coordsOf s r x f l) = none →
    ((x.acting f.hd).findSome? fun l => elemVa v (x.site r) d (coordsOf s r x f l)) = none →
    accs = (x.acting f.hd).map (fun l =>
      { lane := l, ea := 0, coords := coordsOf s r x f l,
        data := if i = .stt f then (elemData v x d f.d (f.opx.getLsbD 0) l).1 else 0, data2 := 0 : LaneAcc }) →
    let tn := some (h.addr, pa, d)
    let rest := leftOver i (v.setStrand r y) r y accs
    Performed i tn (v.setStrand r y) r y accs u ws none →
    (i = .ldt f → Becomes i s u (outstanding i tn u r y ws none rest ((past i s x).setH k.toNat h))) ∧
    (i = .stt f →
      let fl := (x.acting f.hd).foldl (fun b l => if (inExtents d (coordsOf s r x f l)).isSome then
        b ||| (elemData v x d f.d (f.opx.getLsbD 0) l).2 else b) 0
      fpTraps x fl = false → Becomes i s u (addFlags fl (owing i tn y rest ((past i s x).setH k.toNat h))))

/-- R179, R182: the checks of flat and scratchpad accesses, in their order: an address outside the 57-bit space halts with
VA_RANGE, a misaligned one traps with MISALIGN, a scratchpad address outside the slot's part traps with SP_RANGE, each with
the address of the lowest lane that fails; and no lane has accessed memory. R188, R222: a scratchpad access to bytes of a
conflicting range waits at issue: nothing changes. R189, R318 to R322: LDT and STT trap with BAD_HANDLE, BAD_TENSOR, BAD_RANK,
BAD_FORMAT, ILL_OPND, BAD_PLACE or BAD_BASIS, checked in this order, and halt with VA_RANGE where an element lies outside the address
space; the detail 0 of the traps of a handle is log entry 41. R68, R182: where an access fails to translate, the earliest check counts,
and of its lanes the first: the context halts, the strand stops past the instruction with its accesses held, and no memory changes. -/
def Obligations.AccessChecks : Prop :=
  (∀ (f : MForm) (e : Dword),
     (∀ i, i = Instr.ld f ∨ i = .st f →
       HaltRule i (fun s x => firstBad (ldAccs s x f) (fun a => !vaOk a.ea) = some e) .vaRange (fun _ _ => e) ∧
       TrapRule i (fun s x => firstBad (ldAccs s x f) (fun a => !vaOk a.ea) = none ∧
         firstBad (ldAccs s x f) (fun a => a.ea % szBytes f.sz != 0) = some e) .misalign fun _ _ => e) ∧
     (∀ i, i = Instr.lds f ∨ i = .sts f →
       TrapRule i (fun s x => firstBad (ldsAccs s x f) (fun a => a.ea % szBytes f.sz != 0) = some e) .misalign (fun _ _ => e) ∧
       TrapRule i (fun s x => firstBad (ldsAccs s x f) (fun a => a.ea % szBytes f.sz != 0) = none ∧
         firstBad (ldsAccs s x f) (fun a => decide (spaceSize (s.slot s.cur.core x.slot) 1 < a.ea + szBytes f.sz)) = some e)
         .spRange fun _ _ => e) ∧
     HaltRule (.hld f) (fun s x => vaOk (flatEaU s s.cur x f) = false) .vaRange
       (fun s x => BitVec.ofNat 64 (flatEaU s s.cur x f)) ∧
     TrapRule (.hld f) (fun s x => vaOk (flatEaU s s.cur x f) = true ∧ flatEaU s s.cur x f % 128 ≠ 0) .misalign
       (fun s x => BitVec.ofNat 64 (flatEaU s s.cur x f)) ∧
     ∀ (i : Instr) (uni : Bool), (i = .red f ∧ uni = false) ∨ (i = .atom f ∧ uni = f.d.isS) →
       let accs (s : State) (x : Strand) : List LaneAcc := atomicAccs s s.cur x f uni
       let size := szBytes f.sz
       (f.loc = false →
         HaltRule i (fun s x => firstBad (accs s x) (fun a => !vaOk a.ea) = some e) .vaRange (fun _ _ => e) ∧
         TrapRule i (fun s x => firstBad (accs s x) (fun a => !vaOk a.ea) = none ∧
           firstBad (accs s x) (fun a => a.ea % size != 0) = some e) .misalign fun _ _ => e) ∧
       (f.loc = true →
         TrapRule i (fun s x => firstBad (accs s x) (fun a => a.ea % size != 0) = some e) .misalign (fun _ _ => e) ∧
         TrapRule i (fun s x => firstBad (accs s x) (fun a => a.ea % size != 0) = none ∧
           firstBad (accs s x) (fun a => decide (spaceSize (s.slot s.cur.core x.slot) 1 < a.ea + size)) = some e)
           .spRange fun _ _ => e)) ∧
  (∀ (f : MTForm) (i : Instr) (k : BitVec 4), i = .ldt f ∨ i = .stt f → f.a = .h k →
     let use (s : State) (x : Strand) : Use := useHandle (issued s s.cur x i) (x.who s.cur) x.ctx (x.hreg k.toNat)
     let free (s : State) (x : Strand) : Prop := recordOwed (issued s s.cur x i) s.cur (bookkept i s x) (x.hreg k.toNat) = false
     let coords (s : State) (x : Strand) : List (List Int) := (x.acting f.hd).map fun l => coordsOf s s.cur x f l
     TrapRule i (fun s x => free s x ∧ use s x = .invalid) .badHandle (fun _ _ => 0) ∧
     TrapRule i (fun s x => free s x ∧ use s x = .badTensor) .badTensor (fun _ _ => 0) ∧
     (∀ s x, Acts i s x → ¬free s x → exec i s = .next s) ∧
     ∀ v h pa d, let has (s : State) (x : Strand) : Prop := free s x ∧ use s x = .ok v h pa d
       (∀ c j, TrapRule i (fun s x => has s x ∧ tensorTrap v s.cur (bookkept i s x) i f d (coords s x) = some (c, j)) c fun _ _ => j) ∧
       (∀ e, HaltRule i (fun s x => has s x ∧ tensorTrap v s.cur (bookkept i s x) i f d (coords s x) = none ∧
         (x.acting f.hd).findSome? (fun l => elemVa v (x.site s.cur) d (coordsOf s s.cur x f l)) = some e) .vaRange fun _ _ => e) ∧
       ∀ (s : State) (r : Ref) (x : Strand) (r0 : BitVec 8) (cs : List (List Int)), f.d = .v r0 →
         let n := elemRegs d
         (f.nc.toNat ≠ tRank d → tensorTrap s r x i f d cs = some (.badRank, 0)) ∧
         (f.nc.toNat = tRank d → r0.toNat % n ≠ 0 → tensorTrap s r x i f d cs = some (.badFormat, 0)) ∧
         (f.nc.toNat = tRank d → r0.toNat % n = 0 → x.budget < r0.toNat + n →
           tensorTrap s r x i f d cs = some (.illOpnd, (encode i).extractLsb' 32 64)) ∧
         (f.nc.toNat = tRank d → r0.toNat % n = 0 → r0.toNat + n ≤ x.budget → tSpace d ≠ 0 →
           tensorTrap s r x i f d cs = some (.badPlace, 0)) ∧
         (f.nc.toNat = tRank d → r0.toNat % n = 0 → r0.toNat + n ≤ x.budget → tSpace d = 0 →
           tensorTrap s r x i f d cs = if cs.any (fun c => match inExtents d c with
             | some k => basisFails s (x.site r) d k | none => false) then some (.badBasis, 0) else none)) ∧
  (∀ (f : MForm) (i : Instr) (accs : List LaneAcc) (s : State) (x : Strand) (c : Cause) (j : Dword) (dm : Bool),
     let v := issued s s.cur x i
     let y := bookkept i s x
     (i = .ld f ∧ accs = ldAccs s x f ∧ FlatOk accs (szBytes f.sz)) ∨ (i = .st f ∧ accs = stAccs s x f ∧ FlatOk accs (szBytes f.sz)) ∨
       (i = .red f ∧ accs = atomicAccs s s.cur x f false ∧ AtomOk s x f accs) ∨
       (i = .atom f ∧ accs = atomicAccs s s.cur x f f.d.isS ∧ AtomOk s x f accs) →
     Acts i s x → NextPcOk x → overlapOwed i none v s.cur y accs = false → checkAll i (x.site s.cur) none v accs = some (.halt c j dm) →
     ∃ t z, exec i s = .next t ∧ t.mem = s.mem ∧ t.strand? s.cur = some { z with stopped := true, stinfo := j } ∧
       z = (if Instr.isLong i then outstanding i none v s.cur y [] none (anyOrder v.free accs) (past i s x)
         else { past i s x with held := x.held ++ [{
           pc := x.pc, instr := i, mask := x.active, todo := anyOrder v.free accs, tn := none, rmw := readsToo i none accs }] }) ∧
       (∃ a ∈ accs, accStop i (x.site s.cur) none v a = some (.halt c j dm)) ∧
       ∀ a ∈ accs, ∀ c' j' dm', accStop i (x.site s.cur) none v a = some (.halt c' j' dm') → failOrder c ≤ failOrder c') ∧
  (∀ (f : MForm) (w : Site) (s : State) (a : LaneAcc) (c : Cause) (dm : Bool), vaOk (a.ea % 2 ^ 64) = true →
     (translate s w.who .read a.ea = .bad c dm → accStop (.ld f) w none s a = some (.halt c (BitVec.ofNat 64 a.ea) dm)) ∧
     (translate s w.who .write a.ea = .bad c dm → accStop (.st f) w none s a = some (.halt c (BitVec.ofNat 64 a.ea) dm)) ∧
     (f.loc = false → translate s w.who .atomic a.ea = .bad c dm →
       accStop (.atom f) w none s a = some (.halt c (BitVec.ofNat 64 a.ea) dm) ∧
       accStop (.red f) w none s a = some (.halt c (BitVec.ofNat 64 a.ea) dm))) ∧
  (∀ (f : MForm) (s : State) (x : Strand),
     (Acts (.lds f) s x → (∀ a ∈ ldsAccs s x f, a.ea % szBytes f.sz = 0 ∧
         a.ea + szBytes f.sz ≤ spaceSize (s.slot s.cur.core x.slot) 1) →
       (∃ a ∈ ldsAccs s x f, conflicts (s.slot s.cur.core x.slot) a.ea (szBytes f.sz) false = true) →
       exec (.lds f) s = .next s) ∧
     (Acts (.sts f) s x → (∀ a ∈ ldsAccs s x f, a.ea % szBytes f.sz = 0 ∧
         a.ea + szBytes f.sz ≤ spaceSize (s.slot s.cur.core x.slot) 1) →
       (∃ a ∈ ldsAccs s x f, conflicts (s.slot s.cur.core x.slot) a.ea (szBytes f.sz) true = true) →
       exec (.sts f) s = .next s))

/-- R179, R183, R192: whatever becomes of ST, RED or ATOM, a byte of memory outside those that its accesses store to is
unchanged. R189, R190, R321, R322: whatever becomes of STT, a byte of memory outside the elements it stores, and outside the
count of dropped stores where coordinates lie outside the tensor, is unchanged, and so is every byte where the use of its handle fails. -/
def Obligations.StoreFrames : Prop :=
  (∀ (f : MForm) (s t : State) (x : Strand) (p : Nat),
     let stored (i : Instr) (accs : List LaneAcc) : List (Nat × Nat) :=
       storedAll i (x.site s.cur) none (issued s s.cur x i) (madeNow i (issued s s.cur x i) s.cur (bookkept i s x) accs)
     let kept (i : Instr) (accs : List LaneAcc) : Prop :=
       Acts i s x → exec i s = .next t → Outside p (stored i accs) → Memory.byte t.mem p = Memory.byte s.mem p
     kept (.st f) (stAccs s x f) ∧ kept (.red f) (atomicAccs s s.cur x f false) ∧
       kept (.atom f) (atomicAccs s s.cur x f f.d.isS)) ∧
  (∀ (f : MTForm) (s t : State) (x : Strand) (k : BitVec 4), Acts (.stt f) s x → f.a = .h k → exec (.stt f) s = .next t →
     (∀ v h pa d, useHandle (issued s s.cur x (.stt f)) (x.who s.cur) x.ctx (x.hreg k.toNat) ≠ .ok v h pa d) → t.mem = s.mem) ∧
  (∀ (f : MTForm) (s t v : State) (x : Strand) (h : Handle) (pa : Nat) (d : Rec) (k : BitVec 4) (p : Nat),
     Acts (.stt f) s x → f.a = .h k →
     useHandle (issued s s.cur x (.stt f)) (x.who s.cur) x.ctx (x.hreg k.toNat) = .ok v h pa d →
     exec (.stt f) s = .next t →
     let y := (bookkept (.stt f) s x).setH k.toNat h
     Outside p (storedAll (.stt f) (x.site s.cur) (some (h.addr, pa, d)) (v.setStrand s.cur y)
       (madeNow (.stt f) (v.setStrand s.cur y) s.cur y ((x.acting f.hd).map fun l =>
         { lane := l, ea := 0, coords := coordsOf s s.cur x f l,
           data := (elemData v x d f.d (f.opx.getLsbD 0) l).1, data2 := 0 : LaneAcc }))) →
     Memory.byte t.mem p = Memory.byte s.mem p)

/-- R6: whole-machine frame: of the program instructions only ST, STT, ATOM, RED, the pushes of task records (QPUSH, and MOV
to a queue port) and SUSPEND write the device's memory, and SWAP where strands of its slot owe accesses, which are made first; every
other one leaves every byte of it as it was, whatever becomes of it. R20, R203, R268: whole-machine frame: only BAR, BARA
and SWAP reach another strand; every other instruction leaves every other strand of the device as it was, whatever becomes
of it. -/
def Obligations.OnlyStoresReachMemoryAndOtherStrands : Prop :=
  (∀ (i : Instr) (s t : State), i.isProgram = true → exec i s = .next t →
     (match i with
       | .st _ | .stt _ | .atom _ | .red _ | .qpush _ | .suspend _ => False
       | .swap _ => ∀ x, s.strand? s.cur = some x → ∀ e ∈ slotStrands s s.cur.core x.slot, accessesOwed e.2 = false
       | .mov f => f.d.isQp = false
       | _ => True) → t.mem = s.mem) ∧
  (∀ (i : Instr) (s t : State) (q : Ref), i.isProgram = true → exec i s = .next t → q ≠ s.cur →
     (match i with | .bar _ | .bara _ | .swap _ => False | _ => True) → t.strand? q = s.strand? q)

/-- R29, R197 to R199: HSET with an aligned address makes a valid handle whose record is fetched at its first use, with
another address traps with MISALIGN, copies a handle and invalidates one; HGET reads the valid bit and the fields of a
record, and waits where an access to the record that the strand has issued is not made (R335); any other field of an invalid handle
traps with BAD_HANDLE, whose detail 0 is the model's choice, log entry 41. R193: PREF never traps and changes no register and no
byte of memory. -/
def Obligations.HandlesAndPrefetch : Prop :=
  (∀ (f : T3),
     (∀ a k, f.a = .s a → f.d = .h k →
       FixedRule (.hset f) (fun _ x => (x.sreg a.toNat).toNat % 128 = 0) (fun _ x y =>
         y.setH k.toNat { valid := true, addr := (x.sreg a.toNat).toNat, cache := none }) ∧
       TrapRule (.hset f) (fun _ x => (x.sreg a.toNat).toNat % 128 ≠ 0) .misalign fun _ x => x.sreg a.toNat) ∧
     (∀ a k, f.a = .h a → f.d = .h k → FixedRule (.hset f) (fun _ _ => True) fun _ x y => y.setH k.toNat (x.hreg a.toNat)) ∧
     (∀ a k, f.a = .imm a → f.d = .h k → FixedRule (.hset f) (fun _ _ => True) fun _ _ y => y.setH k.toNat Handle.invalid) ∧
     ∀ k, f.a = .h k →
       FixedRule (.hget f) (fun s x => 17 < uniOp s s.cur x f.b % 2 ^ 32) (fun _ _ y => writeUni f.d 0 y) ∧
       FixedRule (.hget f) (fun s x => uniOp s s.cur x f.b % 2 ^ 32 = 16)
         (fun _ x y => writeUni f.d (if (x.hreg k.toNat).valid then 1 else 0) y) ∧
       TrapRule (.hget f) (fun s x => uniOp s s.cur x f.b % 2 ^ 32 ≤ 17 ∧ uniOp s s.cur x f.b % 2 ^ 32 ≠ 16 ∧
         (x.hreg k.toNat).valid = false) .badHandle (fun _ _ => 0) ∧
       ∀ s x, Acts (.hget f) s x → uniOp s s.cur x f.b % 2 ^ 32 ≤ 17 → uniOp s s.cur x f.b % 2 ^ 32 ≠ 16 →
         let owed := recordOwed (issued s s.cur x (.hget f)) s.cur (bookkept (.hget f) s x) (x.hreg k.toNat)
         (owed = true → exec (.hget f) s = .next s) ∧
         ∀ u h pa d, owed = false → NextPcOk x → useHandle (issued s s.cur x (.hget f)) (x.who s.cur) x.ctx (x.hreg k.toNat) = .ok u h pa d →
         Becomes (.hget f) s u (writeUni f.d (BitVec.ofNat 64 (recField h.addr d (uniOp s s.cur x f.b % 2 ^ 32)))
           ((past (.hget f) s x).setH k.toNat h))) ∧
  (∀ (f : MForm) (s : State) (x : Strand), Acts (.pref f) s x → NextPcOk x →
     ∃ u, Becomes (.pref f) s u (past (.pref f) s x) ∧ u.mem = s.mem ∧
       ∀ c, { u.core c with tlb := [] } = { (issued s s.cur x (.pref f)).core c with tlb := [] })

/-! # Synchronisation, queues, engines, tokens and system instructions (R202 to R270) -/

/-- R202, R203: an arrival at a barrier whose count agrees: the last one flips the phase and releases the strands that wait;
any other one is counted, and after BAR the strand waits, its PC past the BAR (the model's reading, log entry 47). A bad id or count
traps with BAD_BAR, and the arrival is not counted. Once the watchdog of the barrier has expired an arrival does not issue (R437; log
entry 48). R203: what one arrival does to a barrier. -/
def Obligations.Barriers : Prop :=
  (∀ (f : T3) (b n : Nat),
     let ok (s : State) (x : Strand) (t : Team) (k : Bar) (flip : Bool) : Prop :=
       uniOp s s.cur x f.a = b ∧ uniOp s s.cur x f.b = n ∧ b < 16 ∧ 0 < n ∧ n < 64 ∧
         barExpired s s.cur.core x.slot x.ctx b = false ∧ s.team? s.cur.core x.tslot = some t ∧ barArrive (mget Bar.zero t.bars b) n x.role s.cycle = some (k, flip)
     let set (k : Bar) (x : Strand) (s : State) : State :=
       s.modTeam s.cur.core x.tslot fun t => { t with bars := mput t.bars b k }
     (∀ t k, DeviceRule (.bar f) (fun s x => ok s x t k false) (set k) (fun _ _ y => { y with wait := .bar b k.phase }) ∧
       DeviceRule (.bara f) (fun s x => ok s x t k false) (set k) fun _ _ y => y) ∧
     (∀ t k i, i = Instr.bar f ∨ i = .bara f → ∀ s x, Acts i s x → ok s x t k true → NextPcOk x → x.wait = .none →
       Becomes i s (releaseBar (set k x (issued s s.cur x i)) s.cur.core x.tslot b) (past i s x)) ∧
     ∀ i, i = Instr.bar f ∨ i = .bara f →
       TrapRule i (fun s x => 16 ≤ uniOp s s.cur x f.a ∨ uniOp s s.cur x f.b = 0 ∨ 64 ≤ uniOp s s.cur x f.b ∨
         barExpired s s.cur.core x.slot x.ctx (uniOp s s.cur x f.a) = false ∧ ∃ t, s.team? s.cur.core x.tslot = some t ∧
           barArrive (mget Bar.zero t.bars (uniOp s s.cur x f.a)) (uniOp s s.cur x f.b) x.role s.cycle = none)
         .badBar (fun s x => BitVec.ofNat 64 (uniOp s s.cur x f.a % 16)) ∧
       ∀ s x, Acts i s x → uniOp s s.cur x f.a < 16 → 0 < uniOp s s.cur x f.b → uniOp s s.cur x f.b < 64 →
         barExpired s s.cur.core x.slot x.ctx (uniOp s s.cur x f.a) = true → exec i s = .next s) ∧
  (∀ (k : Bar) (n role cycle : Nat),
     (k.arrivals ≠ 0 → k.expected ≠ n → barArrive k n role cycle = none) ∧
     ((k.arrivals = 0 ∨ k.expected = n) → k.arrivals + 1 ≠ n → ∃ k', barArrive k n role cycle = some (k', false) ∧
       k'.phase = k.phase ∧ k'.arrivals = k.arrivals + 1 ∧ k'.expected = n) ∧
     ((k.arrivals = 0 ∨ k.expected = n) → k.arrivals + 1 = n → ∃ k', barArrive k n role cycle = some (k', true) ∧
       k'.phase = !k.phase ∧ k'.arrivals = 0))

/-- R32, R205: SYNCG: the arrival that completes the record goes on with all the lanes that met, and waits in it while accesses that
they have issued are not made; one that does not complete it switches to the deferred path, which will arrive; a mismatch traps with
SYNC_MASK for all the lanes that took part. -/
def Obligations.GroupSynchronisation : Prop :=
  ∀ f : T3,
    let g (x : Strand) : SyncRec := x.syncg.getD { pc := x.pc, k := maskOp x f.a, arr := 0 }
    let good (x : Strand) : Prop := (g x).pc = x.pc ∧ (g x).k = maskOp x f.a ∧ x.active &&& ~~~maskOp x f.a = 0
    let met (x : Strand) : Mask := ((g x).arr ||| x.active) &&& x.live
    FixedRule (.syncg f) (fun _ x => good x ∧ (g x).k &&& x.live &&& ~~~((g x).arr ||| x.active) = 0 ∧
        lanesOwe { x with active := met x } = false)
      (fun _ x y => { y with syncg := none, active := met x }) ∧
    SetRule (.syncg f) (fun _ x => good x ∧ (g x).k &&& x.live &&& ~~~((g x).arr ||| x.active) = 0 ∧
        lanesOwe { x with active := met x } = true ∧ NextPcOk x)
      (fun _ x y => { y with syncg := none, active := met x, wait := .syncg }) ∧
    (∀ q m d dm rest, SetRule (.syncg f) (fun _ x => good x ∧ (g x).k &&& x.live &&& ~~~((g x).arr ||| x.active) ≠ 0 ∧
        x.rstk = .div q m d dm :: rest ∧ dm &&& x.live ≠ 0) fun s x y =>
      redirect { y with
        syncg := some { g x with arr := (g x).arr ||| x.active }, active := dm &&& x.live,
        rstk := .div q m d 0 :: rest } s.cycle d) ∧
    ∀ s x kind, Acts (.syncg f) s x → x.pc < 2 ^ 32 → canSettle x = true →
      ((¬good x ∧ kind = 0) ∨ (good x ∧ (g x).k &&& x.live &&& ~~~((g x).arr ||| x.active) ≠ 0 ∧
        (∀ q m d dm rest, x.rstk = .div q m d dm :: rest → dm &&& x.live = 0) ∧ kind = 1)) →
      ∃ u, Agree s.cur s u ∧ exec (.syncg f) s = .next (takeTrap u s.cur
        { bookkept (.syncg f) s x with syncg := none, active := ((g x).arr ||| x.active) &&& x.live } x.pc
        (((g x).arr ||| x.active) &&& x.live) .syncMask (BitVec.ofNat 64 kind))

/-- R206 to R209: a wait that is met gives its result at once; one that is not met leaves the strand waiting at it; and
where the strand is owed the report of a faulted token, the wait traps with TOKEN_FAULT instead. -/
def Obligations.Waits : Prop :=
  ∀ f : T3,
    (∀ b, FixedRule (.waitt f)
      (fun s x => x.owed = [] ∧ waittNow s s.cur.core x.slot (BitVec.ofNat 32 (uniOp s s.cur x f.a)) = some b)
      fun _ _ y => writeUni f.d (if b then 1 else 0) y) ∧
    SetRule (.waitt f) (fun s x => x.owed = [] ∧
        waittNow s s.cur.core x.slot (BitVec.ofNat 32 (uniOp s s.cur x f.a)) = none ∧ NextPcOk x)
      (fun s x y => { y with wait := .token (BitVec.ofNat 32 (uniOp s s.cur x f.a)) f.d }) ∧
    FixedRule (.waitk f) (fun s x => x.owed = [] ∧ x.count (bitsOf f.opx 0 4) ≤ uniOp s s.cur x f.a % 2 ^ 32)
      (fun _ _ y => y) ∧
    SetRule (.waitk f) (fun s x => x.owed = [] ∧ NextPcOk x ∧ uniOp s s.cur x f.a % 2 ^ 32 < x.count (bitsOf f.opx 0 4))
      (fun s x y => { y with wait := .count (bitsOf f.opx 0 4) (uniOp s s.cur x f.a % 2 ^ 32) }) ∧
    (∀ s x u n, Acts (.waitc f) s x → x.owed = [] → NextPcOk x → vaOk (uniOp s s.cur x f.a) = true →
      uniOp s s.cur x f.a % 8 = 0 →
      flatRead (issued s s.cur x (.waitc f)) (x.who s.cur) (uniOp s s.cur x f.a) 8 = .ok u n →
      (uniOp s s.cur x f.b ≤ n → Becomes (.waitc f) s u (past (.waitc f) s x)) ∧
      (n < uniOp s s.cur x f.b → Becomes (.waitc f) s u { bookkept (.waitc f) s x with
        wait := .counter (uniOp s s.cur x f.a) (uniOp s s.cur x f.b) })) ∧
    ∀ i, i = Instr.waitt f ∨ i = .waitk f ∨ i = .waitc f → ∀ s x t c rest, Acts i s x → x.owed = (t, c) :: rest →
      x.pc < 2 ^ 32 → canSettle x = true → ∃ u, exec i s = .next (takeTrap u s.cur { bookkept i s x with owed := rest } x.pc
        x.active .tokenFault (BitVec.ofNat 64 (c * 2 ^ 32 + t.toNat))) ∧ Agree s.cur s u

/-- R37, R261, R362: a push by the context that owns the queue: the records of the lanes, with V set, enter in lane order;
where some find no room the strand waits with those, its PC past the push (the model's reading, log entry 47). A queue that the context does not own, a record with reserved bits, and
a queue without a ring that is full trap. Said of QPUSH and of MOV to a queue port. R362: one record pushed where the ring
is empty and the queue has room enters the queue at its end, and nothing else of the device changes; with the ring in use it
is written at the ring's tail. -/
def Obligations.QueuePushes : Prop :=
  (∀ (f : T3) (i : Instr) (ls : Strand → List Nat),
     (i = .qpush f ∧ ls = Strand.activeLanes) ∨ (i = .mov f ∧ f.d.isQp = true ∧ ls = fun x => x.acting f.hd) →
     let q := portOf f.d
     let a := Opnd.vIndex f.a
     let k (s : State) : Queue := s.queue (clusterOf s.cur.core) q
     let fits (s : State) (x : Strand) : Prop := ownsQueue s x s.cur.core q = true ∧ (ls x).find? (badRecord x a) = none ∧
       ¬((k s).size = 0 ∧ 32 < (k s).recs.length + (ls x).length) ∧ ((k s).waiting = [] ∨ (k s).size = 0)
     (∀ s x u, Acts i s x → NextPcOk x → fits s x →
       pushMany (issued s s.cur x i) (clusterOf s.cur.core) q s.cur.core ((ls x).map (laneRecord x a)) = (u, [], none) →
       Becomes i s u (past i s x)) ∧
     (∀ s x u w left, Acts i s x → NextPcOk x → fits s x →
       pushMany (issued s s.cur x i) (clusterOf s.cur.core) q s.cur.core ((ls x).map (laneRecord x a)) = (u, w :: left, none) →
       Becomes i s (u.modQueue (clusterOf s.cur.core) q fun k => { k with waiting := k.waiting ++ [.strand x.serial] })
         { past i s x with wait := .push q (w :: left) }) ∧
     (∀ s x w left, Acts i s x → NextPcOk x → ownsQueue s x s.cur.core q = true → (ls x).find? (badRecord x a) = none →
       (k s).waiting ≠ [] → (k s).size ≠ 0 → (ls x).map (laneRecord x a) = w :: left →
       Becomes i s ((issued s s.cur x i).modQueue (clusterOf s.cur.core) q fun k =>
         { k with waiting := k.waiting ++ [.strand x.serial] }) { past i s x with wait := .push q (w :: left) }) ∧
     TrapRule i (fun s x => ownsQueue s x s.cur.core q = false) .badQueue (fun _ _ => BitVec.ofNat 64 q) ∧
     (∀ l, TrapRule i (fun s x => ownsQueue s x s.cur.core q = true ∧ (ls x).find? (badRecord x a) = some l) .badTask
       fun _ _ => BitVec.ofNat 64 l) ∧
     TrapRule i (fun s x => ownsQueue s x s.cur.core q = true ∧ (ls x).find? (badRecord x a) = none ∧ (k s).size = 0 ∧
       32 < (k s).recs.length + (ls x).length) .queueFull fun _ _ => BitVec.ofNat 64 q) ∧
  (∀ (s : State) (cl q core : Nat) (w : List Word),
     ((s.queue cl q).tail - (s.queue cl q).head = 0 → (s.queue cl q).recs.length < 32 →
       push s cl q core w = .ok (s.modQueue cl q fun k => { k with recs := k.recs ++ [(w, 0)], pushedAt := s.cycle + 1 })) ∧
     ((s.queue cl q).tail - (s.queue cl q).head = 0 → 32 ≤ (s.queue cl q).recs.length → (s.queue cl q).size = 0 →
       push s cl q core w = .full) ∧
     ∀ u, 0 < (s.queue cl q).tail - (s.queue cl q).head →
       (s.queue cl q).tail - (s.queue cl q).head < (s.queue cl q).size → vaOk ((s.queue cl q).ringAddr (s.queue cl q).tail) = true →
       flatWrite s (hwWho ((s.queue cl q).owner.getD 0) core) ((s.queue cl q).ringAddr (s.queue cl q).tail) 32 (recordNat w) =
         .ok u () →
       push s cl q core w = .ok (u.modQueue cl q fun k => { k with tail := k.tail + 1, pushedAt := s.cycle + 1 }))

/-- R37, R261, R271: a pop by the context that owns the queue: the lanes in order take the records that stand in the queue, then
claim those in the ring, and lanes beyond both get zeros; the pop is outstanding, 156 cycles longer where it claims. Another context's pop traps with
BAD_QUEUE. Said of QPOP and of MOV from a queue port. -/
def Obligations.QueuePops : Prop :=
  ∀ (f : T3) (i : Instr) (ls : Strand → List Nat),
    (i = .qpop f ∧ ls = Strand.activeLanes) ∨
      (i = .mov f ∧ f.d.isQp = false ∧ f.a.isQp = true ∧ ls = fun x => x.acting f.hd) →
    let q := portOf f.a
    let k (s : State) : Queue := s.queue (clusterOf s.cur.core) q
    let n (s : State) (x : Strand) : Nat := min (ls x).length (k s).recs.length
    let late (s : State) (x : Strand) : List Nat :=
      ((ls x).drop (n s x)).take ((k s).tail - (k s).head - (k s).claims.length)
    let writes (s : State) (x : Strand) : List RegW :=
      (((ls x).zip ((k s).recs.map (·.1))).flatMap fun e => recordWrites (Opnd.vIndex f.d) e.1 e.2) ++
        (((ls x).drop (n s x)).drop (late s x).length).flatMap fun l =>
          recordWrites (Opnd.vIndex f.d) l (List.replicate 8 0)
    (∀ s x, Acts i s x → NextPcOk x → ownsQueue s x s.cur.core q = true →
      Becomes i s ((issued s s.cur x i).modQueue (clusterOf s.cur.core) q fun k =>
          { k with recs := k.recs.drop (n s x), claims := k.claims ++ (late s x).map fun l => (s.cur, l, q) })
        { past i s x with
          long := (past i s x).long ++ [
            let o := newLong i (issued s s.cur x i) s.cur (bookkept i s x) (writes s x) 0
            { o with pops := late s x, due := o.due + if late s x = [] then 0 else 156 }] }) ∧
    TrapRule i (fun s x => ownsQueue s x s.cur.core q = false) .badQueue fun _ _ => BitVec.ofNat 64 q

/-- R51 to R54, R76, R211, R222, R229, R447: an engine instruction whose issue checks pass takes a free token entry, which
it fills and leaves pending, registers its regions, counts in the strand's class unless it is detached, and writes the token
to D; its PC moves on, and nothing but the handles that the checks have fetched changes beside. One whose check fails traps with the
check's cause: no entry is allocated, and D and the counts keep their values. One that finds no entry, or no room on the scoreboard,
stalls: nothing changes (R52, R222). What each instruction checks and asks for is with `EngineInstructionsRefused`. -/
def Obligations.EngineInstructionsIssue : Prop :=
  ∀ (f : EForm) (i : Instr) (ask : State → Ref → Strand → Chk Asked),
    (i = .cpl f ∧ ask = cplReq f) ∨ (i = .cpt f ∧ ask = cptReq f) ∨ (i = .cpg f ∧ ask = cpgReq f) ∨
      (i = .cvb f ∧ ask = cvbReq f) ∨ (i = .mzero f ∧ ask = mzeroReq f) ∨ (i = .mrl f ∧ ask = mrlReq f) ∨
      (i = .mrs f ∧ ask = mrsReq f) ∨ (i = .mma f ∧ ask = mmaReq f false) ∨ (i = .mms f ∧ ask = mmaReq f true) ∨
      (i = .mdr f ∧ ask = mdrReq f) ∨ (i = .coll f ∧ ask = collReq f) ∨ (i = .relay f ∧ ask = relayReq f) ∨
      (i = .mop f ∧ ask = mopReq f) →
    (∀ s x c info, Acts i s x → ask (issued s s.cur x i) s.cur (bookkept i s x) = .error (.trap c info) →
      exec i s = .next (takeTrap s s.cur x x.pc x.active c info)) ∧
    (∀ s u x y q, Acts i s x → ask (issued s s.cur x i) s.cur (bookkept i s x) = .ok ((u, y), q) →
      (pickEntry u s.cur.core q.cls = none ∨ roomFor (u.slot s.cur.core y.slot) q.kind q.regions = false) →
      exec i s = .next s) ∧
    ∀ (s u : State) (x y : Strand) (q : Request) (k : Nat), Acts i s x → NextPcOk x →
      ask (issued s s.cur x i) s.cur (bookkept i s x) = .ok ((u, y), q) → y = { bookkept i s x with h := y.h } →
      pickEntry u s.cur.core q.cls = some k → roomFor (u.slot s.cur.core x.slot) q.kind q.regions = true →
      ∃ (e : Token) (w : State),
        Becomes i s w (writeUni f.d ((tokWord s.cur.core k e.gen).setWidth 64)
          (if f.det then { past i s x with h := y.h } else Strand.addCount { past i s x with h := y.h } q.cls 1)) ∧
        w.token s.cur.core k = e ∧ (∀ j, j ≠ k → w.token s.cur.core j = u.token s.cur.core j) ∧ w.mem = u.mem ∧
        (w.slot s.cur.core x.slot).ranges = (u.slot s.cur.core x.slot).ranges ++ q.regions.map (fun g =>
          { idx := k, kind := q.kind, space := g.1, lo := g.2.1, hi := g.2.2.1, wr := g.2.2.2, seq := u.nextId }) ∧
        e.st = .pending ∧ e.cls = q.cls ∧ e.owner = s.cur.strid ∧ e.cslot = x.slot ∧ e.prio = f.prio ∧ e.det = f.det ∧
        e.fact = f.fact ∧ e.orph = false ∧ e.cause = 0 ∧ e.caddr = BitVec.ofNat 64 q.caddr ∧
        e.cinc = BitVec.ofNat 32 q.cinc ∧ e.tag = BitVec.ofNat 16 q.tag ∧ e.op = q.op ∧ e.pl = x.pl ∧ e.ctx = x.ctx ∧
        e.pred = (if f.pd then BitVec.ofNat 32 (uniOp s s.cur x f.c) else 0) ∧
        e.gen = (if (u.token s.cur.core k).gen = 32767 then 1 else (u.token s.cur.core k).gen + 1)

/-- R231, R195: the issue checks of the engine instructions. Handles come first, each with BAD_HANDLE or BAD_TENSOR and its field
number; then the parameter block, the addresses, regions and alignments, the ranks, formats, extents and places of the tensors, the
steps of the scales, and a relayout in the way, in the order of R231's table, and for MOP in the order of R195's. The first check
that fails traps with its cause and detail, and where none does the instruction asks for its operation with the captured tensors and
block, its class, its counter, its tag and its regions. (The details of the checks that have an address are R370's, and those of
MOP are 0: log entry 54, as is a check that R231 places in a row without naming an order in it.) -/
def Obligations.EngineInstructionsRefused : Prop :=
  (∀ (r : Ref) (k n : Nat) (s : State) (x : Strand), let h := checkHandle s (x.who r) x.ctx (x.hreg k)
    (h = .invalid → useH r k n (s, x) = .error (.trap .badHandle (BitVec.ofNat 64 n))) ∧
    (h = .badTensor → useH r k n (s, x) = .error (.trap .badTensor (BitVec.ofNat 64 n))) ∧
    ∀ u g pa d, h = .ok u g pa d → useH r k n (s, x) = .ok ((u, x.setH k g), { va := g.addr, pa := pa, dw := d, dw0 := d })) ∧
  ∀ (f : EForm) (s u : State) (r : Ref) (x y : Strand),
    let A := Opnd.hIndex f.a
    let B := Opnd.hIndex f.b
    let c : State × Strand := (u, y)
    let b (j : Nat) : Nat := (x.sreg (f.sr + j)).toNat
    let bit (lo n : Nat) : Nat := bitsOf f.ops lo n
    let q := u.slot r.core x.slot
    let regions (wr : Bool) (ts : List Tn) : List Region4 := ts.flatMap (tnRegions u x.ctx wr)
    let asks (cls : Nat) (op : Op) (kind : Nat) (rs : List Region4) : Request :=
      { cls := cls, op := op, kind := kind, regions := rs, caddr := b 0, cinc := b 1 % 2 ^ 32, tag := b 1 / 2 ^ 32 % 2 ^ 16 }
    -- the counter and the zero bits, an address, an alignment, the places of some tensors, a test on some tensors
    let head : List (Bool × Cause × Nat) := [(b 0 % 8 != 0, .badCounter, 0), (b 1 / 2 ^ 48 % 2 ^ 16 != 0, .badParam, 1)]
    let va (j : Nat) : List (Bool × Cause × Nat) := [(!vaOk (b j), .vaRange, b j)]
    let aligned (j n : Nat) : List (Bool × Cause × Nat) := [(b j % n != 0, .misalign, b j)]
    let places (ts : List Tn) : List (Bool × Cause × Nat) :=
      (ts.map fun t => (!flatOk u x.ctx t.dw, .vaRange, flatBad u x.ctx t.dw)) ++
        ts.map fun t => (!localOk u q x.ctx t.dw, .spRange, localOut u q x.ctx t.dw)
    let each (ts : List (Tn × Nat)) (k : Cause) (ok : Rec → Bool) : List (Bool × Cause × Nat) := ts.map fun t => (!ok t.1.dw, k, t.2)
    let one (fails : Bool) (k : Cause) (n : Nat) : List (Bool × Cause × Nat) := [(fails, k, n)]
    -- the areas of a tensor lie in their space
    (∀ d, (flatOk u x.ctx d = true ↔ tSpace d ≠ 0 ∨ ∀ a ∈ areasOf u x.ctx d, vaOk a.1 = true ∧ vaOk (a.1 + a.2 - 1) = true ∧
        a.1 + a.2 ≤ 2 ^ 64) ∧
      (localOk u q x.ctx d = true ↔ tSpace d = 0 ∨ ∀ a ∈ areasOf u x.ctx d, a.1 + a.2 ≤ spaceSize q (tSpace d))) ∧
    -- CPL, MZERO
    (let n := 4 * 2 ^ bit 18 3
      let store := f.ops.getLsbD 21
      let ps := x.activeLanes.map fun l => (laneOp s r x 2 l f.a, laneOp s r x 1 l f.b)
      c = (s, x) → cplReq f s r x = firstCheck (head ++ va 0 ++ (ps.map fun p => (!vaOk p.1, .vaRange, p.1)) ++
          (ps.map fun p => (decide (spaceSize q 1 < p.2 + n), .spRange, p.2)) ++
          ps.flatMap fun p => [(p.1 % n != 0, .misalign, p.1), (p.2 % n != 0, .misalign, p.2)])
        (c, asks 0 (.cpl store n (bit 15 3) ps) 0 (if ps = [] then [] else
          [(1, ps.foldl (fun m p => min m p.2) (2 ^ 32), ps.foldl (fun m p => max m (p.2 + n)) 0, !store)]))) ∧
    (c = (s, x) → mzeroReq f s r x = firstCheck (head ++ va 0) (c, asks 2 (.mzero (bit 20 2) (bit 17 3) (opsEacc f 7)) 1 [])) ∧
    -- CPT, CPG, COLL, MOP
    (∀ e, useHs r [(A, 0), (B, 1)] (s, x) = .error e →
      cptReq f s r x = .error e ∧ cpgReq f s r x = .error e ∧ collReq f s r x = .error e ∧ mopReq f s r x = .error e) ∧
    (∀ dst src, useHs r [(A, 0), (B, 1)] (s, x) = .ok (c, [dst, src]) →
      let org (base j : Nat) : Int := (BitVec.ofNat 32 (b (base + j / 2) / 2 ^ (32 * (j % 2)))).toInt
      let box (j : Nat) : Nat := b 6 / 2 ^ (16 * j) % 2 ^ 16
      let both := regions true [dst] ++ regions false [src]
      let rank4 := each [(dst, 0), (src, 1)] .badRank fun d => decide (tRank d ≤ 4)
      let formats := one (tFmt src.dw != tFmt dst.dw) .badFormat 0
      let mc := bit 18 4
      let code := bitsOf f.eng 24 4
      let m (j : Nat) : Nat := (x.sreg (bitsOf f.eng 17 6 + j)).toNat
      cptReq f s r x = firstCheck (head ++
          ((List.range 4).map fun j => (decide (tRank src.dw ≤ j) && org 2 j != 0, .badParam, 2 + j / 2)) ++
          ((List.range 4).map fun j => (decide (tRank dst.dw ≤ j) && org 4 j != 0, .badParam, 4 + j / 2)) ++
          ((List.range 4).map fun j => (box j == 0 || (decide (min (tRank src.dw) (tRank dst.dw) ≤ j) && box j != 1), .badParam, 6)) ++
          va 0 ++ places [dst, src] ++ rank4 ++ formats ++ one (mc != 0 && tSpace dst.dw != 1) .badPlace 0)
        (c, asks 0 (.cpt dst src ((List.range 4).map (org 2)) ((List.range 4).map (org 4)) ((List.range 4).map box) mc) 0 both) ∧
      cpgReq f s r x = firstCheck (head ++ one (decide (65535 < b 3)) .badParam 3 ++ va 0 ++ va 2 ++ places [dst, src] ++ aligned 2 16 ++
          rank4 ++ formats)
        (c, asks 0 (.cpg (f.ops.getLsbD 21) (bit 17 4) (bit 13 4) dst src (b 2) (b 3)) 0 both) ∧
      collReq f s r x = firstCheck (head ++ one (if bit 19 3 = 3 then decide (2 ^ 16 ≤ b 3) else b 3 != 0) .badParam 3 ++ va 0 ++ va 2 ++
          places [dst, src] ++ aligned 2 64 ++ formats ++
          one (decide (bit 19 3 < 2) && !(ropOk (bit 16 3) src.dw && ropOk (bit 16 3) dst.dw)) .badFormat 0 ++
          each [(dst, 0), (src, 1)] .badPlace fun d => tSpace d != 2)
        (c, asks 4 (.coll (bit 19 3) (bit 16 3) dst src (b 2) (b 3)) 0 both) ∧
      mopReq f s r x = firstCheck (
          one (tRank dst.dw != tRank src.dw || (List.range 7).any fun i => tExt dst.dw i != tExt src.dw i) .badShape 0 ++
          one (!mopOk code dst.dw src.dw) .badFormat 0 ++
          one (code == 3 && (tagBid (tTag dst.dw) != tagBid (tTag src.dw) || (basisOf u x.ctx (tagBid (tTag dst.dw))).isNone)) .badBasis 0 ++
          one (m 0 % 8 != 0) .badCounter 0)
        (c, { cls := 6, op := .mop code dst src (BitVec.ofNat 32 (m 2)) (f.eng.getLsbD 16), kind := 0, regions := both, caddr := m 0,
              cinc := m 1 % 2 ^ 32, tag := bitsOf f.eng 0 16 })) ∧
    -- CVB
    (∀ c1 c2 d0 src ds sc, useHs r [(A, 0), (B, 1)] (s, x) = .ok (c1, [d0, src]) →
      let n := if bit 20 2 = 2 then 3 else 1
      useHs r ((List.range (n - 1)).map fun j => (A + 1 + j, 0)) c1 = .ok (c2, ds) →
      useHs r ((List.range n).map fun j => (bit 10 4 + j, 2 + j)) c2 = .ok (c, sc) →
      let dsts := (d0 :: ds).map fun t => (t, 0)
      let scs := sc.zipIdx.map fun t => (t.1, 2 + t.2)
      let e0 := tExt src.dw 0
      let e1 := tExt src.dw 1
      cvbReq f s r x = firstCheck (head ++ va 0 ++ va 2 ++ places (d0 :: ds ++ [src] ++ sc) ++ aligned 2 8 ++
          one (tRank src.dw != 2) .badRank 1 ++ one (tTy src.dw != cvbTy (bit 20 2) || tagResidue (tTag src.dw)) .badFormat 1 ++
          each dsts .badFormat (fun d => tagResidue (tTag d) || tTy d == laneTy (bit 15 5)) ++
          each dsts .badShape (fun d => tRank d == 2 && tExt d 0 == e0 && tExt d 1 == e1) ++
          each scs .badShape (fun d => tTy d == .n16 && !tagResidue (tTag d) && decide (cvbNeed (f.ops.getLsbD 14) e0 e1 ≤ elemCount d)) ++
          each (dsts ++ [(src, 1)] ++ scs) .badPlace fun d => tSpace d != 2)
        (c, asks 1 (.cvb (bit 20 2) (bit 15 5) (f.ops.getLsbD 14) (d0 :: ds) src sc (b 2)) 0
          (regions true (d0 :: ds) ++ regions false [src] ++ regions true sc))) ∧
    -- MRL, MRS, MDR, RELAY
    (∀ e, useH r A 0 (s, x) = .error e →
      mrlReq f s r x = .error e ∧ mrsReq f s r x = .error e ∧ mdrReq f s r x = .error e ∧ relayReq f s r x = .error e) ∧
    (∀ t, useH r A 0 (s, x) = .ok (c, t) →
      let d := t.dw
      let residue := one (tRank d != 2) .badRank 0 ++ one (!tagResidue (tTag d)) .badFormat 0 ++ one (tSpace d == 0) .badPlace 0
      let tag : Word := BitVec.ofNat 32 (b 3)
      let resume := tFlt d && tRst d == 2 && b 2 == tBase d && tag == tNtag d
      let size := areaBytes d tag (tagSpan u x.ctx tag)
      mrlReq f s r x = firstCheck (head ++ va 0 ++ places [t] ++ residue)
        (c, asks 2 (.mrl (bit 20 2) (opsEacc f 10) t (b 2)) 1 (regions false [t])) ∧
      mrsReq f s r x = firstCheck (head ++ va 0 ++ va 2 ++ places [t] ++ aligned 2 16 ++ residue)
        (c, asks 3 (.mrs (bit 20 2) t (b 2)) 2 (regions true [t])) ∧
      relayReq f s r x = firstCheck (head ++ one (decide (2 ^ 32 ≤ b 3)) .badParam 3 ++ va 0 ++
          one (tSpace d == 0 && !(vaOk (b 2) && vaOk (b 2 + size - 1))) .vaRange (if vaOk (b 2) then b 2 + size - 1 else b 2) ++
          (if resume then [] else va 4) ++ places [t] ++
          one (tSpace d != 0 && decide (spaceSize q (tSpace d) < b 2 + size)) .spRange (max (b 2) (spaceSize q (tSpace d))) ++
          aligned 2 128 ++ (if resume then [] else aligned 4 64) ++ one (!layoutOk tag (tTy d)) .badFormat 3 ++
          one (tagResidue tag != tagResidue (tTag d) || (tagResidue tag && tagBid tag != tagBid (tTag d))) .badFormat 3 ++
          one (tSpace d == 2) .badPlace 0 ++ one (relayPending u (t.key u (x.who r)) || (tFlt d && !resume)) .relayBusy 0)
        (c, asks 5 (.relay t (b 2) tag.toNat (b 4) resume) 3
          (if tSpace d = 0 then [] else (tSpace d, b 2, b 2 + size, true) :: regions true [t]))) ∧
    (∀ c1 t bias, useH r A 0 (s, x) = .ok (c1, t) → useHs r (if bit 11 3 = 1 then [(B, 1)] else []) c1 = .ok (c, bias) →
      let d := t.dw
      let fmt := bit 14 6
      let epi := bit 11 3
      let par := b 2
      let ty := (Ty.ofCode fmt).getD .none
      let bs := bias.map fun t => (t, 1)
      mdrReq f s r x = firstCheck (head ++
          one (if epi = 2 then badClamp (par % 2 ^ 32) (par / 2 ^ 32) else if epi = 3 ∨ epi = 4 then decide (2 ^ 32 ≤ par) else par != 0)
            .badParam 2 ++
          va 0 ++ places (t :: bias) ++ one (decide (3 ≤ epi) && par % 16 != 0) .misalign par ++ one (tRank d != 2) .badRank 0 ++
          each bs .badRank (fun d => tRank d == 1) ++
          one (if fmt = 0 then !tagResidue (tTag d) else tagResidue (tTag d) || tFmt d != fmt) .badFormat 0 ++
          one (epi != 0 && !ty.isFloat) .badFormat 0 ++ one (epi == 4 && ty != .f32) .badFormat 0 ++
          each bs .badFormat (fun d => tTy d == .f32 && !tagResidue (tTag d)) ++ one (epi == 4 && tSpace d != 2) .badPlace 0 ++
          one (decide (3 ≤ epi) && decide (spaceSize q 2 < par + 2048)) .badPlace 2)
        (c, asks 3 (.mdr (bit 20 2) fmt epi (f.ops.getLsbD 10) (f.ops.getLsbD 9) t bias.head? (BitVec.ofNat 64 par) (blkInt x f 3 0)
          (blkInt x f 3 32)) 2 (regions true [t]))) ∧
    -- MMA and MMS
    ∀ neg c1 c2 ta tb sa sb, useHs r [(A, 0), (B, 1)] (s, x) = .ok (c1, [ta, tb]) →
      useHs r (if f.ops.getLsbD 5 then [(bit 10 4, 2)] else []) c1 = .ok (c2, sa) →
      useHs r (if f.ops.getLsbD 4 then [(bit 6 4, 3)] else []) c2 = .ok (c, sb) →
      let n := bit 14 6
      let sparse := bit 2 2
      let wa := b 2 % 2 ^ 5
      let wb := b 2 / 2 ^ 8 % 2 ^ 5
      let mask := b 3
      let ab := [(ta, 0), (tb, 1)]
      let sas := sa.map fun t => (t, 2)
      let sbs := sb.map fun t => (t, 3)
      let all := ta :: tb :: sa ++ sb
      mmaReq f neg s r x = firstCheck (head ++
          one (b 2 != wa + 256 * wb || !widthOk ta.dw wa || !widthOk tb.dw wb) .badParam 2 ++
          one (decide (2 ^ 32 ≤ mask) || (sparse == 0 && mask != 0)) .badParam 3 ++ va 0 ++ places all ++
          one (sparse != 0 && decide (spaceSize q 1 < mask + 16 * n)) .spRange (max mask (spaceSize q 1)) ++
          one (sparse != 0 && mask % 8 != 0) .misalign mask ++ each ab .badRank (fun d => tRank d == 2) ++
          each ab .badFormat laneOperand ++ each (sas ++ sbs) .badFormat (fun d => tTy d == .n16 && !tagResidue (tTag d)) ++
          each (ab ++ sas ++ sbs) .badPlace (fun d => tSpace d == 1) ++
          each sas .streamDesync (fun d => decide (128 * n ≤ elemCount d)) ++ each sbs .streamDesync fun d => decide (n ≤ elemCount d))
        (c, asks 2 (.mma neg (bit 20 2) n ta tb sa.head? sb.head? sparse (bit 0 2) wa wb mask) 1
          (regions false all ++ if sparse = 0 then [] else [(1, mask, mask + 16 * n, false)]))

/-- R251: what a token names for a strand of a core and slot. R252 to R256: DETACH, ADOPT, CANCEL, PRIO and TSTAT: a current token in the condition that the instruction asks for is
changed and D tells so; any other is left unchanged and D is 0. The detail 0 of PRIO's BAD_PARAM is the model's choice, log entry 110. -/
def Obligations.TokenInstructions : Prop :=
  (∀ (s : State) (core slot : Nat) (t : Word),
    (tokGen t = 0 → resolve s core slot t = .null) ∧
    (tokGen t ≠ 0 → tokCore t ≠ core → resolve s core slot t = .foreign) ∧
    (tokGen t ≠ 0 → tokCore t = core →
      ((s.token core (tokIdx t)).gen ≠ tokGen t ∨ (s.token core (tokIdx t)).cslot ≠ slot) → resolve s core slot t = .stale) ∧
    (tokGen t ≠ 0 → tokCore t = core → (s.token core (tokIdx t)).gen = tokGen t →
      (s.token core (tokIdx t)).cslot = slot → resolve s core slot t = .current (tokIdx t)) ∧
    ∀ idx gen : Nat, core < 256 → idx < 512 → gen < 2 ^ 15 →
      tokCore (tokWord core idx gen) = core ∧ tokIdx (tokWord core idx gen) = idx ∧ tokGen (tokWord core idx gen) = gen) ∧
  ∀ f : T3,
    let tok (s : State) (x : Strand) : Word := BitVec.ofNat 32 (uniOp s s.cur x f.a)
    let cur (s : State) (x : Strand) (k : Nat) : Prop := resolve s s.cur.core x.slot (tok s x) = .current k
    (∀ k, DeviceRule (.detach f) (fun s x => cur s x k ∧ (s.token s.cur.core k).owner = s.cur.strid ∧
        (s.token s.cur.core k).attached = true)
      (fun _ s => s.modToken s.cur.core k fun e => { e with det := true })
      (fun s _ y => writeUni f.d 1 (if (s.token s.cur.core k).st.terminal then y
        else y.subCount (s.token s.cur.core k).cls 1))) ∧
    FixedRule (.detach f) (fun s x => ∀ k, cur s x k → ¬((s.token s.cur.core k).owner = s.cur.strid ∧
      (s.token s.cur.core k).attached = true)) (fun _ _ y => writeUni f.d 0 y) ∧
    (∀ t, DeviceRule (.adopt f) (fun s x => s.team? s.cur.core x.tslot = some t ∧ t.adopter = s.cur.strid)
      (fun x s => (adoptable s s.cur x).foldl (fun s i => s.modToken s.cur.core i fun e => { e with orph := false }) s)
      (fun s x y => writeUni f.d (BitVec.ofNat 64 (adoptable s s.cur x).length)
        ((adoptable s s.cur x).foldl (fun (y : Strand) i => if (s.token s.cur.core i).st.terminal then y
          else y.addCount (s.token s.cur.core i).cls 1) y))) ∧
    FixedRule (.adopt f) (fun s x => ∀ t, s.team? s.cur.core x.tslot = some t → t.adopter ≠ s.cur.strid)
      (fun _ _ y => writeUni f.d 0 y) ∧
    (∀ k, DeviceRule (.cancel f) (fun s x => cur s x k ∧ (s.token s.cur.core k).st.terminal = false ∧
        f.opx.getLsbD 0 = false)
      (fun _ s => s.modToken s.cur.core k fun e => { e with cancel := true }) (fun _ _ y => writeUni f.d 1 y)) ∧
    FixedRule (.cancel f) (fun s x => ∀ k, cur s x k → (s.token s.cur.core k).st.terminal = true)
      (fun _ _ y => writeUni f.d 0 y) ∧
    (∀ k s x, Acts (.cancel f) s x → cur s x k → (s.token s.cur.core k).st.terminal = false → f.opx.getLsbD 0 = true →
      NextPcOk x →
      Becomes (.cancel f) s ((issued s s.cur x (.cancel f)).modToken s.cur.core k fun e => { e with cancel := true })
        { bookkept (.cancel f) s x with wait := .cancel (tok s x) f.d }) ∧
    (∀ k, DeviceRule (.prio f) (fun s x => cur s x k ∧ (s.token s.cur.core k).st.terminal = false ∧ uniOp s s.cur x f.b < 4)
      (fun x s => s.modToken s.cur.core k fun e => { e with prio := BitVec.ofNat 2 (uniOp s s.cur x f.b) })
      (fun _ _ y => writeUni f.d 1 y)) ∧
    FixedRule (.prio f) (fun s x => uniOp s s.cur x f.b < 4 ∧ ∀ k, cur s x k → (s.token s.cur.core k).st.terminal = true)
      (fun _ _ y => writeUni f.d 0 y) ∧
    TrapRule (.prio f) (fun s x => 4 ≤ uniOp s s.cur x f.b) .badParam (fun _ _ => 0) ∧
    FixedRule (.tstat f) (fun _ _ => bitsOf f.opx 0 3 = 4) (fun s x y => writeUni f.d
      (BitVec.ofNat 64 (tokenSummary s s.cur (resolve s s.cur.core x.slot (tok s x)))) y) ∧
    (∀ k, FixedRule (.tstat f) (fun s x => bitsOf f.opx 0 3 < 4 ∧ cur s x k)
      (fun s _ y => writeUni f.d ((s.token s.cur.core k).dwords.getD (bitsOf f.opx 0 3) 0) y)) ∧
    FixedRule (.tstat f) (fun s x => bitsOf f.opx 0 3 < 4 ∧ ∀ k, ¬cur s x k) fun _ _ y => writeUni f.d 0 y

/-- R182, R262: SPAWN reads the whole record at an aligned address and then waits until it is submitted; a misaligned
address traps with MISALIGN, and one outside the address space halts with VA_RANGE. R68, R166, R171, R257 to R259: SUSPEND
with enough free blocks completes what is outstanding, and stalls until that can be; it writes a block for each active lane and ties
them to the token, and the lanes leave the strand, which ends when no lane lives and otherwise goes on with a deferred path. The PC,
the queue's owner, the task budget and the free list are checked first, in this order (the model's choice, log entries 51 and 22), and
a failing check traps before anything changes. -/
def Obligations.SpawnAndSuspend : Prop :=
  (∀ f : T3,
     (∀ s x u n, Acts (.spawn f) s x → NextPcOk x → vaOk (uniOp s s.cur x f.a) = true → uniOp s s.cur x f.a % 256 = 0 →
       flatRead (issued s s.cur x (.spawn f)) (x.who s.cur) (uniOp s s.cur x f.a) 256 = .ok u n →
       Becomes (.spawn f) s u { bookkept (.spawn f) s x with wait := .spawn (natBytes 256 n) f.d }) ∧
     TrapRule (.spawn f) (fun s x => vaOk (uniOp s s.cur x f.a) = true ∧ uniOp s s.cur x f.a % 256 ≠ 0) .misalign
       (fun s x => BitVec.ofNat 64 (uniOp s s.cur x f.a)) ∧
     HaltRule (.spawn f) (fun s x => vaOk (uniOp s s.cur x f.a) = false) .vaRange
       fun s x => BitVec.ofNat 64 (uniOp s s.cur x f.a)) ∧
  (∀ (f : T3) (c : Ctx),
     let q := bitsOf f.opx 16 2
     let mask := bitsOf f.opx 0 16
     let rb := if mask = 0 then 0 else Opnd.vIndex f.b
     let w (s : State) (x : Strand) : Who := hwWho x.ctx s.cur.core
     HaltRule (.suspend f) (fun s x => s.ctx? x.ctx = some c ∧ 2 ^ 32 ≤ x.pc + 1) .pcRange (fun _ _ => 0) ∧
     TrapRule (.suspend f) (fun s x => s.ctx? x.ctx = some c ∧ x.pc + 1 < 2 ^ 32 ∧ ownsQueue s x s.cur.core q = false) .badQueue
       (fun _ _ => BitVec.ofNat 64 q) ∧
     (∀ v, TrapRule (.suspend f) (fun s x => s.ctx? x.ctx = some c ∧ x.pc + 1 < 2 ^ 32 ∧ ownsQueue s x s.cur.core q = true ∧
       overBudget rb mask c.tbud = some v) .badParam fun _ _ => BitVec.ofNat 64 v) ∧
     TrapRule (.suspend f) (fun s x => s.ctx? x.ctx = some c ∧ x.pc + 1 < 2 ^ 32 ∧ ownsQueue s x s.cur.core q = true ∧
       overBudget rb mask c.tbud = none ∧ c.contsize = 0) .contFull (fun _ _ => 0) ∧
     ∀ s x, Acts (.suspend f) s x → s.ctx? x.ctx = some c → x.pc + 1 < 2 ^ 32 → ownsQueue s x s.cur.core q = true →
       overBudget rb mask c.tbud = none → c.contsize ≠ 0 →
       (settledNow (bookkept (.suspend f) s x) s.cycle = false → exec (.suspend f) s = .next s) ∧
       ∀ u free, settledNow (bookkept (.suspend f) s x) s.cycle = true → flatRead (issued s s.cur x (.suspend f)) (w s x) (c.contbase + 4) 4 = .ok u free →
       (free < x.activeLanes.length →
         exec (.suspend f) s = .next (takeTrap s s.cur x x.pc x.active .contFull (BitVec.ofNat 64 free))) ∧
       ∀ v v' bs, x.activeLanes.length ≤ free → takeBlocks u (w s x) c.contbase x.activeLanes.length = .ok v bs →
         writeBlocks v (w s x) c.contbase
           (blockNat (settle (bookkept (.suspend f) s x)) (BitVec.ofNat 32 (uniOp s s.cur x f.a)) mask rb)
           (bs.zip x.activeLanes) = .ok v' () →
         contState v' s.cur.core x.slot (BitVec.ofNat 32 (uniOp s s.cur x f.a)) = none →
         let p : Susp := {
           core := s.cur.core, slot := x.slot, tok := BitVec.ofNat 32 (uniOp s s.cur x f.a), queue := q, rpc := x.pc + 1,
           blocks := bs }
         let left := x.live &&& ~~~x.active
         (left = 0 → ∃ t, exec (.suspend f) s = .next t ∧ t.strand? s.cur = none ∧ t.mem = v'.mem ∧
           (t.ctx? x.ctx).map (·.susp) = (v'.ctx? x.ctx).map fun c => c.susp ++ [p]) ∧
         ∀ pc m d dm rest, left ≠ 0 → x.rstk = .div pc m d dm :: rest → dm &&& left ≠ 0 →
           (settle (bookkept (.suspend f) s x)).defer = [] →
           Becomes (.suspend f) s (v'.modCtx x.ctx fun c => { c with susp := c.susp ++ [p] })
             (redirect { settle (bookkept (.suspend f) s x) with
               live := left, active := dm &&& left, rstk := .div pc m d 0 :: rest } s.cycle d))

/-- R263 to R266, R285, R287, R386: CSRR reads the register named; CSRW, in each of its forms without an effect of their
own, writes it or traps with BAD_CSR and leaves it unchanged. R264 to R266: what writing a context's register does: the
value where it lies within the register's limits, nothing to a register that is read only, and BAD_CSR otherwise. -/
def Obligations.ControlRegisters : Prop :=
  (∀ f : I32,
     UniRule (.csrr f) f.d (fun s x => (csrRead s (csrAt s.cur x) f.csr, 0)) ∧
     ∀ i, i = Instr.csrw f ∨ i = .rcrClear f ∨ i = .chselWrite f ∨ i = .ringTailWrite f ∨ i = .persistentMarkSet f →
       (∀ s x u, Acts i s x → NextPcOk x → csrPut (issued s s.cur x i) (csrAt s.cur x) f.csr
           (BitVec.ofNat 64 (uniOp s s.cur x f.a)) (1 ≤ x.pl.toNat) = some u → Becomes i s u (past i s x)) ∧
       ∀ s x, Acts i s x → csrPut (issued s s.cur x i) (csrAt s.cur x) f.csr (BitVec.ofNat 64 (uniOp s s.cur x f.a))
           (1 ≤ x.pl.toNat) = none →
         exec i s = .next (takeTrap s s.cur x x.pc x.active .badCsr (BitVec.ofNat 64 f.csr))) ∧
  (∀ (s : State) (a : CsrAt) (c : Ctx) (w : Dword), s.ctx? a.ctx = some c →
     (w.toNat % 64 = 0 → csrPut s a 0x070 w true = some (s.setCtx a.ctx { c with codebase := w.toNat })) ∧
     (w.toNat % 64 ≠ 0 → csrPut s a 0x070 w true = none) ∧
     (w.extractLsb' 32 31 = 0 → csrPut s a 0x071 w true = some (s.setCtx a.ctx { c with handler := w })) ∧
     (w.extractLsb' 32 31 ≠ 0 → csrPut s a 0x071 w true = none) ∧
     (c.frtail ≤ w.toNat → w.toNat ≤ c.frhead → csrPut s a 0x033 w false = some (s.setCtx a.ctx { c with frtail := w.toNat })) ∧
     ((w.toNat < c.frtail ∨ c.frhead < w.toNat) → csrPut s a 0x033 w false = none) ∧
     (2 ^ 10 ≤ w.toNat → w.toNat ≤ 2 ^ 40 → csrPut s a 0x060 w true = some (s.setCtx a.ctx { c with bwdog := w.toNat })) ∧
     ((w.toNat < 2 ^ 10 ∨ 2 ^ 40 < w.toNat) → csrPut s a 0x060 w true = none) ∧
     csrPut s a 0x032 w true = some (s.setCtx a.ctx c) ∧ csrPut s a 0x034 w false = some s)

/-- R46 to R48, R267: BASINST: an entry in use traps with BASIS_BUSY before the descriptor is read, a bad address with
BAD_CSR and a descriptor that breaks a rule with BAD_BASIS; otherwise the entry holds the basis. R264, R307: INVCMD requests
an invalidation for a context of the strand's own world and waits until it has completed; any other value traps with
BAD_CSR. -/
def Obligations.BasesAndInvalidation : Prop :=
  (∀ (f : I32),
     let a (s : State) (x : Strand) : Nat := uniOp s s.cur x f.a % 2 ^ 64
     TrapRule (.basinstWrite f) (fun s x => a s x / 8 % 4 ≠ 0) .badCsr (fun _ _ => 0) ∧
     (∀ e, TrapRule (.basinstWrite f) (fun s x => a s x / 8 % 4 = 0 ∧ a s x % 8 = e ∧ basisInUse s x.ctx e = true) .basisBusy
       fun _ _ => BitVec.ofNat 64 e) ∧
     ∀ s x u ds, Acts (.basinstWrite f) s x → NextPcOk x → a s x / 8 % 4 = 0 → basisInUse s x.ctx (a s x % 8) = false →
       vaOk (a s x / 32 * 32) = true →
       flatDwords (issued s s.cur x (.basinstWrite f)) (x.who s.cur) (a s x / 32 * 32) 4 = .ok u ds →
       (∀ b, checkBasis ds = .ok b →
         Becomes (.basinstWrite f) s (u.modCtx x.ctx fun c => { c with bases := mput c.bases (a s x % 8) b })
           (past (.basinstWrite f) s x)) ∧
       ∀ j, checkBasis ds = .error j →
         exec (.basinstWrite f) s = .next (takeTrap s s.cur x x.pc x.active .badBasis j)) ∧
  (∀ f : I32,
     let w (s : State) (x : Strand) : Dword := BitVec.ofNat 64 (uniOp s s.cur x f.a)
     let target (s : State) (x : Strand) : Nat := ((w s x).extractLsb' 48 16).toNat
     TrapRule (.invcmdWrite f) (fun s x => s.ctx? (target s x) = none ∨
       ∃ c, s.ctx? (target s x) = some c ∧ c.secure ≠ x.sec) .badCsr (fun _ _ => BitVec.ofNat 64 f.csr) ∧
     ∀ s x c, Acts (.invcmdWrite f) s x → s.ctx? (target s x) = some c → c.secure = x.sec → NextPcOk x →
       ∃ t, exec (.invcmdWrite f) s = .next t ∧
         t.strand? s.cur = some { bookkept (.invcmdWrite f) s x with wait := .inval s.nextId } ∧
         (t.core s.cur.core).invcmd = w s x ∧ t.mem = s.mem ∧
         t.invals = s.invals ++ [{
           ticket := s.nextId, ctx := target s x, base := (s.core s.cur.core).invbase.toNat,
           pages := ((w s x).extractLsb' 0 48).toNat, by_ := some s.cur }])

/-- R268: SWAP with the other slot FROZEN or HALTED traps with SWAP_STATE; otherwise the strand's own slot freezes with the
strand past the SWAP, and a SHADOW slot starts 64 cycles later. R35, R269: CLKR reads the core's cycle count once every
earlier instruction has completed, or the pair of the last time message. R270: EINJ with good fields queues its
injection, on wires of the operand bus or on an element; other fields trap with BAD_PARAM, whose detail 0 is the model's choice (log
entry 87), and inject nothing. What freezing and running a slot are is with `HaltsAndSlots`. -/
def Obligations.SlotSwapClockAndInjection : Prop :=
  (∀ f : T3,
     let other (s : State) (x : Strand) : SlotSt := (s.slot s.cur.core (1 - x.slot)).st
     TrapRule (.swap f) (fun s x => other s x = .frozen ∨ other s x = .halted) .swapState
       (fun s x => csrRead s (csrAt s.cur x) 0x078) ∧
     (∀ s x, Acts (.swap f) s x → NextPcOk x → (other s x = .empty ∨ other s x = .running) →
       exec (.swap f) s = .next (freezeSlot (actIn ((issued s s.cur x (.swap f)).setStrand s.cur (past (.swap f) s x))
         s.cur.core x.slot) s.cur.core x.slot)) ∧
     ∀ s x, Acts (.swap f) s x → NextPcOk x → other s x = .shadow →
       exec (.swap f) s = .next (runSlot (freezeSlot (actIn ((issued s s.cur x (.swap f)).setStrand s.cur
         (past (.swap f) s x)) s.cur.core x.slot) s.cur.core x.slot) s.cur.core (1 - x.slot) (s.cycle + 64))) ∧
  (∀ f : T3,
     (f.opx.getLsbD 0 = false → UniRule (.clkr f) f.d fun s _ => (BitVec.ofNat 64 s.cycle, 0)) ∧
     (f.opx.getLsbD 0 = false → ∀ s x, s.strand? s.cur = some x → mayRun s s.cur x = true →
       (x.long ≠ [] ∨ ∃ e ∈ x.avail, s.cycle < e.2) → (x.defer = [] ∨ x.hm = true) → exec (.clkr f) s = .next s) ∧
     ∀ d, f.opx.getLsbD 0 = true → f.d = .s d → FixedRule (.clkr f) (fun _ _ => True) fun s _ y =>
       (y.setS d.toNat (s.core s.cur.core).timeHost).setS (d.toNat + 1) (s.core s.cur.core).timeClk) ∧
  (∀ f : T3,
     let a (s : State) (x : Strand) : Nat := uniOp s s.cur x f.a
     let h (s : State) (x : Strand) : Nat := a s x / 2 ^ 16 % 16
     let accOk (s : State) (x : Strand) : Prop :=
       a s x = a s x % 2 ^ 7 + a s x / 2 ^ 8 % 2 ^ 6 * 2 ^ 8 + h s x * 2 ^ 16 + a s x / 2 ^ 20 % 2 ^ 9 * 2 ^ 20 ∧
         (h s x < (s.acc s.cur.core x.slot (bitsOf f.opx 2 2)).span ∨ h s x = 8 ∨ h s x = 9)
     let obusOk (s : State) (x : Strand) : Prop :=
       a s x < 2 ^ 14 ∧ a s x % 2 ^ 13 ≤ 6143 ∧ ¬(a s x / 2 ^ 13 % 2 = 1 ∧ a s x % 2 ^ 13 = 6143)
     (bitsOf f.opx 0 2 = 2 →
       DeviceRule (.einj f) obusOk (fun x s => s.modCol s.cur.core fun k =>
         { k with armed := k.armed ++ [(a s x % 2 ^ 13, a s x / 2 ^ 13 % 2 == 1)] }) (fun _ _ y => y) ∧
       TrapRule (.einj f) (fun s x => ¬obusOk s x) .badParam fun _ _ => 0) ∧
     (bitsOf f.opx 0 2 ≠ 2 →
       DeviceRule (.einj f) accOk (fun x s => State.modCore { s with nextId := s.nextId + 1 } s.cur.core fun k =>
         { k with einjq := k.einjq ++ [einjOf x s.nextId (bitsOf f.opx 2 2) (a s x) (bitsOf f.opx 0 2 == 1)] })
         (fun _ _ y => y) ∧
       TrapRule (.einj f) (fun s x => ¬accOk s x) .badParam fun _ _ => 0))

/-! # The whole machine (R24 to R29, R35, R57 to R82) -/

/-- R24, R35, R416: what reset leaves: a clock of zero, no context and so every slot EMPTY, no byte of memory listed (that
an unlisted byte reads 0 is the model's choice, log entry 4), and every entry of the region table cleared, so that no memory
access of a non-secure strand or of a peer is allowed. -/
def Obligations.ResetState : Prop :=
  State.reset.cycle = 0 ∧ MemoryOk State.reset ∧ (∀ a, Memory.byte State.reset.mem a = 0) ∧
    (∀ core i, (State.reset.slot core i).st = .empty) ∧ (∀ r, State.reset.strand? r = none) ∧
    (∀ c, State.reset.ctx? c = none) ∧ (∀ core k, (State.reset.token core k).gen = 0) ∧
    (∀ k peer pa, tableAllows State.reset.regions k peer pa = false)

/-- R25 to R29: the registers of a strand: each holds what was written to it and no write changes another; p7 and c7 read 1
and discard writes, and a mask register keeps the words of the strand's groups. -/
def Obligations.Registers : Prop :=
  ∀ (x : Strand) (l r l' r' : Nat), r < 256 → r' < 256 →
    (∀ w, (x.setV l r w).vreg l' r' = if l' = l ∧ r' = r then w else x.vreg l' r') ∧
    (∀ w, (x.setS r w).sreg r' = if r' = r then w else x.sreg r') ∧
    (∀ b, l < 1024 → l' < 1024 → (x.setPbit l r b).pbit l' r' = if l' = l ∧ r' = r ∧ r ≠ 7 then b else x.pbit l' r') ∧
    (∀ b, (x.setC r b).creg r' = if r' = r ∧ r ≠ 7 then b else x.creg r') ∧
    (l < 1024 → x.pbit l 7 = true) ∧ x.creg 7 = true ∧
    (∀ m, (x.setK r m).kreg r' = if r' = r then m &&& Mask.groups x.ngrp else x.kreg r') ∧
    (∀ h, (x.setH r h).hreg r' = if r' = r then h else x.hreg r')

/-- R57, R58, R82, R345, R354: a step runs the decoded instruction. The strand that an issue slot has selected fetches its word:
three units, each the one that the instruction cache holds or, where it holds none, that of memory; where the word decodes, the
step is the instruction's execution; where it does not, the strand traps with the decode cause. A step that finds an event due
performs the event; of two claims of one cycle the frames of port 0 come first (R396). (That one strand or one event acts in a step,
the selection, and the agenda with the order of what is due in it are the model's choice, log entry 2.) -/
def Obligations.StepRunsInstruction : Prop :=
  ∀ (s : State) (r : Ref) (x : Strand),
    let s0 : State := { s with free := s.free + 1, sel := none, cur := r }
    let va := codeAddr s0 x.ctx x.pc
    (s.sel = some r → s0.strand? r = some x → mayRun s0 r x = true →
      (∀ w i, fetch s0 r x = .word w → decode w = .ok i → step s = exec i s0) ∧
      (∀ w c, fetch s0 r x = .word w → decode w = .error c → owesTrap x = false → (∀ o ∈ x.long, o.left ≠ 0) →
        step s = .next (takeTrap s0 r x x.pc x.active (decodeCause c) (w.extractLsb' 32 64))) ∧
      ∀ c info dm, fetch s0 r x = .halt c info dm → step s = .next (haltStrand s0 r x c info dm)) ∧
    (∀ (k mt : Nat → Nat) (u : Nat → BitVec 32), x.pc < 2 ^ 32 → (∀ j, j < 3 → vaOk (va + 4 * j) = true ∧
        translate s0 (x.who r) .fetch (va + 4 * j) = .ok (k j) (mt j) ∧
        (cachedUnit s0 r.core (k j / 4) = some (u j) ∨
          (cachedUnit s0 r.core (k j / 4) = none ∧ uncLine s0 (k j) 4 = false ∧
            u j = BitVec.ofNat 32 (Memory.nat s0.mem (k j) 4)))) →
      fetch s0 r x = .word (u 2 ++ u 1 ++ u 0)) ∧
    (∀ t i rest, s.sel = none → s.agenda = (t, i) :: rest → t ≤ s.cycle → i.isProgram = false → i.wellFormed = true →
      claimPort i ≠ some 1 ∨ (∀ e ∈ rest, e.1 ≤ s.cycle → claimPort e.2 ≠ some 0) →
      step s = exec i { s with free := s.free + 1, agenda := rest }) ∧
    ∀ t i rest e n j, s.sel = none → s.agenda = (t, i) :: rest → t ≤ s.cycle → claimPort i = some 1 → e ∈ rest → e.1 ≤ s.cycle →
      claimPort e.2 = some 0 → rest.findIdx? (fun e => arrivesAt s e == some 0) = some n → rest[n]? = some j →
      j.2.isProgram = false → j.2.wellFormed = true →
      step s = exec j.2 { s with free := s.free + 1, agenda := (t, i) :: rest.eraseIdx n }

/-- R57 to R81: words written out from the manual's encodings decode to the instructions they stand for. -/
def Obligations.DecodeWords : Prop :=
  decode 0#96 = .ok (.add {
    hd := { neg := false, gi := 0, la := 0, y := false }, d := .v 0, a := .v 0, b := .v 0, c := .v 0, ty := .none,
    rnd := .dyn, sat := false, opx := 0 }) ∧
  decode 0x06DC020201C00142000003E8#96 = .ok (.cmpI32 {
    hd := { neg := false, gi := 7, la := 0, y := false }, d := .p 2, a := .v 7, b := .v 0, ty := .i32, opx := 2,
    imm := 1000 }) ∧
  decode 0x600400000000000100060003#96 = .ok (.braDiv {
    hd := { neg := false, gi := 1, la := 0, y := false }, d := .v 0, a := .v 0, b := .v 0, ty := .none, opx := 1,
    imm := 0x60003 }) ∧
  decode 0x801C0000C030200000000000#96 = .ok (.bar {
    hd := { neg := false, gi := 7, la := 0, y := false }, d := .v 0, a := .imm 0, b := .imm 2, c := .v 0, ty := .none,
    rnd := .dyn, sat := false, opx := 0 }) ∧
  decode 0xFFC000000000000000000000#96 = .error .illOp ∧ decode 0x000000000000000000000001#96 = .error .illRes

/-- R57 to R82: every well-formed instruction has a word that decodes to it, with every operand and field. -/
def Obligations.EncodedInstructionsDecode : Prop :=
  ∀ i : Instr, i.isProgram = true → i.wellFormed = true → decode (encode i) = .ok i

/-- R57 to R82: a word that decodes gives a well-formed instruction of a program, and is the only word of it: no bit of it
is left unread. -/
def Obligations.DecodedWordsEncode : Prop :=
  ∀ (w : IWord) (i : Instr), decode w = .ok i → i.isProgram = true ∧ i.wellFormed = true ∧ encode i = w

/-- The memory of the device keeps its canonical form whatever a step does, so that equal memories are equal data. -/
def Obligations.MemoryStaysCanonical : Prop :=
  Kept MemoryOk

/-! # The device's own steps: waits, operations and engines (R66, R176 to R178, R194 to R262, R273 to R289) -/

/-- R207 to R209, R254, R262, R176, R178, R307: how the waiting instructions end: WAITT with 0 once its token is terminal
and with 1 for a stale or foreign one; WAITK once the count is low enough; WAITC once a read of the counter meets its
target; CANCEL.wait with 1 only for a cancelled token; SPAWN when its record has been checked and submitted; GROW with 1
when it is granted, and with 0 when every running strand of the core waits in one; SYNCG once the accesses of the lanes that met have
been made; and the write of INVCMD once the invalidation has completed. R66, R68, R355: an outstanding instruction returns, no earlier than its latency lets it: the
accesses that waited are made first, and one that halts the context leaves it outstanding. Once its window is spent its registers
and flags are written and it is outstanding no more; while the window is open its registers wait, but for those of HLD (R197), and
what it raises is due. -/
def Obligations.WaitsEnd : Prop :=
  (∀ (s : State) (core i : Nat) (x : Strand), let r : Ref := { core := core, strid := i }
     (CanEnd s r x →
       (∀ t d k, x.wait = .token t d → resolve s core x.slot t = .current k →
         (if (s.token core k).st.terminal then ∃ u, exec (.waittEnd core i) s = .next u ∧ Ended s r x d 0 u
           else exec (.waittEnd core i) s = .next s)) ∧
       (∀ t d, x.wait = .token t d → resolve s core x.slot t = .stale ∨ resolve s core x.slot t = .foreign →
         ∃ u, exec (.waittEnd core i) s = .next u ∧ Ended s r x d 1 u) ∧
       (∀ cls thr, x.wait = .count cls thr →
         (if x.count cls ≤ thr then ∃ u, exec (.waitkEnd core i) s = .next u ∧ Ended s r x (.imm 0) 0 u
           else exec (.waitkEnd core i) s = .next s)) ∧
       (∀ va target s1 n, x.wait = .counter va target → flatRead s (x.who r) va 8 = .ok s1 n →
         (if target ≤ n then ∃ u, exec (.waitcEnd core i) s = .next u ∧ Ended s1 r x (.imm 0) 0 u
           else exec (.waitcEnd core i) s = .next s1)) ∧
       (∀ t d, x.wait = .cancel t d →
         (if (s.token core (tokIdx t)).st.terminal then
           ∃ u, exec (.cancelWaitEnd core i) s = .next u ∧
             Ended s r x d (if (s.token core (tokIdx t)).st == .cancelled then 1 else 0) u
           else exec (.cancelWaitEnd core i) s = .next s)) ∧
       (∀ bytes d, x.wait = .spawn bytes d →
         let ds : Rec := (List.range 32).map fun j => BitVec.ofNat 64 (leNat bytes / 2 ^ (64 * j))
         let ctx := if x.pl == 0 then some x.ctx else none
         (∀ off, submit s ds ctx = .refused off → exec (.spawnReadDone core i) s = .next (takeTrap
           (s.setStrand r { x with wait := .none }) r { x with wait := .none } x.pc x.active .badLaunch (BitVec.ofNat 64 off))) ∧
         (submit s ds ctx = .busy → ∃ u, exec (.spawnReadDone core i) s = .next u ∧ Ended s r x d 0 u) ∧
         ∀ s1, submit s ds ctx = .yes s1 → ∃ u, exec (.spawnReadDone core i) s = .next u ∧ Ended s1 r x d 1 u) ∧
       (∀ slot n d, grantable s core slot = some (i, x, n, d) →
         ∃ u, exec (.growGrant core slot) s = .next u ∧ Ended s r (raiseBudget x n) d 1 u) ∧
       (x.wait = .syncg → (lanesOwe x = true → endSyncg s r = s) ∧ (lanesOwe x = false → Ended s r x (.imm 0) 0 (endSyncg s r))) ∧
       ∀ n v, s.invals.find? (fun v => v.ticket == n) = some v → v.by_ = some r → x.wait = .inval n → mgmtOf s n = none →
         ∃ u, exec (.invalidationComplete n) s = .next u ∧ Ended (State.modCore { s with
           invals := s.invals.filter (fun u => u.ticket != n)
           tlb := s.tlb.map fun d => (d.1, d.2.filter fun e => !v.covers e)
           cores := s.cores.map fun k => (k.1, { k.2 with tlb := k.2.tlb.filter fun e => !v.covers e }) } core fun k =>
             { k with invcmd := 0 }) r x (.imm 0) 0 u) ∧
     (runningStrands s core ≠ [] → (∀ e ∈ runningStrands s core, e.2.gp = true) → grantable s core 0 = none →
       grantable s core 1 = none →
       exec (.growFail core) s = .next ((runningStrands s core).foldl (fun s e =>
         match e.2.wait with
         | .grow _ d _ => endWait s { core := core, strid := e.1 } e.2 d 0
         | _ => s) s))) ∧
  (∀ (s : State) (core i n : Nat) (x : Strand) (o : LongOp), let r : Ref := { core := core, strid := i }
     s.strand? r = some x → x.long[n]? = some o → mayComplete s r x = true → o.pops = [] →
     (s.cycle < o.due → exec (.longLatencyComplete core i n) s = .next s) ∧
     (o.due ≤ s.cycle →
       (∀ y, o.todo = [] → o.left = 0 → x.wait ≠ .syncg → y = completeOne { x with long := x.long.eraseIdx n } o → y.defer = [] →
         ∃ t, exec (.longLatencyComplete core i n) s = .next t ∧ t.strand? r = some y ∧ Agree r s t ∧
           y.long = x.long.eraseIdx n ∧ y.pc = x.pc ∧
           y.fpsr = (o.writes.foldl (fun y w => w.apply y) x).fpsr ||| o.flags.setWidth 32) ∧
       (∀ u ws trap, doAll o.instr (x.site r) o.tn o.pc s (o.writes, o.trap) o.todo = (u, (ws, trap), [], none) →
         let o1 : LongOp := { o with writes := ws, trap := trap, todo := [] }
         (o.left = 0 ∨ Instr.isHld o.instr = true → exec (.longLatencyComplete core i n) s = .next (endSyncg (takeDeferred
           (u.setStrand r (completeOne { x with long := x.long.eraseIdx n } o1)) r) r)) ∧
         (o.left ≠ 0 → Instr.isHld o.instr = false → o.arrived = false → exec (.longLatencyComplete core i n) s = .next (endSyncg
           (takeDeferred (u.setStrand r
             { x with long := x.long.set n { o1 with arrived := true }, defer := x.defer ++ arrivalDue x o1 }) r) r)) ∧
         (o.left ≠ 0 → Instr.isHld o.instr = false → o.arrived = true →
           exec (.longLatencyComplete core i n) s = .next (endSyncg u r))) ∧
       (∀ u ws trap left, doAll o.instr (x.site r) o.tn o.pc s (o.writes, o.trap) o.todo = (u, (ws, trap), left, some .wait) →
         exec (.longLatencyComplete core i n) s = .next s) ∧
       ∀ u ws trap left c0 i0 d0 c info dm,
         doAll o.instr (x.site r) o.tn o.pc s (o.writes, o.trap) o.todo = (u, (ws, trap), left, some (.halt c0 i0 d0)) →
         stopOf o.instr (x.site r) o.tn u left (some (.halt c0 i0 d0)) = some (.halt c info dm) →
         exec (.longLatencyComplete core i n) s = .next (haltStrand u r
           { x with long := x.long.set n { o with writes := ws, trap := trap, todo := left } } c info dm)))

/-- R54, R213 to R217, R223 to R225, R259, R399: the life of an operation: a pending one starts once its predecessor is done, and
faults with PRED_FAULT where the predecessor is faulted or cancelled; a finished one makes its last accesses and is done, or
faults where its counter cannot be raised; one that has met a fault writes its record and is faulted; one that is to be cancelled
does not start, and is cancelled unless it ends first. A terminal entry keeps its state, and the continuations that wait for a
terminal token are queued. (That an access over a lost link halts its context and is made again, the basis checked at the start,
MEM_UNC kept for a counter, and a kill that reaches all operations at once are the model's, log entries 56, 57, 60 and 108.) -/
def Obligations.OperationLife : Prop :=
  (∀ (s : State) (core idx : Nat), let e := s.token core idx
    let killed := (match s.ctx? e.ctx with | some c => c.killed | none => false) = true
    let start := exec (.operationStart core idx) s
    (e.gen ≠ 0 → e.st = .pending → e.work.fault = none →
      (predecessor s core e = none → start = .next s) ∧
      (predecessor s core e = some false → e.cancel = false ∨ ¬killed → start = .next (failOp s core idx .predFault 0 false)) ∧
      (predecessor s core e = some true → (!e.stuck && !e.cancel && slotLets s core e && earlierStarted s core e) = false →
        start = .next s) ∧
      (predecessor s core e = some false → e.cancel = true → killed → start = .next s)) ∧
    ((e.gen != 0 && e.st == .pending && e.work.fault.isNone && !e.stuck && !e.cancel && slotLets s core e
        && earlierStarted s core e) = true → predecessor s core e = some true →
      (badBasisAtStart e = false ∨ e.started = true → (∀ k r d x f t, e.op ≠ .coll k r d x f t) →
        (∀ t v o w c, e.op ≠ .relay t v o w c) → mayResume s core idx e = true → start = .next (startToken s core idx id)) ∧
      (badBasisAtStart e = true → e.started = false →
        start = .next (failOp (startedToken s core idx id) core idx .badBasis 0 false)) ∧
      (∀ t v o w c, e.op = .relay t v o w c →
        (e.work.accepted = true → start = .next (startToken s core idx id)) ∧
        ∀ s1, e.work.accepted = false → relayStart s core idx e = .ok s1 () →
          start = .next (startedToken s1 core idx fun w => { w with accepted := true })) ∧
      ∀ kind rop dst src fmt root, badBasisAtStart e = false ∨ e.started = true → e.op = .coll kind rop dst src fmt root →
        let o : CollOp := { kind := kind, rop := rop, dst := dst, src := src, root := root }
        (e.work.group ≠ [] → start = .next (startToken s core idx fun w => { w with heard := s.time, hear := [] })) ∧
        (e.work.group = [] →
          (∀ s1, collStart s core e = .ok s1 none →
            start = .next (failOp (startedToken s1 core idx id) core idx .badShape 0 false)) ∧
          (∀ s1 g fits a, collStart s core e = .ok s1 (some (g, fits)) → keptAbort s (g.getD 0 0) (g.getD 1 0) = some a →
            start = .next (failOp (startedToken { s1 with aborts := s1.aborts.filter (· != a) } core idx id) core idx .peerAbort
              (BitVec.ofNat 64 a.origin) false)) ∧
          (∀ s1 g, collStart s core e = .ok s1 (some (g, false)) → keptAbort s (g.getD 0 0) (g.getD 1 0) = none →
            start = .next (failOp (startedToken s1 core idx fun w => { w with group := g, accepted := true }) core idx
              .badShape 0 false)) ∧
          (∀ s1 g, collStart s core e = .ok s1 (some (g, true)) → keptAbort s (g.getD 0 0) (g.getD 1 0) = none →
            let s2 := startedToken s1 core idx fun w => { w with group := g, heard := s.time }
            let members := (s2.token core idx).peers s2
            (∀ m, (members.find? fun m => linkTo s2 m == .lost) = some m →
              start = .next (failOp s2 core idx .peerDown (BitVec.ofNat 64 m) false)) ∧
            ((∀ m ∈ members, linkTo s2 m = .up) → start = .next (sendFirst s2 (s2.token core idx) o)) ∧
            ((∀ m ∈ members, linkTo s2 m ≠ .lost) → (∃ m ∈ members, linkTo s2 m ≠ .up) → start = .next s)) ∧
          ∀ c i dm, collStart s core e = .bad c i dm → start = .next (if haltsContext s (e.site core).who c i = true
            then haltOp s core idx c i dm else failOp (startedToken s core idx id) core idx c i dm))) ∧
    (e.active = true → opFinished s e = true →
      let last := (convCounts s core e).bind fun s1 _ => relayFinish s1 core e
      (last = .wait → exec (.operationDone core idx) s = .next s) ∧
      (∀ c i dm, last = .bad c i dm → exec (.operationDone core idx) s = .next (stopOp s core idx c i dm)) ∧
      ∀ s2, last = .ok s2 () →
        (∀ s3, addCounter s2 core e = .ok s3 () → exec (.operationDone core idx) s = .next (endToken s3 core idx .done)) ∧
        (addCounter s2 core e = .wait → exec (.operationDone core idx) s = .next s) ∧
        ∀ c i dm, addCounter s2 core e = .bad c i dm → exec (.operationDone core idx) s =
          .next (if c = .pageNp ∧ lostLink s (e.site core).who e.caddr.toNat = true then haltOp s core idx c i dm
            else failOp (settled s2 core idx) core idx (if c = .memUnc then .memUnc else .counterFault) i dm)) ∧
    (∀ c d dm, e.work.fault = some (c, d, dm) → e.gen ≠ 0 → e.st = .pending ∨ e.st = .running →
      (recordFault s core idx e c d = none → exec (.operationFault core idx) s = .next s) ∧
      ∀ s1, recordFault s core idx e c d = some s1 →
        (stopShort s1 core e false = none → exec (.operationFault core idx) s = .next s) ∧
        ∀ s2, stopShort s1 core e false = some s2 → exec (.operationFault core idx) s =
          .next (faultAction (endToken (s2.modToken core idx fun t =>
            { t with cause := c.code, detail := d, dm := dm }) core idx .faulted) core idx e c d dm)) ∧
    (e.gen ≠ 0 → e.cancel = true → e.st.terminal = false → e.work.fault = none →
      ((predFailed s core e || canEnd s core idx e || e.active && lineBegun e) = true →
        exec (.operationCancelled core idx) s = .next s) ∧
      ((predFailed s core e || canEnd s core idx e || e.active && lineBegun e) = false →
        (stopShort s core e true = none → exec (.operationCancelled core idx) s = .next s) ∧
        ∀ s1, stopShort s core e true = some s1 →
          exec (.operationCancelled core idx) s = .next (endToken s1 core idx .cancelled))) ∧
    (∀ st, e.st.terminal = false →
      (endToken s core idx st).token core idx =
        { e with st := st, ended := s.cycle, cancel := false, stuck := false, work := { e.work with flight := none } } ∧
      (endToken s core idx st).mem = s.mem) ∧
    (∀ st, e.st.terminal = true → endToken s core idx st = s) ∧
    exec (.continuationPush core idx) s = .next (s.ctxs.foldl (fun s c => pushOwed s c.1 fun p =>
      p.core == core && tokIdx p.tok == idx && decide (p.slot < 2) && slotRuns s c.1 core p.slot) s)) ∧
  ∀ (s : State) (core idx : Nat) (c : Cause) (info : Dword) (dm : Bool) (k : Ctx), let e := s.token core idx
    let q := s.slot core e.cslot
    let t := haltOp s core idx c info dm
    s.ctx? e.ctx = some k → q.ctx = e.ctx → q.st = .running ∨ q.st = .halted →
      runsSomewhere s e.ctx = true ∨ k.halt ≠ none ∨ k.haltQ ≠ [] →
      t.mem = s.mem ∧ t.token core idx = { e with stuck := true } ∧
      t.ctx? e.ctx = some { k with haltQ := k.haltQ ++ [{
        cause := c, tinfo := info, src := if poolError c info then 5 else 1, core := core, slot := e.cslot, dm := dm,
        at_ := s.time }] }

/-- R218, R237, R238, R242, R243, R270, R284, R290: the sequencer accepts an operation when its turn has come and no operation
that could be accepted is taken before it: MZERO leaves the slot live with residues of zero, MRL, once it has read its elements
piece by piece, with the residues that they name; MMA and MDR hold it; with MDR and MRS the drain begins; and an injection adds to
its slot. A column that is down, an invalid slot or another basis faults the token. (The core as the detail of COLUMN_DOWN, and MRL
and MRS in pieces, are the model's, log entries 102 and 61.) -/
def Obligations.SequencerAcceptance : Prop :=
  ∀ (s : State) (core idx : Nat), let e := s.token core idx
    let turn := turnRivals s core e
    let rivals := acceptRivals s core e
    let fails (i : Instr) (c : Cause) (d : Dword) : Prop := exec i s = .next (failOp s core idx c d false)
    let down := (s.core core).col.down
    let turned (u : State) : State := u.modCol core fun k => { k with turn := some e.cslot, stalled := none }
    let took (u : State) (w : Work) (ready : List OpAt) : State :=
      (chargeUnit (countSkips u core idx ready) core idx).modToken core idx fun t => { t with work := w, started := true }
    let held (u : State) (a : Nat) : State := (countSkips (u.setAcc core e.cslot a { s.acc core e.cslot a with st := .held, tok := idx })
      core idx rivals).modToken core idx fun t => { t with work := accepted s e }
    (∀ a bid eacc, e.op = .mzero a bid eacc → e.active = true → acceptable s core e = true →
      takesTurn s core idx e turn = true → mayTurn s core e.cslot s.cycle (some idx) = true →
      (down = true → fails (.sequencerAcceptMzero core idx) .columnDown (BitVec.ofNat 64 core)) ∧
      (down = false → basisOf s e.ctx bid = none → fails (.sequencerAcceptMzero core idx) .badBasis 0) ∧
      ∀ b, down = false → basisOf s e.ctx bid = some b → exec (.sequencerAcceptMzero core idx) s =
        .next (took (turned (s.setAcc core e.cslot a { s.acc core e.cslot a with
          gb := 0, eacc := eacc, bid := bid, span := b.span, gt := false, st := .live, res := [] })) (accepted s e) turn)) ∧
    (∀ a eacc src gb, e.op = .mrl a eacc src gb → e.active = true → e.work.accepted = false → rangeBlocked s core idx e = false →
      let piece := readPiece s (e.site core) e src.dw (tileCoords 0 0)
      (e.unread src.dw (tileCoords 0 0) ≠ [] →
        (∀ s1 w, piece = .ok s1 w → exec (.sequencerAcceptMrl core idx) s =
          .next ((chargeUnit s1 core idx).modToken core idx fun t => { t with work := w, started := true })) ∧
        (piece = .wait → exec (.sequencerAcceptMrl core idx) s = .next s) ∧
        ∀ c i dm, piece = .bad c i dm → exec (.sequencerAcceptMrl core idx) s = .next (stopOp s core idx c i dm)) ∧
      (e.unread src.dw (tileCoords 0 0) = [] → acceptable s core e = true → takesTurn s core idx e turn = true →
        mayTurn s core e.cslot s.cycle (some idx) = true →
        (down = true → fails (.sequencerAcceptMrl core idx) .columnDown (BitVec.ofNat 64 core)) ∧
        (down = false → basisOf s e.ctx (tagBid (tTag src.dw)) = none → fails (.sequencerAcceptMrl core idx) .badBasis 0) ∧
        ∀ b, down = false → basisOf s e.ctx (tagBid (tTag src.dw)) = some b →
          let xs := readValues s (e.site core) e.work false src.dw (tileCoords 0 0)
          exec (.sequencerAcceptMrl core idx) s = .next (took (turned (s.setAcc core e.cslot a { s.acc core e.cslot a with
            gb := gb, eacc := eacc, bid := tagBid (tTag src.dw), span := b.span, gt := guardTrips b gb, st := .live,
            res := resOf b fun h k => quadDigit b (xs.toArray.getD k 0) h })) { accepted s e with got := [] } turn))) ∧
    (∀ neg a n ta tb sa sb sp nc wa wb mask, e.op = .mma neg a n ta tb sa sb sp nc wa wb mask → e.active = true →
      acceptable s core e = true → takesTurn s core idx e rivals = true → let x := s.acc core e.cslot a
      (down = true → fails (.sequencerAcceptMma core idx) .columnDown (BitVec.ofNat 64 core)) ∧
      (down = false → x.st = .invalid → fails (.sequencerAcceptMma core idx) .accInvalid 0) ∧
      (down = false → x.st ≠ .invalid → sameBasis x ta = false ∨ sameBasis x tb = false →
        fails (.sequencerAcceptMma core idx) .badBasis 0) ∧
      (down = false → x.st ≠ .invalid → sameBasis x ta = true → sameBasis x tb = true →
        exec (.sequencerAcceptMma core idx) s = .next (held s a))) ∧
    (∀ a fmt epi sat z dst bias par row col, e.op = .mdr a fmt epi sat z dst bias par row col → e.active = true →
      acceptable s core e = true → takesTurn s core idx e rivals = true → drainFree s core idx = true →
      let x := s.acc core e.cslot a
      (x.st = .invalid → fails (.sequencerAcceptMdr core idx) .accInvalid 0) ∧
      (x.st ≠ .invalid → fmt = 0 → sameBasis x dst = false → fails (.sequencerAcceptMdr core idx) .badBasis 0) ∧
      (x.st ≠ .invalid → fmt ≠ 0 ∨ sameBasis x dst = true →
        exec (.sequencerAcceptMdr core idx) s = .next (held (drainStart s core) a))) ∧
    (∀ a dst area, e.op = .mrs a dst area → e.active = true → acceptable s core e = true → takesTurn s core idx e rivals = true →
      drainFree s core idx = true → let x := s.acc core e.cslot a
      (x.st = .invalid → fails (.sequencerAcceptMrs core idx) .accInvalid 0) ∧
      (x.st ≠ .invalid → sameBasis x dst = false → fails (.sequencerAcceptMrs core idx) .badBasis 0) ∧
      (x.st ≠ .invalid → sameBasis x dst = true → exec (.sequencerAcceptMrs core idx) s =
        .next ((countSkips (drainStart s core) core idx rivals).modToken core idx fun t => { t with work := accepted s e }))) ∧
    ∀ n j, (s.core core).einjq[n]? = some j →
      (einjReady s core j = false → exec (.sequencerAcceptEinj core n) s = .next s) ∧
      (einjReady s core j = true → exec (.sequencerAcceptEinj core n) s =
        .next (let u := inject (s.modCore core fun k => { k with einjq := k.einjq.eraseIdx n }) core j
          if j.wire then u else u.modCol core fun k => { k with turn := some j.cslot, stalled := none }))

/-- R218, R239 to R241, R273, R274, R289, R290: a K-step that has its turn and its inputs starts: it takes its heat tokens and
the column for its cycles, or holds the turn until the tokens are there. When its cycles are over it adds its products to the
residues of its slot: each channel's residue of element (i, c) becomes the old one plus, or for MMS minus, the sum over the
step's K of the product of the two digits, scaled by a power of two, modulo the channel's modulus. (That a failing check of the
step is reported before a double error of the bus is the model's, log entry 112.) -/
def Obligations.MatrixStep : Prop :=
  (∀ (s s1 s2 s3 s4 : State) (core idx acc n sp nc wa wb mask : Nat) (neg : Bool) (ta tb : Tn) (sa sb : Option Tn)
      (b : Basis) (pa pb ms : List Nat) (ea eb : List (Option Nat)),
    let e := s.token core idx
    let w := e.site core
    let j := e.work.prog
    let x : StepIn := {
      j := j, a := sideOf ta wa, b := sideOf tb wb, pa := pa, pb := pb.headD 0, masks := ms, sparse := sp, nc := nc,
      eacc := (s.acc core e.cslot acc).eacc }
    let ks := stepKs sp nc j ms
    e.op = .mma neg acc n ta tb sa sb sp nc wa wb mask →
    basisOf s e.ctx (s.acc core e.cslot acc).bid = some b →
    readPairs s w sa (128 * j) 128 = .ok s1 pa → readPairs s1 w sb j 1 = .ok s2 pb → readMasks s2 w sp mask j = .ok s3 ms →
    (e.work.flight = none → kReady s (core, idx, e) = true → mayTurn s core e.cslot e.work.heard (some idx) = true →
      stallHolder s core = some idx ∨ takesTurn s core idx e (turnRivals s core e) = true →
      exec (.kStep core idx) s = .next (countSkips
        (beginStep s3 core idx e x (s.acc core e.cslot acc).span (Config.busErrors s.free)) core idx (turnRivals s core e))) ∧
    (∀ t, e.work.flight = some t → t ≤ s.cycle → e.gen ≠ 0 → e.st = .running → e.work.fault = none →
      (∀ c d, stepFault x = some (c, d) → exec (.kStep core idx) s = .next (failStep s3 core idx e acc c d)) ∧
      (stepFault x = none → stepElems s3 w x ks = .ok s4 (ea, eb) →
        exec (.kStep core idx) s = .next (finishStep s4 core idx e neg acc n b x ea eb)))) ∧
  (∀ (s : State) (core idx : Nat) (e : Token) (x : StepIn) (span : Nat) (nat : List (Nat × Nat)),
    let cost := stepCost x span (stepCnt x x.ks)
    let t := beginStep s core idx e x span nat
    (heatNow s core < cost → t = s.modCol core fun k => { k with stalled := some idx }) ∧
    (cost ≤ heatNow s core → (t.core core).col.heat = heatNow s core - cost ∧ (t.core core).col.turn = some e.cslot ∧
      (t.core core).col.armed = [] ∧ (t.token core idx).work.flight = some (s.cycle + stepCycles x x.ks.length) ∧ t.mem = s.mem)) ∧
  (∀ (s : State) (core idx : Nat) (e : Token) (neg : Bool) (acc n : Nat) (b : Basis) (x : StepIn) (ea eb : List (Option Nat)),
    let t := finishStep s core idx e neg acc n b x ea eb
    laneFault x x.ks.length ea.toArray eb.toArray = none →
    (∀ w, e.work.first = some w → t = failStep s core idx e acc .operandBus (stepDetail x.j w (decide (64 ≤ w)))) ∧
    (e.work.first = none →
      (t.acc core e.cslot acc).res = stepRes b neg x x.ks.length ea.toArray eb.toArray (s.acc core e.cslot acc).res ∧
      (t.acc core e.cslot acc).st = (if n ≤ x.j + 1 then .live else .held))) ∧
  ∀ (b : Basis) (neg : Bool) (x : StepIn) (nk h i c : Nat) (ea eb : Array (Option Nat)) (old : Map Nat), h < 10 → i < 128 → c < 64 →
    0 < b.mod h → b.modulus h = some (b.mod h) →
    let k := 64 * i + c
    let d := (((List.range nk).map fun t => laneDigit x.a b h (x.pa.getD i 0) (ea.getD (i * nk + t) none) *
      laneDigit x.b b h x.pb (eb.getD (c * nk + t) none)).sum * 2 ^ (stepShift x i).toNat) % b.mod h
    mget 0 (stepRes b neg x nk ea eb old) (8192 * h + k) =
      (mget 0 old (8192 * h + k) + (if neg then b.mod h - d else d)) % b.mod h

/-- R238, R243, R244, R282, R286: a beat of a drain writes sixteen elements: raw quads, or reconstructed values through the
epilogue, where .rstat writes a row at its fourth beat; a beat of an MRS raw quads, and its last the control word; and the effects
of a beat on slot, RCR and token. R278: what the reconstruction unit answers for a tuple: the legitimate number with its digits;
else an overflow where the guard trips; else the number with all its digits but one, where one channel alone allows it; and nothing
else. R273, R282, R284: a worn wire of the operand bus gets a spare at the next K-step while spares are left; a worn drain wire gets
one of its channel's four spares at the next drain, and after that the channel is erased; two erased channels take the column down. -/
def Obligations.DrainBeats : Prop :=
  (∀ (s : State) (core idx acc fmt epi : Nat) (sat z : Bool) (dst : Tn) (bias : Option Tn) (par : BitVec 64) (row col : Int) (b : Basis),
     let e := s.token core idx
     let w := e.site core
     let x := s.acc core e.cslot acc
     let d : Drain := {
       fmt := (Ty.ofCode fmt).getD .none, raw := fmt == 0, epi := epi, sat := sat, dst := dst, bias := bias,
       par := par.toNat, row0 := row, col0 := col }
     let ks := (List.range 16).map fun i => e.work.prog + i
     let outs := ks.map fun k => (k, reconstruct b (s.core core).col.erased.head? x.gt (received x b k))
     let buf := outs.foldl (fun m o => match o.2.value with
       | some v => mput m (o.1 % 64) (statValue d x.eacc v)
       | none => m) e.work.buf
     e.op = .mdr acc fmt epi sat z dst bias par row col →
     (e.active && e.work.accepted && decide (e.work.prog < 8192) && !rangeBlocked s core idx e) = true →
     (basisOf s e.ctx x.bid = none → exec (.drainBeat core idx) s = .next (failOp s core idx .badBasis 0 false)) ∧
     (basisOf s e.ctx x.bid = some b → ∀ u,
       (fmt = 0 → writeMany s w dst (ks.map fun k => (drainPos d k, quadOf b fun h => accDigit x h k)) = .ok u () →
         exec (.drainBeat core idx) s = .next (finishBeat u core idx e acc b z true [] [])) ∧
       (fmt ≠ 0 → epi ≠ 3 → drainWrite s w d x.eacc (outs.map fun o => (o.1, o.2.value)) = .ok u () →
         exec (.drainBeat core idx) s = .next (finishBeat u core idx e acc b z false outs [])) ∧
       (fmt ≠ 0 → epi = 3 → e.work.prog / 16 % 4 < 3 →
         exec (.drainBeat core idx) s = .next (finishBeat s core idx e acc b z false outs buf)) ∧
       (fmt ≠ 0 → epi = 3 → e.work.prog / 16 % 4 = 3 → statRow s w d (e.work.prog / 64)
           ((List.range 64).map fun c => (64 * (e.work.prog / 64) + c, mfind buf c)) = .ok u () →
         exec (.drainBeat core idx) s = .next (finishBeat u core idx e acc b z false outs [])))) ∧
  (∀ (s u u1 : State) (core idx acc area : Nat) (dst : Tn) (b : Basis), let e := s.token core idx
     let x := s.acc core e.cslot acc
     let ks := (List.range 16).map fun i => e.work.prog + i
     e.op = .mrs acc dst area →
     (e.active && e.work.accepted && decide (e.work.prog < 8192) && !rangeBlocked s core idx e) = true →
     (basisOf s e.ctx x.bid = none → exec (.drainBeat core idx) s = .next (failOp s core idx .badBasis 0 false)) ∧
     (basisOf s e.ctx x.bid = some b →
       writeMany s (e.site core) dst (ks.map fun k => ([((k / 64 : Nat) : Int), ((k % 64 : Nat) : Int)],
         quadOf b fun h => accDigit x h k)) = .ok u () →
       (area = 0 ∨ e.work.prog + 16 < 8192 →
         exec (.drainBeat core idx) s = .next (finishBeat u core idx e acc b false true [] [])) ∧
       (area ≠ 0 → 8192 ≤ e.work.prog + 16 → flatWrite u (e.site core).who area 16 (accWord x) = .ok u1 () →
         exec (.drainBeat core idx) s = .next (finishBeat u1 core idx e acc b false true [] [])))) ∧
  (∀ (s : State) (core idx acc : Nat) (b : Basis) (z raw : Bool) (outs : List (Nat × Recon)) (buf : Map Nat),
     let e := s.token core idx
     let x := s.acc core e.cslot acc
     let t := finishBeat s core idx e acc b z raw outs buf
     let k := (t.token core idx).work
     let last := 8192 ≤ e.work.prog + 16
     t.mem = s.mem ∧ k.prog = e.work.prog + 16 ∧ (t.core core).rcr = rcrBeat (s.core core).rcr idx acc e.cslot (outs.map (·.2)) ∧
     (t.acc core e.cslot acc).res = (if last ∧ z = true then [] else x.res) ∧
     (t.acc core e.cslot acc).st = (if last then .live else x.st) ∧
     (¬last → k.fault = e.work.fault) ∧
     (last → raw = false → k.fault = drainFault k) ∧
     (last → raw = true → k.fault = (erasedLive s core b).map fun h => (.channelErased, BitVec.ofNat 64 h, false))) ∧
  (∀ (b : Basis) (r : Nat → Nat) (gt : Bool), BasisOk b → (∀ h ∈ b.live, r h < b.mod h) →
     let but (h : Nat) : List Nat := b.live.filter (· != h)
     let only (h : Nat) : Prop := ∀ j ∈ b.live, j ≠ h → ∀ v, ¬Names b (but j) r v
     (∀ erased : Option Nat, (∀ h, erased = some h → h ∉ b.live) →
       (∀ v, Names b b.live r v → reconstruct b erased gt r = .ok v) ∧
       ((∀ v, ¬Names b b.live r v) →
         (gt = true → reconstruct b erased gt r = .overflow) ∧
         (gt = false →
           (∀ h v, h ∈ b.live → Names b (but h) r v → only h → reconstruct b erased gt r = .corrected v h) ∧
           ((∀ h v, h ∈ b.live → Names b (but h) r v → ¬only h) → reconstruct b erased gt r = .uncorrectable)))) ∧
     ∀ h ∈ b.live, (∀ v, Names b (but h) r v → reconstruct b (some h) gt r = .ok v) ∧
       ((∀ v, ¬Names b (but h) r v) → reconstruct b (some h) gt r = if gt then .overflow else .uncorrectable)) ∧
  (∀ (s : State) (core : Nat), let k := (s.core core).col
     ∃ k' : Column, k' = { k with spares := k'.spares, wires := k'.wires, pendSpare := [], pendErase := [], erased := k'.erased,
                                  down := k.down || decide (2 ≤ k'.erased.length) } ∧
       (∀ h, h ∈ k'.erased ↔ h ∈ k.erased ∨ h ∈ k.pendErase) ∧
       (∀ h, mget 0 k'.spares h = mget 0 k.spares h + (k.pendSpare.filter fun p => p.1 == h).length) ∧
       (∀ p ∈ k.pendSpare, mget 0 k'.wires (144 * p.1 + p.2) = 0) ∧
       drainStart s core = (let u := s.modCol core fun _ => k'
         if k'.down = true ∧ k.down = false then postEvent u .columnDown [BitVec.ofNat 64 core] else u)) ∧
  (∀ (s : State) (core ch wire : Nat), let k := (s.core core).col
     (16 ≤ mget 0 k.obWires wire → wire ∉ k.obPend → k.obSpares + k.obPend.length < 64 →
       exec (.obusWireCountFull core wire) s = .next (s.modCol core fun k => { k with obPend := k.obPend ++ [wire] })) ∧
     (mget 0 k.obWires wire < 16 ∨ wire ∈ k.obPend ∨ 64 ≤ k.obSpares + k.obPend.length →
       exec (.obusWireCountFull core wire) s = .next s) ∧
     (64 ≤ mget 0 k.wires (144 * ch + wire) → ch < 10 → wire < 144 → (ch, wire) ∉ k.pendSpare → ch ∉ k.pendErase → ch ∉ k.erased →
       exec (.drainWireCountFull core ch wire) s =
         .next (if mget 0 k.spares ch + (k.pendSpare.filter fun p => p.1 == ch).length < 4
           then s.modCol core fun k => { k with pendSpare := k.pendSpare ++ [(ch, wire)] }
           else s.modCol core fun k => { k with pendErase := k.pendErase ++ [ch] })) ∧
     (mget 0 k.wires (144 * ch + wire) < 64 → exec (.drainWireCountFull core ch wire) s = .next s) ∧
     exec (.heatRefill core) s = .next (s.modCol core fun k => { k with heat := heatNow s core, heatAt := s.cycle }))

/-- R194, R218, R222, R223, R233 to R236, R247, R400: the units of copies, conversions, memory operations, relayouts and
collectives: where the operation is ready and the engine takes it before the others that are ready, one unit is performed; it
counts as progress, and a unit that fails has no effect but the token's fault or the halt of its context. No unit changes a strand, a
context or a token. What a unit of each family moves or computes: R233, a piece of a CPL lies whole where its lane says, and where
pieces overlap each byte is of one of them; R234, an element of a CPT is the source's at the same offset, and one outside the extents
is dropped; R235, the block that a list entry of a CPG names; R111, R236, the slices of a split, and the lanes of a block; R195, the
digits of a .madd, and the integers; R324, R325, the elements of a unit of a relayout; R401, the rows of a chunk, and the ring. -/
def Obligations.EngineUnits : Prop :=
  (∀ (s : State) (core idx : Nat) (data : List Byte), let e := s.token core idx
    let unitOf (i : Instr) (can : Bool) (ready : List OpAt) (a : Mem Work) (g : Work → Work) : Prop :=
      e.active = true → can = true → takesTurn s core idx e ready = true →
        (∀ s1 w, a = .ok s1 w → exec i s = .next ((chargeUnit (countSkips s1 core idx ready) core idx).modToken core idx fun t =>
          { t with work := g w, started := true })) ∧
        (∀ c d dm, a = .bad c d dm → exec i s = .next (stopOp s core idx c d dm)) ∧ (a = .wait → exec i s = .next s)
    let copy := copyReady s (core, idx, e)
    let rivals := copyRivals s core e
    (∀ st n x ps, e.op = .cpl st n x ps → e.cls = 0 →
      unitOf (.copyLine core idx) copy rivals (cplUnit s core e st n ps) (unitDone s core e)) ∧
    (∀ dst src so dor box mc, e.op = .cpt dst src so dor box mc → e.cls = 0 →
      unitOf (.copyLine core idx) copy rivals (cptUnit s core e dst src so dor box mc) (unitDone s core e)) ∧
    (∀ sc br bc dst src list count, e.op = .cpg sc br bc dst src list count → e.cls = 0 →
      unitOf (.copyLine core idx) copy rivals (cpgUnit s core e sc br bc dst src list count) (unitDone s core e)) ∧
    (∀ mode w square dst src scale area, e.op = .cvb mode w square dst src scale area → e.cls = 1 →
      unitOf (.conversionBlock core idx) copy rivals (cvbUnit s core e mode w square dst src scale) (unitDone s core e)) ∧
    (∀ code y x par cnt, e.op = .mop code y x par cnt → e.cls = 6 →
      unitOf (.mopBlock core idx) copy rivals (mopUnit s core e code y x par) (unitDone s core e)) ∧
    (∀ t p q y z, e.op = .relay t p q y z → e.work.accepted = true →
      unitOf (.relayoutUnit core idx) (relayReady s (core, idx, e)) ((onEngine s core e).filter (relayReady s))
        (relayUnit s core e t.dw) id) ∧
    (∀ kind rop dst src x root, e.op = .coll kind rop dst src x root →
      unitOf (.chunkStep core idx data)
        (e.work.group != [] && decide (e.work.prog < collTotal e) && !rangeBlocked s core idx e)
        ((onEngine s core e).filter (collReady s))
        (collUnit s core e { kind := kind, rop := rop, dst := dst, src := src, root := root } data) id) ∧
    ∀ c info dm, stopOp s core idx c info dm =
      if haltsContext s (e.site core).who c info then haltOp s core idx c info dm else failOp s core idx c info dm) ∧
  (∀ (s t : State) (core : Nat) (e : Token) (k : Work),
    (∀ st n ps, cplUnit s core e st n ps = .ok t k → SameAgents s t) ∧
    (∀ dst src so dor box mc, cptUnit s core e dst src so dor box mc = .ok t k → SameAgents s t) ∧
    (∀ sc br bc dst src list count, cpgUnit s core e sc br bc dst src list count = .ok t k → SameAgents s t) ∧
    (∀ mode w square dst src scale, cvbUnit s core e mode w square dst src scale = .ok t k → SameAgents s t) ∧
    (∀ code y x par, mopUnit s core e code y x par = .ok t k → SameAgents s t) ∧
    (∀ d, relayUnit s core e d = .ok t k → SameAgents s t) ∧
    ∀ o data, collUnit s core e o data = .ok t k → SameAgents s t) ∧
  (∀ (s : State) (core n fa la : Nat) (e : Token), e.work.done = [] → n ∈ [4, 8, 16, 32, 64] → fa % n = 0 → let w := e.site core
    let k : Work := { e.work with prog := e.work.prog + 1, done := [fa / 64] }
    cplUnit s core e false n [(fa, la)] = ((flatRead s w.who fa n).bind fun s1 x =>
      (localWrite s1 w 1 la n fun _ => x % 2 ^ (8 * n)).bind fun s2 _ => .ok (writtenTogether s2 w 1 [(la, n)]) k) ∧
    cplUnit s core e true n [(fa, la)] = ((localRead s w 1 la n).bind fun s1 x =>
      (flatUpdate s1 w.who fa n fun _ => x % 2 ^ (8 * n)).bind fun s2 _ => .ok (writtenTogether s2 w 0 [(fa, n)]) k)) ∧
  (∀ (e : Token) (n b : Nat) (dsts : List Nat), let covers (j : Nat) : Prop := dsts.getD j 0 ≤ b ∧ b < dsts.getD j 0 + n
    (∀ j, byteWinner e n dsts b = some j → j < dsts.length ∧ covers j) ∧
    ∀ j < dsts.length, covers j → ∃ i, byteWinner e n dsts b = some i) ∧
  (∀ (box : List Nat), (∀ n ∈ box, 0 < n) →
    ∀ c : List Nat, c.length = box.length → (∀ i < box.length, c.getD i 0 < box.getD i 0) →
      ∃! k, k < boxCount box ∧ coordOf box k = c) ∧
  (∀ (s : State) (core mc : Nat) (e : Token) (dst src : Tn) (so dor : List Int), so.length = 4 → dor.length = 4 →
    e.work.done = [] → elemParts dst.dw = 1 → tFlt dst.dw = false → let w := e.site core
    (∀ c, boxCoord dst.dw dor = some c → basisFails s w dst.dw c = false →
      ∃ k : Work, k.done = [0] ∧ cptUnit s core e dst src so dor [1, 1, 1, 1] mc = ((readOr0 s w src.dw so).bind fun s1 x =>
        (putSites s1 dst.dw [(c, [0], x)] (copySites s1 core e mc)).bind fun s2 _ => .ok s2 k)) ∧
    (boxCoord dst.dw dor = none →
      ∃ k : Work, k.done = [0] ∧ cptUnit s core e dst src so dor [1, 1, 1, 1] mc =
        (countDropped s w dst.va).bind fun s1 _ => .ok s1 k) ∧
    (mc = 0 → copySites s core e mc = [w]) ∧
    (mc ≠ 0 → ∀ v, v ∈ copySites s core e mc ↔ ∃ i < 4, mc / 2 ^ i % 2 = 1 ∧ v.who = { w.who with core := 4 * clusterOf core + i } ∧
      ([0, 1].find? fun k => (s.slot v.who.core k).st != .empty && (s.slot v.who.core k).ctx == e.ctx) = some v.slot)) ∧
  (∀ (s s1 : State) (w : Site) (k : Work) (scatter : Bool) (br bc list count i y x : Nat) (dst src : Tn), y < 2 ^ br → x < 2 ^ bc →
    (∀ v, flatRead s w.who ((list + 16 * i) % 2 ^ 64) 16 = .ok s1 v → ∃ k1 : Work, readEntry s w list i k = .ok s1 k1 ∧
      k1.entry i = some ((List.range 4).map fun j => (BitVec.ofNat 32 (v / 2 ^ (32 * j))).toInt)) ∧
    ∀ b0 b1 b2 b3 : Int, k.entry i = some [b0, b1, b2, b3] →
      let own : List Int := [(i : Int) * (2 ^ br : Nat) + (y : Int), (x : Int), 0, 0]
      let named : List Int := [b0 * (2 ^ br : Nat) + (y : Int), b1 * (2 ^ bc : Nat) + (x : Int), b2, b3]
      (cpgMoves k scatter br bc dst src count).coords (i * 2 ^ (br + bc) + y * 2 ^ bc + x) =
        if b0 = -(2 ^ 31 : Nat) then none else some (if scatter then (own, named) else (named, own))) ∧
  ((∀ x : Int, ∃ x0 x1 x2, split3 x = [x0, x1, x2] ∧ x = x0 + 2 ^ 18 * x1 + 2 ^ 36 * x2 ∧ -(2 ^ 17) ≤ x0 ∧ x0 < 2 ^ 17 ∧
      -(2 ^ 17) ≤ x1 ∧ x1 < 2 ^ 17) ∧
    (∀ (w : Nat) (xs : List Fp), 2 ≤ w → ∀ sl ∈ (cvbPlain w xs).slices, sl.1.length = xs.length ∧
      ∀ q ∈ sl.1, -(2 ^ (w - 1) : Int) ≤ q ∧ q < 2 ^ (w - 1)) ∧
    ∀ e0 e1 i j t : Nat, j < ceilDiv e1 128 → t < 128 →
      (cvbCells false e0 e1 (i * ceilDiv e1 128 + j)).1 = i / 128 * 128 * ceilDiv e1 128 + j * 128 + i % 128 ∧
      (cvbCells false e0 e1 (i * ceilDiv e1 128 + j)).2.getD t [] = [(i : Int), (128 * j + t : Int)]) ∧
  (∀ (b : Basis) (p : Nat → Bool) (y x h : Nat), BasisOk b → h ∈ b.live →
    quadDigit b (mopDigits b (b.live.filter p) y x) h =
      if p h then (quadDigit b y h + quadDigit b x h) % b.mod h else quadDigit b y h) ∧
  (∀ (ty : Ty) (par : Word) (y x : Nat), ty.isFloat = false → y < 2 ^ ty.bits → x < 2 ^ ty.bits →
    (mopNew 0 ty par y x).1 = (y + x) % 2 ^ ty.bits ∧
    intRead ty (mopNew 1 ty par y x).1 = min (intRead ty y) (intRead ty x) ∧
    intRead ty (mopNew 2 ty par y x).1 = max (intRead ty y) (intRead ty x) ∧
    mopNew 4 ty par y x = if y = mopScalar ty par then (x, true) else (y, false)) ∧
  (∀ (s s1 : State) (core x : Nat) (e : Token) (d : Rec), let w := e.site core
    let u := relayCursor e
    (∀ c, c ∈ unitCoords d u ↔ c.length = tRank d ∧ (∀ i < tRank d, c.getD i 0 < tExt d i) ∧
      storedIndex d (tNtag d) c / unitSize (tNtag d) = u) ∧
    (flatRead s w.who (tMapp d + u / 8) 1 = .ok s1 x →
      (x.testBit (u % 8) = true → relayUnit s core e d = .ok s1 { e.work with counts := [u + 1] }) ∧
      (x.testBit (u % 8) = false → (∀ t ∈ [tTag d, tNtag d], tagResidue t = true → (basisOf s e.ctx (tagBid t)).isSome = true) →
        relayUnit s core e d = ((convertElems s1 w d (tagSpan s e.ctx (tTag d)) (tagSpan s e.ctx (tNtag d)) (unitCoords d u)).bind
          fun s2 ps => (flatUpdate (writtenTogether s2 w (tSpace d) ps) w.who (tMapp d + u / 8) 1 fun y => y ||| 2 ^ (u % 8)).bind
            fun s3 _ => .ok s3 { e.work with counts := [u + 1], prog := e.work.prog + 1 })))) ∧
  (∀ e0 p c k : Nat, k ∈ chunkRows e0 p c ↔ c * ceilDiv e0 p ≤ k ∧ k < min ((c + 1) * ceilDiv e0 p) e0) ∧
  (∀ p j t : Nat, j < p → t + 1 < p → let next := (j + 1) % p
    (∃ c h h', reduceStep p j (2 * t) = .send next c h ∧ reduceStep p next (2 * t + 1) = .recv j c h') ∧
    (∃ c h h', gatherStep p j (2 * t) = .send next c h ∧ gatherStep p next (2 * t + 1) = .recv j c h') ∧
    (∃ m, reduceStep p j (2 * (p - 2) + 1) = .recv m j 2)) ∧
  ∀ (s : State) (core m c how : Nat) (e : Token) (o : CollOp) (data : List Byte), let dev := e.members.getD m 0
    (∀ st, st = CStep.send m c how ∨ st = .recv m c how →
      (linkTo s dev = .lost → chunkPart s core e o st data = .bad .peerDown (BitVec.ofNat 64 dev) false) ∧
      (∀ t, linkTo s dev = .retraining t → chunkPart s core e o st data = .wait)) ∧
    (linkTo s dev = .up →
      (∃ k : Work, k.prog = e.work.prog + 1 ∧ chunkPart s core e o (.send m c how) data = .ok (linkMsg s dev 0 (e.grp 1)
        (BitVec.ofNat 64 (e.grp 0) :: BitVec.ofNat 64 c ::
          dwordsIn (packElems (travelBits o.src.dw) (sentElems s (e.site core) e o (.send m c how))))) k) ∧
      (data ≠ [] → data.length ≠ ceilDiv ((rowCoords o.dst.dw (if how = 0 then dstRows o (e.grp 2) c
          else srcRows o (e.grp 2) c)).length * travelBits o.src.dw) 8 →
        chunkPart s core e o (.recv m c how) data = .bad .badShape 0 false))

/-! # Launches, issue slots, halts and slots (R204, R220, R226, R227, R348 to R382) -/

/-- R220, R348 to R353, R360 to R366: a launch places its teams in order on pairs that have room, and is answered once all
of them have retired; a team retires when its strands have ended and its orphans are in the ring; queues are refilled from
their rings, pushes wait for room, and closed groups of records start as strands. -/
def Obligations.LaunchesAndTasks : Prop :=
  (∀ (s : State) (n : Nat) (l : Launch) (c : Ctx) (p : Pair) (t : Nat), let d := l.record
    mfind s.launches n = some l → (s.launches.all fun e => !(decide (e.1 < n) && e.2.ctx == l.ctx &&
      decide (e.2.next < lTeams e.2.record))) = true → l.next < lTeams d → s.ctx? l.ctx = some c → c.killed = false →
    c.halt = none → c.haltQ = [] → nextPair s c d = some p → teamNumber s p.core p.slot d = some t →
    mget 0 s.placedAt (dieOf p.core) ≠ s.cycle + 1 →
    exec (.teamPlacement n) s = .next (
      let w := wakeCluster (if (s.slot p.core p.slot).st == .empty then fillSlot s l.ctx d p else s) (clusterOf p.core)
      let w1 : State := { w with placedAt := mput w.placedAt (dieOf p.core) (s.cycle + 1) }
      let team : Team := {
        ctx := l.ctx, slot := p.slot, members := [], adopter := 0, bars := [], spt := lSpt d,
        act := lAct d, linear := l.next, launch := some n, rfHeld := 0 }
      let s2 := w1.modCore p.core fun k => { k with teams := mput k.teams t team }
      let s4 := ((lRoles d).foldl (placeRole · c d p t l.next (s.cycle + 16) ·) s2).modCtx l.ctx fun c =>
        { c with lastPair := some (p.core, p.slot) }
      { s4 with launches := mput s4.launches n { l with next := l.next + 1, teams := l.teams + 1 } })) ∧
  (∀ (s : State) (n : Nat) (l : Launch), mfind s.launches n = some l → l.next = lTeams l.record → l.teams = 0 →
    exec (.ldone n) s = .next (sendOwner { s with launches := mdel s.launches n } 0x82 l.ctx [])) ∧
  (∀ (s : State) (core n : Nat) (t : Team), s.team? core n = some t → t.members = [] →
    ((s.slot core t.slot).st == .running && !(s.slot core t.slot).line && !(s.slot core t.slot).freezing) = true →
    let u := pushOrphans s core n t (teamOrphans s core n t)
    (teamOrphans u core n t ≠ [] → exec (.teamRetire core n) s = .next u) ∧
    (teamOrphans u core n t = [] → ∃ v, exec (.teamRetire core n) s = .next v ∧ v.team? core n = none ∧ v.mem = u.mem)) ∧
  (∀ (s : State) (cl q : Nat) (ctx : Nat) (c : Ctx) (s1 : State) (y : Nat), let k := s.queue cl q
    let place := ringPlace s cl ctx
    k.owner = some ctx → s.ctx? ctx = some c → c.halt = none → c.haltQ = [] → k.ringCount ≠ 0 → k.size ≠ 0 →
    (k.claims ≠ [] ∨ k.recs.length < 32) → k.refillAt ≤ s.cycle → k.pushedAt ≠ s.cycle + 1 → vaOk (k.ringAddr k.head) = true →
    flatRead s (hwWho ctx place.1) (k.ringAddr k.head) 32 = .ok s1 y →
    (k.claims = [] → exec (.queueRefill cl q) s = .next (s1.modQueue cl q fun k =>
      { k with head := k.head + 1, recs := k.recs ++ [(recordOf y, 0)], stuck := false, refillAt := s.cycle + 4 })) ∧
    ∀ r l n rest, k.claims = (r, l, n) :: rest → exec (.queueRefill cl q) s = .next ((s1.modQueue cl q fun k =>
      { k with head := k.head + 1, claims := rest, stuck := false, refillAt := s.cycle + 4 }).modStrand r fun y' =>
        { y' with long := deliver y'.long q l (recordOf y) })) ∧
  (∀ (s : State) (cl q : Nat), s.cycle < (s.queue cl q).refillAt ∨ (s.queue cl q).pushedAt = s.cycle + 1 →
    exec (.queueRefill cl q) s = .next s) ∧
  (∀ (s s1 : State) (cl q cx cr : Nat) (tk : Word) (ctx : Nat) (c : Ctx) (w : List Word) (rest : List Pusher), let k := s.queue cl q
    k.owner = some ctx → s.ctx? ctx = some c → c.halt = none → c.haltQ = [] → k.waiting = .cont cx cr tk w :: rest →
    (push s cl q (ringPlace s cl ctx).1 w = .ok s1 → exec (.ringRoomPush cl q) s =
      .next (s1.modQueue cl q fun k => { k with waiting := rest, stuck := false })) ∧
    (push s cl q (ringPlace s cl ctx).1 w = .full → exec (.ringRoomPush cl q) s = .next s)) ∧
  (∀ (s : State) (cl q : Nat), let free := (s.cluster cl).dispatchAt ≠ s.cycle + 1
    (free → nextServed s cl = some q → exec (.dispatchChoice cl q) s =
      .next ((choose s cl q).modCluster cl fun c => { c with lastQueue := q, dispatchAt := s.cycle + 1 })) ∧
    (¬free ∨ nextServed s cl ≠ some q → exec (.dispatchChoice cl q) s = .next s)) ∧
  ∀ (s s1 : State) (cl q ctx i t : Nat) (c : Ctx) (g : Group) (rest : List Group) (y : Strand), let k := s.queue cl q
    let fits := (s.slot g.core 0).st == .running && (s.slot g.core 0).ctx == ctx &&
      decide (rfBytes 1 c.tbud ≤ freeRf s g.core 0)
    let slot := if fits = true then 0 else 1
    k.owner = some ctx → k.forming = g :: rest → g.closed = true → g.at_ + 12 ≤ s.cycle → taskEligible s ctx g.core = true →
    s.ctx? ctx = some c → c.halt = none → c.haltQ = [] → freeStrid s g.core = some i →
    ((List.range 32).find? fun t => !mhas (s.core g.core).teams t) = some t →
    restoreAll s (hwWho ctx g.core) c.contbase (freshStrand (some c) ctx slot t 0 1 c.tbud g.epc
      (Mask.ofPred 32 fun l => decide (l < g.recs.length))) g.recs.zipIdx = .ok s1 y →
    ∃ u, exec (.taskStrandStart cl q) s = .next u ∧ (u.queue cl q).forming = rest ∧ u.mem = s1.mem ∧
      ∃ z, u.strand? { core := g.core, strid := i } = some z ∧
        z = { y with
          notBefore := s.cycle, islot := z.islot, age := z.age, waits := 0, serial := z.serial } ∧
        (∃ tm, u.team? g.core t = some tm ∧ tm.members = [i] ∧ tm.adopter = i ∧ tm.ctx = ctx ∧ tm.slot = slot)

/-- R354 to R360, R411, R444: an issue slot works once a cycle, after the results that return in the cycle: its strands' words are
fetched and the accesses that hold them back are made, the cycle is counted for those that are ready, and it selects one of them, the
greedy one or else the oldest, unless a strand has been passed over for 1,024 cycles; the power allowance refills, a lane instruction
withheld too long is owed its turn, and a cluster that has been idle for 64 µs is gated, which ends the dummy steps of its columns. -/
def Obligations.IssueSelection : Prop :=
  (∀ (s : State) (core n : Nat), let q := mget ISlot.reset (s.core core).islots n
    let u := prepareSlot (applyPolicy s core) core q
    let v := countWaits u core (boundStrands u core q)
    let ready := (boundStrands v core q).filter fun y => isReady u { core := core, strid := y.1 } y.2
    (q.worked = s.cycle + 1 ∨ s.sel.isSome = true ∨ resultsDue s core = true → exec (.issueSelect core n) s = .next s) ∧
    (q.worked ≠ s.cycle + 1 → s.sel = none → resultsDue s core = false → ∃ t, exec (.issueSelect core n) s = .next t ∧ t.mem = u.mem ∧
      ∀ i, (if v.cycle < q.hold then none else pickStrand (v.core core).rr q ready) = some i →
        t.sel = some { core := core, strid := i })) ∧
  (∀ (rr : Bool) (q : ISlot) (ready : List (Nat × Strand)),
    (∀ i, pickStrand rr q ready = some i → ∃ y ∈ ready, y.1 = i) ∧
    ((∀ y ∈ ready, y.2.waits < 1024) → ∀ y ∈ ready, q.greedy = some y.1 → pickStrand false q ready = some y.1) ∧
    ((∀ y ∈ ready, y.2.waits < 1024) → (∀ y ∈ ready, q.greedy ≠ some y.1) → ready ≠ [] →
      ∃ y ∈ ready, pickStrand false q ready = some y.1 ∧
        ∀ z ∈ ready, y.2.age < z.2.age ∨ (y.2.age = z.2.age ∧ y.1 ≤ z.1)) ∧
    ((∃ y ∈ ready, 1024 ≤ y.2.waits) → ∃ y ∈ ready, pickStrand rr q ready = some y.1 ∧ 1024 ≤ y.2.waits ∧
      ∀ z ∈ ready, 1024 ≤ z.2.waits → z.2.waits < y.2.waits ∨ (y.2.waits = z.2.waits ∧ y.1 ≤ z.1))) ∧
  ∀ (s : State) (cl core : Nat),
    exec (.powerAllowanceRefill cl) s =
      .next (s.modCluster cl fun k => { k with pa := paNow k (rhoOf s) s.cycle, paAt := s.cycle }) ∧
    (∀ e, (s.cluster cl).owed = none → (clusterStrands s cl).find? (fun e => heldByPower s e.1 e.2 &&
        match e.2.withheldAt with | some t => decide (t + 1024 ≤ s.cycle) | none => false) = some e →
      exec (.withholdTimeout cl) s = .next (s.modCluster cl fun k => { k with owed := some e.1 })) ∧
    ((∀ e ∈ clusterStrands s cl, heldByPower s e.1 e.2 = false) → exec (.withholdTimeout cl) s = .next s) ∧
    (clusterIdle s cl = true → (s.cluster cl).gated = false → (s.cluster cl).busyAt + 64 * microsecond ≤ s.time →
      ∃ t, exec (.clusterGate cl) s = .next t ∧ t.mem = s.mem ∧
        t.cluster cl = { s.cluster cl with gated := true, gatedAt := s.cycle + 1 } ∧
        ∀ e ∈ t.cores, clusterOf e.1 = cl → e.2.col.dummy = false) ∧
    (clusterIdle s cl = false ∨ (s.cluster cl).gated = true ∨ s.time < (s.cluster cl).busyAt + 64 * microsecond →
      exec (.clusterGate cl) s = .next s) ∧
    exec (.ballastDummyStep core) s = .next (s.modCol core fun k => { k with
      dummy := ballastWanted s && columnIdle (s.core core) && !(s.cluster (clusterOf core)).gated })

/-- R204, R371 to R374, R380, R382, R391, R227: the first cause begins the halt of a context and a later one joins it; the halt
line stops the slots of the context, but none in the cycle of a SWAP or a trap that has taken effect, and they are HALTED once
their operations have stopped; a context that does not stop within 20 µs is killed; a frozen slot is saved once no operation that
writes it is left, a slot of a context that ends becomes EMPTY, and a context that has none left is discarded. (The strand that
BAR_WATCHDOG names and the restart of its count are the model's, log entry 48, and the line held off in the cycle of a SWAP or a trap
log entry 101. What the arrival of the line, halting, freezing, saving and the others are is with `SlotContents`.) -/
def Obligations.HaltsAndSlots : Prop :=
  (∀ (s : State) (n : Nat) (c : Ctx) (h : HaltReq) (rest : List HaltReq), s.ctx? n = some c → c.haltQ = h :: rest →
    ∃ t, exec (.haltCause n) s = .next t ∧
      ((slotsIn s n fun q => q.st == .shadow || q.st == .frozen || q.st == .halted) = [] → t.mem = s.mem) ∧
      ((c.halt ≠ none ∨ runsSomewhere s n = true) → t.ctx? n = some { c with
        haltQ := rest, halt := some (joinHalt c.persistent c.halt h) }) ∧
      (c.halt = none → runsSomewhere s n = false → t.ctx? n = some { c with haltQ := rest })) ∧
  (∀ (s : State) (core i : Nat), let q := s.slot core i
    (∀ c h, q.st = .running → q.line = false → q.actedAt ≠ s.cycle + 1 → s.ctx? q.ctx = some c → c.halt = some h →
      (freezeRequest (lineArrives s core i) core i = none →
        exec (.haltLineArrival core i) s = .next (lineArrives s core i)) ∧
      ∀ m, freezeRequest (lineArrives s core i) core i = some m →
        exec (.haltLineArrival core i) s = .next (finishMgmt (lineArrives s core i) m 4 (fieldOff 0 0) [])) ∧
    (q.actedAt = s.cycle + 1 → exec (.haltLineArrival core i) s = .next s) ∧
    (q.st = .running → q.line = true → opsStopped s core i q.ctx = true →
      exec (.slotHalted core i) s = .next (becomeHalted s core i)) ∧
    (q.st = .running → q.line = true → opsStopped s core i q.ctx = false → exec (.slotHalted core i) s = .next s) ∧
    (q.st = .running → q.freezing = true → exec (.slotSave core i) s = .next (tryFreeze s core i)) ∧
    (q.st = .frozen → saveReady s core i q.ctx = true → freezeRequest (saveSlot s core i) core i = none →
      exec (.slotSave core i) s = .next (endContext (saveSlot s core i) q.ctx)) ∧
    (∀ m, q.st = .frozen → saveReady s core i q.ctx = true → freezeRequest (saveSlot s core i) core i = some m →
      exec (.slotSave core i) s = .next (endContext (finishMgmt (saveSlot s core i) m 0 0 []) q.ctx)) ∧
    (q.st = .frozen → saveReady s core i q.ctx = false → exec (.slotSave core i) s = .next s) ∧
    (s.ctx? q.ctx = none ∨ q.st = .empty → exec (.contextTeardownEnd core i) s = .next (endContexts s)) ∧
    (∀ c, s.ctx? q.ctx = some c → q.st ≠ .empty → c.killed = true → deadNow s core i q.ctx c = true →
      let u := emptySlot (dropOwed s q.ctx) core i
      (freezeRequest u core i = none → exec (.contextTeardownEnd core i) s = .next (endContext u q.ctx)) ∧
      ∀ m, freezeRequest u core i = some m →
        exec (.contextTeardownEnd core i) s = .next (endContext (finishMgmt u m 4 (fieldOff 0 0) []) q.ctx)) ∧
    (∀ c, s.ctx? q.ctx = some c → q.st ≠ .empty → c.ending.isSome = true → c.killed = false → endsNow s core i q.ctx = true →
      freezeRequest (emptySlot s core i) core i = none →
      exec (.contextTeardownEnd core i) s = .next (endContext (emptySlot s core i) q.ctx))) ∧
  (∀ (s : State) (n : Nat) (c : Ctx) (h : HaltInfo) (p : Nat × Nat) (rest : List (Nat × Nat)), s.ctx? n = some c →
    c.halt = some h → slotsIn s n (fun q => q.st == .running) = p :: rest → c.killed = false →
    (h.since + 20 * microsecond ≤ s.time →
      exec (.stopTimeout n) s = .next (killContext s n .stopTimeout (BitVec.ofNat 64 p.1))) ∧
    (s.time < h.since + 20 * microsecond → exec (.stopTimeout n) s = .next s)) ∧
  ∀ (s : State) (core n b m : Nat) (t : Team) (c : Ctx), s.team? core n = some t → s.ctx? t.ctx = some c →
    let k := mget Bar.zero t.bars b
    let runs := ((s.slot core t.slot).st == .running && !(s.slot core t.slot).line && !(s.slot core t.slot).freezing) = true
    (m ∈ barWaiters s core t b → (∀ j ∈ barWaiters s core t b, m ≤ j) → runs → slotsToWork s core = false →
      k.first + c.bwdog ≤ s.cycle → exec (.barWatchdog core n b) s = .next (postHalt
        (s.modTeam core n fun t => { t with bars := mput t.bars b { k with first := s.cycle } }) t.ctx {
          cause := .barWatchdog, tinfo := BitVec.ofNat 64 (b + m * 256), src := 2, core := core, slot := t.slot, dm := false })) ∧
    (barWaiters s core t b = [] ∨ slotsToWork s core = true ∨ s.cycle < k.first + c.bwdog →
      exec (.barWatchdog core n b) s = .next s)

/-- R24, R213, R225 to R227, R260, R268, R354, R372 to R383: what happens to a slot. The halt line stops its strands, each with its
stop record; an operation parks at its boundary; once halted the slot has the records of its operations and its header. A slot whose
strands have settled is FROZEN, and each wait that has to be executed again is undone; a frozen slot that is saved leaves its image
and is EMPTY; an EMPTY slot holds no strand, team or injection. A slot that runs again has its strands bound to issue slots; a marked
one is HALTED. A kill marks all that the context has; a resume takes the strands, the parked operations and the barriers up again. A
restore is refused where the slot, the image word or the part is wrong, and gives the slot of the image. (How an image is found and
when a restore is refused are the model's, log entry 85, what a save writes beside the image word and the stores log entries 20 and 38,
and a kill that reaches all operations at once log entry 108.) -/
def Obligations.SlotContents : Prop :=
  (∀ (s : State) (core i : Nat) (c : Ctx) (h : HaltInfo), let q := s.slot core i
    let xs := slotStrands s core i
    let n := xs.length
    let sb := q.savebase
    let same (u : State) (lo hi : Nat) : Prop := ∀ a, a < lo ∨ hi ≤ a → Memory.byte u.mem a = Memory.byte s.mem a
    let record (u : State) (k : Nat) (r : List Byte) : Prop := physOk (sb + 64 * k) = true → Memory.bytes u.mem (sb + 64 * k) 64 = r
    s.ctx? q.ctx = some c → c.halt = some h →
    ((∀ j ∈ slotTokens s core i q.ctx, (s.token core j).cls ≠ 1 ∨ (s.token core j).work.pend = []) →
      let t := lineArrives s core i
      t.slot core i = { q with
        line := true, freezing := false, lineOps := (slotTokens s core i q.ctx).filter fun j => !(s.token core j).st.terminal } ∧
      (∀ r, t.strand? r = s.strand? r) ∧ t.ctxs = s.ctxs ∧ (∀ r x, r.core = core → x.slot = i → mayRun t r x = false) ∧
      same t (sb + 64) (sb + 64 * (n + 1)) ∧
      ∀ k e, xs[k]? = some e →
        record t (k + 1) (stopRecord 2 q.ctx core i s.cycle h.cause (strandDwords s h core e.1 e.2))) ∧
    (let t := becomeHalted s core i
     let m := q.lineOps.length
     t.slot core i = { q with st := .halted, line := false, lineOps := [] } ∧ (∀ r, t.strand? r = s.strand? r) ∧
      (∀ k j, t.token k j = s.token k j) ∧ t.ctxs = s.ctxs ∧ same t sb (sb + 64 * (n + m + 1)) ∧
      record t 0 (stopRecord 1 q.ctx core i s.cycle h.cause (headerDwords h n m)) ∧
      (∀ k j, q.lineOps[k]? = some j →
        record t (n + 1 + k) (stopRecord 3 q.ctx core i s.cycle h.cause (opDwords core j (s.token core j)))))) ∧
  (∀ (kind ctx core slot clk : Nat) (c : Cause) (rest : List Nat), rest.length ≤ 6 →
    let r := stopRecord kind ctx core slot clk c rest
    r.length = 64 ∧ ∀ j < 8, leNat ((r.drop (8 * j)).take 8) =
      ((kind * 2 ^ 60 + c.code * 2 ^ 32 + ctx * 2 ^ 16 + core * 2 ^ 8 + slot * 2 ^ 7) :: clk :: rest).getD j 0 % 2 ^ 64) ∧
  (∀ (s : State) (core idx : Nat) (halt : Bool), let e := s.token core idx
    e.cls ≠ 1 →
    (parks s core idx e = false → parkToken s core idx halt = s) ∧
    (halt = false → e.work.flight ≠ none → parkToken s core idx halt = s) ∧
    (parks s core idx e = true → halt = true ∨ e.work.flight = none → parkToken s core idx halt = s.setToken core idx { e with
      st := .parked, started := false, stuck := false
      work := if e.work.flight = none then e.work else { e.work with flight := none, first := none } })) ∧
  (∀ (s : State) (core i : Nat) (c : Ctx), let q := s.slot core i
    OwnStrands s core i → s.ctx? q.ctx = some c → c.halt = none → q.st = .running → q.line = false →
    (∀ e ∈ slotStrands s core i, e.2.long = [] ∧ e.2.held = [] ∧ e.2.wait ≠ .syncg) → slotTokens s core i q.ctx = [] →
    let t := freezeSlot s core i
    t.slot core i = { q with st := .frozen, freezing := false, pausedAt := s.cycle } ∧ t.mem = s.mem ∧
      (∀ e ∈ slotStrands s core i, ∃ w, t.strand? { core := core, strid := e.1 } =
          some { e.2 with wait := w, rewait := e.2.rewait || w != e.2.wait, withheldAt := none } ∧
        (w = e.2.wait ∨ w = .none) ∧ (w = e.2.wait ↔ e.2.wait = .none ∨ (∃ b p, e.2.wait = .bar b p) ∨ ∃ q rs, e.2.wait = .push q rs)) ∧
      ∀ r, (∀ e ∈ slotStrands s core i, r ≠ { core := core, strid := e.1 }) → t.strand? r = s.strand? r) ∧
  (∀ (s : State) (core i at_ : Nat), let q := s.slot core i
    let t := runSlot s core i at_
    OwnStrands s core i → t.mem = s.mem ∧
    (∀ e ∈ slotStrands s core i, ∃ y, t.strand? { core := core, strid := e.1 } = some y ∧
      y = { e.2 with islot := y.islot, age := s.cycle, waits := 0, notBefore := max e.2.notBefore at_ } ∧
      e.1 ∈ (mget ISlot.reset (t.core core).islots y.islot).order) ∧
    (q.marked = none → t.slot core i = { q with st := .running }) ∧
    ∀ c, q.marked = some c → t.slot core i = { q with st := .halted, marked := none } ∧
      ∀ k, s.ctx? q.ctx = some k →
        (k.halt ≠ none → t.ctx? q.ctx = some k) ∧
        (k.halt = none → ∃ h, t.ctx? q.ctx = some { k with halt := some h } ∧ h.cause = c.1 ∧ h.core = core ∧ h.slot = i)) ∧
  (∀ (s : State) (core i : Nat), let t := emptySlot s core i
    t.slot core i = { Slot.reset with saves := (s.slot core i).saves } ∧ (∀ j, j ≠ i → t.slot core j = s.slot core j) ∧
      slotStrands t core i = [] ∧ (∀ e ∈ (t.core core).teams, e.2.slot ≠ i) ∧ (∀ j ∈ (t.core core).einjq, j.cslot ≠ i) ∧
      (∀ r x, s.strand? r = some x → r.core ≠ core ∨ x.slot ≠ i → t.strand? r = some x) ∧
      (∀ k j, t.token k j = s.token k j) ∧ t.mem = s.mem ∧ t.ctxs = s.ctxs) ∧
  (∀ (s : State) (core i : Nat), let q := s.slot core i
    let n := q.saves + 1
    let sb := q.savebase
    let t := saveSlot s core i
    t.slot core i = { Slot.reset with saves := n } ∧ slotStrands t core i = [] ∧ (∀ k j, t.token k j = s.token k j) ∧
    (∃ g ∈ t.images, g.core = core ∧ g.slot = i ∧ g.count = n ∧ g.ctx = q.ctx ∧ g.data = q ∧ g.strands = slotStrands s core i) ∧
    ((∀ e ∈ slotStrands s core i, e.1 < 64 ∧ e.2.rstk.length ≤ 32) → (∀ a ∈ q.accs, a.1 < 4) →
      ∀ a, a < sb + 0xA000 ∨ sb + 0xBA000 + 16384 * (q.rf + q.sp + q.acc) ≤ a → Memory.byte t.mem a = Memory.byte s.mem a) ∧
    (physOk (sb + 0x2A000) = true →
      Memory.nat t.mem (sb + 0x2A000) 8 = imageWord core i n (poolBad s core i) q.marked % 2 ^ 64) ∧
    (physOk (sb + (0xBA000 + 16384 * q.rf)) = true → ∀ k < 16384 * q.sp,
      Memory.byte t.mem (sb + (0xBA000 + 16384 * q.rf) + k) = mget 0 q.scratch k)) ∧
  (∀ (s : State) (ctx : Nat) (c : Cause) (info : Dword) (k : Ctx), s.ctx? ctx = some k →
    let t := killContext s ctx c info
    t.ctx? ctx = some { k with
      killed := true, susp := [], heldRecs := []
      haltQ := if runsSomewhere s ctx then k.haltQ ++
        [{ cause := c, tinfo := info, src := 3, core := 0, slot := 0, dm := false, at_ := s.time }] else k.haltQ } ∧
      t.mem = s.mem ∧ (∀ l ∈ t.launches, l.2.ctx ≠ ctx) ∧ (∀ g ∈ t.images, g.ctx ≠ ctx) ∧
      ∀ core idx, let e := s.token core idx
        (e.gen ≠ 0 → e.ctx = ctx → e.st.terminal = false →
          (t.token core idx).cancel = true ∧ (t.token core idx).st = e.st) ∧
        (e.ctx ≠ ctx ∨ e.st.terminal = true → t.token core idx = e)) ∧
  (∀ (s : State) (ctx : Nat) (c : Ctx), let ps := slotsIn s ctx fun q => q.st == .halted
    s.ctx? ctx = some c → c.haltQ = [] → c.heldRecs = [] → c.susp = [] →
    (∀ k ∈ s.clusters, ∀ q ∈ k.2.queues, q.2.owner = some ctx → q.2.stuck = false) →
    (∀ p ∈ ps, OwnStrands s p.1 p.2 ∧ ∀ e ∈ slotStrands s p.1 p.2, e.2.long = [] ∧ e.2.held = [] ∧ e.2.wait ≠ .syncg) →
    let t := resumeContext s ctx
    t.mem = s.mem ∧ t.ctx? ctx = some { c with halt := none } ∧
      ∀ p ∈ ps, (t.slot p.1 p.2).st = .running ∧
        (∀ e ∈ slotStrands s p.1 p.2, t.strand? { core := p.1, strid := e.1 } = some { e.2 with stopped := false, stinfo := 0 }) ∧
        (∀ j ∈ slotTokens s p.1 p.2 ctx, (t.token p.1 j).st =
          if (s.token p.1 j).st = .parked then .pending else (s.token p.1 j).st) ∧
        ∀ n m, t.team? p.1 n = some m → m.slot = p.2 → ∀ b ∈ m.bars, b.2.first = s.cycle) ∧
  ∀ (s : State) (core i sb : Nat) (run : Bool), let w := loadNat s (sb + 0x2A000) 8
    let o := restoreSlot s core i sb run
    ((s.slot core i).st ≠ .empty ∨ physOk (sb + 0x2A000) = false → o = none) ∧
    (w / 2 ^ 63 = 1 → w / 2 ^ 62 % 2 = 1 ∨ w / 2 ^ 37 % 256 ≠ core ∨ findImage s core w = none → o = none) ∧
    (w / 2 ^ 63 ≠ 1 → (∀ f ∈ s.flash, ¬(f.valid = true ∧ f.core = core ∧ f.img.data.savebase = sb)) → o = none) ∧
    ∀ g, w / 2 ^ 63 = 1 → findImage s core w = some g →
      (pairOf s g.ctx core i = none → o = none) ∧
      ∀ p, pairOf s g.ctx core i = some p → (p.psize ≠ g.data.psize → o = none) ∧
        ∀ t, o = some t → g ∉ t.images ∧ (t.slot core i).pbase = p.pbase ∧ (t.slot core i).psize = p.psize ∧
          (t.slot core i).savebase = p.savebase ∧ (t.slot core i).ctx = g.data.ctx ∧
          (t.slot core i).st =
            if g.data.marked ≠ none ∨ (w / 2 ^ 61 % 2 = 1 ∧ Cause.ofCode (w / 2 ^ 45 % 2 ^ 16) ≠ none) then .halted
            else if run then .running else .shadow

/-! # Hosts, the management processor, links, peers, power and reset (R307 to R313, R350, R377, R378, R385 to R419) -/

/-- R389, R390: a frame that a port drops changes nothing but the port's count, and one whose sender may not ask is refused;
of the others, LAUNCH is answered with what becomes of it, RESUME resumes a context that can be, KILL kills one, MEMRD and
MEMWR reach memory, TIME every core; ANSWER, BEAT, RELEASE and CLAIM settle who owns the device, and an unassigned type is
refused. A frame whose tag fails is counted, and a gap in SEQ makes the port ask for the frames from the next SEQ on. (Where a
MEMRD and a MEMWR hold the address and the count is the model's choice, log entry 24; so are what a gap in SEQ is and the list of what
is asked for, log entry 8, the lengths of the payloads, log entry 78, and RESUME refused before every slot is HALTED, log entry
84.) -/
def Obligations.HostRequests : Prop :=
  ∀ (fr : Frame) (s u : State),
    let heard (who : Sender) : Prop := hear s fr = .taken u ∧ mayAsk u fr.port who = true
    let d := (List.range 32).map (dwordAt fr.payload)
    let id := fr.ctxid.toNat
    let addr := fr.pa.toNat
    let size := (dwordAt fr.payload 0).toNat
    let p := s.port fr.port
    let tagged : Prop := p.node = none ∨ Config.tagOk p.key (frameBytes fr) fr.tag = true
    (fr.port < 2 → p.up = true →
      (¬tagged → hear s fr = .dropped (s.modPort fr.port fun p => { p with dropped := p.dropped + 1 })) ∧
      (tagged → frameOk fr = true → fr.seq.toNat ≠ p.rx → hear s fr = .dropped (if seqGap p fr.seq.toNat
        then s.modPort fr.port fun p => { p with asked := p.asked ++ [p.rx] } else s)) ∧
      (tagged → frameOk fr = true → fr.seq.toNat = p.rx →
        hear s fr = .taken (s.modPort fr.port fun p => { p with rx := (p.rx + 1) % 2 ^ 32 }))) ∧
    (hear s fr = .dropped u →
      u.mem = s.mem ∧ u.cores = s.cores ∧ u.ctxs = s.ctxs ∧ u.out = s.out ∧
      ∀ i, i = Instr.launch fr ∨ i = .resume fr ∨ i = .kill fr ∨ i = .memrd fr ∨ i = .memwr fr ∨ i = .time fr ∨ i = .beat fr ∨
        i = .release fr ∨ i = .claim fr ∨ i = .answer fr ∨ i = .unassignedType fr ∨ i = .create fr ∨ i = .place fr →
        exec i s = .next u) ∧
    (hear s fr = .taken u → mayAsk u fr.port .owner = false →
      ∀ i, i = Instr.launch fr ∨ i = .resume fr ∨ i = .kill fr ∨ i = .memwr fr ∨ i = .time fr ∨ i = .beat fr ∨ i = .release fr ∨
        i = .create fr ∨ i = .place fr → exec i s = .next (refuseFrame u fr)) ∧
    (heard .owner → fr.payload.length = 256 →
      let reply (v : State) (x : Nat) : State := sendTo v fr.port 0x81 (some fr.seq.toNat) (lCtx d) [BitVec.ofNat 64 x]
      (∀ v, submit u d none = .yes v → exec (.launch fr) s = .next (reply v 0)) ∧
      (submit u d none = .busy → exec (.launch fr) s = .next (reply u 1)) ∧
      ∀ off, submit u d none = .refused off → exec (.launch fr) s = .next (reply u (2 + off * 2 ^ 8))) ∧
    (heard .owner → fr.payload = [] → resumable u id = true → exec (.resume fr) s = .next (resumeContext u id)) ∧
    (heard .owner → resumable u id = false → exec (.resume fr) s = .next (refuseFrame u fr)) ∧
    (∀ c, heard .owner → u.ctx? id = some c →
      exec (.kill fr) s = .next (if c.killed then u else killContext u id .kill 0)) ∧
    (heard .member → fr.payload.length = 8 → size ≤ 4096 → memRange addr size = true →
      exec (.memrd fr) s = .next (sendLen u fr.port 0x85 (some fr.seq.toNat) 0 size (dwordsIn (rawBytes u addr size)))) ∧
    (heard .owner → memRange addr fr.payload.length = true → exec (.memwr fr) s = .next (storeBytes u addr fr.payload)) ∧
    (heard .member → fr.payload.length = 8 → size ≤ 4096 → memRange addr size = false → deviceRange addr size = true →
      exec (.memrd fr) s = .next (sendLen u fr.port 0x85 (some fr.seq.toNat) 0 size
        (dwordsIn (natBytes size (deviceRead u addr size))))) ∧
    (heard .owner → memRange addr fr.payload.length = false → deviceRange addr fr.payload.length = true →
      exec (.memwr fr) s = .next (deviceWrite u addr fr.payload)) ∧
    (heard .member → memRange addr size = false → deviceRange addr size = false →
      exec (.memrd fr) s = .next (refuseFrame u fr)) ∧
    (heard .owner → fr.payload.length = 8 → ∃ t, exec (.time fr) s = .next t ∧ t.mem = u.mem ∧
      ∀ c, c < 192 → (t.core c).timeHost = dwordAt fr.payload 0 ∧ (t.core c).timeClk = BitVec.ofNat 64 u.cycle) ∧
    (heard .owner → exec (.beat fr) s = .next { u with lastBeat := u.time }) ∧
    (heard .owner → 2 ≤ fr.payload.length → ∀ n, n = ((dwordAt fr.payload 0).extractLsb' 0 16).toNat → u.owner ≠ some n →
      (u.ports.any fun p => p.2.up && p.2.node == some n) = true → exec (.release fr) s = .next (newOwner u n)) ∧
    (∀ n, heard .reader → (u.port fr.port).node = some n →
      (u.lastBeat + 250000 * microsecond ≤ u.time → exec (.claim fr) s = .next (newOwner u n)) ∧
      (u.time < u.lastBeat + 250000 * microsecond → exec (.claim fr) s = .next (refuseFrame u fr))) ∧
    (heard .any → (u.port fr.port).node = none →
      (Config.answerOk u.nodeKeys (Config.challenge (u.port fr.port).chal) fr.node fr.payload = true →
        let v := u.modPort fr.port fun p => { p with node := some fr.node.toNat, key := Config.sessionKey fr.payload fr.node }
        exec (.answer fr) s = .next (if v.owner = none then newOwner v fr.node.toNat else v)) ∧
      (Config.answerOk u.nodeKeys (Config.challenge (u.port fr.port).chal) fr.node fr.payload = false →
        exec (.answer fr) s = .next (refuseFrame u fr))) ∧
    (heard .any → exec (.unassignedType fr) s = .next (refuseFrame u fr))

/-- R391: each management request of the owner is carried out, or waits while an earlier one of its port has not replied; a
request with an effect replies with STATUS 0, and one that fails replies with its STATUS and OFF and has no effect. R307,
R310: an invalidation that the management processor asked for has removed the cached translations when it replies; a quiesce
replies; and a copy replies once the bytes are written. (That a quiesce has nothing left to wait for is the model's choice, log entry
15.) -/
def Obligations.ManagementRequests : Prop :=
  (∀ (fr : Frame) (s u : State), hear s fr = .taken u → mayAsk u fr.port .owner = true →
     let req (i : Instr) (f : MBody) : Prop :=
       ((∃ m ∈ u.mgmt, m.port = fr.port) →
         exec i s = .next (u.modPort fr.port fun p => { p with later := p.later ++ [fr] })) ∧
       ((∀ m ∈ u.mgmt, m.port ≠ fr.port) →
         (∀ v body, f u u.nextId fr = .done v body →
           exec i s = .next (mreply v fr.port fr.seq.toNat (dwordAt fr.payload 0) 0 0 body)) ∧
         (∀ st off, f u u.nextId fr = .fail st off →
           exec i s = .next (mreply u fr.port fr.seq.toNat (dwordAt fr.payload 0) st off [])) ∧
         ∀ v ctx core slot args, f u u.nextId fr = .wait v ctx core slot args → exec i s = .next { v with
           nextId := u.nextId + 1
           mgmt := v.mgmt ++ [{
             ticket := u.nextId, port := fr.port, seq := fr.seq.toNat, head := dwordAt fr.payload 0, ctx := ctx,
             core := core, slot := slot, args := args }] })
     req (.create fr) createBody ∧ req (.place fr) placeBody ∧ req (.csrset fr) csrsetBody ∧ req (.teardown fr) teardownBody ∧
     req (.inval fr) invalBody ∧ req (.quiesce fr) quiesceBody ∧ req (.pcopy fr) pcopyBody ∧ req (.freeze fr) freezeBody ∧
     req (.restore fr) restoreBody ∧ req (.qbind fr) qbindBody ∧ req (.qunbind fr) qunbindBody ∧ req (.policy fr) policyBody ∧
     req (.devnum fr) devnumBody ∧ req (.powercap fr) powercapBody ∧ req (.stepcap fr) stepcapBody ∧
     req (.ballastRead fr) ballastReadBody ∧ req (.ballastWrite fr) ballastWriteBody ∧ req (.energy fr) energyBody ∧
     req (.attest fr) attestBody ∧ req (.fuseup fr) fuseupBody ∧ req (.mgmtUnknownCode fr) unknownBody) ∧
  (∀ (s : State) (n : Nat) (m : Mgmt), mgmtOf s n = some m →
     (∀ v, m.code = 0x10 → s.invals.find? (fun v => v.ticket == n) = some v → v.by_ = none →
       exec (.invalidationComplete n) s = .next (finishMgmt { s with
         invals := s.invals.filter (fun u => u.ticket != n)
         tlb := s.tlb.map fun d => (d.1, d.2.filter fun e => !v.covers e)
         cores := s.cores.map fun k => (k.1, { k.2 with tlb := k.2.tlb.filter fun e => !v.covers e }) } m 0 0 [])) ∧
     (m.code = 0x11 → exec (.quiesceComplete n) s = .next (finishMgmt s m 0 0 [])) ∧
     (m.code = 0x12 → exec (.pcopyComplete n) s = .next (finishMgmt (storeBytes s (m.args.getD 1 0)
       (rawBytes s (m.args.getD 0 0) (m.args.getD 2 0))) m 0 0 [])) ∧
     (m.code ≠ 0x11 → exec (.quiesceComplete n) s = .next s) ∧ (m.code ≠ 0x12 → exec (.pcopyComplete n) s = .next s))

/-- R227, R264, R293, R307, R310, R356, R361, R382, R383, R391, R392, R398, R405, R410, R412, R417, R419: what the management
requests CREATE, PLACE, CSRSET, TEARDOWN, INVAL, QUIESCE, PCOPY, FREEZE, RESTORE, QBIND with and without unbind, POLICY, DEVNUM,
POWERCAP, STEPCAP, BALLAST read and written, ENERGY, ATTEST and FUSEUP do when their fields are good, which STATUS they give when
the device's state is against them, and STATUS 5 for an unknown code: a frame of the owner that holds the request executes to a
next state, in which that has happened and the reply is sent, or the request is under way. (The byte in which a field begins as OFF
is log entry 77, PLACE replacing a pair log entry 76, RESTORE's refusals log entry 85, the order of the report's fields log entry 18:
readings and choices of the model.) -/
def Obligations.ManagementEffects : Prop :=
  ∀ (s : State) (n : Nat) (fr : Frame),
    let id := bodyNat fr 0 0 16
    let core := bodyNat fr 0 0 8
    let slot := bodyNat fr 0 8 1
    let zero (i lo k : Nat) : Prop := ∀ j, j < k → (bodyDw fr i).getLsbD (lo + j) = false
    let len (k : Nat) : Prop := fr.payload.length = 8 + 8 * k
    let does (i : Instr) (f : MBody) (r : MRes) : Prop := MgmtDoes i f s n fr r
    (len 3 → fr.sarg = 0 → bodyNat fr 0 17 2 ≠ 3 → zero 0 20 44 → bodyNat fr 1 0 64 % 64 = 0 →
      bodyNat fr 2 0 64 % 4096 = 0 → bodyNat fr 2 0 64 < 2 ^ 52 →
      (∀ c, s.ctx? id = some c → does (.create fr) createBody (.fail 4 8)) ∧
      (s.ctx? id = none → (bodyDw fr 0).getLsbD 19 = false ∨ flashFits s 0 = true →
        does (.create fr) createBody (.done (s.setCtx id (newCtx ((bodyDw fr 0).getLsbD 16) ((bodyDw fr 0).extractLsb' 17 2)
          ((bodyDw fr 0).getLsbD 19) (bodyNat fr 1 0 64) (bodyNat fr 2 0 64))) [])) ∧
      (s.ctx? id = none → (bodyDw fr 0).getLsbD 19 = true → flashFits s 0 = false →
        does (.create fr) createBody (.fail 4 10))) ∧
    (∀ c, let ps := (List.range fr.sarg).map (pairAt fr)
      len (2 * fr.sarg + 2) → 1 ≤ fr.sarg → fr.sarg ≤ 254 → s.ctx? id = some c → zero 0 16 48 → zero (2 * fr.sarg + 1) 0 64 →
      c.killed = false → c.ending = none → c.persistent = false →
      (∀ j, j < fr.sarg → pairError fr ps j = none ∧ pairConflict s fr ps c.secure j = none) →
      does (.place fr) placeBody (.done (s.setCtx id { c with
        pairs := (c.pairs.filter fun q => !ps.any fun p => p.core == q.core && p.slot == q.slot) ++ ps }) [])) ∧
    (∀ c, let k := bodyNat fr 0 16 8
      let l := bodyNat fr 0 24 1
      len 2 → csrAssigned fr.sarg = true → s.ctx? id = some c →
      (if ofContext fr.sarg = true then k = 0 else ∃ p ∈ c.pairs, p.core = k) →
      (if ofSlot fr.sarg = true then ∃ p ∈ c.pairs, p.core = k ∧ p.slot = l else l = 0) → zero 0 25 39 →
      (fr.sarg ≠ 0 → fr.sarg ≠ 0x081 →
        (∀ v, csrPut s { ctx := id, core := k, slot := l } fr.sarg (bodyDw fr 1) true = some v →
          does (.csrset fr) csrsetBody (.done v [])) ∧
        (csrPut s { ctx := id, core := k, slot := l } fr.sarg (bodyDw fr 1) true = none →
          does (.csrset fr) csrsetBody (.fail 1 16))) ∧
      (∀ v, fr.sarg = 0 → install s (hwWho id k) (bodyDw fr 1).toNat = .ok v → does (.csrset fr) csrsetBody (.done v [])) ∧
      ∀ t, fr.sarg = 0x081 → s.ctx? ((bodyDw fr 1).extractLsb' 48 16).toNat = some t → t.secure = c.secure →
        does (.csrset fr) csrsetBody (.wait (requestInval (s.modCore k fun e => { e with invcmd := bodyDw fr 1 })
          ((bodyDw fr 1).extractLsb' 48 16).toNat (s.core k).invbase.toNat ((bodyDw fr 1).extractLsb' 0 48).toNat n none)
          ((bodyDw fr 1).extractLsb' 48 16).toNat k 0 [])) ∧
    (∀ c, len 1 → fr.sarg = 0 → s.ctx? id = some c → zero 0 16 48 → c.ending = none →
      (contextGone s id = true → does (.teardown fr) teardownBody (.done (discardCtx s id) [BitVec.ofNat 64 c.energy])) ∧
      (contextGone s id = false →
        does (.teardown fr) teardownBody (.wait (s.modCtx id fun c => { c with ending := some n }) id 0 0 []))) ∧
    (∀ c, len 3 → fr.sarg = 0 → s.ctx? id = some c → zero 0 16 48 → bodyNat fr 1 0 64 % 2 ^ 16 = 0 →
      does (.inval fr) invalBody (.wait (requestInval s id (bodyNat fr 1 0 64) (bodyNat fr 2 0 64) n none) id 0 0 [])) ∧
    (∀ c, len 2 → fr.sarg = 0 → s.ctx? id = some c → zero 0 16 48 → vaOk (bodyNat fr 1 0 64) = true →
      does (.quiesce fr) quiesceBody (.wait s id 0 0 [])) ∧
    (len 3 → fr.sarg = 0 → bodyNat fr 2 0 64 % 2 ^ 16 = 0 → memRange (bodyNat fr 0 0 64) (bodyNat fr 2 0 64) = true →
      memRange (bodyNat fr 1 0 64) (bodyNat fr 2 0 64) = true →
      does (.pcopy fr) pcopyBody (.wait s 0 0 0 [bodyNat fr 0 0 64, bodyNat fr 1 0 64, bodyNat fr 2 0 64])) ∧
    (len 1 → fr.sarg = 0 → core ≤ 191 → zero 0 9 55 → let q := s.slot core slot
      ((q.st == .running && !q.line && !q.freezing) = true →
        does (.freeze fr) freezeBody (.wait (freezeSlot s core slot) q.ctx core slot [0x20])) ∧
      ((q.st == .running && !q.line && !q.freezing) = false → does (.freeze fr) freezeBody (.fail 4 8))) ∧
    (len 2 → fr.sarg = 0 → core ≤ 191 → zero 0 10 54 → bodyNat fr 1 0 64 % 4096 = 0 →
      (∀ v, restoreSlot s core slot (bodyNat fr 1 0 64) ((bodyDw fr 0).getLsbD 9) = some v → does (.restore fr) restoreBody (.done v [])) ∧
      (restoreSlot s core slot (bodyNat fr 1 0 64) ((bodyDw fr 0).getLsbD 9) = none → does (.restore fr) restoreBody (.fail 4 8))) ∧
    (∀ c, len 1 → fr.sarg < 16 → core ≤ 47 → zero 0 8 8 → s.ctx? (bodyNat fr 0 16 16) = some c → zero 0 32 32 →
      queueIdle (s.queue core (fr.sarg % 4)) = true →
      does (.qbind fr) qbindBody (.done (s.modQueue core (fr.sarg % 4) fun k => { k with
        owner := some (bodyNat fr 0 16 16), dispatch := fr.sarg / 4 % 2 == 1, base := 0, size := 0, stuck := false }) [])) ∧
    (len 1 → fr.sarg < 16 → core ≤ 47 → zero 0 8 8 → zero 0 32 32 →
      (queueIdle (s.queue core (fr.sarg % 4)) = true →
        does (.qunbind fr) qunbindBody (.done (s.modQueue core (fr.sarg % 4) fun k => { k with
          owner := none, dispatch := false, base := 0, size := 0, stuck := false }) [])) ∧
      (queueIdle (s.queue core (fr.sarg % 4)) = false → does (.qunbind fr) qunbindBody (.fail 4 8))) ∧
    (len 1 → fr.sarg ≤ 1 → core ≤ 191 → zero 0 8 56 →
      does (.policy fr) policyBody (.done (s.modCore core fun k => { k with rrNext := some (fr.sarg == 1) }) [])) ∧
    (len 0 → fr.sarg ≤ 1023 → s.ctxs = [] → does (.devnum fr) devnumBody (.done { s with devnum := fr.sarg } [])) ∧
    (len 0 → fr.sarg ≤ 1023 → s.ctxs ≠ [] → does (.devnum fr) devnumBody (.fail 4 2)) ∧
    (len 0 → 800 ≤ fr.sarg → fr.sarg ≤ 3000 →
      does (.powercap fr) powercapBody (.done { s with kettle := { s.kettle with cport := fr.sarg } } [])) ∧
    (len 0 → fr.sarg < 800 ∨ 3000 < fr.sarg → does (.powercap fr) powercapBody (.fail 1 2)) ∧
    (len 1 → 800 ≤ fr.sarg → fr.sarg ≤ 3000 → bodyNat fr 0 0 3 ≠ 0 → zero 0 3 61 → does (.stepcap fr) stepcapBody
      (.done { s with kettle := { s.kettle with caps := mput s.kettle.caps (bodyNat fr 0 0 3) fr.sarg } } [])) ∧
    (len 0 → fr.sarg = 0 → does (.ballastRead fr) ballastReadBody (.done s [ballastWord s])) ∧
    (len 1 → fr.sarg = 1 → bodyNat fr 0 16 12 ≤ 3000 →
      let v : State := endBallast { s with kettle := { s.kettle with
        ballastEn := (bodyDw fr 0).getLsbD 31, ballastFloor := bodyNat fr 0 16 12 } }
      does (.ballastWrite fr) ballastWriteBody (.done v [ballastWord v])) ∧
    (len 1 → fr.sarg = 0 → zero 0 16 48 →
      (id = 0xFFFF → does (.energy fr) energyBody (.done s [BitVec.ofNat 64 s.kettle.energySys])) ∧
      ∀ c, id ≠ 0xFFFF → s.ctx? id = some c → does (.energy fr) energyBody (.done s [BitVec.ofNat 64 c.energy])) ∧
    (len 4 → fr.sarg = 0 → s.lmsIndex < 2 ^ 20 →
      let text := reportText s [bodyDw fr 0, bodyDw fr 1, bodyDw fr 2, bodyDw fr 3] false
      does (.attest fr) attestBody (.done { s with lmsIndex := s.lmsIndex + 1 }
        (text ++ Config.identitySign text ++ Config.lmsSign s.lmsIndex text))) ∧
    (len 4 → fr.sarg = 0 → 2 ^ 20 ≤ s.lmsIndex →
      let text := reportText s [bodyDw fr 0, bodyDw fr 1, bodyDw fr 2, bodyDw fr 3] true
      does (.attest fr) attestBody (.done s (text ++ Config.identitySign text ++ List.replicate lmsDwords 0))) ∧
    (len 0 → 1 ≤ fr.sarg → fr.sarg ≤ 64 → fr.sarg ≤ s.fwVersion → s.fuses ≤ fr.sarg →
      does (.fuseup fr) fuseupBody (.done { s with fuses := fr.sarg } [])) ∧
    does (.mgmtUnknownCode fr) unknownBody (.fail 5 0)

/-- R395, R396, R399 (LINK_DROP, LINK_RETURN, LINK_LOST): a host link that drops loses its authentication and gets a new
challenge on its return; a UALink port that drops retrains, and is lost after a second, which the nodes are told. R400 to R402
(ABORT_RECEIVED, ABORT_EXPIRY, PEER_DOWN): an abort faults the operations of its group and sequence with PEER_ABORT and the origin as
its detail, but those that have ended, have met a fault or have no chunk left, or, where there is none, it is kept for a second; a
member from which an operation awaits something and has received nothing for a second faults it. R416 (RTCOMMIT, RTCOMMIT_COMPLETE),
in every state: a commit puts every pending entry of the region table in force together, and until it is complete an access may
still be checked by the old table, as a whole. (That a first message counts among what is awaited, and in what order the members
are awaited, is the model's choice, log entry 95; which table checks an access, log entry 3.) -/
def Obligations.LinksAbortsAndCommits : Prop :=
  (∀ (s : State) (p : Nat),
     (p < 2 → exec (.linkDrop true p) s =
       .next (s.modPort p fun k => { k with up := false, node := none, key := 0 })) ∧
     (p < 2 → (s.port p).up = false →
       exec (.linkReturn true p) s = .next (challengePort (s.modPort p fun k => { k with up := true }) p)) ∧
     (p < 12 → mget .up s.links p = .up →
       exec (.linkDrop false p) s = .next { s with links := mput s.links p (.retraining s.time) }) ∧
     (p < 12 → exec (.linkReturn false p) s = .next { s with links := mput s.links p .up }) ∧
     ∀ t, mget .up s.links p = .retraining t →
       (t + 1000000 * microsecond ≤ s.time → exec (.linkLost p) s =
         .next (postEvent { s with links := mput s.links p .lost } .linkLost [BitVec.ofNat 64 p])) ∧
       (s.time < t + 1000000 * microsecond → exec (.linkLost p) s = .next s)) ∧
  (∀ (s : State),
     exec .rtcommit s = .next { s with regionsOld := s.regions, regions := s.regionsPending, rtBusy := true, rtAt := s.time } ∧
     exec .rtcommitComplete s = .next { s with rtBusy := false } ∧
     (∀ t old secure k peer pa, exec .rtcommit s = .next t →
       regionAllowsBy t old secure k peer pa = (secure || tableAllows (if old then s.regions else s.regionsPending) k peer pa)) ∧
     (∀ t key k peer pa, exec .rtcommitComplete s = .next t → oldTable t key = false ∧
       regionAllowsBy t (oldTable t key) false k peer pa = tableAllows s.regions k peer pa) ∧
     (∀ gid seq origin,
       let hit (e : Token) : Bool := e.gen != 0 && e.cls == 4 && e.work.group != [] && e.grp 0 == gid && e.grp 1 == seq
       ((∀ k ∈ s.cores, ∀ t ∈ k.2.tokens, hit t.2 = false) → exec (.abortReceived gid seq origin) s =
         .next { s with aborts := s.aborts ++ [{ gid := gid, seq := seq, origin := origin, at_ := s.time }] }) ∧
       ((∃ k ∈ s.cores, ∃ t ∈ k.2.tokens, hit t.2 = true) → OwnTokens s → ∃ t, exec (.abortReceived gid seq origin) s = .next t ∧
         t.mem = s.mem ∧ t.aborts = s.aborts ∧ ∀ core idx, let e := s.token core idx
           (hit e = true → e.st.terminal = false → e.work.fault = none → e.work.prog < collTotal e →
             t.token core idx = { e with work := { e.work with fault := some (.peerAbort, BitVec.ofNat 64 origin, false) } }) ∧
           (hit e = false ∨ e.st.terminal = true ∨ e.work.fault ≠ none ∨ collTotal e ≤ e.work.prog → t.token core idx = e))) ∧
     (∀ gid seq, ∃ t, exec (.abortExpiry gid seq) s = .next t ∧ ∀ a, a ∈ t.aborts ↔
       a ∈ s.aborts ∧ ¬(a.gid = gid ∧ a.seq = seq ∧ a.at_ + 1000000 * microsecond ≤ s.time)) ∧
     ∀ core idx peer o, let e := s.token core idx
       e.coll = some o →
       (e.active = true → e.work.prog < collTotal e → 1 < e.grp 2 → e.work.pend = [] →
         (peer ∈ awaited s e o → mget e.work.heard e.work.hear peer + 1000000 * microsecond ≤ s.time →
           exec (.peerDown core idx peer) s = .next (failOp s core idx .peerDown (BitVec.ofNat 64 peer) false)) ∧
         (peer ∉ awaited s e o ∨ s.time < mget e.work.heard e.work.hear peer + 1000000 * microsecond →
           exec (.peerDown core idx peer) s = .next s)) ∧
       (e.unmets s ≠ [] → awaited s e o = e.unmets s) ∧
       (e.unmets s = [] → o.kind ≠ 4 → (∀ m c how, chunkStepOf o.kind (e.grp 2) (e.grp 3) o.root e.work.prog = .recv m c how →
           awaited s e o = [e.members.getD m 0]) ∧
         ∀ m c how, chunkStepOf o.kind (e.grp 2) (e.grp 3) o.root e.work.prog = .send m c how → awaited s e o = []))

/-- R397, R398, R415, R416: a peer's request is performed where it lies in memory and the region table lets peers in, and is answered
with an error elsewhere: a write stores the bytes of its mask, and an atomic answers the old bytes and stores the new value; no other
byte changes. An atomic whose code is none of R192, or whose address is not aligned, is refused as well. (The operation code of an
atomic is the model's, log entry 69.) -/
def Obligations.PeerRequests : Prop :=
  ∀ (s : State) (rq : PeerReq), let known : Prop := rq.op % 16 ≤ 7 ∧ rq.op < 32 ∧ (rq.op / 16 = 1 → rq.op % 16 = 1 ∨ rq.op % 16 = 2)
    (∀ k a n, s.rtBusy = false → (peerOk s k a n = true ↔ 1 ≤ n ∧ n ≤ 256 ∧ memRange a n = true ∧
      tableAllows s.regions k true a = true ∧ tableAllows s.regions k true (a + n - 1) = true)) ∧
    (peerOk s .read rq.addr rq.size = true → exec (.peerRead rq) s =
      .next (peerAnswer (countHot s rq.addr) rq true (rawBytes s rq.addr rq.size))) ∧
    (peerOk s .write rq.addr rq.size = true → ∃ t, exec (.peerWrite rq) s = .next t ∧ t.out = (peerAnswer s rq true []).out ∧
      (∀ a, (a < rq.addr ∨ rq.addr + rq.size ≤ a) → Memory.byte t.mem a = Memory.byte s.mem a) ∧
      ∀ i, i < rq.size → Memory.byte t.mem (rq.addr + i) =
        if rq.mask.getD i false then rq.data.getD i 0 else Memory.byte s.mem (rq.addr + i)) ∧
    (∀ n, n = (if rq.dwide then 8 else 4) →
      (known → rq.addr % n = 0 → peerOk s .atomic rq.addr n = true →
        let old := rawBytes s rq.addr n
        let new := atomicNew (rq.op % 16) (rq.op / 16 == 1) n (leNat old) (leNat (rq.data.take n))
          (leNat ((rq.data.drop n).take n))
        exec (.peerAtomic rq) s = .next (peerAnswer (storeNat (countHot s rq.addr) rq.addr n new) rq true old)) ∧
      (¬known ∨ rq.addr % n ≠ 0 ∨ peerOk s .atomic rq.addr n = false →
        exec (.peerAtomic rq) s = .next (peerAnswer s rq false []))) ∧
    (peerOk s .read rq.addr rq.size = false → exec (.peerRead rq) s = .next (peerAnswer s rq false [])) ∧
    (peerOk s .write rq.addr rq.size = false → exec (.peerWrite rq) s = .next (peerAnswer s rq false []))

/-- R309, R311 to R313, R405 to R412: the power-step pins, whose code counts once it has been stable for 2 µs; the comparison of
power with the cap; temperature samples; the division of energy, of which a context that had no event gets nothing; and the care
of memory: the decay of hot-page counts, refresh and patrol, which step 2 of the throttle order defers but for a line that is about to
pass its 24 hours, and which moves a row to a shorter bin only, or to a spare row while its bank has one. (A domain without a sample
reads 25, log entry 11; accounts wrap, log entry 91; the bins and spares of the boot and the margin of patrol are free, log entries 97
and 98.) -/
def Obligations.PowerAndMemoryCare : Prop :=
  ∀ (s : State),
    (∀ code, code ≠ s.kettle.pinNext → exec (.stepPinChange code) s = .next { s with kettle := { s.kettle with
      pin := if s.kettle.pinAt + 2 * microsecond ≤ s.time then s.kettle.pinNext else s.kettle.pin
      pinNext := code, pinAt := s.time } }) ∧
    exec (.stepPinChange s.kettle.pinNext) s = .next s ∧
    (∀ watts, s.kettle.tickAt + 10 * microsecond ≤ s.time →
      let low := if watts + 150 < capNow s then some (s.kettle.lowAt.getD s.time) else none
      let d := nextDepths s watts low
      let u := withKettle s fun k => { k with power := watts, tickAt := s.time, lowAt := low, depths := d }
      exec (.kettleTick watts) s = .next (endBallast u)) ∧
    (∀ watts, s.time < s.kettle.tickAt + 10 * microsecond → exec (.kettleTick watts) s = .next s) ∧
    (∀ temps, ∃ t, exec (.temperatureSample temps) s = .next t ∧ t.mem = s.mem ∧
      t.kettle.temps = temps.foldl (fun m e => if e.1 < 120 then mput m e.1 e.2 else m) s.kettle.temps) ∧
    (∀ measured traffic, s.kettle.energyAt + 1000 * microsecond ≤ s.time → ∃ t, exec (.energyInterval measured traffic) s = .next t ∧
      t.mem = s.mem ∧ t.cores = s.cores ∧ t.energyUse = [] ∧ t.kettle.energyAt = s.time ∧
      (∀ n c, s.ctx? n = some c → t.ctx? n = some { c with energy := (c.energy + energyShare s traffic n) % 2 ^ 64 }) ∧
      ((∀ n, energyEvents s n = []) → t.kettle.energySys = (s.kettle.energySys + measured) % 2 ^ 64)) ∧
    (∀ traffic n, energyEvents s n = [] → energyShare s traffic n = 0) ∧
    (∀ measured traffic, s.time < s.kettle.energyAt + 1000 * microsecond → exec (.energyInterval measured traffic) s = .next s) ∧
    (∀ die, mget 0 s.hotAt die + 2 ^ 24 ≤ s.cycle → ∃ t, exec (.hotPageDecay die) s = .next t ∧ t.mem = s.mem ∧
      t.hot = s.hot.filterMap fun e => if homeDie (e.1 * 2 ^ 16) = die then (if e.2 / 2 = 0 then none else some (e.1, e.2 / 2))
        else some e) ∧
    (∀ die, s.cycle < mget 0 s.hotAt die + 2 ^ 24 → exec (.hotPageDecay die) s = .next s) ∧
    (∀ row domain due, due = mget 0 s.refreshed row + refreshInterval (binOf s row) (mget 25 s.kettle.temps domain) →
      (due ≤ s.time → exec (.refresh row domain) s = .next { s with refreshed := mput s.refreshed row s.time }) ∧
      (s.time < due → exec (.refresh row domain) s = .next s)) ∧
    (∀ line bad row, mget 0 s.kettle.depths 2 ≠ 0 → s.time + Config.patrolMargin < mget 0 s.patrolled line + 86400000000 * microsecond →
      exec (.patrol line bad row) s = .next s) ∧
    ∀ line bad row, mget 0 s.kettle.depths 2 = 0 ∨
        mget 0 s.patrolled line + 86400000000 * microsecond ≤ s.time + Config.patrolMargin →
      ∃ t, exec (.patrol line bad row) s = .next t ∧ t.mem = s.mem ∧ mget 0 t.patrolled line = s.time ∧
        (∀ l, l ∈ t.unc ↔ l ∈ s.unc ∨ (bad = true ∧ l = line)) ∧
        (row = none → t.rowBin = s.rowBin ∧ t.spareRows = s.spareRows ∧ t.out = s.out) ∧
        ∀ r b n, row = some (r, b, n) →
          (∀ k, binOf t k = if k = r ∧ n ≤ 3 then max (binOf s r) n else binOf s k) ∧
          (∀ k, sparesUsed t k = if k = b ∧ 3 < n ∧ sparesUsed s b < 32 then sparesUsed s b + 1 else sparesUsed s k) ∧
          t.out = if 3 < n ∧ sparesUsed s b = 32 then (postEvent s .pageRetire [BitVec.ofNat 64 (line * 64 / 2 ^ 16)]).out else s.out

/-- R35, R385, R387, R395, R417: a power failure halts every context and stops the collectives, the slots of persistent
contexts are drained in order, with their halt areas, while the hold-up store lasts, and the return of power resets the device and
lists the valid images to both nodes. Reset keeps what secure memory, fuses and flash hold, sets the clock to zero, empties memory and
the region table, challenges both ports, and reports the rows that its boot leaves without a spare (R312); the image in flash is
verified at every boot, and in recovery an uploaded one. (Empty memory is the model's choice, log entry 9, the layout of the EVENT that
lists images log entry 23, the drain and the report to both nodes log entry 88, and the rows of a boot are free, log entry 97.) -/
def Obligations.PowerFailureAndReset : Prop :=
  ∀ (s : State),
    (s.pfail = false → ∃ t, exec .pfail s = .next t ∧ t.pfail = true ∧ t.mem = s.mem ∧
      ∀ n c, s.ctx? n = some c → ∃ c', t.ctx? n = some c' ∧ c'.haltQ = if c.killed then c.haltQ else
        c.haltQ ++ [{ cause := .pfail, tinfo := 0, src := 4, core := 0, slot := 0, dm := false, at_ := s.time }]) ∧
    (∀ core i, s.pfail = true → s.holdUp = true → (drainOrder s).find? (fun p => !s.drained.contains p) = some (core, i) →
      (s.slot core i).st ≠ .running → exec (.pfailDrain core i) s = .next { s with
        flash := (s.flash.filter fun g =>
          !(g.core == core && g.slot == i && g.img.data.savebase == (s.slot core i).savebase)) ++ [{
            core := core, slot := i, valid := true, halt := rawBytes s (s.slot core i).savebase 0xA000
            img := controlOf s core i ((s.slot core i).saves + 1) }]
        drained := s.drained ++ [(core, i)] }) ∧
    (∀ core i, s.holdUp = false → exec (.pfailDrain core i) s = .next s) ∧
    (s.pfail = true → exec .holdUpRunsOut s = .next { s with holdUp := false }) ∧
    (∀ u, s.pfail = true → exec .deviceReset s = .next u → exec .powerReturn s = .next (postEvent u .powerFailImages
      ((s.flash.filter (·.valid)).map fun f => BitVec.ofNat 64 (f.img.ctx * 2 ^ 16 + f.core * 2 + f.slot)))) ∧
    (s.pfail = false → exec .powerReturn s = .next s) ∧
    (∃ t, exec .deviceReset s = .next t ∧ t.cycle = 0 ∧ t.mem = [] ∧ t.ctxs = [] ∧ t.regions = [] ∧ t.owner = none ∧
      t.pfail = false ∧ t.flash = s.flash ∧ t.fuses = s.fuses ∧ t.lmsIndex = s.lmsIndex ∧ t.nodeKeys = s.nodeKeys ∧
      t.secure = s.secure ∧ t.boots = s.boots + 1 ∧
      t.booted = (Config.imageOk (flashImage s) && decide (s.fuses ≤ Config.imageVersion (flashImage s))) ∧
      (∀ r, t.strand? r = none) ∧ (∀ core i, (t.slot core i).st = .empty) ∧
      ∃ c0 c1 rest, t.out = s.out ++ c0 :: c1 :: rest ∧ c0.port = 0 ∧ c0.typ = 0x86 ∧ c1.port = 1 ∧ c1.typ = 0x86 ∧
        rest.map (fun m => (m.port, m.typ, m.body)) = (Config.bootRetires t.boots).flatMap fun e =>
          if sparesUsed t e.2 = 32 then [(0, 0x84, [2, BitVec.ofNat 64 e.1]), (1, 0x84, [2, BitVec.ofNat 64 e.1])] else []) ∧
    (s.booted = true → ∀ image, exec (.imageUpload image) s = .next s) ∧
    (s.booted = false → ∀ image, exec (.imageUpload image) s = .next { s with
      fwImage := some image
      booted := Config.imageOk image && decide (s.fuses ≤ Config.imageVersion image)
      fwVersion := if Config.imageOk image && decide (s.fuses ≤ Config.imageVersion image) then Config.imageVersion image
        else s.fwVersion })
end

