-- ==== Sys2Proof/Laws/Map.lean ====
section
/-! SUPPORT. Laws of the finite maps and of the byte memory: reading after a write, and that every memory operation keeps the
canonical form. -/

namespace Sys2Proof.Laws

open Sys2Proof.Machine

section
variable {α : Type}

@[simp] theorem mfind_mput_same (m : Map α) (k : Nat) (x : α) : mfind (mput m k x) k = some x := by
  induction m with
  | nil => simp [mput, mfind]
  | cons e r ih =>
    obtain ⟨j, y⟩ := e
    by_cases h : j = k
    · simp [mput, mfind, h]
    · by_cases g : k < j
      · simp [mput, mfind, h, g]
      · simp [mput, mfind, h, g, ih]

theorem mfind_mput_ne (m : Map α) {k j : Nat} (x : α) (h : j ≠ k) : mfind (mput m k x) j = mfind m j := by
  induction m with
  | nil => simp [mput, mfind, Ne.symm h]
  | cons e r ih =>
    obtain ⟨i, y⟩ := e
    by_cases hi : i = k
    · subst hi; simp [mput, mfind, Ne.symm h]
    · by_cases g : k < i
      · simp [mput, mfind, hi, g, Ne.symm h]
      · simp only [mput, hi, g, if_false, mfind, ih]

theorem mfind_mput (m : Map α) (k j : Nat) (x : α) : mfind (mput m k x) j = if j = k then some x else mfind m j := by
  by_cases h : j = k
  · subst h; simp
  · simp [h, mfind_mput_ne m x h]

@[simp] theorem mget_mput_same (d : α) (m : Map α) (k : Nat) (x : α) : mget d (mput m k x) k = x := by simp [mget]

theorem mget_mput_ne (d : α) (m : Map α) {k j : Nat} (x : α) (h : j ≠ k) : mget d (mput m k x) j = mget d m j := by
  simp [mget, mfind_mput_ne m x h]

theorem mget_mput (d : α) (m : Map α) (k j : Nat) (x : α) : mget d (mput m k x) j = if j = k then x else mget d m j := by
  by_cases h : j = k
  · subst h; simp
  · simp [h, mget_mput_ne d m x h]

@[simp] theorem mput_mput_same (m : Map α) (k : Nat) (x y : α) : mput (mput m k x) k y = mput m k y := by
  induction m with
  | nil => simp [mput]
  | cons e r ih =>
    obtain ⟨j, z⟩ := e
    by_cases h : j = k
    · simp [mput, h]
    · by_cases g : k < j
      · simp [mput, h, g]
      · simp [mput, h, g, ih]

theorem mfind_mdel (m : Map α) (k j : Nat) : mfind (mdel m k) j = if j = k then none else mfind m j := by
  induction m with
  | nil => simp [mdel, mfind]
  | cons e r ih =>
    obtain ⟨i, y⟩ := e
    by_cases h : i = k <;> by_cases g : i = j <;> by_cases q : j = k <;> simp_all [mdel, mfind]

theorem mget_cput [DecidableEq α] (d : α) (m : Map α) (k j : Nat) (x : α) :
    mget d (cput d m k x) j = if j = k then x else mget d m j := by
  unfold cput
  by_cases h : x = d
  · subst h
    by_cases g : j = k <;> simp [mget, mfind_mdel, g]
  · simp [h, mget_mput]

end

/-! ## Bytes -/

@[simp] theorem byte_put (m : Map Byte) (a j : Nat) (b : Byte) :
    Memory.byte (Memory.put m a b) j = if j = a then b else Memory.byte m j := mget_cput 0 m a j b

/-- R6: a write leaves every byte outside it alone. -/
theorem byte_putBytes_out (m : Map Byte) (a j : Nat) (bs : List Byte) (h : j < a ∨ a + bs.length ≤ j) :
    Memory.byte (Memory.putBytes m a bs) j = Memory.byte m j := by
  induction bs generalizing m a with
  | nil => rfl
  | cons b r ih =>
    simp only [List.length_cons] at h
    rw [Memory.putBytes, ih _ _ (by omega), byte_put, if_neg (by omega)]

/-- R6: a byte reads as it was written. -/
theorem byte_putBytes_in (m : Map Byte) (a i : Nat) (bs : List Byte) (h : i < bs.length) :
    Memory.byte (Memory.putBytes m a bs) (a + i) = bs[i] := by
  induction bs generalizing m a i with
  | nil => simp at h
  | cons b r ih =>
    cases i with
    | zero => rw [Memory.putBytes, byte_putBytes_out _ _ _ _ (by omega)]; simp
    | succ i =>
      have := ih (Memory.put m a b) (a + 1) i (by simpa using h)
      rw [Memory.putBytes, show a + (i + 1) = a + 1 + i by omega, this]; simp

theorem natBytes_length (n x : Nat) : (natBytes n x).length = n := by
  induction n generalizing x with
  | zero => rfl
  | succ n ih => simp [natBytes, ih]

theorem leNat_natBytes (n x : Nat) : leNat (natBytes n x) = x % 256 ^ n := by
  induction n generalizing x with
  | zero => simp [natBytes, leNat, Nat.mod_one]
  | succ n ih =>
    have h : (BitVec.ofNat 8 x).toNat = x % 256 := rfl
    rw [natBytes, leNat, ih, h, pow_succ', Nat.mod_mul]

/-- R6: what was written is read back. -/
theorem nat_putNat (m : Map Byte) (a n x : Nat) : Memory.nat (Memory.putNat m a n x) a n = x % 256 ^ n := by
  have h : Memory.bytes (Memory.putNat m a n x) a n = natBytes n x := by
    apply List.ext_getElem (by simp [Memory.bytes, natBytes_length])
    intro i h1 h2
    simp only [Memory.bytes, List.getElem_map, List.getElem_range, Memory.putNat]
    exact byte_putBytes_in _ _ _ _ h2
  rw [Memory.nat, h, leNat_natBytes]

/-! ## The canonical form -/

theorem wfFrom_le {m : Map Byte} {a b : Nat} (hab : a ≤ b) (h : Memory.wfFrom b m = true) : Memory.wfFrom a m = true := by
  cases m with
  | nil => rfl
  | cons e r =>
    obtain ⟨j, y⟩ := e
    simp only [Memory.wfFrom, Bool.and_eq_true, decide_eq_true_eq] at h ⊢
    exact ⟨⟨by omega, h.1.2⟩, h.2⟩

theorem wfFrom_mdel {m : Map Byte} {lo : Nat} (k : Nat) (h : Memory.wfFrom lo m = true) :
    Memory.wfFrom lo (mdel m k) = true := by
  induction m generalizing lo with
  | nil => rfl
  | cons e r ih =>
    obtain ⟨j, y⟩ := e
    simp only [Memory.wfFrom, Bool.and_eq_true, decide_eq_true_eq] at h
    by_cases g : j = k
    · simpa [mdel, g] using wfFrom_le (by omega) (ih h.2)
    · simpa [mdel, g, Memory.wfFrom] using ⟨⟨h.1.1, by simpa using h.1.2⟩, ih h.2⟩

theorem wfFrom_mput {m : Map Byte} {lo k : Nat} {b : Byte} (hk : lo ≤ k) (hb : b ≠ 0) (h : Memory.wfFrom lo m = true) :
    Memory.wfFrom lo (mput m k b) = true := by
  induction m generalizing lo with
  | nil => simpa [mput, Memory.wfFrom, hk] using hb
  | cons e r ih =>
    obtain ⟨j, y⟩ := e
    simp only [Memory.wfFrom, Bool.and_eq_true, decide_eq_true_eq] at h
    by_cases g : j = k
    · subst g
      simp only [mput, if_true, Memory.wfFrom, Bool.and_eq_true, decide_eq_true_eq]
      exact ⟨⟨h.1.1, by simpa using hb⟩, h.2⟩
    · by_cases q : k < j
      · simp only [mput, if_neg g, if_pos q, Memory.wfFrom, Bool.and_eq_true, decide_eq_true_eq]
        exact ⟨⟨hk, by simpa using hb⟩, ⟨by omega, h.1.2⟩, h.2⟩
      · simp only [mput, if_neg g, if_neg q, Memory.wfFrom, Bool.and_eq_true, decide_eq_true_eq]
        exact ⟨h.1, ih (by omega) h.2⟩

theorem wf_put {m : Map Byte} (a : Nat) (b : Byte) (h : Memory.wf m = true) : Memory.wf (Memory.put m a b) = true := by
  unfold Memory.put cput
  by_cases g : b = 0
  · simp only [g, if_true]; exact wfFrom_mdel a h
  · simp only [g, if_false]; exact wfFrom_mput (Nat.zero_le a) g h

/-- Every write of bytes keeps the canonical form. -/
theorem wf_putBytes {m : Map Byte} (a : Nat) (bs : List Byte) (h : Memory.wf m = true) :
    Memory.wf (Memory.putBytes m a bs) = true := by
  induction bs generalizing m a with
  | nil => exact h
  | cons b r ih => exact ih _ (wf_put a b h)

theorem wf_putNat {m : Map Byte} (a n x : Nat) (h : Memory.wf m = true) : Memory.wf (Memory.putNat m a n x) = true :=
  wf_putBytes a _ h

end Sys2Proof.Laws
end

