-- ==== Sys2Proof/Laws/State.lean ====
section
/-! SUPPORT. What each update of a part of the state leaves alone, field by field, and what it reads back as. -/

namespace Sys2Proof.Laws

open Sys2Proof.Machine

/-! ## The device -/

@[simp] theorem setCore_frame (s : State) (c : Nat) (x : Core) :
    (s.setCore c x).cycle = s.cycle ∧ (s.setCore c x).time = s.time ∧ (s.setCore c x).sel = s.sel ∧
    (s.setCore c x).cur = s.cur ∧ (s.setCore c x).agenda = s.agenda ∧ (s.setCore c x).free = s.free ∧
    (s.setCore c x).mem = s.mem ∧ (s.setCore c x).unc = s.unc ∧ (s.setCore c x).tlb = s.tlb ∧
    (s.setCore c x).invals = s.invals ∧ (s.setCore c x).hot = s.hot ∧ (s.setCore c x).hotTick = s.hotTick ∧
    (s.setCore c x).hotAt = s.hotAt ∧ (s.setCore c x).energyUse = s.energyUse ∧
    (s.setCore c x).refreshed = s.refreshed ∧ (s.setCore c x).boots = s.boots ∧ (s.setCore c x).rowBin = s.rowBin ∧
    (s.setCore c x).spareRows = s.spareRows ∧ (s.setCore c x).patrolled = s.patrolled ∧
    (s.setCore c x).regions = s.regions ∧ (s.setCore c x).regionsOld = s.regionsOld ∧
    (s.setCore c x).regionsPending = s.regionsPending ∧ (s.setCore c x).rtBusy = s.rtBusy ∧
    (s.setCore c x).rtAt = s.rtAt ∧ (s.setCore c x).secure = s.secure ∧ (s.setCore c x).devnum = s.devnum ∧
    (s.setCore c x).clusters = s.clusters ∧ (s.setCore c x).ctxs = s.ctxs ∧ (s.setCore c x).launches = s.launches ∧
    (s.setCore c x).placedAt = s.placedAt ∧ (s.setCore c x).nextId = s.nextId ∧ (s.setCore c x).out = s.out ∧
    (s.setCore c x).ports = s.ports ∧ (s.setCore c x).owner = s.owner ∧ (s.setCore c x).lastBeat = s.lastBeat ∧
    (s.setCore c x).nodeKeys = s.nodeKeys ∧ (s.setCore c x).lmsIndex = s.lmsIndex ∧ (s.setCore c x).fuses = s.fuses ∧
    (s.setCore c x).fwVersion = s.fwVersion ∧ (s.setCore c x).fwImage = s.fwImage ∧ (s.setCore c x).booted = s.booted ∧
    (s.setCore c x).mgmt = s.mgmt ∧ (s.setCore c x).images = s.images ∧ (s.setCore c x).links = s.links ∧
    (s.setCore c x).aborts = s.aborts ∧ (s.setCore c x).kettle = s.kettle ∧ (s.setCore c x).pfail = s.pfail ∧
    (s.setCore c x).holdUp = s.holdUp ∧ (s.setCore c x).flash = s.flash ∧ (s.setCore c x).drained = s.drained :=
  by and_intros <;> rfl

@[simp] theorem modCore_frame (s : State) (c : Nat) (f : Core → Core) :
    (s.modCore c f).cycle = s.cycle ∧ (s.modCore c f).time = s.time ∧ (s.modCore c f).sel = s.sel ∧
    (s.modCore c f).cur = s.cur ∧ (s.modCore c f).agenda = s.agenda ∧ (s.modCore c f).free = s.free ∧
    (s.modCore c f).mem = s.mem ∧ (s.modCore c f).unc = s.unc ∧ (s.modCore c f).tlb = s.tlb ∧
    (s.modCore c f).invals = s.invals ∧ (s.modCore c f).hot = s.hot ∧ (s.modCore c f).hotTick = s.hotTick ∧
    (s.modCore c f).hotAt = s.hotAt ∧ (s.modCore c f).energyUse = s.energyUse ∧
    (s.modCore c f).refreshed = s.refreshed ∧ (s.modCore c f).boots = s.boots ∧ (s.modCore c f).rowBin = s.rowBin ∧
    (s.modCore c f).spareRows = s.spareRows ∧ (s.modCore c f).patrolled = s.patrolled ∧
    (s.modCore c f).regions = s.regions ∧ (s.modCore c f).regionsOld = s.regionsOld ∧
    (s.modCore c f).regionsPending = s.regionsPending ∧ (s.modCore c f).rtBusy = s.rtBusy ∧
    (s.modCore c f).rtAt = s.rtAt ∧ (s.modCore c f).secure = s.secure ∧ (s.modCore c f).devnum = s.devnum ∧
    (s.modCore c f).clusters = s.clusters ∧ (s.modCore c f).ctxs = s.ctxs ∧ (s.modCore c f).launches = s.launches ∧
    (s.modCore c f).placedAt = s.placedAt ∧ (s.modCore c f).nextId = s.nextId ∧ (s.modCore c f).out = s.out ∧
    (s.modCore c f).ports = s.ports ∧ (s.modCore c f).owner = s.owner ∧ (s.modCore c f).lastBeat = s.lastBeat ∧
    (s.modCore c f).nodeKeys = s.nodeKeys ∧ (s.modCore c f).lmsIndex = s.lmsIndex ∧ (s.modCore c f).fuses = s.fuses ∧
    (s.modCore c f).fwVersion = s.fwVersion ∧ (s.modCore c f).fwImage = s.fwImage ∧ (s.modCore c f).booted = s.booted ∧
    (s.modCore c f).mgmt = s.mgmt ∧ (s.modCore c f).images = s.images ∧ (s.modCore c f).links = s.links ∧
    (s.modCore c f).aborts = s.aborts ∧ (s.modCore c f).kettle = s.kettle ∧ (s.modCore c f).pfail = s.pfail ∧
    (s.modCore c f).holdUp = s.holdUp ∧ (s.modCore c f).flash = s.flash ∧ (s.modCore c f).drained = s.drained :=
  by and_intros <;> rfl

@[simp] theorem setStrand_frame (s : State) (r : Ref) (x : Strand) :
    (s.setStrand r x).cycle = s.cycle ∧ (s.setStrand r x).time = s.time ∧ (s.setStrand r x).sel = s.sel ∧
    (s.setStrand r x).cur = s.cur ∧ (s.setStrand r x).agenda = s.agenda ∧ (s.setStrand r x).free = s.free ∧
    (s.setStrand r x).mem = s.mem ∧ (s.setStrand r x).unc = s.unc ∧ (s.setStrand r x).tlb = s.tlb ∧
    (s.setStrand r x).invals = s.invals ∧ (s.setStrand r x).hot = s.hot ∧ (s.setStrand r x).hotTick = s.hotTick ∧
    (s.setStrand r x).hotAt = s.hotAt ∧ (s.setStrand r x).energyUse = s.energyUse ∧
    (s.setStrand r x).refreshed = s.refreshed ∧ (s.setStrand r x).boots = s.boots ∧
    (s.setStrand r x).rowBin = s.rowBin ∧ (s.setStrand r x).spareRows = s.spareRows ∧
    (s.setStrand r x).patrolled = s.patrolled ∧ (s.setStrand r x).regions = s.regions ∧
    (s.setStrand r x).regionsOld = s.regionsOld ∧ (s.setStrand r x).regionsPending = s.regionsPending ∧
    (s.setStrand r x).rtBusy = s.rtBusy ∧ (s.setStrand r x).rtAt = s.rtAt ∧ (s.setStrand r x).secure = s.secure ∧
    (s.setStrand r x).devnum = s.devnum ∧ (s.setStrand r x).clusters = s.clusters ∧ (s.setStrand r x).ctxs = s.ctxs ∧
    (s.setStrand r x).launches = s.launches ∧ (s.setStrand r x).placedAt = s.placedAt ∧
    (s.setStrand r x).nextId = s.nextId ∧ (s.setStrand r x).out = s.out ∧ (s.setStrand r x).ports = s.ports ∧
    (s.setStrand r x).owner = s.owner ∧ (s.setStrand r x).lastBeat = s.lastBeat ∧
    (s.setStrand r x).nodeKeys = s.nodeKeys ∧ (s.setStrand r x).lmsIndex = s.lmsIndex ∧
    (s.setStrand r x).fuses = s.fuses ∧ (s.setStrand r x).fwVersion = s.fwVersion ∧
    (s.setStrand r x).fwImage = s.fwImage ∧ (s.setStrand r x).booted = s.booted ∧ (s.setStrand r x).mgmt = s.mgmt ∧
    (s.setStrand r x).images = s.images ∧ (s.setStrand r x).links = s.links ∧ (s.setStrand r x).aborts = s.aborts ∧
    (s.setStrand r x).kettle = s.kettle ∧ (s.setStrand r x).pfail = s.pfail ∧ (s.setStrand r x).holdUp = s.holdUp ∧
    (s.setStrand r x).flash = s.flash ∧ (s.setStrand r x).drained = s.drained :=
  by and_intros <;> rfl

@[simp] theorem delStrand_frame (s : State) (r : Ref) :
    (s.delStrand r).cycle = s.cycle ∧ (s.delStrand r).time = s.time ∧ (s.delStrand r).sel = s.sel ∧
    (s.delStrand r).cur = s.cur ∧ (s.delStrand r).agenda = s.agenda ∧ (s.delStrand r).free = s.free ∧
    (s.delStrand r).mem = s.mem ∧ (s.delStrand r).unc = s.unc ∧ (s.delStrand r).tlb = s.tlb ∧
    (s.delStrand r).invals = s.invals ∧ (s.delStrand r).hot = s.hot ∧ (s.delStrand r).hotTick = s.hotTick ∧
    (s.delStrand r).hotAt = s.hotAt ∧ (s.delStrand r).energyUse = s.energyUse ∧
    (s.delStrand r).refreshed = s.refreshed ∧ (s.delStrand r).boots = s.boots ∧ (s.delStrand r).rowBin = s.rowBin ∧
    (s.delStrand r).spareRows = s.spareRows ∧ (s.delStrand r).patrolled = s.patrolled ∧
    (s.delStrand r).regions = s.regions ∧ (s.delStrand r).regionsOld = s.regionsOld ∧
    (s.delStrand r).regionsPending = s.regionsPending ∧ (s.delStrand r).rtBusy = s.rtBusy ∧
    (s.delStrand r).rtAt = s.rtAt ∧ (s.delStrand r).secure = s.secure ∧ (s.delStrand r).devnum = s.devnum ∧
    (s.delStrand r).clusters = s.clusters ∧ (s.delStrand r).ctxs = s.ctxs ∧ (s.delStrand r).launches = s.launches ∧
    (s.delStrand r).placedAt = s.placedAt ∧ (s.delStrand r).nextId = s.nextId ∧ (s.delStrand r).out = s.out ∧
    (s.delStrand r).ports = s.ports ∧ (s.delStrand r).owner = s.owner ∧ (s.delStrand r).lastBeat = s.lastBeat ∧
    (s.delStrand r).nodeKeys = s.nodeKeys ∧ (s.delStrand r).lmsIndex = s.lmsIndex ∧ (s.delStrand r).fuses = s.fuses ∧
    (s.delStrand r).fwVersion = s.fwVersion ∧ (s.delStrand r).fwImage = s.fwImage ∧ (s.delStrand r).booted = s.booted ∧
    (s.delStrand r).mgmt = s.mgmt ∧ (s.delStrand r).images = s.images ∧ (s.delStrand r).links = s.links ∧
    (s.delStrand r).aborts = s.aborts ∧ (s.delStrand r).kettle = s.kettle ∧ (s.delStrand r).pfail = s.pfail ∧
    (s.delStrand r).holdUp = s.holdUp ∧ (s.delStrand r).flash = s.flash ∧ (s.delStrand r).drained = s.drained :=
  by and_intros <;> rfl

@[simp] theorem setSlot_frame (s : State) (c k : Nat) (x : Slot) :
    (s.setSlot c k x).cycle = s.cycle ∧ (s.setSlot c k x).time = s.time ∧ (s.setSlot c k x).sel = s.sel ∧
    (s.setSlot c k x).cur = s.cur ∧ (s.setSlot c k x).agenda = s.agenda ∧ (s.setSlot c k x).free = s.free ∧
    (s.setSlot c k x).mem = s.mem ∧ (s.setSlot c k x).unc = s.unc ∧ (s.setSlot c k x).tlb = s.tlb ∧
    (s.setSlot c k x).invals = s.invals ∧ (s.setSlot c k x).hot = s.hot ∧ (s.setSlot c k x).hotTick = s.hotTick ∧
    (s.setSlot c k x).hotAt = s.hotAt ∧ (s.setSlot c k x).energyUse = s.energyUse ∧
    (s.setSlot c k x).refreshed = s.refreshed ∧ (s.setSlot c k x).boots = s.boots ∧
    (s.setSlot c k x).rowBin = s.rowBin ∧ (s.setSlot c k x).spareRows = s.spareRows ∧
    (s.setSlot c k x).patrolled = s.patrolled ∧ (s.setSlot c k x).regions = s.regions ∧
    (s.setSlot c k x).regionsOld = s.regionsOld ∧ (s.setSlot c k x).regionsPending = s.regionsPending ∧
    (s.setSlot c k x).rtBusy = s.rtBusy ∧ (s.setSlot c k x).rtAt = s.rtAt ∧ (s.setSlot c k x).secure = s.secure ∧
    (s.setSlot c k x).devnum = s.devnum ∧ (s.setSlot c k x).clusters = s.clusters ∧ (s.setSlot c k x).ctxs = s.ctxs ∧
    (s.setSlot c k x).launches = s.launches ∧ (s.setSlot c k x).placedAt = s.placedAt ∧
    (s.setSlot c k x).nextId = s.nextId ∧ (s.setSlot c k x).out = s.out ∧ (s.setSlot c k x).ports = s.ports ∧
    (s.setSlot c k x).owner = s.owner ∧ (s.setSlot c k x).lastBeat = s.lastBeat ∧
    (s.setSlot c k x).nodeKeys = s.nodeKeys ∧ (s.setSlot c k x).lmsIndex = s.lmsIndex ∧
    (s.setSlot c k x).fuses = s.fuses ∧ (s.setSlot c k x).fwVersion = s.fwVersion ∧
    (s.setSlot c k x).fwImage = s.fwImage ∧ (s.setSlot c k x).booted = s.booted ∧ (s.setSlot c k x).mgmt = s.mgmt ∧
    (s.setSlot c k x).images = s.images ∧ (s.setSlot c k x).links = s.links ∧ (s.setSlot c k x).aborts = s.aborts ∧
    (s.setSlot c k x).kettle = s.kettle ∧ (s.setSlot c k x).pfail = s.pfail ∧ (s.setSlot c k x).holdUp = s.holdUp ∧
    (s.setSlot c k x).flash = s.flash ∧ (s.setSlot c k x).drained = s.drained :=
  by and_intros <;> rfl

@[simp] theorem modSlot_frame (s : State) (c k : Nat) (f : Slot → Slot) :
    (s.modSlot c k f).cycle = s.cycle ∧ (s.modSlot c k f).time = s.time ∧ (s.modSlot c k f).sel = s.sel ∧
    (s.modSlot c k f).cur = s.cur ∧ (s.modSlot c k f).agenda = s.agenda ∧ (s.modSlot c k f).free = s.free ∧
    (s.modSlot c k f).mem = s.mem ∧ (s.modSlot c k f).unc = s.unc ∧ (s.modSlot c k f).tlb = s.tlb ∧
    (s.modSlot c k f).invals = s.invals ∧ (s.modSlot c k f).hot = s.hot ∧ (s.modSlot c k f).hotTick = s.hotTick ∧
    (s.modSlot c k f).hotAt = s.hotAt ∧ (s.modSlot c k f).energyUse = s.energyUse ∧
    (s.modSlot c k f).refreshed = s.refreshed ∧ (s.modSlot c k f).boots = s.boots ∧
    (s.modSlot c k f).rowBin = s.rowBin ∧ (s.modSlot c k f).spareRows = s.spareRows ∧
    (s.modSlot c k f).patrolled = s.patrolled ∧ (s.modSlot c k f).regions = s.regions ∧
    (s.modSlot c k f).regionsOld = s.regionsOld ∧ (s.modSlot c k f).regionsPending = s.regionsPending ∧
    (s.modSlot c k f).rtBusy = s.rtBusy ∧ (s.modSlot c k f).rtAt = s.rtAt ∧ (s.modSlot c k f).secure = s.secure ∧
    (s.modSlot c k f).devnum = s.devnum ∧ (s.modSlot c k f).clusters = s.clusters ∧ (s.modSlot c k f).ctxs = s.ctxs ∧
    (s.modSlot c k f).launches = s.launches ∧ (s.modSlot c k f).placedAt = s.placedAt ∧
    (s.modSlot c k f).nextId = s.nextId ∧ (s.modSlot c k f).out = s.out ∧ (s.modSlot c k f).ports = s.ports ∧
    (s.modSlot c k f).owner = s.owner ∧ (s.modSlot c k f).lastBeat = s.lastBeat ∧
    (s.modSlot c k f).nodeKeys = s.nodeKeys ∧ (s.modSlot c k f).lmsIndex = s.lmsIndex ∧
    (s.modSlot c k f).fuses = s.fuses ∧ (s.modSlot c k f).fwVersion = s.fwVersion ∧
    (s.modSlot c k f).fwImage = s.fwImage ∧ (s.modSlot c k f).booted = s.booted ∧ (s.modSlot c k f).mgmt = s.mgmt ∧
    (s.modSlot c k f).images = s.images ∧ (s.modSlot c k f).links = s.links ∧ (s.modSlot c k f).aborts = s.aborts ∧
    (s.modSlot c k f).kettle = s.kettle ∧ (s.modSlot c k f).pfail = s.pfail ∧ (s.modSlot c k f).holdUp = s.holdUp ∧
    (s.modSlot c k f).flash = s.flash ∧ (s.modSlot c k f).drained = s.drained :=
  by and_intros <;> rfl

@[simp] theorem setToken_frame (s : State) (c i : Nat) (x : Token) :
    (s.setToken c i x).cycle = s.cycle ∧ (s.setToken c i x).time = s.time ∧ (s.setToken c i x).sel = s.sel ∧
    (s.setToken c i x).cur = s.cur ∧ (s.setToken c i x).agenda = s.agenda ∧ (s.setToken c i x).free = s.free ∧
    (s.setToken c i x).mem = s.mem ∧ (s.setToken c i x).unc = s.unc ∧ (s.setToken c i x).tlb = s.tlb ∧
    (s.setToken c i x).invals = s.invals ∧ (s.setToken c i x).hot = s.hot ∧ (s.setToken c i x).hotTick = s.hotTick ∧
    (s.setToken c i x).hotAt = s.hotAt ∧ (s.setToken c i x).energyUse = s.energyUse ∧
    (s.setToken c i x).refreshed = s.refreshed ∧ (s.setToken c i x).boots = s.boots ∧
    (s.setToken c i x).rowBin = s.rowBin ∧ (s.setToken c i x).spareRows = s.spareRows ∧
    (s.setToken c i x).patrolled = s.patrolled ∧ (s.setToken c i x).regions = s.regions ∧
    (s.setToken c i x).regionsOld = s.regionsOld ∧ (s.setToken c i x).regionsPending = s.regionsPending ∧
    (s.setToken c i x).rtBusy = s.rtBusy ∧ (s.setToken c i x).rtAt = s.rtAt ∧ (s.setToken c i x).secure = s.secure ∧
    (s.setToken c i x).devnum = s.devnum ∧ (s.setToken c i x).clusters = s.clusters ∧
    (s.setToken c i x).ctxs = s.ctxs ∧ (s.setToken c i x).launches = s.launches ∧
    (s.setToken c i x).placedAt = s.placedAt ∧ (s.setToken c i x).nextId = s.nextId ∧ (s.setToken c i x).out = s.out ∧
    (s.setToken c i x).ports = s.ports ∧ (s.setToken c i x).owner = s.owner ∧
    (s.setToken c i x).lastBeat = s.lastBeat ∧ (s.setToken c i x).nodeKeys = s.nodeKeys ∧
    (s.setToken c i x).lmsIndex = s.lmsIndex ∧ (s.setToken c i x).fuses = s.fuses ∧
    (s.setToken c i x).fwVersion = s.fwVersion ∧ (s.setToken c i x).fwImage = s.fwImage ∧
    (s.setToken c i x).booted = s.booted ∧ (s.setToken c i x).mgmt = s.mgmt ∧ (s.setToken c i x).images = s.images ∧
    (s.setToken c i x).links = s.links ∧ (s.setToken c i x).aborts = s.aborts ∧ (s.setToken c i x).kettle = s.kettle ∧
    (s.setToken c i x).pfail = s.pfail ∧ (s.setToken c i x).holdUp = s.holdUp ∧ (s.setToken c i x).flash = s.flash ∧
    (s.setToken c i x).drained = s.drained :=
  by and_intros <;> rfl

@[simp] theorem modToken_frame (s : State) (c i : Nat) (f : Token → Token) :
    (s.modToken c i f).cycle = s.cycle ∧ (s.modToken c i f).time = s.time ∧ (s.modToken c i f).sel = s.sel ∧
    (s.modToken c i f).cur = s.cur ∧ (s.modToken c i f).agenda = s.agenda ∧ (s.modToken c i f).free = s.free ∧
    (s.modToken c i f).mem = s.mem ∧ (s.modToken c i f).unc = s.unc ∧ (s.modToken c i f).tlb = s.tlb ∧
    (s.modToken c i f).invals = s.invals ∧ (s.modToken c i f).hot = s.hot ∧ (s.modToken c i f).hotTick = s.hotTick ∧
    (s.modToken c i f).hotAt = s.hotAt ∧ (s.modToken c i f).energyUse = s.energyUse ∧
    (s.modToken c i f).refreshed = s.refreshed ∧ (s.modToken c i f).boots = s.boots ∧
    (s.modToken c i f).rowBin = s.rowBin ∧ (s.modToken c i f).spareRows = s.spareRows ∧
    (s.modToken c i f).patrolled = s.patrolled ∧ (s.modToken c i f).regions = s.regions ∧
    (s.modToken c i f).regionsOld = s.regionsOld ∧ (s.modToken c i f).regionsPending = s.regionsPending ∧
    (s.modToken c i f).rtBusy = s.rtBusy ∧ (s.modToken c i f).rtAt = s.rtAt ∧ (s.modToken c i f).secure = s.secure ∧
    (s.modToken c i f).devnum = s.devnum ∧ (s.modToken c i f).clusters = s.clusters ∧
    (s.modToken c i f).ctxs = s.ctxs ∧ (s.modToken c i f).launches = s.launches ∧
    (s.modToken c i f).placedAt = s.placedAt ∧ (s.modToken c i f).nextId = s.nextId ∧ (s.modToken c i f).out = s.out ∧
    (s.modToken c i f).ports = s.ports ∧ (s.modToken c i f).owner = s.owner ∧
    (s.modToken c i f).lastBeat = s.lastBeat ∧ (s.modToken c i f).nodeKeys = s.nodeKeys ∧
    (s.modToken c i f).lmsIndex = s.lmsIndex ∧ (s.modToken c i f).fuses = s.fuses ∧
    (s.modToken c i f).fwVersion = s.fwVersion ∧ (s.modToken c i f).fwImage = s.fwImage ∧
    (s.modToken c i f).booted = s.booted ∧ (s.modToken c i f).mgmt = s.mgmt ∧ (s.modToken c i f).images = s.images ∧
    (s.modToken c i f).links = s.links ∧ (s.modToken c i f).aborts = s.aborts ∧ (s.modToken c i f).kettle = s.kettle ∧
    (s.modToken c i f).pfail = s.pfail ∧ (s.modToken c i f).holdUp = s.holdUp ∧ (s.modToken c i f).flash = s.flash ∧
    (s.modToken c i f).drained = s.drained :=
  by and_intros <;> rfl

@[simp] theorem modTeam_frame (s : State) (c t : Nat) (f : Team → Team) :
    (s.modTeam c t f).cycle = s.cycle ∧ (s.modTeam c t f).time = s.time ∧ (s.modTeam c t f).sel = s.sel ∧
    (s.modTeam c t f).cur = s.cur ∧ (s.modTeam c t f).agenda = s.agenda ∧ (s.modTeam c t f).free = s.free ∧
    (s.modTeam c t f).mem = s.mem ∧ (s.modTeam c t f).unc = s.unc ∧ (s.modTeam c t f).tlb = s.tlb ∧
    (s.modTeam c t f).invals = s.invals ∧ (s.modTeam c t f).hot = s.hot ∧ (s.modTeam c t f).hotTick = s.hotTick ∧
    (s.modTeam c t f).hotAt = s.hotAt ∧ (s.modTeam c t f).energyUse = s.energyUse ∧
    (s.modTeam c t f).refreshed = s.refreshed ∧ (s.modTeam c t f).boots = s.boots ∧
    (s.modTeam c t f).rowBin = s.rowBin ∧ (s.modTeam c t f).spareRows = s.spareRows ∧
    (s.modTeam c t f).patrolled = s.patrolled ∧ (s.modTeam c t f).regions = s.regions ∧
    (s.modTeam c t f).regionsOld = s.regionsOld ∧ (s.modTeam c t f).regionsPending = s.regionsPending ∧
    (s.modTeam c t f).rtBusy = s.rtBusy ∧ (s.modTeam c t f).rtAt = s.rtAt ∧ (s.modTeam c t f).secure = s.secure ∧
    (s.modTeam c t f).devnum = s.devnum ∧ (s.modTeam c t f).clusters = s.clusters ∧ (s.modTeam c t f).ctxs = s.ctxs ∧
    (s.modTeam c t f).launches = s.launches ∧ (s.modTeam c t f).placedAt = s.placedAt ∧
    (s.modTeam c t f).nextId = s.nextId ∧ (s.modTeam c t f).out = s.out ∧ (s.modTeam c t f).ports = s.ports ∧
    (s.modTeam c t f).owner = s.owner ∧ (s.modTeam c t f).lastBeat = s.lastBeat ∧
    (s.modTeam c t f).nodeKeys = s.nodeKeys ∧ (s.modTeam c t f).lmsIndex = s.lmsIndex ∧
    (s.modTeam c t f).fuses = s.fuses ∧ (s.modTeam c t f).fwVersion = s.fwVersion ∧
    (s.modTeam c t f).fwImage = s.fwImage ∧ (s.modTeam c t f).booted = s.booted ∧ (s.modTeam c t f).mgmt = s.mgmt ∧
    (s.modTeam c t f).images = s.images ∧ (s.modTeam c t f).links = s.links ∧ (s.modTeam c t f).aborts = s.aborts ∧
    (s.modTeam c t f).kettle = s.kettle ∧ (s.modTeam c t f).pfail = s.pfail ∧ (s.modTeam c t f).holdUp = s.holdUp ∧
    (s.modTeam c t f).flash = s.flash ∧ (s.modTeam c t f).drained = s.drained :=
  by and_intros <;> rfl

@[simp] theorem setAcc_frame (s : State) (c k a : Nat) (x : AccSlot) :
    (s.setAcc c k a x).cycle = s.cycle ∧ (s.setAcc c k a x).time = s.time ∧ (s.setAcc c k a x).sel = s.sel ∧
    (s.setAcc c k a x).cur = s.cur ∧ (s.setAcc c k a x).agenda = s.agenda ∧ (s.setAcc c k a x).free = s.free ∧
    (s.setAcc c k a x).mem = s.mem ∧ (s.setAcc c k a x).unc = s.unc ∧ (s.setAcc c k a x).tlb = s.tlb ∧
    (s.setAcc c k a x).invals = s.invals ∧ (s.setAcc c k a x).hot = s.hot ∧ (s.setAcc c k a x).hotTick = s.hotTick ∧
    (s.setAcc c k a x).hotAt = s.hotAt ∧ (s.setAcc c k a x).energyUse = s.energyUse ∧
    (s.setAcc c k a x).refreshed = s.refreshed ∧ (s.setAcc c k a x).boots = s.boots ∧
    (s.setAcc c k a x).rowBin = s.rowBin ∧ (s.setAcc c k a x).spareRows = s.spareRows ∧
    (s.setAcc c k a x).patrolled = s.patrolled ∧ (s.setAcc c k a x).regions = s.regions ∧
    (s.setAcc c k a x).regionsOld = s.regionsOld ∧ (s.setAcc c k a x).regionsPending = s.regionsPending ∧
    (s.setAcc c k a x).rtBusy = s.rtBusy ∧ (s.setAcc c k a x).rtAt = s.rtAt ∧ (s.setAcc c k a x).secure = s.secure ∧
    (s.setAcc c k a x).devnum = s.devnum ∧ (s.setAcc c k a x).clusters = s.clusters ∧
    (s.setAcc c k a x).ctxs = s.ctxs ∧ (s.setAcc c k a x).launches = s.launches ∧
    (s.setAcc c k a x).placedAt = s.placedAt ∧ (s.setAcc c k a x).nextId = s.nextId ∧ (s.setAcc c k a x).out = s.out ∧
    (s.setAcc c k a x).ports = s.ports ∧ (s.setAcc c k a x).owner = s.owner ∧
    (s.setAcc c k a x).lastBeat = s.lastBeat ∧ (s.setAcc c k a x).nodeKeys = s.nodeKeys ∧
    (s.setAcc c k a x).lmsIndex = s.lmsIndex ∧ (s.setAcc c k a x).fuses = s.fuses ∧
    (s.setAcc c k a x).fwVersion = s.fwVersion ∧ (s.setAcc c k a x).fwImage = s.fwImage ∧
    (s.setAcc c k a x).booted = s.booted ∧ (s.setAcc c k a x).mgmt = s.mgmt ∧ (s.setAcc c k a x).images = s.images ∧
    (s.setAcc c k a x).links = s.links ∧ (s.setAcc c k a x).aborts = s.aborts ∧ (s.setAcc c k a x).kettle = s.kettle ∧
    (s.setAcc c k a x).pfail = s.pfail ∧ (s.setAcc c k a x).holdUp = s.holdUp ∧ (s.setAcc c k a x).flash = s.flash ∧
    (s.setAcc c k a x).drained = s.drained :=
  by and_intros <;> rfl

@[simp] theorem modCol_frame (s : State) (c : Nat) (f : Column → Column) :
    (s.modCol c f).cycle = s.cycle ∧ (s.modCol c f).time = s.time ∧ (s.modCol c f).sel = s.sel ∧
    (s.modCol c f).cur = s.cur ∧ (s.modCol c f).agenda = s.agenda ∧ (s.modCol c f).free = s.free ∧
    (s.modCol c f).mem = s.mem ∧ (s.modCol c f).unc = s.unc ∧ (s.modCol c f).tlb = s.tlb ∧
    (s.modCol c f).invals = s.invals ∧ (s.modCol c f).hot = s.hot ∧ (s.modCol c f).hotTick = s.hotTick ∧
    (s.modCol c f).hotAt = s.hotAt ∧ (s.modCol c f).energyUse = s.energyUse ∧ (s.modCol c f).refreshed = s.refreshed ∧
    (s.modCol c f).boots = s.boots ∧ (s.modCol c f).rowBin = s.rowBin ∧ (s.modCol c f).spareRows = s.spareRows ∧
    (s.modCol c f).patrolled = s.patrolled ∧ (s.modCol c f).regions = s.regions ∧
    (s.modCol c f).regionsOld = s.regionsOld ∧ (s.modCol c f).regionsPending = s.regionsPending ∧
    (s.modCol c f).rtBusy = s.rtBusy ∧ (s.modCol c f).rtAt = s.rtAt ∧ (s.modCol c f).secure = s.secure ∧
    (s.modCol c f).devnum = s.devnum ∧ (s.modCol c f).clusters = s.clusters ∧ (s.modCol c f).ctxs = s.ctxs ∧
    (s.modCol c f).launches = s.launches ∧ (s.modCol c f).placedAt = s.placedAt ∧ (s.modCol c f).nextId = s.nextId ∧
    (s.modCol c f).out = s.out ∧ (s.modCol c f).ports = s.ports ∧ (s.modCol c f).owner = s.owner ∧
    (s.modCol c f).lastBeat = s.lastBeat ∧ (s.modCol c f).nodeKeys = s.nodeKeys ∧
    (s.modCol c f).lmsIndex = s.lmsIndex ∧ (s.modCol c f).fuses = s.fuses ∧ (s.modCol c f).fwVersion = s.fwVersion ∧
    (s.modCol c f).fwImage = s.fwImage ∧ (s.modCol c f).booted = s.booted ∧ (s.modCol c f).mgmt = s.mgmt ∧
    (s.modCol c f).images = s.images ∧ (s.modCol c f).links = s.links ∧ (s.modCol c f).aborts = s.aborts ∧
    (s.modCol c f).kettle = s.kettle ∧ (s.modCol c f).pfail = s.pfail ∧ (s.modCol c f).holdUp = s.holdUp ∧
    (s.modCol c f).flash = s.flash ∧ (s.modCol c f).drained = s.drained :=
  by and_intros <;> rfl

@[simp] theorem setCtx_frame (s : State) (i : Nat) (x : Ctx) :
    (s.setCtx i x).cycle = s.cycle ∧ (s.setCtx i x).time = s.time ∧ (s.setCtx i x).sel = s.sel ∧
    (s.setCtx i x).cur = s.cur ∧ (s.setCtx i x).agenda = s.agenda ∧ (s.setCtx i x).free = s.free ∧
    (s.setCtx i x).mem = s.mem ∧ (s.setCtx i x).unc = s.unc ∧ (s.setCtx i x).tlb = s.tlb ∧
    (s.setCtx i x).invals = s.invals ∧ (s.setCtx i x).hot = s.hot ∧ (s.setCtx i x).hotTick = s.hotTick ∧
    (s.setCtx i x).hotAt = s.hotAt ∧ (s.setCtx i x).energyUse = s.energyUse ∧ (s.setCtx i x).refreshed = s.refreshed ∧
    (s.setCtx i x).boots = s.boots ∧ (s.setCtx i x).rowBin = s.rowBin ∧ (s.setCtx i x).spareRows = s.spareRows ∧
    (s.setCtx i x).patrolled = s.patrolled ∧ (s.setCtx i x).regions = s.regions ∧
    (s.setCtx i x).regionsOld = s.regionsOld ∧ (s.setCtx i x).regionsPending = s.regionsPending ∧
    (s.setCtx i x).rtBusy = s.rtBusy ∧ (s.setCtx i x).rtAt = s.rtAt ∧ (s.setCtx i x).secure = s.secure ∧
    (s.setCtx i x).devnum = s.devnum ∧ (s.setCtx i x).cores = s.cores ∧ (s.setCtx i x).clusters = s.clusters ∧
    (s.setCtx i x).launches = s.launches ∧ (s.setCtx i x).placedAt = s.placedAt ∧ (s.setCtx i x).nextId = s.nextId ∧
    (s.setCtx i x).out = s.out ∧ (s.setCtx i x).ports = s.ports ∧ (s.setCtx i x).owner = s.owner ∧
    (s.setCtx i x).lastBeat = s.lastBeat ∧ (s.setCtx i x).nodeKeys = s.nodeKeys ∧
    (s.setCtx i x).lmsIndex = s.lmsIndex ∧ (s.setCtx i x).fuses = s.fuses ∧ (s.setCtx i x).fwVersion = s.fwVersion ∧
    (s.setCtx i x).fwImage = s.fwImage ∧ (s.setCtx i x).booted = s.booted ∧ (s.setCtx i x).mgmt = s.mgmt ∧
    (s.setCtx i x).images = s.images ∧ (s.setCtx i x).links = s.links ∧ (s.setCtx i x).aborts = s.aborts ∧
    (s.setCtx i x).kettle = s.kettle ∧ (s.setCtx i x).pfail = s.pfail ∧ (s.setCtx i x).holdUp = s.holdUp ∧
    (s.setCtx i x).flash = s.flash ∧ (s.setCtx i x).drained = s.drained :=
  by and_intros <;> rfl

@[simp] theorem modCtx_frame (s : State) (i : Nat) (f : Ctx → Ctx) :
    (s.modCtx i f).cycle = s.cycle ∧ (s.modCtx i f).time = s.time ∧ (s.modCtx i f).sel = s.sel ∧
    (s.modCtx i f).cur = s.cur ∧ (s.modCtx i f).agenda = s.agenda ∧ (s.modCtx i f).free = s.free ∧
    (s.modCtx i f).mem = s.mem ∧ (s.modCtx i f).unc = s.unc ∧ (s.modCtx i f).tlb = s.tlb ∧
    (s.modCtx i f).invals = s.invals ∧ (s.modCtx i f).hot = s.hot ∧ (s.modCtx i f).hotTick = s.hotTick ∧
    (s.modCtx i f).hotAt = s.hotAt ∧ (s.modCtx i f).energyUse = s.energyUse ∧ (s.modCtx i f).refreshed = s.refreshed ∧
    (s.modCtx i f).boots = s.boots ∧ (s.modCtx i f).rowBin = s.rowBin ∧ (s.modCtx i f).spareRows = s.spareRows ∧
    (s.modCtx i f).patrolled = s.patrolled ∧ (s.modCtx i f).regions = s.regions ∧
    (s.modCtx i f).regionsOld = s.regionsOld ∧ (s.modCtx i f).regionsPending = s.regionsPending ∧
    (s.modCtx i f).rtBusy = s.rtBusy ∧ (s.modCtx i f).rtAt = s.rtAt ∧ (s.modCtx i f).secure = s.secure ∧
    (s.modCtx i f).devnum = s.devnum ∧ (s.modCtx i f).cores = s.cores ∧ (s.modCtx i f).clusters = s.clusters ∧
    (s.modCtx i f).launches = s.launches ∧ (s.modCtx i f).placedAt = s.placedAt ∧ (s.modCtx i f).nextId = s.nextId ∧
    (s.modCtx i f).out = s.out ∧ (s.modCtx i f).ports = s.ports ∧ (s.modCtx i f).owner = s.owner ∧
    (s.modCtx i f).lastBeat = s.lastBeat ∧ (s.modCtx i f).nodeKeys = s.nodeKeys ∧
    (s.modCtx i f).lmsIndex = s.lmsIndex ∧ (s.modCtx i f).fuses = s.fuses ∧ (s.modCtx i f).fwVersion = s.fwVersion ∧
    (s.modCtx i f).fwImage = s.fwImage ∧ (s.modCtx i f).booted = s.booted ∧ (s.modCtx i f).mgmt = s.mgmt ∧
    (s.modCtx i f).images = s.images ∧ (s.modCtx i f).links = s.links ∧ (s.modCtx i f).aborts = s.aborts ∧
    (s.modCtx i f).kettle = s.kettle ∧ (s.modCtx i f).pfail = s.pfail ∧ (s.modCtx i f).holdUp = s.holdUp ∧
    (s.modCtx i f).flash = s.flash ∧ (s.modCtx i f).drained = s.drained :=
  by and_intros <;> rfl

@[simp] theorem setCluster_frame (s : State) (c : Nat) (x : Cluster) :
    (s.setCluster c x).cycle = s.cycle ∧ (s.setCluster c x).time = s.time ∧ (s.setCluster c x).sel = s.sel ∧
    (s.setCluster c x).cur = s.cur ∧ (s.setCluster c x).agenda = s.agenda ∧ (s.setCluster c x).free = s.free ∧
    (s.setCluster c x).mem = s.mem ∧ (s.setCluster c x).unc = s.unc ∧ (s.setCluster c x).tlb = s.tlb ∧
    (s.setCluster c x).invals = s.invals ∧ (s.setCluster c x).hot = s.hot ∧ (s.setCluster c x).hotTick = s.hotTick ∧
    (s.setCluster c x).hotAt = s.hotAt ∧ (s.setCluster c x).energyUse = s.energyUse ∧
    (s.setCluster c x).refreshed = s.refreshed ∧ (s.setCluster c x).boots = s.boots ∧
    (s.setCluster c x).rowBin = s.rowBin ∧ (s.setCluster c x).spareRows = s.spareRows ∧
    (s.setCluster c x).patrolled = s.patrolled ∧ (s.setCluster c x).regions = s.regions ∧
    (s.setCluster c x).regionsOld = s.regionsOld ∧ (s.setCluster c x).regionsPending = s.regionsPending ∧
    (s.setCluster c x).rtBusy = s.rtBusy ∧ (s.setCluster c x).rtAt = s.rtAt ∧ (s.setCluster c x).secure = s.secure ∧
    (s.setCluster c x).devnum = s.devnum ∧ (s.setCluster c x).cores = s.cores ∧ (s.setCluster c x).ctxs = s.ctxs ∧
    (s.setCluster c x).launches = s.launches ∧ (s.setCluster c x).placedAt = s.placedAt ∧
    (s.setCluster c x).nextId = s.nextId ∧ (s.setCluster c x).out = s.out ∧ (s.setCluster c x).ports = s.ports ∧
    (s.setCluster c x).owner = s.owner ∧ (s.setCluster c x).lastBeat = s.lastBeat ∧
    (s.setCluster c x).nodeKeys = s.nodeKeys ∧ (s.setCluster c x).lmsIndex = s.lmsIndex ∧
    (s.setCluster c x).fuses = s.fuses ∧ (s.setCluster c x).fwVersion = s.fwVersion ∧
    (s.setCluster c x).fwImage = s.fwImage ∧ (s.setCluster c x).booted = s.booted ∧ (s.setCluster c x).mgmt = s.mgmt ∧
    (s.setCluster c x).images = s.images ∧ (s.setCluster c x).links = s.links ∧ (s.setCluster c x).aborts = s.aborts ∧
    (s.setCluster c x).kettle = s.kettle ∧ (s.setCluster c x).pfail = s.pfail ∧ (s.setCluster c x).holdUp = s.holdUp ∧
    (s.setCluster c x).flash = s.flash ∧ (s.setCluster c x).drained = s.drained :=
  by and_intros <;> rfl

@[simp] theorem modCluster_frame (s : State) (c : Nat) (f : Cluster → Cluster) :
    (s.modCluster c f).cycle = s.cycle ∧ (s.modCluster c f).time = s.time ∧ (s.modCluster c f).sel = s.sel ∧
    (s.modCluster c f).cur = s.cur ∧ (s.modCluster c f).agenda = s.agenda ∧ (s.modCluster c f).free = s.free ∧
    (s.modCluster c f).mem = s.mem ∧ (s.modCluster c f).unc = s.unc ∧ (s.modCluster c f).tlb = s.tlb ∧
    (s.modCluster c f).invals = s.invals ∧ (s.modCluster c f).hot = s.hot ∧ (s.modCluster c f).hotTick = s.hotTick ∧
    (s.modCluster c f).hotAt = s.hotAt ∧ (s.modCluster c f).energyUse = s.energyUse ∧
    (s.modCluster c f).refreshed = s.refreshed ∧ (s.modCluster c f).boots = s.boots ∧
    (s.modCluster c f).rowBin = s.rowBin ∧ (s.modCluster c f).spareRows = s.spareRows ∧
    (s.modCluster c f).patrolled = s.patrolled ∧ (s.modCluster c f).regions = s.regions ∧
    (s.modCluster c f).regionsOld = s.regionsOld ∧ (s.modCluster c f).regionsPending = s.regionsPending ∧
    (s.modCluster c f).rtBusy = s.rtBusy ∧ (s.modCluster c f).rtAt = s.rtAt ∧ (s.modCluster c f).secure = s.secure ∧
    (s.modCluster c f).devnum = s.devnum ∧ (s.modCluster c f).cores = s.cores ∧ (s.modCluster c f).ctxs = s.ctxs ∧
    (s.modCluster c f).launches = s.launches ∧ (s.modCluster c f).placedAt = s.placedAt ∧
    (s.modCluster c f).nextId = s.nextId ∧ (s.modCluster c f).out = s.out ∧ (s.modCluster c f).ports = s.ports ∧
    (s.modCluster c f).owner = s.owner ∧ (s.modCluster c f).lastBeat = s.lastBeat ∧
    (s.modCluster c f).nodeKeys = s.nodeKeys ∧ (s.modCluster c f).lmsIndex = s.lmsIndex ∧
    (s.modCluster c f).fuses = s.fuses ∧ (s.modCluster c f).fwVersion = s.fwVersion ∧
    (s.modCluster c f).fwImage = s.fwImage ∧ (s.modCluster c f).booted = s.booted ∧ (s.modCluster c f).mgmt = s.mgmt ∧
    (s.modCluster c f).images = s.images ∧ (s.modCluster c f).links = s.links ∧ (s.modCluster c f).aborts = s.aborts ∧
    (s.modCluster c f).kettle = s.kettle ∧ (s.modCluster c f).pfail = s.pfail ∧ (s.modCluster c f).holdUp = s.holdUp ∧
    (s.modCluster c f).flash = s.flash ∧ (s.modCluster c f).drained = s.drained :=
  by and_intros <;> rfl

@[simp] theorem modQueue_frame (s : State) (c q : Nat) (f : Queue → Queue) :
    (s.modQueue c q f).cycle = s.cycle ∧ (s.modQueue c q f).time = s.time ∧ (s.modQueue c q f).sel = s.sel ∧
    (s.modQueue c q f).cur = s.cur ∧ (s.modQueue c q f).agenda = s.agenda ∧ (s.modQueue c q f).free = s.free ∧
    (s.modQueue c q f).mem = s.mem ∧ (s.modQueue c q f).unc = s.unc ∧ (s.modQueue c q f).tlb = s.tlb ∧
    (s.modQueue c q f).invals = s.invals ∧ (s.modQueue c q f).hot = s.hot ∧ (s.modQueue c q f).hotTick = s.hotTick ∧
    (s.modQueue c q f).hotAt = s.hotAt ∧ (s.modQueue c q f).energyUse = s.energyUse ∧
    (s.modQueue c q f).refreshed = s.refreshed ∧ (s.modQueue c q f).boots = s.boots ∧
    (s.modQueue c q f).rowBin = s.rowBin ∧ (s.modQueue c q f).spareRows = s.spareRows ∧
    (s.modQueue c q f).patrolled = s.patrolled ∧ (s.modQueue c q f).regions = s.regions ∧
    (s.modQueue c q f).regionsOld = s.regionsOld ∧ (s.modQueue c q f).regionsPending = s.regionsPending ∧
    (s.modQueue c q f).rtBusy = s.rtBusy ∧ (s.modQueue c q f).rtAt = s.rtAt ∧ (s.modQueue c q f).secure = s.secure ∧
    (s.modQueue c q f).devnum = s.devnum ∧ (s.modQueue c q f).cores = s.cores ∧ (s.modQueue c q f).ctxs = s.ctxs ∧
    (s.modQueue c q f).launches = s.launches ∧ (s.modQueue c q f).placedAt = s.placedAt ∧
    (s.modQueue c q f).nextId = s.nextId ∧ (s.modQueue c q f).out = s.out ∧ (s.modQueue c q f).ports = s.ports ∧
    (s.modQueue c q f).owner = s.owner ∧ (s.modQueue c q f).lastBeat = s.lastBeat ∧
    (s.modQueue c q f).nodeKeys = s.nodeKeys ∧ (s.modQueue c q f).lmsIndex = s.lmsIndex ∧
    (s.modQueue c q f).fuses = s.fuses ∧ (s.modQueue c q f).fwVersion = s.fwVersion ∧
    (s.modQueue c q f).fwImage = s.fwImage ∧ (s.modQueue c q f).booted = s.booted ∧ (s.modQueue c q f).mgmt = s.mgmt ∧
    (s.modQueue c q f).images = s.images ∧ (s.modQueue c q f).links = s.links ∧ (s.modQueue c q f).aborts = s.aborts ∧
    (s.modQueue c q f).kettle = s.kettle ∧ (s.modQueue c q f).pfail = s.pfail ∧ (s.modQueue c q f).holdUp = s.holdUp ∧
    (s.modQueue c q f).flash = s.flash ∧ (s.modQueue c q f).drained = s.drained :=
  by and_intros <;> rfl

@[simp] theorem modPort_frame (s : State) (p : Nat) (f : Port → Port) :
    (s.modPort p f).cycle = s.cycle ∧ (s.modPort p f).time = s.time ∧ (s.modPort p f).sel = s.sel ∧
    (s.modPort p f).cur = s.cur ∧ (s.modPort p f).agenda = s.agenda ∧ (s.modPort p f).free = s.free ∧
    (s.modPort p f).mem = s.mem ∧ (s.modPort p f).unc = s.unc ∧ (s.modPort p f).tlb = s.tlb ∧
    (s.modPort p f).invals = s.invals ∧ (s.modPort p f).hot = s.hot ∧ (s.modPort p f).hotTick = s.hotTick ∧
    (s.modPort p f).hotAt = s.hotAt ∧ (s.modPort p f).energyUse = s.energyUse ∧
    (s.modPort p f).refreshed = s.refreshed ∧ (s.modPort p f).boots = s.boots ∧ (s.modPort p f).rowBin = s.rowBin ∧
    (s.modPort p f).spareRows = s.spareRows ∧ (s.modPort p f).patrolled = s.patrolled ∧
    (s.modPort p f).regions = s.regions ∧ (s.modPort p f).regionsOld = s.regionsOld ∧
    (s.modPort p f).regionsPending = s.regionsPending ∧ (s.modPort p f).rtBusy = s.rtBusy ∧
    (s.modPort p f).rtAt = s.rtAt ∧ (s.modPort p f).secure = s.secure ∧ (s.modPort p f).devnum = s.devnum ∧
    (s.modPort p f).cores = s.cores ∧ (s.modPort p f).clusters = s.clusters ∧ (s.modPort p f).ctxs = s.ctxs ∧
    (s.modPort p f).launches = s.launches ∧ (s.modPort p f).placedAt = s.placedAt ∧ (s.modPort p f).nextId = s.nextId ∧
    (s.modPort p f).out = s.out ∧ (s.modPort p f).owner = s.owner ∧ (s.modPort p f).lastBeat = s.lastBeat ∧
    (s.modPort p f).nodeKeys = s.nodeKeys ∧ (s.modPort p f).lmsIndex = s.lmsIndex ∧ (s.modPort p f).fuses = s.fuses ∧
    (s.modPort p f).fwVersion = s.fwVersion ∧ (s.modPort p f).fwImage = s.fwImage ∧ (s.modPort p f).booted = s.booted ∧
    (s.modPort p f).mgmt = s.mgmt ∧ (s.modPort p f).images = s.images ∧ (s.modPort p f).links = s.links ∧
    (s.modPort p f).aborts = s.aborts ∧ (s.modPort p f).kettle = s.kettle ∧ (s.modPort p f).pfail = s.pfail ∧
    (s.modPort p f).holdUp = s.holdUp ∧ (s.modPort p f).flash = s.flash ∧ (s.modPort p f).drained = s.drained :=
  by and_intros <;> rfl

@[simp] theorem storeBytes_frame (s : State) (a : Nat) (bs : List Byte) :
    (storeBytes s a bs).cycle = s.cycle ∧ (storeBytes s a bs).time = s.time ∧ (storeBytes s a bs).sel = s.sel ∧
    (storeBytes s a bs).cur = s.cur ∧ (storeBytes s a bs).agenda = s.agenda ∧ (storeBytes s a bs).free = s.free ∧
    (storeBytes s a bs).tlb = s.tlb ∧ (storeBytes s a bs).invals = s.invals ∧ (storeBytes s a bs).hot = s.hot ∧
    (storeBytes s a bs).hotTick = s.hotTick ∧ (storeBytes s a bs).hotAt = s.hotAt ∧
    (storeBytes s a bs).energyUse = s.energyUse ∧ (storeBytes s a bs).refreshed = s.refreshed ∧
    (storeBytes s a bs).boots = s.boots ∧ (storeBytes s a bs).rowBin = s.rowBin ∧
    (storeBytes s a bs).spareRows = s.spareRows ∧ (storeBytes s a bs).patrolled = s.patrolled ∧
    (storeBytes s a bs).regions = s.regions ∧ (storeBytes s a bs).regionsOld = s.regionsOld ∧
    (storeBytes s a bs).regionsPending = s.regionsPending ∧ (storeBytes s a bs).rtBusy = s.rtBusy ∧
    (storeBytes s a bs).rtAt = s.rtAt ∧ (storeBytes s a bs).secure = s.secure ∧ (storeBytes s a bs).devnum = s.devnum ∧
    (storeBytes s a bs).cores = s.cores ∧ (storeBytes s a bs).clusters = s.clusters ∧
    (storeBytes s a bs).ctxs = s.ctxs ∧ (storeBytes s a bs).launches = s.launches ∧
    (storeBytes s a bs).placedAt = s.placedAt ∧ (storeBytes s a bs).nextId = s.nextId ∧
    (storeBytes s a bs).out = s.out ∧ (storeBytes s a bs).ports = s.ports ∧ (storeBytes s a bs).owner = s.owner ∧
    (storeBytes s a bs).lastBeat = s.lastBeat ∧ (storeBytes s a bs).nodeKeys = s.nodeKeys ∧
    (storeBytes s a bs).lmsIndex = s.lmsIndex ∧ (storeBytes s a bs).fuses = s.fuses ∧
    (storeBytes s a bs).fwVersion = s.fwVersion ∧ (storeBytes s a bs).fwImage = s.fwImage ∧
    (storeBytes s a bs).booted = s.booted ∧ (storeBytes s a bs).mgmt = s.mgmt ∧ (storeBytes s a bs).images = s.images ∧
    (storeBytes s a bs).links = s.links ∧ (storeBytes s a bs).aborts = s.aborts ∧
    (storeBytes s a bs).kettle = s.kettle ∧ (storeBytes s a bs).pfail = s.pfail ∧
    (storeBytes s a bs).holdUp = s.holdUp ∧ (storeBytes s a bs).flash = s.flash ∧
    (storeBytes s a bs).drained = s.drained :=
  by and_intros <;> rfl

theorem modStrand_eq (s : State) (r : Ref) (f : Strand → Strand) :
    s.modStrand r f = { s with cores := (s.modStrand r f).cores } := by unfold State.modStrand; split <;> rfl

@[simp] theorem modStrand_frame (s : State) (r : Ref) (f : Strand → Strand) :
    (s.modStrand r f).cycle = s.cycle ∧ (s.modStrand r f).time = s.time ∧ (s.modStrand r f).sel = s.sel ∧
    (s.modStrand r f).cur = s.cur ∧ (s.modStrand r f).agenda = s.agenda ∧ (s.modStrand r f).free = s.free ∧
    (s.modStrand r f).mem = s.mem ∧ (s.modStrand r f).unc = s.unc ∧ (s.modStrand r f).tlb = s.tlb ∧
    (s.modStrand r f).invals = s.invals ∧ (s.modStrand r f).hot = s.hot ∧ (s.modStrand r f).hotTick = s.hotTick ∧
    (s.modStrand r f).hotAt = s.hotAt ∧ (s.modStrand r f).energyUse = s.energyUse ∧
    (s.modStrand r f).refreshed = s.refreshed ∧ (s.modStrand r f).boots = s.boots ∧
    (s.modStrand r f).rowBin = s.rowBin ∧ (s.modStrand r f).spareRows = s.spareRows ∧
    (s.modStrand r f).patrolled = s.patrolled ∧ (s.modStrand r f).regions = s.regions ∧
    (s.modStrand r f).regionsOld = s.regionsOld ∧ (s.modStrand r f).regionsPending = s.regionsPending ∧
    (s.modStrand r f).rtBusy = s.rtBusy ∧ (s.modStrand r f).rtAt = s.rtAt ∧ (s.modStrand r f).secure = s.secure ∧
    (s.modStrand r f).devnum = s.devnum ∧ (s.modStrand r f).clusters = s.clusters ∧ (s.modStrand r f).ctxs = s.ctxs ∧
    (s.modStrand r f).launches = s.launches ∧ (s.modStrand r f).placedAt = s.placedAt ∧
    (s.modStrand r f).nextId = s.nextId ∧ (s.modStrand r f).out = s.out ∧ (s.modStrand r f).ports = s.ports ∧
    (s.modStrand r f).owner = s.owner ∧ (s.modStrand r f).lastBeat = s.lastBeat ∧
    (s.modStrand r f).nodeKeys = s.nodeKeys ∧ (s.modStrand r f).lmsIndex = s.lmsIndex ∧
    (s.modStrand r f).fuses = s.fuses ∧ (s.modStrand r f).fwVersion = s.fwVersion ∧
    (s.modStrand r f).fwImage = s.fwImage ∧ (s.modStrand r f).booted = s.booted ∧ (s.modStrand r f).mgmt = s.mgmt ∧
    (s.modStrand r f).images = s.images ∧ (s.modStrand r f).links = s.links ∧ (s.modStrand r f).aborts = s.aborts ∧
    (s.modStrand r f).kettle = s.kettle ∧ (s.modStrand r f).pfail = s.pfail ∧ (s.modStrand r f).holdUp = s.holdUp ∧
    (s.modStrand r f).flash = s.flash ∧ (s.modStrand r f).drained = s.drained :=
  by rw [modStrand_eq]; and_intros <;> rfl

/-! ## A strand -/

@[simp] theorem setV_frame (x : Strand) (l r : Nat) (w : Word) :
    (x.setV l r w).ctx = x.ctx ∧ (x.setV l r w).slot = x.slot ∧ (x.setV l r w).tslot = x.tslot ∧
    (x.setV l r w).role = x.role ∧ (x.setV l r w).ngrp = x.ngrp ∧ (x.setV l r w).budget = x.budget ∧
    (x.setV l r w).laneBase = x.laneBase ∧ (x.setV l r w).teamX = x.teamX ∧ (x.setV l r w).teamY = x.teamY ∧
    (x.setV l r w).teamZ = x.teamZ ∧ (x.setV l r w).gridX = x.gridX ∧ (x.setV l r w).gridY = x.gridY ∧
    (x.setV l r w).gridZ = x.gridZ ∧ (x.setV l r w).lbasis = x.lbasis ∧ (x.setV l r w).pc = x.pc ∧
    (x.setV l r w).live = x.live ∧ (x.setV l r w).active = x.active ∧ (x.setV l r w).s = x.s ∧ (x.setV l r w).p = x.p ∧
    (x.setV l r w).c = x.c ∧ (x.setV l r w).k = x.k ∧ (x.setV l r w).h = x.h ∧ (x.setV l r w).lpr = x.lpr ∧
    (x.setV l r w).fpsr = x.fpsr ∧ (x.setV l r w).hm = x.hm ∧ (x.setV l r w).pl = x.pl ∧ (x.setV l r w).sec = x.sec ∧
    (x.setV l r w).tcause = x.tcause ∧ (x.setV l r w).tinfo = x.tinfo ∧ (x.setV l r w).tpc = x.tpc ∧
    (x.setV l r w).tssw = x.tssw ∧ (x.setV l r w).rstk = x.rstk ∧ (x.setV l r w).lstk = x.lstk ∧
    (x.setV l r w).acnt = x.acnt ∧ (x.setV l r w).long = x.long ∧ (x.setV l r w).held = x.held ∧
    (x.setV l r w).wait = x.wait ∧ (x.setV l r w).syncg = x.syncg ∧ (x.setV l r w).owed = x.owed ∧
    (x.setV l r w).defer = x.defer ∧ (x.setV l r w).rewait = x.rewait ∧ (x.setV l r w).stopped = x.stopped ∧
    (x.setV l r w).stinfo = x.stinfo ∧ (x.setV l r w).age = x.age ∧ (x.setV l r w).waits = x.waits ∧
    (x.setV l r w).islot = x.islot ∧ (x.setV l r w).notBefore = x.notBefore ∧ (x.setV l r w).avail = x.avail ∧
    (x.setV l r w).withheldAt = x.withheldAt ∧ (x.setV l r w).serial = x.serial :=
  by and_intros <;> rfl

@[simp] theorem setPair_frame (x : Strand) (l r : Nat) (d : Dword) :
    (x.setPair l r d).ctx = x.ctx ∧ (x.setPair l r d).slot = x.slot ∧ (x.setPair l r d).tslot = x.tslot ∧
    (x.setPair l r d).role = x.role ∧ (x.setPair l r d).ngrp = x.ngrp ∧ (x.setPair l r d).budget = x.budget ∧
    (x.setPair l r d).laneBase = x.laneBase ∧ (x.setPair l r d).teamX = x.teamX ∧ (x.setPair l r d).teamY = x.teamY ∧
    (x.setPair l r d).teamZ = x.teamZ ∧ (x.setPair l r d).gridX = x.gridX ∧ (x.setPair l r d).gridY = x.gridY ∧
    (x.setPair l r d).gridZ = x.gridZ ∧ (x.setPair l r d).lbasis = x.lbasis ∧ (x.setPair l r d).pc = x.pc ∧
    (x.setPair l r d).live = x.live ∧ (x.setPair l r d).active = x.active ∧ (x.setPair l r d).s = x.s ∧
    (x.setPair l r d).p = x.p ∧ (x.setPair l r d).c = x.c ∧ (x.setPair l r d).k = x.k ∧ (x.setPair l r d).h = x.h ∧
    (x.setPair l r d).lpr = x.lpr ∧ (x.setPair l r d).fpsr = x.fpsr ∧ (x.setPair l r d).hm = x.hm ∧
    (x.setPair l r d).pl = x.pl ∧ (x.setPair l r d).sec = x.sec ∧ (x.setPair l r d).tcause = x.tcause ∧
    (x.setPair l r d).tinfo = x.tinfo ∧ (x.setPair l r d).tpc = x.tpc ∧ (x.setPair l r d).tssw = x.tssw ∧
    (x.setPair l r d).rstk = x.rstk ∧ (x.setPair l r d).lstk = x.lstk ∧ (x.setPair l r d).acnt = x.acnt ∧
    (x.setPair l r d).long = x.long ∧ (x.setPair l r d).held = x.held ∧ (x.setPair l r d).wait = x.wait ∧
    (x.setPair l r d).syncg = x.syncg ∧ (x.setPair l r d).owed = x.owed ∧ (x.setPair l r d).defer = x.defer ∧
    (x.setPair l r d).rewait = x.rewait ∧ (x.setPair l r d).stopped = x.stopped ∧ (x.setPair l r d).stinfo = x.stinfo ∧
    (x.setPair l r d).age = x.age ∧ (x.setPair l r d).waits = x.waits ∧ (x.setPair l r d).islot = x.islot ∧
    (x.setPair l r d).notBefore = x.notBefore ∧ (x.setPair l r d).avail = x.avail ∧
    (x.setPair l r d).withheldAt = x.withheldAt ∧ (x.setPair l r d).serial = x.serial :=
  by and_intros <;> rfl

@[simp] theorem setS_frame (x : Strand) (r : Nat) (d : Dword) :
    (x.setS r d).ctx = x.ctx ∧ (x.setS r d).slot = x.slot ∧ (x.setS r d).tslot = x.tslot ∧ (x.setS r d).role = x.role ∧
    (x.setS r d).ngrp = x.ngrp ∧ (x.setS r d).budget = x.budget ∧ (x.setS r d).laneBase = x.laneBase ∧
    (x.setS r d).teamX = x.teamX ∧ (x.setS r d).teamY = x.teamY ∧ (x.setS r d).teamZ = x.teamZ ∧
    (x.setS r d).gridX = x.gridX ∧ (x.setS r d).gridY = x.gridY ∧ (x.setS r d).gridZ = x.gridZ ∧
    (x.setS r d).lbasis = x.lbasis ∧ (x.setS r d).pc = x.pc ∧ (x.setS r d).live = x.live ∧
    (x.setS r d).active = x.active ∧ (x.setS r d).v = x.v ∧ (x.setS r d).p = x.p ∧ (x.setS r d).c = x.c ∧
    (x.setS r d).k = x.k ∧ (x.setS r d).h = x.h ∧ (x.setS r d).lpr = x.lpr ∧ (x.setS r d).fpsr = x.fpsr ∧
    (x.setS r d).hm = x.hm ∧ (x.setS r d).pl = x.pl ∧ (x.setS r d).sec = x.sec ∧ (x.setS r d).tcause = x.tcause ∧
    (x.setS r d).tinfo = x.tinfo ∧ (x.setS r d).tpc = x.tpc ∧ (x.setS r d).tssw = x.tssw ∧ (x.setS r d).rstk = x.rstk ∧
    (x.setS r d).lstk = x.lstk ∧ (x.setS r d).acnt = x.acnt ∧ (x.setS r d).long = x.long ∧ (x.setS r d).held = x.held ∧
    (x.setS r d).wait = x.wait ∧ (x.setS r d).syncg = x.syncg ∧ (x.setS r d).owed = x.owed ∧
    (x.setS r d).defer = x.defer ∧ (x.setS r d).rewait = x.rewait ∧ (x.setS r d).stopped = x.stopped ∧
    (x.setS r d).stinfo = x.stinfo ∧ (x.setS r d).age = x.age ∧ (x.setS r d).waits = x.waits ∧
    (x.setS r d).islot = x.islot ∧ (x.setS r d).notBefore = x.notBefore ∧ (x.setS r d).avail = x.avail ∧
    (x.setS r d).withheldAt = x.withheldAt ∧ (x.setS r d).serial = x.serial ∧ (x.setS r d).dbl = x.dbl :=
  by and_intros <;> rfl

@[simp] theorem setK_frame (x : Strand) (r : Nat) (m : Mask) :
    (x.setK r m).ctx = x.ctx ∧ (x.setK r m).slot = x.slot ∧ (x.setK r m).tslot = x.tslot ∧ (x.setK r m).role = x.role ∧
    (x.setK r m).ngrp = x.ngrp ∧ (x.setK r m).budget = x.budget ∧ (x.setK r m).laneBase = x.laneBase ∧
    (x.setK r m).teamX = x.teamX ∧ (x.setK r m).teamY = x.teamY ∧ (x.setK r m).teamZ = x.teamZ ∧
    (x.setK r m).gridX = x.gridX ∧ (x.setK r m).gridY = x.gridY ∧ (x.setK r m).gridZ = x.gridZ ∧
    (x.setK r m).lbasis = x.lbasis ∧ (x.setK r m).pc = x.pc ∧ (x.setK r m).live = x.live ∧
    (x.setK r m).active = x.active ∧ (x.setK r m).v = x.v ∧ (x.setK r m).s = x.s ∧ (x.setK r m).p = x.p ∧
    (x.setK r m).c = x.c ∧ (x.setK r m).h = x.h ∧ (x.setK r m).lpr = x.lpr ∧ (x.setK r m).fpsr = x.fpsr ∧
    (x.setK r m).hm = x.hm ∧ (x.setK r m).pl = x.pl ∧ (x.setK r m).sec = x.sec ∧ (x.setK r m).tcause = x.tcause ∧
    (x.setK r m).tinfo = x.tinfo ∧ (x.setK r m).tpc = x.tpc ∧ (x.setK r m).tssw = x.tssw ∧ (x.setK r m).rstk = x.rstk ∧
    (x.setK r m).lstk = x.lstk ∧ (x.setK r m).acnt = x.acnt ∧ (x.setK r m).long = x.long ∧ (x.setK r m).held = x.held ∧
    (x.setK r m).wait = x.wait ∧ (x.setK r m).syncg = x.syncg ∧ (x.setK r m).owed = x.owed ∧
    (x.setK r m).defer = x.defer ∧ (x.setK r m).rewait = x.rewait ∧ (x.setK r m).stopped = x.stopped ∧
    (x.setK r m).stinfo = x.stinfo ∧ (x.setK r m).age = x.age ∧ (x.setK r m).waits = x.waits ∧
    (x.setK r m).islot = x.islot ∧ (x.setK r m).notBefore = x.notBefore ∧ (x.setK r m).avail = x.avail ∧
    (x.setK r m).withheldAt = x.withheldAt ∧ (x.setK r m).serial = x.serial ∧ (x.setK r m).dbl = x.dbl :=
  by and_intros <;> rfl

@[simp] theorem setH_frame (x : Strand) (r : Nat) (h : Handle) :
    (x.setH r h).ctx = x.ctx ∧ (x.setH r h).slot = x.slot ∧ (x.setH r h).tslot = x.tslot ∧ (x.setH r h).role = x.role ∧
    (x.setH r h).ngrp = x.ngrp ∧ (x.setH r h).budget = x.budget ∧ (x.setH r h).laneBase = x.laneBase ∧
    (x.setH r h).teamX = x.teamX ∧ (x.setH r h).teamY = x.teamY ∧ (x.setH r h).teamZ = x.teamZ ∧
    (x.setH r h).gridX = x.gridX ∧ (x.setH r h).gridY = x.gridY ∧ (x.setH r h).gridZ = x.gridZ ∧
    (x.setH r h).lbasis = x.lbasis ∧ (x.setH r h).pc = x.pc ∧ (x.setH r h).live = x.live ∧
    (x.setH r h).active = x.active ∧ (x.setH r h).v = x.v ∧ (x.setH r h).s = x.s ∧ (x.setH r h).p = x.p ∧
    (x.setH r h).c = x.c ∧ (x.setH r h).k = x.k ∧ (x.setH r h).lpr = x.lpr ∧ (x.setH r h).fpsr = x.fpsr ∧
    (x.setH r h).hm = x.hm ∧ (x.setH r h).pl = x.pl ∧ (x.setH r h).sec = x.sec ∧ (x.setH r h).tcause = x.tcause ∧
    (x.setH r h).tinfo = x.tinfo ∧ (x.setH r h).tpc = x.tpc ∧ (x.setH r h).tssw = x.tssw ∧ (x.setH r h).rstk = x.rstk ∧
    (x.setH r h).lstk = x.lstk ∧ (x.setH r h).acnt = x.acnt ∧ (x.setH r h).long = x.long ∧ (x.setH r h).held = x.held ∧
    (x.setH r h).wait = x.wait ∧ (x.setH r h).syncg = x.syncg ∧ (x.setH r h).owed = x.owed ∧
    (x.setH r h).defer = x.defer ∧ (x.setH r h).rewait = x.rewait ∧ (x.setH r h).stopped = x.stopped ∧
    (x.setH r h).stinfo = x.stinfo ∧ (x.setH r h).age = x.age ∧ (x.setH r h).waits = x.waits ∧
    (x.setH r h).islot = x.islot ∧ (x.setH r h).notBefore = x.notBefore ∧ (x.setH r h).avail = x.avail ∧
    (x.setH r h).withheldAt = x.withheldAt ∧ (x.setH r h).serial = x.serial ∧ (x.setH r h).dbl = x.dbl :=
  by and_intros <;> rfl

@[simp] theorem addCount_frame (x : Strand) (c n : Nat) :
    (x.addCount c n).ctx = x.ctx ∧ (x.addCount c n).slot = x.slot ∧ (x.addCount c n).tslot = x.tslot ∧
    (x.addCount c n).role = x.role ∧ (x.addCount c n).ngrp = x.ngrp ∧ (x.addCount c n).budget = x.budget ∧
    (x.addCount c n).laneBase = x.laneBase ∧ (x.addCount c n).teamX = x.teamX ∧ (x.addCount c n).teamY = x.teamY ∧
    (x.addCount c n).teamZ = x.teamZ ∧ (x.addCount c n).gridX = x.gridX ∧ (x.addCount c n).gridY = x.gridY ∧
    (x.addCount c n).gridZ = x.gridZ ∧ (x.addCount c n).lbasis = x.lbasis ∧ (x.addCount c n).pc = x.pc ∧
    (x.addCount c n).live = x.live ∧ (x.addCount c n).active = x.active ∧ (x.addCount c n).v = x.v ∧
    (x.addCount c n).s = x.s ∧ (x.addCount c n).p = x.p ∧ (x.addCount c n).c = x.c ∧ (x.addCount c n).k = x.k ∧
    (x.addCount c n).h = x.h ∧ (x.addCount c n).lpr = x.lpr ∧ (x.addCount c n).fpsr = x.fpsr ∧
    (x.addCount c n).hm = x.hm ∧ (x.addCount c n).pl = x.pl ∧ (x.addCount c n).sec = x.sec ∧
    (x.addCount c n).tcause = x.tcause ∧ (x.addCount c n).tinfo = x.tinfo ∧ (x.addCount c n).tpc = x.tpc ∧
    (x.addCount c n).tssw = x.tssw ∧ (x.addCount c n).rstk = x.rstk ∧ (x.addCount c n).lstk = x.lstk ∧
    (x.addCount c n).long = x.long ∧ (x.addCount c n).held = x.held ∧ (x.addCount c n).wait = x.wait ∧
    (x.addCount c n).syncg = x.syncg ∧ (x.addCount c n).owed = x.owed ∧ (x.addCount c n).defer = x.defer ∧
    (x.addCount c n).rewait = x.rewait ∧ (x.addCount c n).stopped = x.stopped ∧ (x.addCount c n).stinfo = x.stinfo ∧
    (x.addCount c n).age = x.age ∧ (x.addCount c n).waits = x.waits ∧ (x.addCount c n).islot = x.islot ∧
    (x.addCount c n).notBefore = x.notBefore ∧ (x.addCount c n).avail = x.avail ∧
    (x.addCount c n).withheldAt = x.withheldAt ∧ (x.addCount c n).serial = x.serial ∧ (x.addCount c n).dbl = x.dbl :=
  by and_intros <;> rfl

@[simp] theorem subCount_frame (x : Strand) (c n : Nat) :
    (x.subCount c n).ctx = x.ctx ∧ (x.subCount c n).slot = x.slot ∧ (x.subCount c n).tslot = x.tslot ∧
    (x.subCount c n).role = x.role ∧ (x.subCount c n).ngrp = x.ngrp ∧ (x.subCount c n).budget = x.budget ∧
    (x.subCount c n).laneBase = x.laneBase ∧ (x.subCount c n).teamX = x.teamX ∧ (x.subCount c n).teamY = x.teamY ∧
    (x.subCount c n).teamZ = x.teamZ ∧ (x.subCount c n).gridX = x.gridX ∧ (x.subCount c n).gridY = x.gridY ∧
    (x.subCount c n).gridZ = x.gridZ ∧ (x.subCount c n).lbasis = x.lbasis ∧ (x.subCount c n).pc = x.pc ∧
    (x.subCount c n).live = x.live ∧ (x.subCount c n).active = x.active ∧ (x.subCount c n).v = x.v ∧
    (x.subCount c n).s = x.s ∧ (x.subCount c n).p = x.p ∧ (x.subCount c n).c = x.c ∧ (x.subCount c n).k = x.k ∧
    (x.subCount c n).h = x.h ∧ (x.subCount c n).lpr = x.lpr ∧ (x.subCount c n).fpsr = x.fpsr ∧
    (x.subCount c n).hm = x.hm ∧ (x.subCount c n).pl = x.pl ∧ (x.subCount c n).sec = x.sec ∧
    (x.subCount c n).tcause = x.tcause ∧ (x.subCount c n).tinfo = x.tinfo ∧ (x.subCount c n).tpc = x.tpc ∧
    (x.subCount c n).tssw = x.tssw ∧ (x.subCount c n).rstk = x.rstk ∧ (x.subCount c n).lstk = x.lstk ∧
    (x.subCount c n).long = x.long ∧ (x.subCount c n).held = x.held ∧ (x.subCount c n).wait = x.wait ∧
    (x.subCount c n).syncg = x.syncg ∧ (x.subCount c n).owed = x.owed ∧ (x.subCount c n).defer = x.defer ∧
    (x.subCount c n).rewait = x.rewait ∧ (x.subCount c n).stopped = x.stopped ∧ (x.subCount c n).stinfo = x.stinfo ∧
    (x.subCount c n).age = x.age ∧ (x.subCount c n).waits = x.waits ∧ (x.subCount c n).islot = x.islot ∧
    (x.subCount c n).notBefore = x.notBefore ∧ (x.subCount c n).avail = x.avail ∧
    (x.subCount c n).withheldAt = x.withheldAt ∧ (x.subCount c n).serial = x.serial ∧ (x.subCount c n).dbl = x.dbl :=
  by and_intros <;> rfl

@[simp] theorem addFlags_frame (fl : BitVec 6) (x : Strand) :
    (addFlags fl x).ctx = x.ctx ∧ (addFlags fl x).slot = x.slot ∧ (addFlags fl x).tslot = x.tslot ∧
    (addFlags fl x).role = x.role ∧ (addFlags fl x).ngrp = x.ngrp ∧ (addFlags fl x).budget = x.budget ∧
    (addFlags fl x).laneBase = x.laneBase ∧ (addFlags fl x).teamX = x.teamX ∧ (addFlags fl x).teamY = x.teamY ∧
    (addFlags fl x).teamZ = x.teamZ ∧ (addFlags fl x).gridX = x.gridX ∧ (addFlags fl x).gridY = x.gridY ∧
    (addFlags fl x).gridZ = x.gridZ ∧ (addFlags fl x).lbasis = x.lbasis ∧ (addFlags fl x).pc = x.pc ∧
    (addFlags fl x).live = x.live ∧ (addFlags fl x).active = x.active ∧ (addFlags fl x).v = x.v ∧
    (addFlags fl x).s = x.s ∧ (addFlags fl x).p = x.p ∧ (addFlags fl x).c = x.c ∧ (addFlags fl x).k = x.k ∧
    (addFlags fl x).h = x.h ∧ (addFlags fl x).lpr = x.lpr ∧ (addFlags fl x).hm = x.hm ∧ (addFlags fl x).pl = x.pl ∧
    (addFlags fl x).sec = x.sec ∧ (addFlags fl x).tcause = x.tcause ∧ (addFlags fl x).tinfo = x.tinfo ∧
    (addFlags fl x).tpc = x.tpc ∧ (addFlags fl x).tssw = x.tssw ∧ (addFlags fl x).rstk = x.rstk ∧
    (addFlags fl x).lstk = x.lstk ∧ (addFlags fl x).acnt = x.acnt ∧ (addFlags fl x).long = x.long ∧
    (addFlags fl x).held = x.held ∧ (addFlags fl x).wait = x.wait ∧ (addFlags fl x).syncg = x.syncg ∧
    (addFlags fl x).owed = x.owed ∧ (addFlags fl x).defer = x.defer ∧ (addFlags fl x).rewait = x.rewait ∧
    (addFlags fl x).stopped = x.stopped ∧ (addFlags fl x).stinfo = x.stinfo ∧ (addFlags fl x).age = x.age ∧
    (addFlags fl x).waits = x.waits ∧ (addFlags fl x).islot = x.islot ∧ (addFlags fl x).notBefore = x.notBefore ∧
    (addFlags fl x).avail = x.avail ∧ (addFlags fl x).withheldAt = x.withheldAt ∧ (addFlags fl x).serial = x.serial ∧
    (addFlags fl x).dbl = x.dbl :=
  by and_intros <;> rfl

@[simp] theorem setPreg_frame (x : Strand) (r : Nat) (m : Mask) :
    (x.setPreg r m).ctx = x.ctx ∧ (x.setPreg r m).slot = x.slot ∧ (x.setPreg r m).tslot = x.tslot ∧
    (x.setPreg r m).role = x.role ∧ (x.setPreg r m).ngrp = x.ngrp ∧ (x.setPreg r m).budget = x.budget ∧
    (x.setPreg r m).laneBase = x.laneBase ∧ (x.setPreg r m).teamX = x.teamX ∧ (x.setPreg r m).teamY = x.teamY ∧
    (x.setPreg r m).teamZ = x.teamZ ∧ (x.setPreg r m).gridX = x.gridX ∧ (x.setPreg r m).gridY = x.gridY ∧
    (x.setPreg r m).gridZ = x.gridZ ∧ (x.setPreg r m).lbasis = x.lbasis ∧ (x.setPreg r m).pc = x.pc ∧
    (x.setPreg r m).live = x.live ∧ (x.setPreg r m).active = x.active ∧ (x.setPreg r m).v = x.v ∧
    (x.setPreg r m).s = x.s ∧ (x.setPreg r m).c = x.c ∧ (x.setPreg r m).k = x.k ∧ (x.setPreg r m).h = x.h ∧
    (x.setPreg r m).lpr = x.lpr ∧ (x.setPreg r m).fpsr = x.fpsr ∧ (x.setPreg r m).hm = x.hm ∧
    (x.setPreg r m).pl = x.pl ∧ (x.setPreg r m).sec = x.sec ∧ (x.setPreg r m).tcause = x.tcause ∧
    (x.setPreg r m).tinfo = x.tinfo ∧ (x.setPreg r m).tpc = x.tpc ∧ (x.setPreg r m).tssw = x.tssw ∧
    (x.setPreg r m).rstk = x.rstk ∧ (x.setPreg r m).lstk = x.lstk ∧ (x.setPreg r m).acnt = x.acnt ∧
    (x.setPreg r m).long = x.long ∧ (x.setPreg r m).held = x.held ∧ (x.setPreg r m).wait = x.wait ∧
    (x.setPreg r m).syncg = x.syncg ∧ (x.setPreg r m).owed = x.owed ∧ (x.setPreg r m).defer = x.defer ∧
    (x.setPreg r m).rewait = x.rewait ∧ (x.setPreg r m).stopped = x.stopped ∧ (x.setPreg r m).stinfo = x.stinfo ∧
    (x.setPreg r m).age = x.age ∧ (x.setPreg r m).waits = x.waits ∧ (x.setPreg r m).islot = x.islot ∧
    (x.setPreg r m).notBefore = x.notBefore ∧ (x.setPreg r m).avail = x.avail ∧
    (x.setPreg r m).withheldAt = x.withheldAt ∧ (x.setPreg r m).serial = x.serial ∧ (x.setPreg r m).dbl = x.dbl :=
  by unfold Strand.setPreg; split <;> and_intros <;> rfl

@[simp] theorem setC_frame (x : Strand) (r : Nat) (b : Bool) :
    (x.setC r b).ctx = x.ctx ∧ (x.setC r b).slot = x.slot ∧ (x.setC r b).tslot = x.tslot ∧ (x.setC r b).role = x.role ∧
    (x.setC r b).ngrp = x.ngrp ∧ (x.setC r b).budget = x.budget ∧ (x.setC r b).laneBase = x.laneBase ∧
    (x.setC r b).teamX = x.teamX ∧ (x.setC r b).teamY = x.teamY ∧ (x.setC r b).teamZ = x.teamZ ∧
    (x.setC r b).gridX = x.gridX ∧ (x.setC r b).gridY = x.gridY ∧ (x.setC r b).gridZ = x.gridZ ∧
    (x.setC r b).lbasis = x.lbasis ∧ (x.setC r b).pc = x.pc ∧ (x.setC r b).live = x.live ∧
    (x.setC r b).active = x.active ∧ (x.setC r b).v = x.v ∧ (x.setC r b).s = x.s ∧ (x.setC r b).p = x.p ∧
    (x.setC r b).k = x.k ∧ (x.setC r b).h = x.h ∧ (x.setC r b).lpr = x.lpr ∧ (x.setC r b).fpsr = x.fpsr ∧
    (x.setC r b).hm = x.hm ∧ (x.setC r b).pl = x.pl ∧ (x.setC r b).sec = x.sec ∧ (x.setC r b).tcause = x.tcause ∧
    (x.setC r b).tinfo = x.tinfo ∧ (x.setC r b).tpc = x.tpc ∧ (x.setC r b).tssw = x.tssw ∧ (x.setC r b).rstk = x.rstk ∧
    (x.setC r b).lstk = x.lstk ∧ (x.setC r b).acnt = x.acnt ∧ (x.setC r b).long = x.long ∧ (x.setC r b).held = x.held ∧
    (x.setC r b).wait = x.wait ∧ (x.setC r b).syncg = x.syncg ∧ (x.setC r b).owed = x.owed ∧
    (x.setC r b).defer = x.defer ∧ (x.setC r b).rewait = x.rewait ∧ (x.setC r b).stopped = x.stopped ∧
    (x.setC r b).stinfo = x.stinfo ∧ (x.setC r b).age = x.age ∧ (x.setC r b).waits = x.waits ∧
    (x.setC r b).islot = x.islot ∧ (x.setC r b).notBefore = x.notBefore ∧ (x.setC r b).avail = x.avail ∧
    (x.setC r b).withheldAt = x.withheldAt ∧ (x.setC r b).serial = x.serial ∧ (x.setC r b).dbl = x.dbl :=
  by unfold Strand.setC; split <;> and_intros <;> rfl

@[simp] theorem setPbit_frame (x : Strand) (l r : Nat) (b : Bool) :
    (x.setPbit l r b).ctx = x.ctx ∧ (x.setPbit l r b).slot = x.slot ∧ (x.setPbit l r b).tslot = x.tslot ∧
    (x.setPbit l r b).role = x.role ∧ (x.setPbit l r b).ngrp = x.ngrp ∧ (x.setPbit l r b).budget = x.budget ∧
    (x.setPbit l r b).laneBase = x.laneBase ∧ (x.setPbit l r b).teamX = x.teamX ∧ (x.setPbit l r b).teamY = x.teamY ∧
    (x.setPbit l r b).teamZ = x.teamZ ∧ (x.setPbit l r b).gridX = x.gridX ∧ (x.setPbit l r b).gridY = x.gridY ∧
    (x.setPbit l r b).gridZ = x.gridZ ∧ (x.setPbit l r b).lbasis = x.lbasis ∧ (x.setPbit l r b).pc = x.pc ∧
    (x.setPbit l r b).live = x.live ∧ (x.setPbit l r b).active = x.active ∧ (x.setPbit l r b).v = x.v ∧
    (x.setPbit l r b).s = x.s ∧ (x.setPbit l r b).c = x.c ∧ (x.setPbit l r b).k = x.k ∧ (x.setPbit l r b).h = x.h ∧
    (x.setPbit l r b).lpr = x.lpr ∧ (x.setPbit l r b).fpsr = x.fpsr ∧ (x.setPbit l r b).hm = x.hm ∧
    (x.setPbit l r b).pl = x.pl ∧ (x.setPbit l r b).sec = x.sec ∧ (x.setPbit l r b).tcause = x.tcause ∧
    (x.setPbit l r b).tinfo = x.tinfo ∧ (x.setPbit l r b).tpc = x.tpc ∧ (x.setPbit l r b).tssw = x.tssw ∧
    (x.setPbit l r b).rstk = x.rstk ∧ (x.setPbit l r b).lstk = x.lstk ∧ (x.setPbit l r b).acnt = x.acnt ∧
    (x.setPbit l r b).long = x.long ∧ (x.setPbit l r b).held = x.held ∧ (x.setPbit l r b).wait = x.wait ∧
    (x.setPbit l r b).syncg = x.syncg ∧ (x.setPbit l r b).owed = x.owed ∧ (x.setPbit l r b).defer = x.defer ∧
    (x.setPbit l r b).rewait = x.rewait ∧ (x.setPbit l r b).stopped = x.stopped ∧ (x.setPbit l r b).stinfo = x.stinfo ∧
    (x.setPbit l r b).age = x.age ∧ (x.setPbit l r b).waits = x.waits ∧ (x.setPbit l r b).islot = x.islot ∧
    (x.setPbit l r b).notBefore = x.notBefore ∧ (x.setPbit l r b).avail = x.avail ∧
    (x.setPbit l r b).withheldAt = x.withheldAt ∧ (x.setPbit l r b).serial = x.serial ∧ (x.setPbit l r b).dbl = x.dbl :=
  setPreg_frame x r _

/-! ## Reading back -/

@[simp] theorem core_setCore_same (s : State) (c : Nat) (x : Core) : (s.setCore c x).core c = x :=
  mget_mput_same _ _ _ _

theorem core_setCore_ne (s : State) {c d : Nat} (x : Core) (h : d ≠ c) : (s.setCore c x).core d = s.core d :=
  mget_mput_ne _ _ _ h

@[simp] theorem core_modCore_same (s : State) (c : Nat) (f : Core → Core) : (s.modCore c f).core c = f (s.core c) :=
  core_setCore_same s c _

theorem core_modCore (s : State) (c d : Nat) (f : Core → Core) :
    (s.modCore c f).core d = if d = c then f (s.core c) else s.core d := by
  by_cases h : d = c
  · subst h; simp
  · rw [if_neg h]; exact core_setCore_ne s _ h

@[simp] theorem setCore_setCore (s : State) (c : Nat) (x y : Core) : (s.setCore c x).setCore c y = s.setCore c y := by
  simp [State.setCore]

@[simp] theorem modCore_modCore (s : State) (c : Nat) (f g : Core → Core) :
    (s.modCore c f).modCore c g = s.modCore c fun k => g (f k) := by
  simp [State.modCore]

@[simp] theorem strand_setStrand_same (s : State) (r : Ref) (x : Strand) : (s.setStrand r x).strand? r = some x := by
  simp [State.strand?, State.setStrand]

theorem strand_setStrand_ne (s : State) {r q : Ref} (x : Strand) (h : q ≠ r) :
    (s.setStrand r x).strand? q = s.strand? q := by
  unfold State.strand? State.setStrand
  rw [core_modCore]
  by_cases g : q.core = r.core
  · have : q.strid ≠ r.strid := by
      intro e; apply h; cases q; cases r; simp_all
    simp [g, mfind_mput_ne _ _ this]
  · simp [g]

@[simp] theorem setStrand_setStrand (s : State) (r : Ref) (x y : Strand) :
    (s.setStrand r x).setStrand r y = s.setStrand r y := by simp [State.setStrand]

/-- R25: a vector register after a write. The key of a register is its own when its number is below 256. -/
theorem vreg_setV (x : Strand) (l r l' r' : Nat) (w : Word) (h : r < 256) (h' : r' < 256) :
    (x.setV l r w).vreg l' r' = if l' = l ∧ r' = r then w else x.vreg l' r' := by
  simp only [Strand.vreg, Strand.setV, mget_mput]
  congr 1
  exact propext ⟨fun e => by omega, fun e => by omega⟩

@[simp] theorem sreg_setS (x : Strand) (r r' : Nat) (d : Dword) :
    (x.setS r d).sreg r' = if r' = r then d else x.sreg r' := mget_mput 0 x.s r r' d

/-- R27: predicate 7 reads 1 and a write to it is discarded; every other write is read back. -/
theorem preg_setPreg (x : Strand) (r r' : Nat) (m : Mask) :
    (x.setPreg r m).preg r' = if r' = r ∧ r ≠ 7 then m else x.preg r' := by
  unfold Strand.setPreg
  by_cases h : r = 7
  · simp [h]
  · rw [if_neg h]
    simp only [Strand.preg, mget_mput]
    by_cases g : r' = 7
    · subst g; simp [Ne.symm h]
    · by_cases q : r' = r <;> simp [h, q]

/-- R27: condition 7 reads 1 and a write to it is discarded. -/
theorem creg_setC (x : Strand) (r r' : Nat) (b : Bool) :
    (x.setC r b).creg r' = if r' = r ∧ r ≠ 7 then b else x.creg r' := by
  unfold Strand.setC
  by_cases h : r = 7
  · simp [h]
  · rw [if_neg h]
    simp only [Strand.creg, mget_mput]
    by_cases g : r' = 7
    · subst g; simp [Ne.symm h]
    · by_cases q : r' = r <;> simp [h, q]

@[simp] theorem kreg_setK (x : Strand) (r r' : Nat) (m : Mask) :
    (x.setK r m).kreg r' = if r' = r then m &&& Mask.groups x.ngrp else x.kreg r' := mget_mput 0 x.k r r' _

@[simp] theorem hreg_setH (x : Strand) (r r' : Nat) (h : Handle) :
    (x.setH r h).hreg r' = if r' = r then h else x.hreg r' := mget_mput Handle.invalid x.h r r' h

theorem maskBit_set (m : Mask) (l l' : Nat) (b : Bool) (h : l < 1024) :
    Mask.bit (Mask.set m l b) l' = if l' = l then b else Mask.bit m l' := by
  unfold Mask.set Mask.bit
  by_cases g : l' < 1024
  · by_cases e : l' = l
    · subst e; cases b <;> simp [h]
    · by_cases q : l' < l <;> cases b <;> simp [e, g, q]
      all_goals (have : ¬ l' - l = 0 := by omega); simp [this]
  · have : l' ≠ l := by omega
    rw [if_neg this, BitVec.getLsbD_of_ge _ _ (by omega), BitVec.getLsbD_of_ge _ _ (by omega)]

theorem pbit_setPbit (x : Strand) (l r l' r' : Nat) (b : Bool) (h : l < 1024) :
    (x.setPbit l r b).pbit l' r' = if l' = l ∧ r' = r ∧ r ≠ 7 then b else x.pbit l' r' := by
  unfold Strand.pbit Strand.setPbit
  rw [preg_setPreg]
  by_cases g : r' = r ∧ r ≠ 7
  · obtain ⟨rfl, g⟩ := g
    rw [if_pos ⟨rfl, g⟩, maskBit_set _ _ _ _ h]
    by_cases e : l' = l <;> simp [e, g]
  · rw [if_neg g, if_neg fun e => g e.2]

end Sys2Proof.Laws
end

