-- ==== Sys2Proof/Laws/Issue.lean ====
section
/-! SUPPORT. The frame of every instruction of a strand: what `issue` answers when the instruction acts, what completing it
leaves unchanged, and what registers hold after lane and strand-uniform results are written. -/

namespace Sys2Proof.Laws

open Sys2Proof.Machine Sys2Proof.Safety

/-! ## Agreement outside a strand -/

theorem agree_refl (r : Ref) (s : State) : Agree r s s := ⟨rfl, fun _ _ => rfl, fun _ => rfl, fun _ => rfl⟩

theorem agree_charge (r : Ref) (s : State) (ctx kind n : Nat) : Agree r s (charge s ctx kind n) :=
  ⟨rfl, fun _ _ => rfl, fun _ => rfl, fun _ => rfl⟩

theorem agree_trans {r : Ref} {s t u : State} (h : Agree r s t) (g : Agree r t u) : Agree r s u :=
  ⟨by rw [g.1, h.1], fun q e => (g.2.1 q e).trans (h.2.1 q e), fun c => (g.2.2.1 c).trans (h.2.2.1 c),
   fun k => (g.2.2.2 k).trans (h.2.2.2 k)⟩

theorem agree_setStrand (r : Ref) (s : State) (x : Strand) : Agree r s (s.setStrand r x) := by
  refine ⟨rfl, fun q h => strand_setStrand_ne s x h, fun c => ?_, fun _ => rfl⟩
  unfold State.setStrand
  rw [core_modCore]
  split <;> simp_all

theorem agree_islots (r : Ref) (c : Nat) (s : State) (f : Core → Core)
    (h : ∀ k, (f k).strands = k.strands ∧ { f k with strands := [], islots := [] } = { k with strands := [], islots := [] }) :
    Agree r s (s.modCore c f) := by
  refine ⟨rfl, fun q _ => ?_, fun d => ?_, fun _ => rfl⟩
  · unfold State.strand?
    rw [core_modCore]
    split <;> simp_all
  · rw [core_modCore]
    split
    · subst_vars; exact (h _).2
    · rfl

theorem cluster_modCluster (s : State) (c d : Nat) (f : Cluster → Cluster) :
    (s.modCluster c f).cluster d = if d = c then f (s.cluster c) else s.cluster d := by
  unfold State.modCluster State.setCluster State.cluster
  exact mget_mput _ _ _ _ _

theorem agree_debit (r : Ref) (s : State) (core cost : Nat) : Agree r s (debit s core cost) := by
  refine ⟨rfl, fun _ _ => rfl, fun _ => rfl, fun k => ?_⟩
  unfold debit
  rw [cluster_modCluster]
  split <;> simp_all

theorem agree_holdSlot (r q : Ref) (s : State) (x : Strand) (i : Instr) : Agree r s (holdSlot s q x i) :=
  agree_islots _ _ _ _ fun _ => ⟨rfl, rfl⟩

theorem agree_issued (s : State) (r : Ref) (x : Strand) (i : Instr) : Agree r s (issued s r x i) :=
  agree_trans (agree_holdSlot r r s x i) (agree_trans (agree_debit r _ _ _)
    (agree_trans (agree_setStrand r _ _) (agree_charge r _ _ _ _)))

theorem core_of_agree {r : Ref} {u t : State} (h : Agree r u t) (c : Nat) :
    t.core c = { u.core c with strands := (t.core c).strands, islots := (t.core c).islots } := by
  have := h.2.2.1 c
  generalize t.core c = a at *
  generalize u.core c = b at *
  cases a; cases b; simp_all

theorem slot_of_agree {r : Ref} {u t : State} (h : Agree r u t) (c k : Nat) : t.slot c k = u.slot c k := by
  unfold State.slot; rw [core_of_agree h]

theorem token_of_agree {r : Ref} {u t : State} (h : Agree r u t) (c k : Nat) : t.token c k = u.token c k := by
  unfold State.token; rw [core_of_agree h]

theorem team_of_agree {r : Ref} {u t : State} (h : Agree r u t) (c k : Nat) : t.team? c k = u.team? c k := by
  unfold State.team?; rw [core_of_agree h]

/-- Two devices that agree outside a strand agree after the same change of a core that leaves strands and issue slots alone. -/
theorem agree_modCore {r : Ref} {u t : State} (h : Agree r u t) (c : Nat) (f : Core → Core)
    (hf : ∀ a b : Core, { f { b with strands := a.strands, islots := a.islots } with strands := [], islots := [] } =
      { f b with strands := [], islots := [] })
    (hs : ∀ b, (f b).strands = b.strands) : Agree r (u.modCore c f) (t.modCore c f) := by
  have st : ∀ (v : State) (q : Ref), (v.modCore c f).strand? q = v.strand? q := by
    intro v q
    unfold State.strand?
    rw [core_modCore]
    split
    · rename_i e; rw [hs, e]
    · rfl
  refine ⟨?_, fun q e => by rw [st, st, h.2.1 q e], fun d => ?_, h.2.2.2⟩
  · rw [h.1]; rfl
  · rw [core_modCore, core_modCore]
    split
    · rw [core_of_agree h c]; exact hf _ _
    · exact h.2.2.1 d

/-! ## The frame of an instruction -/

@[simp] theorem strand_issued (s : State) (r : Ref) (x : Strand) (i : Instr) :
    (issued s r x i).strand? r = some (tick s r x i) := strand_setStrand_same _ _ _

/-- What an instruction that acts answers: the outcome of its body. -/
theorem issue_acts {i : Instr} {s : State} {x : Strand} (h : Acts i s x) (body : State → Ref → Strand → Res) :
    issue i s body = Res.outcome s s.cur x (body (issued s s.cur x i) s.cur (tick s s.cur x i)) := by
  obtain ⟨⟨h1, h2, h3, h4, h5, h6, h8⟩, h7⟩ := h
  unfold issue
  rw [h1]
  have a : owesTrap x = false := by rcases h3 with h3 | h3 <;> simp [owesTrap, h3]
  have b : (x.hm && i.isLane) = false := by rcases h6 with h6 | h6 <;> simp [h6]
  simp only [h2, a, h4, h5, b, h7, h8, Bool.not_true, Bool.false_eq_true, if_false, if_true]

theorem advance_ok {x : Strand} (h : NextPcOk x) :
    advance x = some { x with pc := (loopNext x.pc x.lstk).1, lstk := (loopNext x.pc x.lstk).2 } := by
  unfold advance; exact if_pos h

theorem addFlags_zero (x : Strand) : addFlags 0 x = x := by
  unfold addFlags; simp

theorem takeDeferred_none {s : State} {r : Ref} {y : Strand} (h : s.strand? r = some y)
    (g : y.defer = [] ∨ y.hm = true) : takeDeferred s r = s := by
  unfold takeDeferred
  rw [h]
  rcases g with g | g
  · simp [g]
  · cases e : y.defer with
    | nil => simp [e]
    | cons t _ => simp [e, g]

/-- R34, R161: completing an instruction whose flags do not trap. -/
theorem finishDone_quiet {s s1 : State} {x y : Strand} {r : Ref} {fl : BitVec 6} (h : s1.strand? r = some y)
    (hp : NextPcOk y) (ht : fpTraps y fl = false) (hd : y.defer = [] ∨ y.hm = true) :
    finishDone s x r s1 fl =
      s1.setStrand r (addFlags fl { y with pc := (loopNext y.pc y.lstk).1, lstk := (loopNext y.pc y.lstk).2 }) := by
  generalize hz : ({ y with pc := (loopNext y.pc y.lstk).1, lstk := (loopNext y.pc y.lstk).2 } : Strand) = z
  have hf : z.fpsr = y.fpsr := by rw [← hz]
  have hq : z.defer = y.defer ∧ z.hm = y.hm := by rw [← hz]; exact ⟨rfl, rfl⟩
  have e : fpDue z x.pc fl = none := by
    unfold fpDue; rw [if_neg]; unfold fpTraps at ht ⊢; rw [hf, ht]; decide
  have adv : advance y = some z := by rw [advance_ok hp, hz]
  have fin : finishDone s x r s1 fl = takeDeferred (s1.setStrand r (addFlags fl z)) r := by
    unfold finishDone
    rw [h]
    simp only [adv, e, Option.toList_none, List.append_nil]
  rw [fin]
  exact takeDeferred_none (strand_setStrand_same _ _ _) (by
    rcases hd with hd | hd
    · exact .inl (hq.1.trans hd)
    · exact .inr (hq.2.trans hd))

theorem tick_frame (s : State) (r : Ref) (x : Strand) (i : Instr) :
    tick s r x i = { x with long := (tick s r x i).long, avail := (tick s r x i).avail, rewait := false, waits := 0,
                            withheldAt := none, age := (tick s r x i).age } := rfl

theorem acts_defer {i : Instr} {s : State} {x : Strand} (h : Acts i s x) : x.defer = [] ∨ x.hm = true := h.1.2.2.1

/-- An instruction whose body leaves a strand `y` at the place of the one executed completes into it. -/
theorem becomes_done {i : Instr} {s u : State} {x y : Strand} {fl : BitVec 6} {body : State → Ref → Strand → Res}
    (he : exec i s = issue i s body) (ha : Acts i s x)
    (hb : body (issued s s.cur x i) s.cur (tick s s.cur x i) = .done (u.setStrand s.cur y) fl)
    (hp : NextPcOk y) (ht : fpTraps y fl = false) (hd : y.defer = [] ∨ y.hm = true) :
    Becomes i s u (addFlags fl (moved (loopNext y.pc y.lstk) y)) := by
  refine ⟨_, ?_, strand_setStrand_same u s.cur _, agree_setStrand _ _ _⟩
  rw [he, issue_acts ha, hb]
  simp only [Res.outcome]
  rw [finishDone_quiet (strand_setStrand_same _ _ _) hp ht hd, setStrand_setStrand]; rfl

/-! ## What operands read -/

theorem sprRead_issued (s : State) (r : Ref) (x : Strand) (i : Instr) (l k : Nat) :
    sprRead (issued s r x i) r (tick s r x i) l k = sprRead s r x l k := by
  have n : (tick s r x i).llo = x.llo := by
    simp only [Strand.llo, tick, List.filter_map, List.length_map]; rfl
  have h : (tick s r x i).ssw = x.ssw := by
    unfold Strand.ssw; rw [n]; rfl
  have c : (issued s r x i).cycle = s.cycle := rfl
  unfold sprRead
  simp only [h, c]
  rfl

@[simp] theorem laneOp_issued (s : State) (r : Ref) (x : Strand) (i : Instr) (n l : Nat) (o : Opnd) :
    laneOp (issued s r x i) r (tick s r x i) n l o = laneOp s r x n l o := by
  cases o <;> simp only [laneOp, sprRead_issued] <;> rfl

@[simp] theorem uniOp_issued (s : State) (r : Ref) (x : Strand) (i : Instr) (o : Opnd) :
    uniOp (issued s r x i) r (tick s r x i) o = uniOp s r x o := by
  cases o <;> simp only [uniOp, sprRead_issued] <;> rfl

@[simp] theorem laneReader_issued (s : State) (r : Ref) (x : Strand) (i : Instr) (l : Nat) :
    laneReader (issued s r x i) r (tick s r x i) l = laneReader s r x l := by
  funext n o; exact laneOp_issued s r x i n l o

@[simp] theorem uniReader_issued (s : State) (r : Ref) (x : Strand) (i : Instr) :
    uniReader (issued s r x i) r (tick s r x i) = uniReader s r x := by
  funext n o; simp [uniReader]

/-! ## Lane results -/

theorem perLane_eq (x : Strand) (ls : List Nat) (n : Nat) (d : Opnd) (f : Nat → Dword × BitVec 6) :
    perLane x ls n d f = (ls.foldl (fun y l => writeLane n d l (f l).1 y) x, laneFlags ls f) := by
  unfold perLane laneFlags
  generalize (0 : BitVec 6) = fl
  induction ls generalizing x fl with
  | nil => rfl
  | cons a r ih => exact ih _ _

/-- Writing lanes changes nothing of the strand but its v and p registers, and the marks of the v registers written. -/
theorem writeLane_frame (n : Nat) (d : Opnd) (l : Nat) (w : Dword) (x : Strand) :
    writeLane n d l w x =
      { x with v := (writeLane n d l w x).v, p := (writeLane n d l w x).p, dbl := (writeLane n d l w x).dbl } := by
  cases d with
  | v k => simp only [writeLane]; split <;> rfl
  | p k => simp only [writeLane, Strand.setPbit, Strand.setPreg]; split <;> rfl
  | _ => rfl

theorem writeLanes_frame (ls : List Nat) (n : Nat) (d : Opnd) (f : Nat → Dword) (x : Strand) :
    ls.foldl (fun y l => writeLane n d l (f l) y) x =
      { x with v := (ls.foldl (fun y l => writeLane n d l (f l) y) x).v,
               p := (ls.foldl (fun y l => writeLane n d l (f l) y) x).p,
               dbl := (ls.foldl (fun y l => writeLane n d l (f l) y) x).dbl } := by
  induction ls generalizing x with
  | nil => rfl
  | cons a r ih =>
    rw [List.foldl_cons, ih, writeLane_frame n d a (f a) x]

/-- R297: a lane's write marks no register. -/
theorem dbl_writeLane (n : Nat) (d : Opnd) (l : Nat) (w : Dword) (x : Strand) : ∀ k ∈ (writeLane n d l w x).dbl, k ∈ x.dbl := by
  intro k h
  cases d with
  | v r => simp only [writeLane, Strand.setPair] at h; split at h <;> simp_all [Strand.setV]
  | p r => simp only [writeLane, Strand.setPbit, Strand.setPreg] at h; split at h <;> exact h
  | _ => exact h

theorem dbl_writeLanes (ls : List Nat) (n : Nat) (d : Opnd) (f : Nat → Dword) (x : Strand) :
    ∀ k ∈ (ls.foldl (fun y l => writeLane n d l (f l) y) x).dbl, k ∈ x.dbl := by
  induction ls generalizing x with
  | nil => exact fun _ h => h
  | cons a r ih => exact fun k h => dbl_writeLane n d a _ x k (ih _ k h)

theorem vreg_writeLane (n : Nat) (k : BitVec 8) (l l' r' : Nat) (w : Dword) (x : Strand) (hr : r' < 256)
    (h : PairOk n (.v k)) :
    (writeLane n (.v k) l w x).vreg l' r' =
      if l' = l ∧ r' = k.toNat then w.setWidth 32
      else if l' = l ∧ n = 2 ∧ r' = k.toNat + 1 then w.extractLsb' 32 32 else x.vreg l' r' := by
  have hk : k.toNat < 256 := k.isLt
  unfold writeLane
  by_cases e : n = 2
  · have := h e
    subst e
    simp only [if_true, Strand.setPair]
    rw [vreg_setV _ _ _ _ _ _ (by omega) hr, vreg_setV _ _ _ _ _ _ hk hr]
    by_cases a : l' = l <;> by_cases b : r' = k.toNat <;> by_cases c : r' = k.toNat + 1 <;> simp [a, b, c]
    all_goals first | omega | (ext i; simp)
  · simp only [if_neg e]
    rw [vreg_setV _ _ _ _ _ _ hk hr]
    simp [e]

theorem pbit_writeLane_v (n : Nat) (k : BitVec 8) (l l' r' : Nat) (w : Dword) (x : Strand) :
    (writeLane n (.v k) l w x).pbit l' r' = x.pbit l' r' := by
  unfold writeLane; dsimp only; split <;> rfl

/-- What the lanes written by a lane instruction hold. -/
theorem writeLanes_reads (ls : List Nat) (n : Nat) (d : Opnd) (f : Nat → Dword) (x : Strand) (h : PairOk n d)
    (hl : ∀ l ∈ ls, l < 1024) : LaneWrites x (ls.foldl (fun y l => writeLane n d l (f l) y) x) ls n d f := by
  refine ⟨?_, ?_, by rw [writeLanes_frame], by rw [writeLanes_frame], dbl_writeLanes ls n d f x⟩
  · intro l r hr
    induction ls generalizing x with
    | nil => cases d <;> simp
    | cons a ls ih =>
      have hl' : ∀ l ∈ ls, l < 1024 := fun l m => hl l (List.mem_cons_of_mem _ m)
      rw [List.foldl_cons, ih _ hl']
      cases d with
      | v k =>
        simp only [vreg_writeLane _ _ _ _ _ _ _ hr h, List.mem_cons]
        by_cases e : l = a
        · subst e
          by_cases m : l ∈ ls <;> by_cases q : r = k.toNat <;> by_cases w : n = 2 ∧ r = k.toNat + 1 <;> simp [m, q, w]
        · by_cases m : l ∈ ls <;> simp [m, e]
      | p k => rw [writeLane_frame]; simp only [writeLane, Strand.setPbit, Strand.setPreg]; split <;> rfl
      | _ => rfl
  · intro l r hr
    induction ls generalizing x with
    | nil => cases d <;> simp
    | cons a ls ih =>
      have hl' : ∀ l ∈ ls, l < 1024 := fun l m => hl l (List.mem_cons_of_mem _ m)
      rw [List.foldl_cons, ih _ hl']
      cases d with
      | v k => exact pbit_writeLane_v _ _ _ _ _ _ _
      | p k =>
        simp only [writeLane, pbit_setPbit _ _ _ _ _ _ (hl a (by simp)), List.mem_cons]
        by_cases e : l = a
        · subst e; by_cases m : l ∈ ls <;> by_cases q : r = k.toNat <;> by_cases z : r = 7 <;> simp_all
        · by_cases m : l ∈ ls <;> simp [m, e]
      | _ => rfl

theorem bit_lt {m : Mask} {l : Nat} (h : Mask.bit m l = true) : l < 1024 := by
  by_contra g
  unfold Mask.bit at h
  rw [BitVec.getLsbD_of_ge _ _ (by omega)] at h
  cases h

theorem acting_lt {x : Strand} {hd : Hdr} {l : Nat} (h : l ∈ x.acting hd) : l < 1024 := by
  unfold Strand.acting Strand.activeLanes Mask.lanes at h
  simp only [List.mem_filter] at h
  exact bit_lt h.1.2

/-- A lane instruction of fixed latency completes as `LaneRule` says. -/
theorem laneRule_of {i : Instr} {P : State → Strand → Prop} {n : Nat} {d : Opnd} {f : State → Strand → Nat → Dword × BitVec 6}
    {body : State → Ref → Strand → Res} (he : ∀ s, exec i s = issue i s body)
    (hb : ∀ s x, P s x → body (issued s s.cur x i) s.cur (tick s s.cur x i) =
      .done ((issued s s.cur x i).setStrand s.cur (perLane (tick s s.cur x i) (x.acting i.hdr) n d (f s x)).1)
        (perLane (tick s s.cur x i) (x.acting i.hdr) n d (f s x)).2) : LaneRule i P n d f := by
  intro s x ha hP hp hd ht
  have hb := hb s x hP
  rw [perLane_eq] at hb
  simp only at hb
  have fr := writeLanes_frame (x.acting i.hdr) n d (fun l => (f s x l).1) (tick s s.cur x i)
  have rd := writeLanes_reads (x.acting i.hdr) n d (fun l => (f s x l).1) (tick s s.cur x i) hd fun l m => acting_lt m
  generalize (x.acting i.hdr).foldl (fun y l => writeLane n d l (f s x l).1 y) (tick s s.cur x i) = z at *
  have b := becomes_done (he s) ha hb (by rw [fr]; exact hp) (by rw [fr]; exact ht)
    (by rw [fr]; exact acts_defer (s := s) (x := x) ha)
  obtain ⟨t, h1, h2, h3⟩ := b
  refine ⟨_, ⟨t, h1, h2, agree_trans (agree_issued s s.cur x i) h3⟩, ?_, ⟨rd.1, rd.2.1, ?_, ?_, rd.2.2.2.2⟩, ?_⟩
  · unfold PastBut past bookkept; rw [fr]; rfl
  · rw [fr]; rfl
  · rw [fr]; rfl
  · rw [fr]; rfl

/-! ## Strand-uniform results -/

theorem writeUni_frame (d : Opnd) (w : Dword) (x : Strand) :
    writeUni d w x = { x with s := (writeUni d w x).s, c := (writeUni d w x).c } := by
  cases d with
  | c k => simp only [writeUni, Strand.setC]; split <;> rfl
  | _ => rfl

theorem writeUni_reads (d : Opnd) (w : Dword) (x : Strand) : UniWrites x (writeUni d w x) d w := by
  refine ⟨fun r => ?_, fun r => ?_, by rw [writeUni_frame], by rw [writeUni_frame], by rw [writeUni_frame]⟩
  · cases d with
    | s k => exact sreg_setS _ _ _ _
    | c k => simp only [writeUni, Strand.setC]; split <;> rfl
    | _ => rfl
  · cases d with
    | c k =>
      simp only [writeUni, creg_setC]
      by_cases h : r = k.toNat
      · subst h; rfl
      · simp [h]
    | _ => rfl

/-- A strand-uniform instruction completes as `UniRule` says. -/
theorem uniRule_of {i : Instr} {d : Opnd} {f : State → Strand → Dword × BitVec 6}
    {body : State → Ref → Strand → Res} (he : ∀ s, exec i s = issue i s body)
    (hb : ∀ s x, body (issued s s.cur x i) s.cur (tick s s.cur x i) =
      .done ((issued s s.cur x i).setStrand s.cur (writeUni d (f s x).1 (tick s s.cur x i))) (f s x).2) : UniRule i d f := by
  intro s x ha hp ht
  have hb := hb s x
  have fr := writeUni_frame d (f s x).1 (tick s s.cur x i)
  have rd := writeUni_reads d (f s x).1 (tick s s.cur x i)
  generalize writeUni d (f s x).1 (tick s s.cur x i) = z at *
  have b := becomes_done (he s) ha hb (by rw [fr]; exact hp) (by rw [fr]; exact ht) (by rw [fr]; exact acts_defer (s := s) (x := x) ha)
  obtain ⟨t, h1, h2, h3⟩ := b
  refine ⟨_, ⟨t, h1, h2, agree_trans (agree_issued s s.cur x i) h3⟩, ?_, ⟨rd.1, rd.2.1, ?_, ?_, ?_⟩, ?_⟩
  · unfold PastBut past bookkept; rw [fr]; rfl
  · rw [fr]; rfl
  · rw [fr]; rfl
  · rw [fr]; rfl
  · rw [fr]; rfl

/-- R61: an instruction whose kind its destination sets completes as `KindRule` says. -/
theorem kindRule_of {i : Instr} {n : Nat} {d : Opnd} {g : Reader → Dword × BitVec 6} {hd : Hdr} (hh : hd = i.hdr)
    (he : ∀ s, exec i s = issue i s (regBody fun s r x => byKind s r x (d.isV || d.isP) hd n d g)) : KindRule i n d g := by
  subst hh
  unfold KindRule
  split
  case isTrue h =>
    refine laneRule_of he fun s x _ => ?_
    simp only [regBody, byKind, h, if_true, laneReader_issued]; rfl
  case isFalse h =>
    refine uniRule_of he fun s x => ?_
    simp only [regBody, byKind, if_neg h, uniReader_issued]

/-! ## Other outcomes -/

/-- An instruction that changes registers of its strand completes as `FixedRule` says. -/
theorem fixedRule_of {i : Instr} {P : State → Strand → Prop} {f : State → Strand → Strand → Strand}
    {body : State → Ref → Strand → Res} (he : ∀ s, exec i s = issue i s body)
    (hb : ∀ s x, P s x → body (issued s s.cur x i) s.cur (tick s s.cur x i) =
      .done ((issued s s.cur x i).setStrand s.cur (f s x (tick s s.cur x i))) 0)
    (hf : ∀ s x y n, f s x (moved n y) = moved n (f s x y))
    (hd : ∀ s x y, (f s x y).pc = y.pc ∧ (f s x y).lstk = y.lstk ∧ (f s x y).defer = y.defer ∧ (f s x y).hm = y.hm) :
    FixedRule i P f := by
  intro s x ha hP hp
  have q := hd s x (tick s s.cur x i)
  obtain ⟨t, h1, h2, h3⟩ := becomes_done (u := issued s s.cur x i) (fl := 0) (he s) ha (hb s x hP)
    (by unfold NextPcOk; rw [q.1, q.2.1]; exact hp) (by simp [fpTraps, conditions])
    (by rw [q.2.2.1, q.2.2.2]; exact acts_defer (s := s) (x := x) ha)
  refine ⟨t, h1, h2.trans ?_, agree_trans (agree_issued s s.cur x i) h3⟩
  have e : loopNext (f s x (tick s s.cur x i)).pc (f s x (tick s s.cur x i)).lstk = loopNext x.pc x.lstk := by
    rw [q.1, q.2.1]; rfl
  rw [addFlags_zero, e]; unfold past bookkept; rw [hf]

/-- A long-latency instruction completes its issue as `LongRule` says. -/
theorem longRule_of {i : Instr} {P : State → Strand → Prop} {f : State → Strand → List RegW × BitVec 6}
    {body : State → Ref → Strand → Res} (he : ∀ s, exec i s = issue i s body)
    (hb : ∀ s x, P s x → body (issued s s.cur x i) s.cur (tick s s.cur x i) =
      .done ((issued s s.cur x i).setStrand s.cur { tick s s.cur x i with
        long := (tick s s.cur x i).long ++
          [newLong i (issued s s.cur x i) s.cur (tick s s.cur x i) (f s x).1 (f s x).2] }) 0) : LongRule i P f :=
  fixedRule_of he hb (fun _ _ _ _ => rfl) fun _ _ _ => ⟨rfl, rfl, rfl, rfl⟩

/-- An instruction that changes the device and its strand completes as `DeviceRule` says. -/
theorem deviceRule_of {i : Instr} {P : State → Strand → Prop} {g : Strand → State → State}
    {f : State → Strand → Strand → Strand} {body : State → Ref → Strand → Res} (he : ∀ s, exec i s = issue i s body)
    (hb : ∀ s x, P s x → ∃ w, body (issued s s.cur x i) s.cur (tick s s.cur x i) = .done w 0 ∧
      w.strand? s.cur = some (f s x (tick s s.cur x i)) ∧ Agree s.cur (g x (issued s s.cur x i)) w)
    (hf : ∀ s x y n, f s x (moved n y) = moved n (f s x y))
    (hd : ∀ s x y, (f s x y).pc = y.pc ∧ (f s x y).lstk = y.lstk ∧ (f s x y).defer = y.defer ∧ (f s x y).hm = y.hm) :
    DeviceRule i P g f := by
  intro s x ha hP hp
  obtain ⟨w, b1, b2, b3⟩ := hb s x hP
  have q := hd s x (tick s s.cur x i)
  have e : loopNext (f s x (tick s s.cur x i)).pc (f s x (tick s s.cur x i)).lstk = loopNext x.pc x.lstk := by
    rw [q.1, q.2.1]; rfl
  have fin := finishDone_quiet (s := s) (x := x) (r := s.cur) (fl := 0) b2
    (by unfold NextPcOk; rw [e]; exact hp) (by simp [fpTraps, conditions])
    (by rw [q.2.2.1, q.2.2.2]; exact acts_defer (s := s) (x := x) ha)
  refine ⟨_, ?_, strand_setStrand_same w s.cur _, agree_trans b3 (agree_setStrand _ _ _)⟩
  rw [he, issue_acts ha, b1]
  simp only [Res.outcome]
  rw [fin, addFlags_zero, e]
  unfold past bookkept
  rw [hf]; rfl

/-- An instruction whose body leaves the strand and the PC as it says. -/
theorem setRule_of {i : Instr} {P : State → Strand → Prop} {f : State → Strand → Strand → Strand}
    {body : State → Ref → Strand → Res} (he : ∀ s, exec i s = issue i s body)
    (hb : ∀ s x, P s x → body (issued s s.cur x i) s.cur (tick s s.cur x i) =
      .set ((issued s s.cur x i).setStrand s.cur (f s x (tick s s.cur x i)))) : SetRule i P f := by
  intro s x ha hP
  refine ⟨_, ?_, strand_setStrand_same (issued s s.cur x i) s.cur _,
    agree_trans (agree_issued s s.cur x i) (agree_setStrand _ _ _)⟩
  rw [he, issue_acts ha, hb s x hP]; rfl

theorem strand_modStrand_same (s : State) (r : Ref) (x : Strand) (f : Strand → Strand) :
    ((s.setStrand r x).modStrand r f) = s.setStrand r (f x) := by
  unfold State.modStrand
  rw [strand_setStrand_same]
  exact setStrand_setStrand _ _ _ _

/-- R160: an instruction whose body takes a branch. -/
theorem jumpRule_of {i : Instr} {P : State → Strand → Prop} {f : State → Strand → Strand → Strand}
    {t : State → Strand → Int} {body : State → Ref → Strand → Res} (he : ∀ s, exec i s = issue i s body)
    (hb : ∀ s x, P s x → pcOk (t s x) = true ∧ body (issued s s.cur x i) s.cur (tick s s.cur x i) =
      .jump ((issued s s.cur x i).setStrand s.cur (f s x (tick s s.cur x i))) (t s x)) :
    SetRule i P fun s x y => redirect (f s x y) s.cycle (t s x).toNat := by
  intro s x ha hP
  refine ⟨_, ?_, strand_setStrand_same (issued s s.cur x i) s.cur _,
    agree_trans (agree_issued s s.cur x i) (agree_setStrand _ _ _)⟩
  rw [he, issue_acts ha, (hb s x hP).2]
  simp only [Res.outcome, finishJump, (hb s x hP).1, if_true]
  rw [strand_modStrand_same]; rfl

theorem trapRule_of {i : Instr} {P : State → Strand → Prop} {c : Cause} {info : State → Strand → Dword}
    {body : State → Ref → Strand → Res} (he : ∀ s, exec i s = issue i s body)
    (hb : ∀ s x, P s x → body (issued s s.cur x i) s.cur (tick s s.cur x i) = .trap c (info s x)) : TrapRule i P c info := by
  intro s x ha hP
  rw [he, issue_acts ha, hb s x hP]; rfl

theorem haltRule_of {i : Instr} {P : State → Strand → Prop} {c : Cause} {info : State → Strand → Dword}
    {body : State → Ref → Strand → Res} (he : ∀ s, exec i s = issue i s body)
    (hb : ∀ s x, P s x → body (issued s s.cur x i) s.cur (tick s s.cur x i) = .halt c (info s x) false) :
    HaltRule i P c info := by
  intro s x ha hP
  rw [he, issue_acts ha, hb s x hP]; rfl

end Sys2Proof.Laws
end

