-- ==== Sys2Proof/Laws/Device.lean ====
section
/-! SUPPORT. What the shared operations of the device's own steps do: the end of a wait, orders of lanes, stores, and the
checks of management requests. -/

namespace Sys2Proof.Laws

open Sys2Proof.Machine Sys2Proof.Safety

@[simp] theorem strand_setStrand (s : State) (r : Ref) (x : Strand) : (s.setStrand r x).strand? r = some x := by
  simp [State.setStrand, State.strand?, State.modCore, State.setCore, State.core]

@[simp] theorem writeUni_defer (d : Opnd) (w : Dword) (x : Strand) : (writeUni d w x).defer = x.defer := by
  unfold writeUni
  split
  · rfl
  · unfold Strand.setC; split <;> rfl
  · rfl

/-- The end of a wait, of a strand that owes no trap and whose next PC is in range. -/
theorem endWait_ended (s : State) (r : Ref) (x : Strand) (d : Opnd) (w : Dword) (hp : NextPcOk x) (hd : x.defer = []) :
    Ended s r x d w (endWait s r x d w) := by
  have hn : advance { x with wait := .none } = some (moved (loopNext x.pc x.lstk) { x with wait := .none }) :=
    advance_ok (x := { x with wait := .none }) hp
  have he : endWait s r x d w = takeDeferred
      (s.setStrand r (writeUni d w (moved (loopNext x.pc x.lstk) { x with wait := .none }))) r := by
    unfold endWait; rw [hn]
  have ht : takeDeferred (s.setStrand r (writeUni d w (moved (loopNext x.pc x.lstk) { x with wait := .none }))) r =
      s.setStrand r (writeUni d w (moved (loopNext x.pc x.lstk) { x with wait := .none })) := by
    simp only [takeDeferred, strand_setStrand, writeUni_defer]
    have : (moved (loopNext x.pc x.lstk) { x with wait := Wait.none }).defer = [] := hd
    rw [this]
  rw [he, ht]
  exact ⟨strand_setStrand _ _ _, agree_setStrand r s _⟩

/-! ## Orders of lanes -/

theorem mem_anyOrderBy {α : Type} (g : Nat → Nat) (l : List α) (a : α) : a ∈ anyOrderBy g l ↔ a ∈ l := by
  induction l with
  | nil => simp [anyOrderBy]
  | cons b l ih =>
    simp only [anyOrderBy, List.mem_cons]
    split
    · rename_i h
      have e : anyOrderBy g l = [] := List.isEmpty_iff.1 h
      rw [e] at ih
      simp [← ih]
    · rw [List.mem_insertIdx (Nat.le_of_lt_succ (Nat.mod_lt _ (Nat.succ_pos _))), ih]

theorem length_anyOrderBy {α : Type} (g : Nat → Nat) (l : List α) : (anyOrderBy g l).length = l.length := by
  induction l with
  | nil => rfl
  | cons b l ih =>
    simp only [anyOrderBy]
    split
    · rename_i h
      rw [List.isEmpty_iff.1 h] at ih
      rw [List.length_eq_zero_iff.1 ih.symm]
    · rw [List.length_insertIdx_of_le_length (Nat.le_of_lt_succ (Nat.mod_lt _ (Nat.succ_pos _))), ih, List.length_cons]

/-- An order of a list holds what the list holds. -/
theorem mem_anyOrder {α : Type} (seed : Nat) (l : List α) (a : α) : a ∈ anyOrder seed l ↔ a ∈ l := mem_anyOrderBy _ l a

/-! ## Stores keep the canonical form -/

theorem storeBytes_ok {s : State} (key : Nat) (bs : List Byte) (h : MemoryOk s) : MemoryOk (storeBytes s key bs) :=
  wf_putBytes key bs h

theorem storeNat_ok {s : State} (key n x : Nat) (h : MemoryOk s) : MemoryOk (storeNat s key n x) := storeBytes_ok _ _ h

/-- A store leaves every byte outside it. -/
theorem byte_storeBytes_out (s : State) (key j : Nat) (bs : List Byte) (h : j < key ∨ key + bs.length ≤ j) :
    Memory.byte (storeBytes s key bs).mem j = Memory.byte s.mem j := byte_putBytes_out s.mem key j bs h

/-! ## The checks of management requests -/

theorem zeroField_ok {fr : Frame} {i lo n : Nat} {k : MRes} (h : ∀ j, j < n → (bodyDw fr i).getLsbD (lo + j) = false) :
    zeroField fr i lo n k = k := by
  have : (List.range n).find? (fun j => (bodyDw fr i).getLsbD (lo + j)) = none := by
    rw [List.find?_eq_none]; intro j hj; simp [h j (List.mem_range.1 hj)]
  unfold zeroField; rw [this]

theorem header_ok {fr : Frame} {n : Nat} {b : Bool} {k : MRes} (h : fr.payload.length = 8 + 8 * n) (hb : b = true) :
    header fr n b k = k := by simp [header, h, hb]

theorem field_ok {i lo : Nat} {b : Bool} {k : MRes} (h : b = true) : field i lo b k = k := by simp [field, h]

theorem unless_ok {b : Bool} {st o : Nat} {k : MRes} (h : b = true) : unless_ b st o k = k := by simp [unless_, h]

theorem unless_no {b : Bool} {st o : Nat} {k : MRes} (h : b = false) : unless_ b st o k = .fail st o := by simp [unless_, h]

theorem withCtx_ok {s : State} {fr : Frame} {i lo : Nat} {k : Nat → Ctx → MRes} {c : Ctx}
    (h : s.ctx? (bodyNat fr i lo 16) = some c) : withCtx s fr i lo k = k (bodyNat fr i lo 16) c := by simp [withCtx, h]

end Sys2Proof.Laws
end

