-- ==== Sys2Proof/Laws/Program.lean ====
section
/-! SUPPORT. Every program instruction is `issue` with a body of its own. -/

namespace Sys2Proof.Laws

open Sys2Proof.Machine

/-- What a program instruction does, it does through `issue`. -/
theorem exec_issue (i : Instr) (h : i.isProgram = true) : ∃ body, ∀ s, exec i s = issue i s body := by
  cases i
  case add f => exact ⟨_, fun s => by unfold exec execAdd; rfl⟩
  case addI32 f => exact ⟨_, fun s => by unfold exec execAddI32; rfl⟩
  case sub f => exact ⟨_, fun s => by unfold exec execSub; rfl⟩
  case mul f => exact ⟨_, fun s => by unfold exec execMul; rfl⟩
  case mulI32 f => exact ⟨_, fun s => by unfold exec execMulI32; rfl⟩
  case mulh f => exact ⟨_, fun s => by unfold exec execMulh; rfl⟩
  case mad f => exact ⟨_, fun s => by unfold exec execMad; rfl⟩
  case abs f => exact ⟨_, fun s => by unfold exec execAbs; rfl⟩
  case neg f => exact ⟨_, fun s => by unfold exec execNeg; rfl⟩
  case min f => exact ⟨_, fun s => by unfold exec execMin; rfl⟩
  case max f => exact ⟨_, fun s => by unfold exec execMax; rfl⟩
  case and f => exact ⟨_, fun s => by unfold exec execAnd; rfl⟩
  case andI32 f => exact ⟨_, fun s => by unfold exec execAndI32; rfl⟩
  case or f => exact ⟨_, fun s => by unfold exec execOr; rfl⟩
  case orI32 f => exact ⟨_, fun s => by unfold exec execOrI32; rfl⟩
  case xor f => exact ⟨_, fun s => by unfold exec execXor; rfl⟩
  case xorI32 f => exact ⟨_, fun s => by unfold exec execXorI32; rfl⟩
  case andn f => exact ⟨_, fun s => by unfold exec execAndn; rfl⟩
  case shl f => exact ⟨_, fun s => by unfold exec execShl; rfl⟩
  case shr f => exact ⟨_, fun s => by unfold exec execShr; rfl⟩
  case sar f => exact ⟨_, fun s => by unfold exec execSar; rfl⟩
  case bfx f => exact ⟨_, fun s => by unfold exec execBfx; rfl⟩
  case bfi f => exact ⟨_, fun s => by unfold exec execBfi; rfl⟩
  case popc f => exact ⟨_, fun s => by unfold exec execPopc; rfl⟩
  case clz f => exact ⟨_, fun s => by unfold exec execClz; rfl⟩
  case brev f => exact ⟨_, fun s => by unfold exec execBrev; rfl⟩
  case cmp f => exact ⟨_, fun s => by unfold exec execCmp; rfl⟩
  case cmpI32 f => exact ⟨_, fun s => by unfold exec execCmpI32; rfl⟩
  case sel f => exact ⟨_, fun s => by unfold exec execSel; rfl⟩
  case mov f => exact ⟨_, fun s => by unfold exec execMov; rfl⟩
  case movI32 f => exact ⟨_, fun s => by unfold exec execMovI32; rfl⟩
  case movl f => exact ⟨_, fun s => by unfold exec execMovl; rfl⟩
  case lea f => exact ⟨_, fun s => by unfold exec execLea; rfl⟩
  case leaI32 f => exact ⟨_, fun s => by unfold exec execLeaI32; rfl⟩
  case maddm f => exact ⟨_, fun s => by unfold exec execMaddm; rfl⟩
  case msubm f => exact ⟨_, fun s => by unfold exec execMsubm; rfl⟩
  case mmulm f => exact ⟨_, fun s => by unfold exec execMmulm; rfl⟩
  case mmacm f => exact ⟨_, fun s => by unfold exec execMmacm; rfl⟩
  case mred f => exact ⟨_, fun s => by unfold exec execMred; rfl⟩
  case rspl f => exact ⟨_, fun s => by unfold exec execRspl; rfl⟩
  case rmrc f => exact ⟨_, fun s => by unfold exec execRmrc; rfl⟩
  case fadd f => exact ⟨_, fun s => by unfold exec execFadd; rfl⟩
  case fsub f => exact ⟨_, fun s => by unfold exec execFsub; rfl⟩
  case fmul f => exact ⟨_, fun s => by unfold exec execFmul; rfl⟩
  case ffma f => exact ⟨_, fun s => by unfold exec execFfma; rfl⟩
  case fmin f => exact ⟨_, fun s => by unfold exec execFmin; rfl⟩
  case fmax f => exact ⟨_, fun s => by unfold exec execFmax; rfl⟩
  case fcmp f => exact ⟨_, fun s => by unfold exec execFcmp; rfl⟩
  case fclass f => exact ⟨_, fun s => by unfold exec execFclass; rfl⟩
  case frcp f => exact ⟨_, fun s => by unfold exec execFrcp; rfl⟩
  case frsq f => exact ⟨_, fun s => by unfold exec execFrsq; rfl⟩
  case fexp2 f => exact ⟨_, fun s => by unfold exec execFexp2; rfl⟩
  case flog2 f => exact ⟨_, fun s => by unfold exec execFlog2; rfl⟩
  case fsin f => exact ⟨_, fun s => by unfold exec execFsin; rfl⟩
  case fcos f => exact ⟨_, fun s => by unfold exec execFcos; rfl⟩
  case cvt f => exact ⟨_, fun s => by unfold exec execCvt; rfl⟩
  case cvts f => exact ⟨_, fun s => by unfold exec execCvts; rfl⟩
  case part f => exact ⟨_, fun s => by unfold exec execPart; rfl⟩
  case shfl f => exact ⟨_, fun s => by unfold exec execShfl; rfl⟩
  case perm f => exact ⟨_, fun s => by unfold exec execPerm; rfl⟩
  case vote f => exact ⟨_, fun s => by unfold exec execVote; rfl⟩
  case matchLanes f => exact ⟨_, fun s => by unfold exec execMatchLanes; rfl⟩
  case redux f => exact ⟨_, fun s => by unfold exec execRedux; rfl⟩
  case scan f => exact ⟨_, fun s => by unfold exec execScan; rfl⟩
  case topk f => exact ⟨_, fun s => by unfold exec execTopk; rfl⟩
  case bcast f => exact ⟨_, fun s => by unfold exec execBcast; rfl⟩
  case vget f => exact ⟨_, fun s => by unfold exec execVget; rfl⟩
  case vset f => exact ⟨_, fun s => by unfold exec execVset; rfl⟩
  case bra f => exact ⟨_, fun s => by unfold exec execBra; rfl⟩
  case braDiv f => exact ⟨_, fun s => by unfold exec execBraDiv; rfl⟩
  case brx f => exact ⟨_, fun s => by unfold exec execBrx; rfl⟩
  case brxDiv f => exact ⟨_, fun s => by unfold exec execBrxDiv; rfl⟩
  case call f => exact ⟨_, fun s => by unfold exec execCall; rfl⟩
  case ret f => exact ⟨_, fun s => by unfold exec execRet; rfl⟩
  case rcv f => exact ⟨_, fun s => by unfold exec execRcv; rfl⟩
  case loop f => exact ⟨_, fun s => by unfold exec execLoop; rfl⟩
  case lbrk f => exact ⟨_, fun s => by unfold exec execLbrk; rfl⟩
  case exit f => exact ⟨_, fun s => by unfold exec execExit; rfl⟩
  case nop f => exact ⟨_, fun s => by unfold exec execNop; rfl⟩
  case trap f => exact ⟨_, fun s => by unfold exec execTrap; rfl⟩
  case tret f => exact ⟨_, fun s => by unfold exec execTret; rfl⟩
  case yield f => exact ⟨_, fun s => by unfold exec execYield; rfl⟩
  case grow f => exact ⟨_, fun s => by unfold exec execGrow; rfl⟩
  case shrnk f => exact ⟨_, fun s => by unfold exec execShrnk; rfl⟩
  case ld f => exact ⟨_, fun s => by unfold exec execLd; rfl⟩
  case st f => exact ⟨_, fun s => by unfold exec execSt; rfl⟩
  case lds f => exact ⟨_, fun s => by unfold exec execLds; rfl⟩
  case sts f => exact ⟨_, fun s => by unfold exec execSts; rfl⟩
  case ldt f => exact ⟨_, fun s => by unfold exec execLdt; rfl⟩
  case stt f => exact ⟨_, fun s => by unfold exec execStt; rfl⟩
  case atom f => exact ⟨_, fun s => by unfold exec execAtom; rfl⟩
  case red f => exact ⟨_, fun s => by unfold exec execRed; rfl⟩
  case pref f => exact ⟨_, fun s => by unfold exec execPref; rfl⟩
  case fence f => exact ⟨_, fun s => by unfold exec execFence; rfl⟩
  case ifence f => exact ⟨_, fun s => by unfold exec execIfence; rfl⟩
  case mop f => exact ⟨_, fun s => by unfold exec execMop; rfl⟩
  case hld f => exact ⟨_, fun s => by unfold exec execHld; rfl⟩
  case hset f => exact ⟨_, fun s => by unfold exec execHset; rfl⟩
  case hget f => exact ⟨_, fun s => by unfold exec execHget; rfl⟩
  case bar f => exact ⟨_, fun s => by unfold exec execBar; rfl⟩
  case bara f => exact ⟨_, fun s => by unfold exec execBara; rfl⟩
  case syncg f => exact ⟨_, fun s => by unfold exec execSyncg; rfl⟩
  case waitt f => exact ⟨_, fun s => by unfold exec execWaitt; rfl⟩
  case waitk f => exact ⟨_, fun s => by unfold exec execWaitk; rfl⟩
  case waitc f => exact ⟨_, fun s => by unfold exec execWaitc; rfl⟩
  case cpl f => exact ⟨_, fun s => by unfold exec execCpl; rfl⟩
  case cpt f => exact ⟨_, fun s => by unfold exec execCpt; rfl⟩
  case cpg f => exact ⟨_, fun s => by unfold exec execCpg; rfl⟩
  case cvb f => exact ⟨_, fun s => by unfold exec execCvb; rfl⟩
  case mma f => exact ⟨_, fun s => by unfold exec execMma; rfl⟩
  case mms f => exact ⟨_, fun s => by unfold exec execMms; rfl⟩
  case mzero f => exact ⟨_, fun s => by unfold exec execMzero; rfl⟩
  case mdr f => exact ⟨_, fun s => by unfold exec execMdr; rfl⟩
  case mrs f => exact ⟨_, fun s => by unfold exec execMrs; rfl⟩
  case mrl f => exact ⟨_, fun s => by unfold exec execMrl; rfl⟩
  case coll f => exact ⟨_, fun s => by unfold exec execColl; rfl⟩
  case relay f => exact ⟨_, fun s => by unfold exec execRelay; rfl⟩
  case detach f => exact ⟨_, fun s => by unfold exec execDetach; rfl⟩
  case adopt f => exact ⟨_, fun s => by unfold exec execAdopt; rfl⟩
  case cancel f => exact ⟨_, fun s => by unfold exec execCancel; rfl⟩
  case prio f => exact ⟨_, fun s => by unfold exec execPrio; rfl⟩
  case tstat f => exact ⟨_, fun s => by unfold exec execTstat; rfl⟩
  case suspend f => exact ⟨_, fun s => by unfold exec execSuspend; rfl⟩
  case qpush f => exact ⟨_, fun s => by unfold exec execQpush; rfl⟩
  case qpop f => exact ⟨_, fun s => by unfold exec execQpop; rfl⟩
  case spawn f => exact ⟨_, fun s => by unfold exec execSpawn; rfl⟩
  case csrr f => exact ⟨_, fun s => by unfold exec execCsrr; rfl⟩
  case csrw f => exact ⟨_, fun s => by unfold exec execCsrw; rfl⟩
  case swap f => exact ⟨_, fun s => by unfold exec execSwap; rfl⟩
  case clkr f => exact ⟨_, fun s => by unfold exec execClkr; rfl⟩
  case einj f => exact ⟨_, fun s => by unfold exec execEinj; rfl⟩
  case pair f => exact ⟨_, fun s => by unfold exec execPair; rfl⟩
  case basinstWrite f => exact ⟨_, fun s => by unfold exec execBasinstWrite; rfl⟩
  case rcrClear f => exact ⟨_, fun s => by unfold exec execRcrClear; rfl⟩
  case chselWrite f => exact ⟨_, fun s => by unfold exec execChselWrite; rfl⟩
  case invcmdWrite f => exact ⟨_, fun s => by unfold exec execInvcmdWrite; rfl⟩
  case ringTailWrite f => exact ⟨_, fun s => by unfold exec execRingTailWrite; rfl⟩
  case persistentMarkSet f => exact ⟨_, fun s => by unfold exec execPersistentMarkSet; rfl⟩
  all_goals (simp only [Instr.isProgram, Bool.false_eq_true] at h)

end Sys2Proof.Laws
end

