-- ==== Sys2Proof/Laws/Tensor.lean ====
section
/-! SUPPORT. Accesses to a tensor in a local space (R295): where the space holds no double error and the basis of a residue tag is
valid, every read and every write of elements is made. -/

namespace Sys2Proof.Laws

open Sys2Proof.Machine

theorem readPieces_local {s : State} {w : Site} {space : Nat} (hs : space ≠ 0) (hd : (s.slot w.who.core w.slot).dbl = [])
    (ps : List (Nat × Nat)) : ∃ xs, readPieces s w space ps = .ok s xs := by
  induction ps with
  | nil => exact ⟨[], rfl⟩
  | cons p ps ih =>
    obtain ⟨xs, ih⟩ := ih
    simp [readPieces, spaceRead, hs, localRead, localBad, hd, Mem.bind, ih]

theorem elemAt_resolved (s : State) (w : Site) {d : Rec} (hf : tFlt d = false) (c : List Nat) :
    ∃ p, elemAt s w d c = .ok s p := by
  simp [elemAt, resolveArea, hf, Mem.bind]

theorem basisFails_resolved (s : State) (w : Site) {d : Rec} (hf : tFlt d = false)
    (hb : (basisOf s w.who.ctx (tagBid (tTag d))).isSome = true) (c : List Nat) : basisFails s w d c = false := by
  obtain ⟨b, hb⟩ := Option.isSome_iff_exists.1 hb
  simp [basisFails, resolveArea, hf, hb]

theorem readMany_local {s : State} {w : Site} {d : Rec} (hs : tSpace d ≠ 0) (hf : tFlt d = false)
    (hb : (basisOf s w.who.ctx (tagBid (tTag d))).isSome = true) (hd : (s.slot w.who.core w.slot).dbl = [])
    (l : List (List Int)) : ∃ xs, readMany s w d l = .ok s xs := by
  induction l with
  | nil => exact ⟨[], rfl⟩
  | cons c l ih =>
    obtain ⟨xs, ih⟩ := ih
    have h1 : ∃ x, readOr0 s w d c = .ok s x := by
      unfold readOr0
      split
      · rename_i k _
        obtain ⟨p, hp⟩ := elemAt_resolved s w hf k
        obtain ⟨ys, hy⟩ := readPieces_local hs hd p.pieces
        simp [basisFails_resolved s w hf hb k, elemRead, hp, Mem.bind, hy]
      · exact ⟨0, rfl⟩
    obtain ⟨x, h1⟩ := h1
    exact ⟨x :: xs, by simp [readMany, h1, ih, Mem.bind]⟩

theorem storeAll_local {w : Site} {space : Nat} (hs : space ≠ 0) (l : List ((Nat × Nat) × (Nat → Nat))) (s : State) :
    ∃ t, storeAll s w space l = .ok t () ∧ t.ctxs = s.ctxs := by
  induction l generalizing s with
  | nil => exact ⟨s, rfl, rfl⟩
  | cons p l ih =>
    simp only [storeAll, spaceWrite, hs, if_false, localWrite, Mem.bind]
    obtain ⟨t, h, hc⟩ := ih (s.modSlot w.who.core w.slot fun q =>
      { setLocal q space (Memory.putNat (localMem q space) p.1.1 p.1.2 (p.2 (Memory.nat (localMem q space) p.1.1 p.1.2))) with
        dbl := healWords q.dbl space p.1.1 p.1.2 })
    exact ⟨t, h, hc.trans rfl⟩

theorem putParts_local {w : Site} (raw : Bool) {d : Rec} (hs : tSpace d ≠ 0) (hf : tFlt d = false)
    (l : List (List Nat × List Nat × Nat)) (s : State) (hb : (basisOf s w.who.ctx (tagBid (tTag d))).isSome = true) :
    ∃ t ps, putParts s w raw d l = .ok t ps := by
  induction l generalizing s with
  | nil => exact ⟨s, [], rfl⟩
  | cons e l ih =>
    obtain ⟨c, js, x⟩ := e
    obtain ⟨p, hp⟩ := elemAt_resolved s w hf c
    obtain ⟨u, hu, hc⟩ := storeAll_local (w := w) hs (p.stores d js (if raw then x else canonElem s w.who.ctx p.tag x)) s
    have hbu : (basisOf u w.who.ctx (tagBid (tTag d))).isSome = true := by
      simpa [basisOf, State.ctx?, hc] using hb
    obtain ⟨t, ps, ht⟩ := ih u hbu
    exact ⟨t, (p.stores d js (if raw then x else canonElem s w.who.ctx p.tag x)).map (·.1) ++ ps, by
      simp only [putParts, placeOf, basisFails_resolved s w hf hb c, Bool.false_eq_true, if_false, hp, Mem.bind, hu, ht]⟩

/-- Elements that lie within the extents are all written. -/
theorem writeMany_local {s : State} {w : Site} {t : Tn} (hs : tSpace t.dw ≠ 0) (hf : tFlt t.dw = false)
    (hb : (basisOf s w.who.ctx (tagBid (tTag t.dw))).isSome = true) {xs : List (List Int × Nat)}
    (hx : ∀ x ∈ xs, isInside t.dw x.1 = true) : ∃ u, writeMany s w t xs = .ok u () := by
  have h0 : xs.filter (fun x => !isInside t.dw x.1) = [] := by
    rw [List.filter_eq_nil_iff]; intro x h; simp [hx x h]
  obtain ⟨u, ps, h⟩ := putParts_local false hs hf (xs.filterMap fun x => (boxCoord t.dw x.1).map fun c =>
    (c, List.range (elemParts t.dw), x.2)) s hb
  exact ⟨writtenTogether u w (tSpace t.dw) ps, by simp only [writeMany, putPiece, h, Mem.bind, h0, List.length_nil, dropMany]⟩

end Sys2Proof.Laws
end

