-- ==== Sys2Proof/Tests/Slice0.lean ====
section
/-! SUPPORT. Tests of the model: well-formedness, decoding of words written out from the manual, single steps whose results
were worked out by hand from the rules, and for every statement with hypotheses concrete states and operands that meet
them. -/

namespace Sys2Proof.Tests

open Sys2Proof.Machine Sys2Proof.Safety

/-! # The bench: one strand of 32 lanes on core 0 -/

def hd : Hdr := { neg := false, gi := 7, la := 0, y := false }
def rv (n : Nat) : Opnd := .v (BitVec.ofNat 8 n)
def rs (n : Nat) : Opnd := .s (BitVec.ofNat 6 n)
def rp (n : Nat) : Opnd := .p (BitVec.ofNat 3 n)
def rc (n : Nat) : Opnd := .c (BitVec.ofNat 3 n)
def rk (n : Nat) : Opnd := .k (BitVec.ofNat 3 n)
def rh (n : Nat) : Opnd := .h (BitVec.ofNat 4 n)
def spr (n : Nat) : Opnd := .spr (BitVec.ofNat 7 n)
def im (n : Nat) : Opnd := .imm (BitVec.ofNat 8 n)
def zo : Opnd := .zero

/-- A T3 form without rounding or saturation. -/
def t3 (d a b c : Opnd) (ty : Ty) (opx : Nat) : T3 :=
  { hd := hd, d := d, a := a, b := b, c := c, ty := ty, rnd := .dyn, sat := false, opx := BitVec.ofNat 24 opx }
def i32 (d a : Opnd) (ty : Ty) (opx imm : Nat) : I32 :=
  { hd := hd, d := d, a := a, b := zo, ty := ty, opx := BitVec.ofNat 6 opx, imm := BitVec.ofNat 32 imm }
/-- An M form with no index, no ordering and no replay. -/
def mf (d a : Opnd) (sz opx imm : Nat) : MForm :=
  { hd := hd, d := d, a := a, b := zo, rd := 0, sz := BitVec.ofNat 3 sz, sem := 0, scope := 0, ix := false,
    opx := BitVec.ofNat 8 opx, imm := BitVec.ofNat 24 imm }
def mt (d a b : Opnd) : MTForm :=
  { hd := hd, d := d, a := a, b := b, rd := 0, nc := 1, k1 := zo, k2 := zo, k3 := zo, opx := 0 }
def ef (a b : Opnd) (eng : Nat) : EForm :=
  { hd := hd, d := rs 0, a := a, b := b, prio := 0, fact := 0, det := false, pd := false, c := zo, eng := BitVec.ofNat 28 eng }

/-- The device of `bootStrand`, with the strand widened to 32 lanes and about to execute at PC 1, changed by `g`, and the device by
`f`. -/
def bench (g : Strand → Strand) (f : State → State) : State :=
  let s := bootStrand State.reset
  f (State.modStrand { s with sel := none, cur := { core := 0, strid := 0 } } { core := 0, strid := 0 } fun x =>
    g { x with live := 0xFFFFFFFF, active := 0xFFFFFFFF, pc := 1 })

/-- The plain bench. -/
def plain : State := bench id id

def actsB (i : Instr) (s : State) : Bool :=
  match s.strand? s.cur with
  | none => false
  | some x =>
    mayRun s s.cur x && (x.defer == [] || x.hm) && !windowBlocked s.cycle x i && decodeFault i x == none &&
      (!x.hm || !i.isLane) && !regBad x i && x.passes i && decide ((loopNext x.pc x.lstk).1 < 2 ^ 32)

/-- A case of a witness: an instruction, a device and a further condition on the device and the strand. -/
abbrev Case := Instr × State × (State → Strand → Bool)

/-- The instruction acts on the device, the PC that follows is in range, and the condition holds. -/
def Shown (e : Case) : Prop :=
  ∃ x, Acts e.1 e.2.1 x ∧ NextPcOk x ∧ e.2.2 e.2.1 x = true

def shownB (e : Case) : Bool :=
  actsB e.1 e.2.1 && match e.2.1.strand? e.2.1.cur with | some x => e.2.2 e.2.1 x | none => false

theorem shown_all {l : List Case} (h : l.all shownB = true) : ∀ e ∈ l, Shown e := by
  intro e he
  have h := List.all_eq_true.1 h e he
  simp only [shownB, actsB] at h
  split at h
  · simp_all
  · rename_i x hx
    simp only [hx, Bool.and_eq_true, Bool.or_eq_true, beq_iff_eq, decide_eq_true_eq, Bool.not_eq_true'] at h
    obtain ⟨⟨⟨⟨⟨⟨⟨⟨h1, h2⟩, h3⟩, h4⟩, h5⟩, h9⟩, h6⟩, h7⟩, h8⟩ := h
    exact ⟨x, ⟨⟨hx, h1, h2, h3, h4, h5, h9⟩, h6⟩, h7, h8⟩

/-- A store that lane 0 has issued and that is not made: 4 bytes at 0x400. -/
def owedStore : Held :=
  { pc := 0, instr := .st (mf (rv 1) (rs 2) 2 0 0), mask := 0xFFFFFFFF, todo := [laneAcc 0 0x400 5 0], tn := none, rmw := false }

/-- Instructions that act on the plain bench, where no floating-point trap is enabled. -/
def onPlain (l : List Instr) : List Case := l.map fun i => (i, plain, fun _ x => x.fpsr == 0)

/-- A case on the bench with the strand changed by `g`. -/
def on (i : Instr) (g : Strand → Strand) (P : State → Strand → Bool) : Case := (i, bench g id, P)

/-- A case on the bench with the device changed by `f`. -/
def dev (i : Instr) (f : State → State) (P : State → Strand → Bool) : Case := (i, bench id f, P)

/-- The context with a handler at 64. -/
def handled (s : State) : State := s.modCtx 1 fun c => { c with handler := 0x8000000000000040 }

/-! # Witnesses of the statements -/

def integerForms : List Instr :=
  List.flatten [
    [rv 1, rs 1].flatMap fun d =>
      let f := t3 d (im 3) (im 250) zo .i32 0
      [.add f, .sub f, .mul f, .mulh f, .min f, .max f, .and f, .or f, .xor f, .andn f, .shl f, .shr f, .sar f, .bfx f],
    [rv 2, rs 2].flatMap fun d =>
      let f := t3 d (im 3) (im 5) (im 7) .n64 0
      [.mad f, .bfi f],
    [rv 1, rs 1].flatMap fun d =>
      [.abs (t3 d (im 3) zo zo .i16 0), .neg (t3 d (im 3) zo zo .i8 0), .popc (t3 d (im 3) zo zo .none 0),
       .clz (t3 d (im 3) zo zo .none 0), .brev (t3 d (im 3) zo zo .n32 0)],
    [rv 1, rs 1].flatMap fun d =>
      let f := i32 d d .i32 0 0xFFFFFFFF
      [.addI32 f, .mulI32 f, .andI32 f, .orI32 f, .xorI32 f],
    [(rp 1, rp 7), (rc 1, rc 7), (rk 1, rk 2), (rk 1, spr 0x24)].flatMap fun d =>
      let f := t3 d.1 d.2 d.2 zo .none 0
      [.and f, .or f, .xor f, .andn f],
    [rp 1, rc 1].flatMap fun d => [.cmp (t3 d (im 3) (im 5) zo .n16 0x15), .cmpI32 (i32 d (im 3) .i24 0x22 9)],
    [.sel (t3 (rv 1) (im 3) (im 5) (rp 1) .i32 0), .sel (t3 (rs 1) (im 3) (im 5) (rc 1) .i32 0),
     .movI32 (i32 (rv 2) zo .i64 0 0x80000000), .movI32 (i32 (rs 1) zo .none 0 5)],
    [.movl { hd := hd, d := rv 2, lit := 5 }, .movl { hd := hd, d := rs 2, lit := 5 },
     .lea (t3 (rv 2) (rs 2) (im 255) zo .none 0xF), .lea (t3 (rs 2) (rs 2) (im 1) zo .none 0),
     .leaI32 (i32 (rv 2) (rv 4) .none 0 8), .leaI32 (i32 (rs 2) (rs 2) .none 0 8)]]

theorem witness_IntegerResults : ∀ e ∈ onPlain integerForms, Shown e := shown_all (by decide +kernel)

def moveCases : List Case :=
  onPlain [.mov (t3 (rv 1) (rp 2) zo zo .i32 0), .mov (t3 (rv 2) (spr 0x23) zo zo .i64 0), .mov (t3 (rv 1) (spr 0) zo zo .none 0),
    .mov (t3 (rp 2) (rv 1) zo zo .none 0), .mov (t3 (rp 2) (rp 7) zo zo .none 0), .mov (t3 (rc 1) (rs 1) zo zo .none 0),
    .mov (t3 (rc 1) (rc 7) zo zo .none 0), .mov (t3 (rs 1) (rc 1) zo zo .none 0), .mov (t3 (rs 1) (spr 0x21) zo zo .none 0),
    .mov (t3 (rs 1) (im 255) zo zo .i32 0), .mov (t3 (rk 1) (rk 2) zo zo .none 0), .mov (t3 (rk 1) (spr 0x24) zo zo .none 0)] ++
  [on (.mov (t3 (spr 0x21) (im 5) zo zo .none 0)) id fun s x =>
     decide (sprWrite x 0x21 (BitVec.ofNat 64 (uniOp s s.cur x (im 5))) = none),
   on (.mov (t3 (spr 0x21) (im 4) zo zo .none 0)) id fun s x => decide (uniOp s s.cur x (im 4) % 2 ^ 32 < 5),
   on (.mov (t3 (spr 0x22) (rs 1) zo zo .none 0)) (fun x => x.setS 1 0x001F033F) fun s x =>
     decide (BitVec.ofNat 32 (uniOp s s.cur x (rs 1)) &&& 0xFFE0FCC0#32 = 0),
   on (.mov (t3 (spr 0x22) (im 64) zo zo .none 0)) id fun s x =>
     decide (sprWrite x 0x22 (BitVec.ofNat 64 (uniOp s s.cur x (im 64))) = none),
   on (.mov (t3 (spr 0x28) (im 4) zo zo .none 0)) id fun _ x => !x.hm,
   on (.mov (t3 (spr 0x28) (im 4) zo zo .none 0)) (fun x => { x with hm := true, rstk := [.trap 1 1 0] }) fun s x =>
     (sprWrite (bookkept (.mov (t3 (spr 0x28) (im 4) zo zo .none 0)) s x) 0x28
       (BitVec.ofNat 64 (uniOp s s.cur x (im 4)))).isSome]

theorem witness_MoveResults : ∀ e ∈ moveCases, Shown e := shown_all (by decide +kernel)

theorem witness_NumberRules :
    (intLo .i8 ≤ -128 ∧ -128 ≤ intHi .i8) ∧ -129 < intLo .i8 ∧ intHi .i8 < 128 ∧ (0 : Int) ≤ intLo .n8 ∧ intHi .n8 < 256 ∧
      ((0 : Nat) < 32 ∧ 0xFFFFFFFF < 2 ^ 32 ∧ 31 < 32) := by decide

def residueCases : List Case :=
  ([0x80, 0x89, 0x00].flatMap fun k =>
    let f := t3 (rv 1) (im 3) (im 5) (if k = 0 then im 127 else zo) .none k
    [.maddm f, .msubm f, .mmulm f].map fun i => on i id fun s x => modSource s x f != .invalid && x.fpsr == 0) ++
  ([0x90, 0xF0].flatMap fun k =>
    let f := t3 (rv 1) (im 3) (im 5) zo .none k
    [.maddm f, .msubm f, .mmulm f].map fun i => on i id fun s x => modSource s x f == .invalid) ++
  ([0x80, 0x90].flatMap fun k =>
    let f := t3 (rv 1) (im 3) (im 5) (im 7) .none k
    let g := t3 (rv 1) (im 3) zo zo .i64 k
    [on (.mmacm f) id fun s x => (modSource s x f == .invalid) == (k == 0x90),
     on (.mred g) id fun s x => (modSource s x g == .invalid) == (k == 0x90)]) ++
  [on (.rspl (t3 (rv 4) (im 3) zo zo .i32 0x80)) id fun s x => (basisOf s x.ctx 0).isSome,
   on (.rmrc (t3 (rv 2) (rv 4) zo zo .none 0x180)) id fun s x => (basisOf s x.ctx 0).isSome,
   on (.rspl (t3 (rv 4) (im 3) zo zo .i32 0x90)) id fun s x => (basisOf s x.ctx 1).isNone,
   on (.rmrc (t3 (rv 2) (rv 4) zo zo .none 0x190)) id fun s x => (basisOf s x.ctx 1).isNone]

theorem witness_ResidueResults : ∀ e ∈ residueCases, Shown e := shown_all (by decide +kernel)

def half (sop sm d a b c : Nat) : HalfOp :=
  { sop := BitVec.ofNat 7 sop, sm := BitVec.ofNat 3 sm, d := BitVec.ofNat 7 d, a := BitVec.ofNat 7 a, b := BitVec.ofNat 7 b,
    c := BitVec.ofNat 7 c }

/-- A pair with FADD.F32 in the one half and ADD in the other. -/
def onePair : PairForm := { hd := hd, op1 := half 0x44 0 5 1 2 0, op0 := half 0x01 0 4 1 2 0 }

/-- FMUL of infinity and zero, in a strand whose invalid operations trap. -/
def fpTrapping : Case :=
  (.fmul (t3 (rv 1) (rs 1) (rs 2) zo .f32 0),
   bench (fun x => { x.setS 1 0x7F800000 with fpsr := 0x001F0000 }) handled,
   fun s x => let i : Instr := .fmul (t3 (rv 1) (rs 1) (rs 2) zo .f32 0)
     !x.hm && canSettle x && fpTraps x (laneFlags (x.acting i.hdr) fun l => let rd := laneReader s s.cur x l
       codeRes (fmul (fmtOf .f32) (rmode .dyn x.fpsr) false (codeVal .f32 rd (rs 1)) (codeVal .f32 rd (rs 2)))))

def floatingCases : List Case :=
  onPlain (([Ty.f16, .bf16, .f32, .f64].flatMap fun ty =>
      let f := t3 (rv 2) (rv 4) (rs 6) zo ty 0
      [.fadd f, .fsub f, .fmul f, .fmin f, .fmax f, .fcmp { f with d := rp 2, opx := 0x17 }]) ++ [.ffma (t3 (rv 1) (im 3) (im 4) (im 5) .f32 0), .fclass (t3 (rv 1) (rv 2) zo zo (.b8 true true 3) 0),
     .cvt (t3 (rv 2) (rv 1) zo zo .f64 0x12), .cvt (t3 (rv 2) (rv 1) zo zo .i8 0x24), .cvts (t3 (rv 2) (rv 1) (im 1) zo .f32 0x02),
     .cvts (t3 (rv 2) (rv 1) (im 1) zo .n8 0x12), .pair onePair]) ++
  [fpTrapping]

theorem witness_FloatingResults : ∀ e ∈ floatingCases, Shown e := shown_all (by decide +kernel)

def longForms : List Instr :=
  [.matchLanes (t3 (rv 1) (rv 2) zo zo .i32 0x700),
    .redux (t3 (rv 1) (rv 2) zo zo .i32 0), .redux (t3 (rv 2) (rv 4) zo zo .f64 6), .scan (t3 (rv 1) (rv 2) zo zo .n32 0x11),
    .topk (t3 (rv 1) (rv 2) (im 4) zo .f16 0x201)] ++
    [Instr.frcp, .frsq, .fexp2, .flog2, .fsin, .fcos].map fun i => i (t3 (rv 1) (rv 2) zo zo .f32 0)

theorem witness_LongLatencyResults : ∀ e ∈ onPlain longForms, Shown e := shown_all (by decide +kernel)

def crossLaneCases : List Case :=
  onPlain [.shfl (t3 (rv 1) (rv 2) (im 1) zo .i32 3), .perm (t3 (rv 2) (rv 4) (rv 1) zo .i64 0),
    .bcast (t3 (rv 1) (rv 2) (im 1) zo .none 0), .bcast (t3 (rv 1) (rv 2) zo zo .none 1), .part (t3 (rv 1) (rv 2) zo zo .none 2),
    .part (t3 (rv 1) (rp 2) zo zo .none 0), .vote (t3 (rv 1) (rp 2) zo zo .none 3), .vote (t3 (rp 1) (rp 2) zo zo .none 2),
    .vote (t3 (rc 1) (rp 2) zo zo .none 1), .vote (t3 (rk 1) (rp 2) zo zo .none 3), .vget (t3 (rs 1) (rv 2) (im 31) zo .i64 0),
    .vget (t3 (rs 1) (rp 2) (im 32) zo .none 0)] ++
    [on (.vset (t3 (rv 1) (im 2) (im 31) zo .i32 0)) id fun s x => x.isLive (uniOp s s.cur x (im 31) % 2 ^ 32),
     on (.vset (t3 (rv 1) (im 2) (im 32) zo .i32 0)) id fun s x => !x.isLive (uniOp s s.cur x (im 32) % 2 ^ 32)]

theorem witness_CrossLaneResults : ∀ e ∈ crossLaneCases, Shown e := shown_all (by decide +kernel)

/-! ## Control, traps and halts -/

/-- The header with guard p1. -/
def g1 : Hdr := { hd with gi := 1 }
def withP1 (m : Mask) (x : Strand) : Strand := { x with p := [(1, m)] }
def lanes8 : Mask := 0xFF
def atPc (n : Nat) (x : Strand) : Strand := { x with pc := n }

def branchCases : List Case :=
  [on (.bra (i32 zo zo .none 0 0xFFFFFFFF)) id fun _ x => pcOk (x.pc + (0xFFFFFFFF#32).toInt),
   on (.bra (i32 zo zo .none 0 0xFFFFFFFE)) id fun _ x => !pcOk (x.pc + (0xFFFFFFFE#32).toInt),
   on (.bra (i32 zo zo .none 0 1)) (atPc (2 ^ 32 - 2)) fun _ x => pcOk (x.pc + (1#32).toInt),
   on (.bra (i32 zo zo .none 0 2)) (atPc (2 ^ 32 - 2)) fun _ x => !pcOk (x.pc + (2#32).toInt),
   on (.call (i32 (rs 1) zo .none 0 4)) id fun _ x => decide (x.pc + 1 < 2 ^ 32) && pcOk (x.pc + (4#32).toInt),
   on (.call (i32 (rs 1) zo .none 0 0xFFFFFFFE)) id fun _ x => !pcOk (x.pc + (0xFFFFFFFE#32).toInt)] ++
  onPlain [.brx (t3 zo (rs 1) zo zo .none 0), .ret (t3 zo (rs 1) zo zo .none 0)]

theorem witness_UniformBranchesAndCalls : ∀ e ∈ branchCases, Shown e := shown_all (by decide +kernel)

/-- The strand at the last PC of the range. -/
def lastPc (p : Mask) : State := bench (fun x => withP1 p (atPc (2 ^ 32 - 1) x)) id

/-- What stands between a device and `Issues`, as a Boolean. -/
def issuesB (i : Instr) (s : State) : Bool :=
  match s.strand? s.cur with
  | none => false
  | some x => mayRun s s.cur x && (x.defer == [] || x.hm) && !windowBlocked s.cycle x i && decodeFault i x == none &&
      (!x.hm || !i.isLane) && !regBad x i

theorem issues_of {i : Instr} {s : State} (h : issuesB i s = true) : ∃ x, s.strand? s.cur = some x ∧ Issues i s x := by
  simp only [issuesB] at h
  split at h
  · cases h
  · rename_i x hx
    simp only [Bool.and_eq_true, Bool.or_eq_true, beq_iff_eq, Bool.not_eq_true'] at h
    obtain ⟨⟨⟨⟨⟨h1, h2⟩, h3⟩, h4⟩, h5⟩, h6⟩ := h
    exact ⟨x, hx, hx, h1, h2, h3, h4, h5, h6⟩

/-- The strand about to execute, or a fresh one. -/
def strandOf (s : State) : Strand := (s.strand? s.cur).getD (freshStrand none 0 0 0 0 1 0 0 0)

theorem issues_strandOf {i : Instr} {s : State} (h : issuesB i s = true) : Issues i s (strandOf s) := by
  obtain ⟨x, hx, h⟩ := issues_of h
  simpa [strandOf, hx] using h

theorem witness_PcRange :
    Issues (.add { t3 (rv 1) (im 1) (im 1) zo .i32 0 with hd := g1 }) (lastPc 0) (strandOf (lastPc 0)) ∧
      (strandOf (lastPc 0)).passes (.add { t3 (rv 1) (im 1) (im 1) zo .i32 0 with hd := g1 }) = false ∧
      ¬(loopNext (strandOf (lastPc 0)).pc (strandOf (lastPc 0)).lstk).1 < 2 ^ 32 ∧
      (Acts (.nop (t3 zo zo zo zo .none 0)) (lastPc 0) (strandOf (lastPc 0)) ∧
        Acts (.grow (t3 (rc 1) zo zo zo .none 32)) (lastPc 0) (strandOf (lastPc 0)) ∧
        Acts (.waitk (t3 zo (im 1) zo zo .none 2)) (lastPc 0) (strandOf (lastPc 0)) ∧ (strandOf (lastPc 0)).owed = []) :=
  ⟨issues_strandOf (by decide +kernel), by decide +kernel, by decide +kernel,
    ⟨issues_strandOf (by decide +kernel), by decide +kernel⟩, ⟨issues_strandOf (by decide +kernel), by decide +kernel⟩,
    ⟨issues_strandOf (by decide +kernel), by decide +kernel⟩, by decide +kernel⟩

/-- BRA.div guarded by p1, with its reconvergence point 4 further on and its target 8 further on. -/
def braDiv1 : I32 := { i32 zo zo .none 1 0x00040008 with hd := g1 }
def brxDiv1 : T3 := t3 zo (rv 1) zo zo .none 4

def divCases : List Case :=
  [on (.braDiv braDiv1) (withP1 0xFFFFFFFF) fun _ x => decide (x.active &&& ~~~actingMask x g1 = 0) && pcOk (x.pc + 8),
   on (.braDiv braDiv1) (fun x => withP1 0xFFFFFFFF (atPc (2 ^ 32 - 8) x)) fun _ x =>
     decide (x.active &&& ~~~actingMask x g1 = 0) && !pcOk (x.pc + 8),
   on (.brxDiv brxDiv1) (fun x => { x.setV 0 1 7 with rstk := List.replicate 32 (.div 9 1 1 0) }) fun s x =>
     brxTarget s s.cur x brxDiv1 0 == 7 && brxTarget s s.cur x brxDiv1 1 == 0 &&
       decide (pushFails s s.cur x = some (.rstkOverflow, 0) ∧ x.pc = 1 ∧ rpcOf x 4 = 5),
   on (.braDiv braDiv1) (withP1 lanes8) fun s x =>
     decide (x.active &&& ~~~actingMask x g1 ≠ 0 ∧ pushFails s s.cur x = none) && pcOk (x.pc + 8) && pcOk (x.pc + 4) &&
       decide (x.pc + 1 < 2 ^ 32),
   on (.braDiv { braDiv1 with imm := 0xFFFC0008 }) (withP1 lanes8) fun _ x =>
     decide (x.active &&& ~~~actingMask x g1 ≠ 0) && !pcOk (x.pc + -4),
   on (.braDiv braDiv1) (fun x => { withP1 lanes8 x with rstk := List.replicate 3 (.div 9 1 1 0) }) fun s x =>
     decide (x.active &&& ~~~actingMask x g1 ≠ 0 ∧ pushFails s s.cur x = none),
   on (.braDiv braDiv1) (fun x => { withP1 lanes8 x with rstk := List.replicate 32 (.div 9 1 1 0) }) fun s x =>
     decide (x.active &&& ~~~actingMask x g1 ≠ 0 ∧ pushFails s s.cur x = some (.rstkOverflow, 0)),
   (.braDiv braDiv1, bench (fun x => { withP1 lanes8 x with rstk := List.replicate 4 (.div 9 1 1 0) })
     (fun s => s.modSlot 0 0 fun q => { q with savebase := 0x3000000000 }), fun s x =>
     decide (x.active &&& ~~~actingMask x g1 ≠ 0 ∧ pushFails s s.cur x = some (.rstkSpill, 0x300000A000))),
   on (.brxDiv brxDiv1) id fun s x => x.activeLanes.all fun l => brxTarget s s.cur x brxDiv1 l == 0,
   on (.brxDiv brxDiv1) (fun x => { x.setV 0 1 7 with rstk := [.div 5 0xFFFFFFFF 1 2] }) fun s x =>
     brxTarget s s.cur x brxDiv1 0 == 7 && brxTarget s s.cur x brxDiv1 1 == 0 && decide (rpcOf x 4 = 5 ∧ x.pc = 1) &&
     x.activeLanes.all fun l => decide (brxTarget s s.cur x brxDiv1 l < 2 ^ 32),
   on (.brxDiv { brxDiv1 with opx := 0xFFFC }) (fun x => x.setV 0 1 7) fun s x =>
     brxTarget s s.cur x brxDiv1 0 == 7 && brxTarget s s.cur x brxDiv1 1 == 0 && !pcOk (x.pc + -4),
   on (.brxDiv brxDiv1) (fun x => { x.setV 0 1 7 with rstk := [.div 5 0xFFFFFFFF 3 2] }) fun s x =>
     brxTarget s s.cur x brxDiv1 0 == 7 && brxTarget s s.cur x brxDiv1 1 == 0 && decide (pushFails s s.cur x = none ∧ x.pc ≠ 3)]

def rcvCases : List Case :=
  [on (.rcv (t3 zo zo zo zo .none 0)) id fun _ x => decide (x.rstk = []),
   on (.rcv (t3 zo zo zo zo .none 0)) (fun x => { x with rstk := [.div 9 1 1 1] }) fun _ x => x.pc != 9,
   on (.rcv (t3 zo zo zo zo .none 0)) (fun x => { x with rstk := [.div 1 0xFF 4 0xF0], active := 0xF }) fun _ x =>
     decide ((0xF0 : Mask) &&& x.live ≠ 0 ∧ x.pc = 1),
   on (.rcv (t3 zo zo zo zo .none 0)) (fun x => { x with rstk := [.div 1 0xFF 4 0], active := 0xF }) fun _ x =>
     decide ((0 : Mask) &&& x.live = 0) && !(reconverge x x.pc x.rstk).2,
   on (.rcv (t3 zo zo zo zo .none 0)) (fun x => { x with rstk := [.div 1 0xF 4 0, .div 1 0xFF 6 0xF0], active := 0xF })
     fun _ x => (reconverge x x.pc x.rstk).2]

theorem witness_DivergenceAndReconvergence : ∀ e ∈ divCases ++ rcvCases, Shown e := shown_all (by decide +kernel)

def aLoop (last count : Nat) : LoopEntry := { start := 0, last := BitVec.ofNat 32 last, count := BitVec.ofNat 32 count }

def loopCases : List Case :=
  [on (.loop (i32 zo (im 1) .none 0 1)) (fun x => { x with lstk := List.replicate 3 (aLoop 9 1) }) fun _ x =>
     decide (x.lstk.length < 4 ∧ x.pc = 1),
   on (.loop (i32 zo (im 127) .none 0 5)) id fun _ x => decide ((loopNext x.pc (aLoop 6 126 :: x.lstk)).1 < 2 ^ 32) &&
     pcOk (x.pc + 5),
   on (.loop (i32 zo (im 1) .none 0 5)) (atPc (2 ^ 32 - 5)) fun _ x => !pcOk (x.pc + 5),
   on (.loop (i32 zo (im 0) .none 0 5)) (atPc (2 ^ 32 - 6)) fun _ x => !pcOk (x.pc + 5 + 1),
   on (.loop (i32 zo (im 0) .none 0 5)) id fun s x => decide (uniOp s s.cur x (im 0) % 2 ^ 32 = 0) && pcOk (x.pc + 5 + 1),
   on (.loop (i32 zo (im 1) .none 0 5)) (fun x => { x with lstk := List.replicate 4 (aLoop 9 1) }) fun _ x =>
     decide (4 ≤ x.lstk.length),
   on (.lbrk (t3 zo zo zo zo .none 0)) id fun _ x => decide (x.lstk = []),
   on (.lbrk (t3 zo zo zo zo .none 0)) (fun x => { x with lstk := [aLoop 9 1] }) fun _ x =>
     decide (x.lstk = [aLoop 9 1] ∧ (loopNext x.pc []).1 < 2 ^ 32),
   on (.lbrk (t3 zo zo zo zo .none 1)) (fun x => { x with lstk := [aLoop 9 1] }) fun _ x =>
     decide (x.lstk = [aLoop 9 1]) && pcOk ((aLoop 9 1).last.toNat + 1 : Nat)]

theorem witness_Loops : ∀ e ∈ loopCases, Shown e := shown_all (by decide +kernel)

def ex : T3 := t3 zo zo zo zo .none 0
def ex1 : T3 := { ex with hd := g1 }

/-- A load that returns in cycle 1000. -/
def lateLoad (x : Strand) : LongOp := { newLong (.lds (mf (rv 1) (rs 2) 2 0 0)) plain plain.cur x [] 0 with left := 3, due := 1000 }

def exitCases : List Case :=
  [on (.exit ex1) (withP1 lanes8) fun _ x => decide ((removeLanes x (actingMask x g1)).active ≠ 0),
   on (.exit ex) (fun x => { x with active := 0xF, rstk := [.div 9 0xFF 4 0xF0] }) fun _ x =>
     let y := removeLanes x (actingMask x hd)
     decide (y.live ≠ 0 ∧ y.active = 0 ∧ (0xF0 : Mask) &&& y.live ≠ 0),
   on (.exit ex) (fun x => { x with active := 0xF, rstk := [.div 9 0xFF 4 0] }) fun _ x =>
     let y := removeLanes x (actingMask x hd)
     decide (y.live ≠ 0 ∧ y.active = 0 ∧ (0 : Mask) &&& y.live = 0),
   on (.exit ex) (fun x => { x with active := 0xF }) fun _ x =>
     let y := removeLanes x (actingMask x hd)
     decide (y.live ≠ 0 ∧ y.active = 0 ∧ y.rstk = []),
   on (.exit ex) id fun _ x => decide ((removeLanes x (actingMask x hd)).live = 0) && settledNow (bookkept (.exit ex) plain x) plain.cycle,
   on (.exit ex) (fun x => { x with long := [lateLoad x] }) fun s x =>
     decide ((removeLanes x (actingMask x hd)).live = 0) && !settledNow (bookkept (.exit ex) s x) s.cycle]

theorem witness_ExitedLanes : ∀ e ∈ exitCases, Shown e := shown_all (by decide +kernel)

def hintCases : List Case :=
  onPlain [.nop ex, .yield ex, .fence (t3 zo zo zo zo .none 0x15), .ifence (t3 zo zo zo zo .none 5),
    .shrnk (t3 zo zo zo zo .none 1)] ++
  [on (.grow (t3 (rc 1) zo zo zo .none 32)) id fun _ x => decide (8 * 32 ≤ x.budget),
   on (.grow (t3 (rc 1) zo zo zo .none 32)) (fun x => { x with budget := 248 }) fun _ x => decide (x.budget < 8 * 32)]

theorem witness_HintsFencesAndBudget : ∀ e ∈ hintCases, Shown e := shown_all (by decide +kernel)

def trapCases : List Case :=
  [dev (.nop ex) handled fun s x => !x.hm && handlerOf s x == some 0x40 && canSettle x && pushFails s s.cur (settle x) == none,
   on (.nop ex) (fun x => { x with hm := true, rstk := [.trap 1 1 0] }) fun s x => x.hm && (s.ctx? x.ctx).isSome,
   on (.nop ex) id fun s x => !x.hm && handlerOf s x == none && (s.ctx? x.ctx).isSome]

theorem witness_TrapsAndHalts : ∀ e ∈ trapCases, Shown e := shown_all (by decide +kernel)

theorem witness_SoftwareTrap : ∀ e ∈ ([
    dev (.trap (i32 zo zo .none 0 0xFFFFFFFF)) handled fun s x =>
      !x.hm && handlerOf s x == some 0x40 && canSettle x && pushFails s s.cur x == none && decide (x.pc + 1 < 2 ^ 32),
    on (.trap (i32 zo zo .none 0 7)) id fun s x => !x.hm && handlerOf s x == none && decide (x.pc + 1 < 2 ^ 32)] : List Case),
    Shown e := shown_all (by decide +kernel)

/-- A device on which strand 0 has the budget and the level given. -/
def lowly (budget : Nat) (pl : BitVec 2) : State := bench (fun x => { x with budget := budget, pl := pl }) id

/-- R82: of each decode cause an instruction, and a strand that meets it. -/
theorem witness_DecodeCausesTrap :
    (([(.add (t3 (rv 8) (im 1) (im 1) zo .i32 0), 8, 2, .illOpnd), (.add (t3 (rv 1) (im 1) (im 1) zo .i4 0), 8, 2, .illRes),
      (.add (t3 (rp 1) (im 1) (im 1) zo .i32 0), 8, 2, .illOpnd), (.swap ex, 8, 0, .priv),
      (.einj (t3 zo (rs 1) zo zo .none 2), 8, 1, .priv), (.csrr (i32 (rs 1) zo .none 0 0x070), 8, 0, .priv)] :
        List (Instr × Nat × BitVec 2 × Cause)).all fun e =>
      let s := lowly e.2.1 e.2.2.1
      let x := strandOf s
      e.1.isProgram && s.strand? s.cur == some x && mayRun s s.cur x && x.defer == [] && !windowBlocked s.cycle x e.1 &&
        decodeFault e.1 x == some e.2.2.2) = true ∧
      (let s := bench (fun x => { x with hm := true }) id
       let x := strandOf s
       let i : Instr := .add (t3 (rv 1) (im 1) (im 1) zo .i32 0)
       i.isLane && s.strand? s.cur == some x && mayRun s s.cur x && x.hm && !windowBlocked s.cycle x i && decodeFault i x == none)
        = true := by decide +kernel

theorem witness_GuardedOff :
    Issues (.add { t3 (rv 1) (im 1) (im 1) zo .i32 0 with hd := g1 }) plain (strandOf plain) ∧
      (strandOf plain).passes (.add { t3 (rv 1) (im 1) (im 1) zo .i32 0 with hd := g1 }) = false ∧
      Issues (.nop { ex with hd := { hd with neg := true, gi := 0 } }) (bench (fun x => { x with c := [(0, true)] }) id)
        (strandOf (bench (fun x => { x with c := [(0, true)] }) id)) ∧
      (strandOf (bench (fun x => { x with c := [(0, true)] }) id)).passes (.nop { ex with hd := { hd with neg := true, gi := 0 } })
        = false ∧ (Instr.nop { ex with hd := { hd with neg := true } }).staticCause = some .illRes :=
  ⟨issues_strandOf (by decide +kernel), by decide +kernel, issues_strandOf (by decide +kernel), by decide +kernel,
    by decide +kernel⟩

/-- A strand in its handler, with a TRAP entry over `rest`. -/
def inHandler (m : Mask) (w : Word) (rest : List RsEntry) (x : Strand) : Strand :=
  { x with hm := true, rstk := .trap 7 m w :: rest }

def tretCases : List Case :=
  [on (.tret ex) (inHandler 0xF 0x200 []) fun _ x =>
     !tsswBad x 0x200 && decide ((0xF : Mask) &&& x.live ≠ 0 ∧ x.defer = []),
   on (.tret ex) (inHandler 0xF 0xA00 []) fun _ x => !tsswBad x 0xA00,
   on (.tret ex) (inHandler 0xF 0xE00 []) fun _ x => tsswBad x 0xE00,
   on (.tret ex) (inHandler 0xF 0 []) fun _ x => tsswBad x 0,
   on (.tret ex) (inHandler 0 0x200 []) fun _ x => !tsswBad x 0x200 && decide ((0 : Mask) &&& x.live = 0),
   on (.tret ex) (inHandler 0 0x200 [.div 9 0xFF 4 0xF0]) fun _ x => !tsswBad x 0x200 && decide ((0xF0 : Mask) &&& x.live ≠ 0),
   on (.tret ex) (inHandler 0 0x200 [.div 9 0xFF 4 0]) fun _ x => !tsswBad x 0x200 && decide ((0 : Mask) &&& x.live = 0),
   on (.tret ex) id fun _ x => !x.hm]

theorem witness_ReturnFromTrap : ∀ e ∈ tretCases, Shown e := shown_all (by decide +kernel)

/-! ## Memory -/

/-- Memory with bytes `bs` at `a`. -/
def stored (a n x : Nat) (s : State) : State := { s with mem := Memory.putNat s.mem a n x }

/-- Whether no access of a list overlaps one that the strand owes, every one passes its checks, and all that are made at issue are
made, with no trap owed. The order of one access is free of choice, and so the cases have one lane each. -/
def performedB (i : Instr) (tn : Option (Nat × Nat × List (BitVec 64))) (v : State) (r : Ref) (y : Strand) (accs : List LaneAcc) : Bool :=
  !overlapOwed i tn v r y accs && (checkAll i (y.site r) tn v accs).isNone &&
    match doAll i (y.site r) tn y.pc v ([], none) (madeNow i v r y accs) with
    | (_, (_, none), [], none) => true
    | _ => false

theorem performed_of {i : Instr} {tn : Option (Nat × Nat × List (BitVec 64))} {v : State} {r : Ref} {y : Strand} {accs : List LaneAcc}
    (h : performedB i tn v r y accs = true) : ∃ u ws, Performed i tn v r y accs u ws none := by
  simp only [performedB, Bool.and_eq_true, Bool.not_eq_true', Option.isNone_iff_eq_none] at h
  obtain ⟨⟨h0, h1⟩, h2⟩ := h
  split at h2
  · rename_i u ws heq
    exact ⟨u, ws, h0, h1, heq⟩
  · cases h2

/-- The accesses of an instruction without a handle are made. -/
def madeB (i : Instr) (s : State) (x : Strand) (accs : List LaneAcc) : Bool :=
  performedB i none (issued s s.cur x i) s.cur (bookkept i s x) accs

/-- The word at `a`, one kibibyte into the mapped gibibyte. -/
def base1 (a : Nat) (x : Strand) : Strand := x.setS 2 (BitVec.ofNat 64 a)
def oneLane (x : Strand) : Strand := { x with active := 1 }

def ldU : MForm := mf (rs 1) (rs 2) 2 0 0
def ldV : MForm := mf (rv 4) (rs 2) 4 1 0xFFFFF0
def stU : MForm := mf (rs 1) (rs 2) 3 0 0
def stV : MForm := mf (rv 1) (rs 2) 0 0 0
def hldF : MForm := mf (rh 1) (rs 2) 0 0 0
/-- ATOM.ADD of 4 bytes into an s register, the same into lanes, a local one, one that returns nothing, and CAS. -/
def atomU : MForm := mf (rs 1) (rs 2) 2 0 0
def atomV : MForm := mf (rv 1) (rs 2) 2 0 0
def atomL : MForm := mf (rv 1) (rs 2) 2 2 0
def atomN : MForm := mf (rv 1) (rs 2) 2 4 0

def flatCases : List Case :=
  [on (.ld ldU) (base1 0x40000000) fun s x => match translate s (x.who s.cur) .read (flatEaU s s.cur x ldU) with | .bad _ _ => true | _ => false,
   on (.ld ldU) (base1 0x3FFFFFFC) fun s x => match translate s (x.who s.cur) .read (flatEaU s s.cur x ldU) with
     | .ok key mt => mt != 3 && !uncLine s key 4
     | _ => false,
   on (.st stU) (base1 0x3FFFFFF8) fun s x => match translate s (x.who s.cur) .write (flatEaU s s.cur x stU) with
     | .ok _ mt => mt != 3
     | _ => false,
   on (.atom atomU) (base1 0x400) fun s x => match translate s (x.who s.cur) .atomic (flatEaU s s.cur x atomU) with
     | .ok key _ => !uncLine s key 4 && !atomU.loc && !atomU.nr
     | _ => false]

theorem witness_FlatAccessOfALane : ∀ e ∈ flatCases, Shown e := shown_all (by decide +kernel)

/-- Tables at 0x1000 to 0x5000 that map address 0, with the entries of levels 2, 1 and 0. -/
def tables (e2 e1 e0 : Nat) : Map Byte :=
  [(0x1000, 0x2001), (0x2000, 0x3001), (0x3000, e2), (0x4000, e1), (0x5000, e0)].foldl (fun m e => Memory.putNat m e.1 8 e.2) []

/-- A leaf with V, LEAF, RP, W and U, of HBM4, at an address. -/
def leafAt (a : Nat) : Nat := 0x04B0000000000003 + a

/-- The plain bench with the context's tree at 0x1000 and a leaf of 64 KiB. -/
def treeS (e0 : Nat) (secure : Bool) : State :=
  { plain with mem := tables 0x4001 0x5001 e0, ctxs := [(1, { bootCtx with root := 0x1000, secure := secure })] }

theorem witness_Walk :
    (match walk (tables (leafAt 0x40000000) 0 0) 0x1000 0 with | .leaf 2 _ => true | _ => false) &&
      (match walk (tables 0x4001 (leafAt 0x200000) 0) 0x1000 0 with | .leaf 1 _ => true | _ => false) &&
      (match walk (tables 0x4001 0x5001 (leafAt 0x10000)) 0x1000 0 with | .leaf 0 _ => true | _ => false) &&
      [0, 2].all (fun e => walk (tables 0x4001 0x5001 e) 0x1000 0 == .absent) &&
      [1, 5, leafAt 0x10000 + 2 ^ 60, leafAt 0x8000, leafAt 0x10000 - 2 ^ 58].all (fun e =>
        walk (tables 0x4001 0x5001 e) 0x1000 0 == .bad) &&
      [0x4003, 0x4101, 0x4001 + 2 ^ 52].all (fun e => walk (tables e 0x5001 (leafAt 0x10000)) 0x1000 0 == .bad) = true := by decide +kernel

/-- What the accesses of the plain bench's strand to address 0 meet: a leaf, and no leaf in a TLB. -/
def treeB (e0 : Nat) (secure : Bool) : Bool :=
  let s := treeS e0 secure
  let w := (strandOf s).who s.cur
  (s.ctx? w.ctx).isSome && tlbFind (s.core w.core).tlb w.ctx 0 == none && tlbFind (l2Tlb s w.core) w.ctx 0 == none && s.rtBusy == false &&
    (match walk s.mem 0x1000 0 with | .leaf 0 e => e.toNat == e0 | _ => false)

theorem witness_Translation :
    treeB (leafAt 0x10000) true && treeB (leafAt 0x10000 + 2 ^ 56) true && treeB (leafAt 0x10000 - 2 ^ 52) true &&
      (treeB (leafAt 0x10000) false && !tableAllows (treeS (leafAt 0x10000) false).regions .read false 0x10000) &&
      treeB (leafAt 0xF000000000000 + 2 ^ 59) true = true := by decide +kernel

def flatOkB (accs : List LaneAcc) (size : Nat) : Bool := accs.all fun a => vaOk a.ea && a.ea % size == 0
def scratchOkB (q : Slot) (accs : List LaneAcc) (size : Nat) (wr : Bool) : Bool :=
  accs.all fun a => a.ea % size == 0 && decide (a.ea + size ≤ spaceSize q 1) && !conflicts q a.ea size wr

/-- A record of a tensor of 32 elements of F32 in row-major order, at 0x20000, with its data at 0x40000. -/
def aRecord : Nat := 0x40000 + 2 ^ 256 * (2 ^ 34 + 0x12 * 2 ^ 24) + 2 ^ 384 * 32
def withTensor (s : State) : State := stored 0x20000 128 aRecord s

def loadCases : List Case :=
  [on (.ld ldU) (base1 0x400) fun s x => flatOkB (ldAccs s x ldU) 4 && madeB (.ld ldU) s x (ldAccs s x ldU),
   on (.ld ldV) (fun x => oneLane (base1 0x400 x)) fun s x =>
     flatOkB (ldAccs s x ldV) 16 && madeB (.ld ldV) s x (ldAccs s x ldV),
   on (.lds stV) (fun x => oneLane (base1 0x1FFFF x)) fun s x => scratchOkB (s.slot s.cur.core x.slot) (ldsAccs s x stV) 1 false &&
     madeB (.lds stV) s x (ldsAccs s x stV),
   (.hld hldF, bench (base1 0x20000) withTensor, fun s x => let a := laneAcc 0 (flatEaU s s.cur x hldF) 0 0
     flatOkB [a] 128 && madeB (.hld hldF) s x [a]),
   on (.atom atomU) (base1 0x400) fun s x => let l := atomicAccs s s.cur x atomU true
     !atomU.nr && flatOkB l 4 && madeB (.atom atomU) s x l,
   on (.atom atomL) (fun x => oneLane (base1 0x1FFFC x)) fun s x => let l := atomicAccs s s.cur x atomL false
     !atomL.nr && atomL.loc && scratchOkB (s.slot s.cur.core x.slot) l 4 true && madeB (.atom atomL) s x l,
   on (.st stU) (base1 0x400) fun s x =>
     let l := [laneAcc 0 (flatEaU s s.cur x stU) (storeValue x stU.d 8 0) 0]
     flatOkB l 8 && madeB (.st stU) s x l,
   on (.sts stV) (fun x => oneLane (base1 0x1FFFF x)) fun s x =>
     let l := (x.acting stV.hd).map fun l => laneAcc l (localEa s s.cur x stV l) (storeValue x stV.d 1 l) 0
     scratchOkB (s.slot s.cur.core x.slot) l 1 true && madeB (.sts stV) s x l,
   on (.red atomV) (fun x => oneLane (base1 0x400 x)) fun s x => let l := atomicAccs s s.cur x atomV false
     flatOkB l 4 && madeB (.red atomV) s x l,
   on (.red atomL) (fun x => oneLane (base1 0 x)) fun s x => let l := atomicAccs s s.cur x atomL false
     atomL.loc && scratchOkB (s.slot s.cur.core x.slot) l 4 true && madeB (.red atomL) s x l,
   on (.atom atomN) (fun x => oneLane (base1 0x400 x)) fun s x => let l := atomicAccs s s.cur x atomN false
     atomN.nr && flatOkB l 4 && madeB (.atom atomN) s x l]

/-- The store of `owedStore` is to 0x400; a load of the same word takes its value, and a store or an atomic there waits for it. -/
def owedCases : List Case :=
  [on (.ld ldU) (fun x => { base1 0x400 x with held := [owedStore] }) fun s x => flatOkB (ldAccs s x ldU) 4 &&
     (checkAll (.ld ldU) (x.site s.cur) none (issued s s.cur x (.ld ldU)) (ldAccs s x ldU)).isNone &&
     (match ldAccs s x ldU with
      | [a] => forwarded (.ld ldU) none (issued s s.cur x (.ld ldU)) s.cur (bookkept (.ld ldU) s x) a == some 5
      | _ => false) && coreLocal owedStore.instr && x.long == [] &&
     (match translate s (x.who s.cur) .write 0x400, translate s (x.who s.cur) .read 0x400 with
      | .ok a _, .ok b _ => a == b
      | _, _ => false),
   on (.st stU) (fun x => { base1 0x400 x with held := [owedStore] }) fun s x =>
     flatOkB (stAccs s x stU) 8 && overlapOwed (.st stU) none (issued s s.cur x (.st stU)) s.cur (bookkept (.st stU) s x) (stAccs s x stU),
   on (.red atomV) (fun x => oneLane { base1 0x400 x with held := [owedStore] }) fun s x => let l := atomicAccs s s.cur x atomV false
     flatOkB l 4 && overlapOwed (.red atomV) none (issued s s.cur x (.red atomV)) s.cur (bookkept (.red atomV) s x) l,
   on (.atom atomU) (fun x => { base1 0x400 x with held := [owedStore] }) fun s x => let l := atomicAccs s s.cur x atomU true
     flatOkB l 4 && overlapOwed (.atom atomU) none (issued s s.cur x (.atom atomU)) s.cur (bookkept (.atom atomU) s x) l]

theorem witness_OverlappingAccesses : ∀ e ∈ owedCases, Shown e := shown_all (by decide +kernel)

theorem witness_LoadsAndStoresComplete : ∀ e ∈ loadCases, Shown e := shown_all (by decide +kernel)

def hValid (x : Strand) : Strand := x.setH 1 { valid := true, addr := 0x20000, cache := none }
def tF : MTForm := mt (rv 4) (rh 1) (spr 2)

/-- The accesses of LDT or STT with the record fetched pass their checks and are made. -/
def tensorB (i : Instr) (f : MTForm) (st : Bool) (s : State) (x : Strand) : Bool :=
  match useHandle (issued s s.cur x i) (x.who s.cur) x.ctx (x.hreg 1) with
  | .ok v h pa d =>
    let y := (bookkept i s x).setH 1 h
    let accs := (x.acting f.hd).map fun l =>
      { lane := l, ea := 0, coords := coordsOf s s.cur x f l,
        data := if st then (elemData v x d f.d (f.opx.getLsbD 0) l).1 else 0, data2 := 0 : LaneAcc }
    (tensorTrap v s.cur (bookkept i s x) i f d ((x.acting f.hd).map fun l => coordsOf s s.cur x f l)).isNone &&
      !recordOwed (issued s s.cur x i) s.cur (bookkept i s x) (x.hreg 1) &&
      ((x.acting f.hd).findSome? fun l => elemVa v (x.site s.cur) d (coordsOf s s.cur x f l)).isNone &&
      x.fpsr == 0 && performedB i (some (h.addr, pa, d)) (v.setStrand s.cur y) s.cur y accs
  | _ => false

def tensorCases : List Case :=
  [(.ldt (mt (rv 4) (rh 1) (rv 1)), bench (fun x => oneLane (hValid x)) withTensor, tensorB (.ldt (mt (rv 4) (rh 1) (rv 1))) (mt (rv 4) (rh 1) (rv 1)) false),
   (.ldt (mt (rv 4) (rh 1) (im 127)), bench (fun x => oneLane (hValid x)) withTensor,
     tensorB (.ldt (mt (rv 4) (rh 1) (im 127))) (mt (rv 4) (rh 1) (im 127)) false),
   (.stt (mt (rv 4) (rh 1) (im 31)), bench (fun x => oneLane (hValid x)) withTensor,
     tensorB (.stt (mt (rv 4) (rh 1) (im 31))) (mt (rv 4) (rh 1) (im 31)) true),
   (.stt (mt (rv 4) (rh 1) (im 32)), bench (fun x => oneLane (hValid x)) withTensor,
     tensorB (.stt (mt (rv 4) (rh 1) (im 32))) (mt (rv 4) (rh 1) (im 32)) true)]

theorem witness_TensorAccessesComplete : ∀ e ∈ tensorCases, Shown e := shown_all (by decide +kernel)

def busyScratch (wr : Bool) (s : State) : State :=
  s.modSlot 0 0 fun q => { q with ranges := [{ idx := 0, kind := 0, space := 1, lo := 0, hi := 64, wr := wr, seq := 0 }] }

def checkCases : List Case :=
  ([Instr.ld, .st].flatMap fun i =>
    [on (i ldU) (base1 (2 ^ 56)) fun s x => (firstBad (ldAccs s x ldU) fun a => !vaOk a.ea).isSome,
     on (i ldU) (base1 (2 ^ 56 - 2)) fun s x => (firstBad (ldAccs s x ldU) fun a => !vaOk a.ea).isNone &&
       (firstBad (ldAccs s x ldU) fun a => a.ea % 4 != 0).isSome]) ++
  ([Instr.lds, .sts].flatMap fun i =>
    [on (i (mf (rv 1) (rs 2) 2 0 0)) (base1 2) fun s x => (firstBad (ldsAccs s x (mf (rv 1) (rs 2) 2 0 0)) fun a => a.ea % 4 != 0).isSome,
     on (i stV) (base1 0x20000) fun s x => (firstBad (ldsAccs s x stV) fun a => a.ea % 1 != 0).isNone &&
       (firstBad (ldsAccs s x stV) fun a => decide (spaceSize (s.slot s.cur.core x.slot) 1 < a.ea + 1)).isSome]) ++
  ([Instr.red, .atom].flatMap fun i =>
    [on (i atomV) (base1 (2 ^ 56)) fun s x => (firstBad (atomicAccs s s.cur x atomV false) fun a => !vaOk a.ea).isSome && !atomV.loc,
     on (i atomV) (base1 2) fun s x => (firstBad (atomicAccs s s.cur x atomV false) fun a => !vaOk a.ea).isNone &&
       (firstBad (atomicAccs s s.cur x atomV false) fun a => a.ea % 4 != 0).isSome,
     on (i atomL) (base1 2) fun s x => atomL.loc && (firstBad (atomicAccs s s.cur x atomL false) fun a => a.ea % 4 != 0).isSome,
     on (i atomL) (base1 0x20000) fun s x => (firstBad (atomicAccs s s.cur x atomL false) fun a => a.ea % 4 != 0).isNone &&
       (firstBad (atomicAccs s s.cur x atomL false) fun a =>
         decide (spaceSize (s.slot s.cur.core x.slot) 1 < a.ea + 4)).isSome]) ++
  [on (.hld hldF) (base1 (2 ^ 56)) fun s x => !vaOk (flatEaU s s.cur x hldF),
   on (.hld hldF) (base1 64) fun s x => vaOk (flatEaU s s.cur x hldF) && flatEaU s s.cur x hldF % 128 != 0,
   (.lds stV, bench (base1 63) (busyScratch true), fun s x => (ldsAccs s x stV).any fun a =>
     conflicts (s.slot s.cur.core x.slot) a.ea 1 false && decide (a.ea + 1 ≤ spaceSize (s.slot s.cur.core x.slot) 1)),
   (.sts stV, bench (base1 63) (busyScratch false), fun s x => (ldsAccs s x stV).any fun a =>
     conflicts (s.slot s.cur.core x.slot) a.ea 1 true && decide (a.ea + 1 ≤ spaceSize (s.slot s.cur.core x.slot) 1))]

/-- What the use of the handle of LDT gives, where the strand owes the record no access. -/
def useB (i : Instr) (p : Use → Bool) (s : State) (x : Strand) : Bool :=
  !recordOwed (issued s s.cur x i) s.cur (bookkept i s x) (x.hreg 1) && p (useHandle (issued s s.cur x i) (x.who s.cur) x.ctx (x.hreg 1))

/-- The handle holds a record, and the traps of the access, or the element out of the address space, are these. -/
def tensorStop (i : Instr) (f : MTForm) (trap : Option (Cause × Dword)) (out : Bool) (s : State) (x : Strand) : Bool :=
  useB i (fun u => match u with
    | .ok v _ _ d => tensorTrap v s.cur (bookkept i s x) i f d ((x.acting f.hd).map fun l => coordsOf s s.cur x f l) == trap &&
        ((x.acting f.hd).findSome? fun l => elemVa v (x.site s.cur) d (coordsOf s s.cur x f l)).isSome == out
    | _ => false) s x

/-- The record of `aRecord` with rank 2, and with its data past the lower half of the address space. -/
def record2 : Nat := aRecord + 2 ^ 256 * (2 ^ 34 + 8) + 2 ^ 416 * 4
def recordEnd : Nat := aRecord - 0x40000 + 2 ^ 56

def tensorStops : List Case :=
  [Instr.ldt, .stt].flatMap fun i =>
    let f := mt (rv 4) (rh 1) (rv 1)
    let g := mt (rv 4) (rh 1) (im 31)
    [(i f, bench id withTensor, useB (i f) fun u => match u with | .invalid => true | _ => false),
     (i f, bench hValid id, useB (i f) fun u => match u with | .badTensor => true | _ => false),
     (i f, bench hValid (stored 0x20000 128 record2), tensorStop (i f) f (some (.badRank, 0)) false),
     (i { f with d := rv 255 }, bench (fun x => { hValid x with budget := 256 }) withTensor, tensorStop (i { f with d := rv 255 }) { f with d := rv 255 } none false),
     (i g, bench (fun x => oneLane (hValid x)) (stored 0x20000 128 recordEnd), tensorStop (i g) g none true)]

theorem witness_TensorChecks : ∀ e ∈ tensorStops, Shown e := shown_all (by decide +kernel)

/-- Accesses that pass the checks of their addresses and fail to translate. -/
def failB (i : Instr) (accs : List LaneAcc) (size : Nat) (c : Cause) (s : State) (x : Strand) : Bool :=
  flatOkB accs size && !overlapOwed i none (issued s s.cur x i) s.cur (bookkept i s x) accs &&
    match checkAll i (x.site s.cur) none (issued s s.cur x i) accs with | some (.halt e _ _) => e == c | _ => false

def failCases : List Case :=
  [on (.ld ldU) (base1 0x40000000) fun s x => failB (.ld ldU) (ldAccs s x ldU) 4 .pageNp s x,
   on (.st stU) (base1 0x40000000) fun s x => failB (.st stU) (stAccs s x stU) 8 .pageNp s x,
   on (.red atomV) (fun x => oneLane (base1 0x40000000 x)) fun s x => failB (.red atomV) (atomicAccs s s.cur x atomV false) 4 .pageNp s x,
   on (.atom atomU) (base1 0x40000000) fun s x => failB (.atom atomU) (atomicAccs s s.cur x atomU true) 4 .pageNp s x]

theorem witness_AccessFailures : ∀ e ∈ failCases, Shown e := shown_all (by decide +kernel)

theorem witness_AccessChecks : ∀ e ∈ checkCases, Shown e := shown_all (by decide +kernel)

def nextB (o : Host.Outcome State Fault Refusal) : Bool := match o with | .next _ => true | _ => false

theorem next_of {o : Host.Outcome State Fault Refusal} (h : nextB o = true) : ∃ t, o = .next t := by
  cases o with
  | next t => exact ⟨t, rfl⟩
  | fault f => cases h
  | refused r => cases h

/-- ST of an s register at 0x400. -/
def storeBench : State := bench (base1 0x400) id

theorem witness_StoreFrames : (∃ t, exec (.st stU) storeBench = .next t) ∧ Acts (.st stU) storeBench (strandOf storeBench) ∧
    (let v := issued storeBench storeBench.cur (strandOf storeBench) (.st stU)
     storedAll (.st stU) ((strandOf storeBench).site storeBench.cur) none v
       (madeNow (.st stU) v storeBench.cur (bookkept (.st stU) storeBench (strandOf storeBench))
         (stAccs storeBench (strandOf storeBench) stU))) = [(0x400, 8)] :=
  ⟨next_of (by decide +kernel), ⟨issues_strandOf (by decide +kernel), by decide +kernel⟩, by decide +kernel⟩

theorem witness_OnlyStoresReachMemoryAndOtherStrands :
    ∃ t, exec (.add (t3 (rv 1) (im 1) (im 1) zo .i32 0)) plain = .next t := next_of (by decide +kernel)

def handleCases : List Case :=
  [on (.hset (t3 (rh 1) (rs 2) zo zo .none 0)) (base1 0x400) fun _ x => (x.sreg 2).toNat % 128 == 0,
   on (.hset (t3 (rh 1) (rs 2) zo zo .none 0)) (base1 0x440) fun _ x => (x.sreg 2).toNat % 128 != 0] ++
  onPlain [.hset (t3 (rh 1) (rh 2) zo zo .none 0), .hset (t3 (rh 1) (im 0) zo zo .none 0), .pref (mf zo (rs 2) 0 0 0)] ++
  [on (.hget (t3 (rs 1) (rh 1) (rs 2) zo .none 0)) (base1 18) fun s x => decide (17 < uniOp s s.cur x (rs 2) % 2 ^ 32),
   on (.hget (t3 (rs 1) (rh 1) (im 16) zo .none 0)) id fun s x => decide (uniOp s s.cur x (im 16) % 2 ^ 32 = 16),
   on (.hget (t3 (rs 1) (rh 1) (im 17) zo .none 0)) id fun s x =>
     decide (uniOp s s.cur x (im 17) % 2 ^ 32 ≤ 17) && !(x.hreg 1).valid,
   (.hget (t3 (rs 1) (rh 1) (im 8) zo .none 0), bench hValid withTensor, fun s x =>
     match useHandle (issued s s.cur x (.hget (t3 (rs 1) (rh 1) (im 8) zo .none 0))) (x.who s.cur) x.ctx (x.hreg 1) with
     | .ok _ h _ d => recField h.addr d 8 == 32 &&
       !recordOwed (issued s s.cur x (.hget (t3 (rs 1) (rh 1) (im 8) zo .none 0))) s.cur x (x.hreg 1)
     | _ => false),
   (.hget (t3 (rs 1) (rh 1) (im 8) zo .none 0), bench (fun x => { hValid x with held := [{
       pc := 0, instr := .st (mf (rv 1) (rs 2) 2 0 0), mask := 0xFFFFFFFF, todo := [laneAcc 0 0x20040 5 0], tn := none, rmw := false }] })
     withTensor, fun s x =>
     recordOwed (issued s s.cur x (.hget (t3 (rs 1) (rh 1) (im 8) zo .none 0))) s.cur
       (bookkept (.hget (t3 (rs 1) (rh 1) (im 8) zo .none 0)) s x) (x.hreg 1))]

theorem witness_HandlesAndPrefetch : ∀ e ∈ handleCases, Shown e := shown_all (by decide +kernel)

/-! ## Synchronisation, queues, tokens and system instructions -/

def sr (r v : Nat) (x : Strand) : Strand := x.setS r (BitVec.ofNat 64 v)
def bar2 (n : Nat) (s : State) : State :=
  s.modTeam 0 0 fun t => { t with bars := [(0, { Bar.zero with expected := n, arrivals := 1 })] }
def barF (b n : Nat) : T3 := t3 zo (im b) (im n) zo .none 0
def barRegs : T3 := t3 zo (rs 1) (rs 2) zo .none 0

/-- The arrival is counted, and whether it flips the phase. -/
def barB (f : T3) (flip : Bool) (s : State) (x : Strand) : Bool :=
  match s.team? s.cur.core x.tslot with
  | some t => (match barArrive (mget Bar.zero t.bars (uniOp s s.cur x f.a)) (uniOp s s.cur x f.b) x.role s.cycle with
    | some (_, g) => g == flip && !barExpired s s.cur.core x.slot x.ctx (uniOp s s.cur x f.a) && decide (uniOp s s.cur x f.a < 16 ∧ 0 < uniOp s s.cur x f.b ∧ uniOp s s.cur x f.b < 64) &&
        decide (x.wait = .none)
    | none => false)
  | none => false

def barBad (f : T3) (s : State) (x : Strand) : Bool :=
  decide (16 ≤ uniOp s s.cur x f.a ∨ uniOp s s.cur x f.b = 0 ∨ 64 ≤ uniOp s s.cur x f.b) ||
    !barExpired s s.cur.core x.slot x.ctx (uniOp s s.cur x f.a) && match s.team? s.cur.core x.tslot with
    | some t => (barArrive (mget Bar.zero t.bars (uniOp s s.cur x f.a)) (uniOp s s.cur x f.b) x.role s.cycle).isNone
    | none => false

def barCases : List Case :=
  [Instr.bar, .bara].flatMap fun i =>
    [on (i (barF 15 63)) id (barB (barF 15 63) false), on (i (barF 0 1)) id (barB (barF 0 1) true),
     dev (i (barF 0 2)) (bar2 2) (barB (barF 0 2) true), dev (i (barF 0 3)) (bar2 2) (barBad (barF 0 3)),
     on (i barRegs) (fun x => sr 2 1 (sr 1 16 x)) (barBad barRegs), on (i barRegs) id (barBad barRegs),
     on (i barRegs) (sr 2 64) (barBad barRegs),
     dev (i (barF 0 2)) (fun s => s.modCtx 1 fun c => { c with haltQ := [
       { cause := .barWatchdog, tinfo := 0, src := 2, core := 0, slot := 0, dm := false, strid := none, at_ := 0 }] })
       fun s x => decide (uniOp s s.cur x (im 0) < 16 ∧ uniOp s s.cur x (im 2) = 2) && barExpired s s.cur.core x.slot x.ctx 0]

theorem witness_Barriers : ∀ e ∈ barCases, Shown e := shown_all (by decide +kernel)

theorem witness_BarrierArrival :
    ({ Bar.zero with expected := 2, arrivals := 1 } : Bar).arrivals + 1 = 2 ∧ Bar.zero.arrivals = 0 ∧ Bar.zero.arrivals + 1 ≠ 2 ∧
      ({ Bar.zero with expected := 2, arrivals := 1 } : Bar).expected ≠ 3 := by decide

def withK (m : Mask) (x : Strand) : Strand := { x with k := [(1, m)] }
def syncF : T3 := t3 zo (rk 1) zo zo .none 0
def syncRec (x : Strand) : SyncRec := x.syncg.getD { pc := x.pc, k := maskOp x (rk 1), arr := 0 }
def syncGood (x : Strand) : Bool :=
  decide ((syncRec x).pc = x.pc ∧ (syncRec x).k = maskOp x (rk 1) ∧ x.active &&& ~~~maskOp x (rk 1) = 0)
def syncLeft (x : Strand) : Mask := (syncRec x).k &&& x.live &&& ~~~((syncRec x).arr ||| x.active)

def syncCases : List Case :=
  [on (.syncg syncF) (withK 0xFFFFFFFF) fun _ x => syncGood x && syncLeft x == 0 && !lanesOwe x,
   on (.syncg syncF) (fun x => { withK 0xFFFFFFFF x with held := [owedStore] }) fun _ x => syncGood x && syncLeft x == 0 && lanesOwe x,
   on (.syncg syncF) (fun x => { withK 0xFF x with active := 0xF0, syncg := some { pc := 1, k := 0xFF, arr := 0xF } }) fun _ x =>
     syncGood x && syncLeft x == 0 && !lanesOwe { x with active := 0xFF },
   on (.syncg syncF) (fun x => { withK 0xFF x with active := 0xF, rstk := [.div 9 0xFF 4 0xF0] }) fun _ x =>
     syncGood x && syncLeft x != 0 && decide ((0xF0 : Mask) &&& x.live ≠ 0),
   on (.syncg syncF) (withK 0xF) fun _ x => !syncGood x && canSettle x && decide (x.pc < 2 ^ 32),
   on (.syncg syncF) (fun x => { withK 0xFF x with active := 0xF }) fun _ x =>
     syncGood x && syncLeft x != 0 && decide (x.rstk = []) && canSettle x && decide (x.pc < 2 ^ 32)]

theorem witness_GroupSynchronisation : ∀ e ∈ syncCases, Shown e := shown_all (by decide +kernel)

/-- A device with token 5 of core 0, generation 1, in the state given. -/
def withTok (st : TokSt) (s : State) : State :=
  s.modCore 0 fun k => { k with tokens := [(5, { Token.free with gen := 1, ctx := 1, cls := 2, st := st })] }
def tokReg (x : Strand) : Strand := sr 2 (tokWord 0 5 1).toNat x
def wF : T3 := t3 (rc 1) (rs 2) zo zo .none 0

def waitCases : List Case :=
  [on (.waitt wF) id fun s x => decide (x.owed = [] ∧ waittNow s s.cur.core x.slot (BitVec.ofNat 32 (uniOp s s.cur x (rs 2))) = some false),
   on (.waitt wF) (sr 2 (tokWord 1 5 1).toNat) fun s x =>
     decide (x.owed = [] ∧ waittNow s s.cur.core x.slot (BitVec.ofNat 32 (uniOp s s.cur x (rs 2))) = some true),
   (.waitt wF, bench tokReg (withTok .done), fun s x =>
     decide (x.owed = [] ∧ waittNow s s.cur.core x.slot (BitVec.ofNat 32 (uniOp s s.cur x (rs 2))) = some false)),
   (.waitt wF, bench tokReg (withTok .running), fun s x =>
     decide (x.owed = [] ∧ waittNow s s.cur.core x.slot (BitVec.ofNat 32 (uniOp s s.cur x (rs 2))) = none)),
   on (.waitk (t3 zo (im 1) zo zo .none 2)) (fun x => x.addCount 2 1) fun s x => decide (x.owed = [] ∧ x.count 2 ≤ uniOp s s.cur x (im 1) % 2 ^ 32),
   on (.waitk (t3 zo (im 0) zo zo .none 2)) (fun x => x.addCount 2 1) fun s x => decide (x.owed = [] ∧ uniOp s s.cur x (im 0) % 2 ^ 32 < x.count 2)] ++
  ([0, 1].map fun n => on (.waitc (t3 zo (rs 2) (im n) zo .none 0)) (base1 0x400) fun s x =>
     vaOk (uniOp s s.cur x (rs 2)) && decide (uniOp s s.cur x (rs 2) % 8 = 0 ∧ x.owed = []) &&
       match flatRead (issued s s.cur x (.waitc (t3 zo (rs 2) (im n) zo .none 0))) (x.who s.cur) (uniOp s s.cur x (rs 2)) 8 with
       | .ok _ v => v == 0
       | _ => false) ++
  ([Instr.waitt wF, .waitk (t3 zo (im 1) zo zo .none 2), .waitc (t3 zo (rs 2) (im 1) zo .none 0)].map fun i =>
    on i (fun x => { x with owed := [(1, 4)] }) fun _ x => decide (x.owed = [(1, 4)] ∧ x.pc < 2 ^ 32) && canSettle x)

theorem witness_Waits : ∀ e ∈ waitCases, Shown e := shown_all (by decide +kernel)

/-- Queue 1 of cluster 0, owned by the context and changed by `f`. -/
def owned (f : Queue → Queue) (s : State) : State := s.modQueue 0 1 fun k => f { k with owner := some 1 }
def recs (n : Nat) (k : Queue) : Queue := { k with recs := List.replicate n (List.replicate 8 0, 0) }
def ring (head tail : Nat) (k : Queue) : Queue := { k with base := 0x8000, size := 4, head := head, tail := tail }
def pushF : T3 := t3 (spr 0x41) (rv 8) zo zo .none 0
def popF : T3 := t3 (rv 8) (spr 0x41) zo zo .none 0

def pushB (lanes : Nat) (s : State) (x : Strand) : Bool :=
  let k := s.queue 0 1
  ownsQueue s x s.cur.core 1 && (x.activeLanes.find? (badRecord x 8)).isNone && x.activeLanes.length == lanes &&
    !(k.size == 0 && decide (32 < k.recs.length + lanes))

/-- The pushes of the lanes: how many records find no room. -/
def pushLeft (i : Instr) (s : State) (x : Strand) : Option Nat :=
  let p := pushMany (issued s s.cur x i) 0 1 s.cur.core (x.activeLanes.map (laneRecord x 8))
  if p.2.2.isNone then some p.2.1.length else none

def pushCases : List Case :=
  [Instr.qpush, .mov].flatMap fun i =>
    [dev (i pushF) (owned id) fun s x => pushB 32 s x && pushLeft (i pushF) s x == some 0,
     (i pushF, bench oneLane (owned fun k => ring 2 5 (recs 3 k)), fun s x => pushB 1 s x && pushLeft (i pushF) s x == some 0),
     (i pushF, bench oneLane (owned fun k => ring 1 5 (recs 3 k)), fun s x => pushB 1 s x && pushLeft (i pushF) s x == some 1 &&
       (s.queue 0 1).waiting.isEmpty),
     (i pushF, bench oneLane (owned fun k => { ring 1 5 k with waiting := [.cont 1 0 0x1000 (List.replicate 8 0)] }), fun s x =>
       pushB 1 s x && !(s.queue 0 1).waiting.isEmpty && (s.queue 0 1).size != 0),
     on (i pushF) id fun s x => !ownsQueue s x s.cur.core 1,
     (i pushF, bench (fun x => x.setV 31 9 0x10000000) (owned id), fun s x => ownsQueue s x s.cur.core 1 &&
       (x.activeLanes.find? (badRecord x 8)) == some 31),
     dev (i pushF) (owned (recs 1)) fun s x => ownsQueue s x s.cur.core 1 && (x.activeLanes.find? (badRecord x 8)).isNone &&
       decide ((s.queue 0 1).size = 0 ∧ 32 < (s.queue 0 1).recs.length + x.activeLanes.length)]

theorem witness_QueuePushes : ∀ e ∈ pushCases, Shown e := shown_all (by decide +kernel)

theorem witness_QueuePushesOneRecord :
    (let s := bench id (owned (recs 31)); (s.queue 0 1).tail - (s.queue 0 1).head = 0 ∧ (s.queue 0 1).recs.length < 32) ∧
      (let s := bench id (owned (recs 32)); (s.queue 0 1).tail - (s.queue 0 1).head = 0 ∧ 32 ≤ (s.queue 0 1).recs.length ∧
        (s.queue 0 1).size = 0) ∧
      (let s := bench id (owned (ring 1 4))
       let k := s.queue 0 1
       (0 < k.tail - k.head ∧ k.tail - k.head < k.size) ∧ vaOk (k.ringAddr k.tail) = true ∧
         (match flatWrite s (hwWho (k.owner.getD 0) 0) (k.ringAddr k.tail) 32 (recordNat (List.replicate 8 1)) with
           | .ok _ _ => true
           | _ => false) = true) := by decide +kernel

def popCases : List Case :=
  [Instr.qpop, .mov].flatMap fun i =>
    [dev (i popF) (owned (recs 3)) fun s x => ownsQueue s x s.cur.core 1,
     dev (i popF) (owned fun k => ring 1 4 (recs 32 k)) fun s x => ownsQueue s x s.cur.core 1,
     on (i popF) id fun s x => !ownsQueue s x s.cur.core 1]

theorem witness_QueuePops : ∀ e ∈ popCases, Shown e := shown_all (by decide +kernel)

theorem witness_TokenInstructions_naming :
    tokGen 0 = 0 ∧ tokCore (tokWord 255 511 32767) = 255 ∧ (tokGen (tokWord 255 511 32767) ≠ 0) ∧
      (bench id (withTok .done)).token 0 5 ≠ Token.free ∧ ((bench id (withTok .done)).token 0 5).gen = tokGen (tokWord 0 5 1) ∧
      ((bench id (withTok .done)).token 0 5).gen ≠ tokGen (tokWord 0 5 2) := by decide +kernel

def tokNow (s : State) (x : Strand) : Named := resolve s s.cur.core x.slot (BitVec.ofNat 32 (uniOp s s.cur x (rs 2)))
def isTok5 (s : State) (x : Strand) : Bool := match tokNow s x with | .current 5 => true | _ => false
def orphaned (s : State) : State := s.modToken 0 5 fun e => { e with orph := true }

def tokenCases : List Case :=
  ([.running, .done].flatMap fun st =>
    [(.detach wF, bench tokReg (withTok st), fun s x => isTok5 s x && (s.token 0 5).owner == s.cur.strid && (s.token 0 5).attached),
     (.tstat (t3 (rs 1) (rs 2) zo zo .none 4), bench tokReg (withTok st), fun s x => isTok5 s x),
     (.tstat (t3 (rs 1) (rs 2) zo zo .none 3), bench tokReg (withTok st), fun s x => isTok5 s x),
     (.adopt (t3 (rs 1) zo zo zo .none 0), bench tokReg (fun s => orphaned (withTok st s)), fun s x =>
       (adoptable s s.cur x).length == 1 && match s.team? s.cur.core x.tslot with | some t => t.adopter == s.cur.strid | none => false),
     (.cancel wF, bench tokReg (withTok st), fun s x => isTok5 s x && (s.token 0 5).st.terminal == (st == .done)),
     (.prio (t3 (rc 1) (rs 2) (im 3) zo .none 0), bench tokReg (withTok st), fun s x =>
       isTok5 s x && (s.token 0 5).st.terminal == (st == .done) && decide (uniOp s s.cur x (im 3) < 4))]) ++
  [on (.detach wF) tokReg fun s x => !isTok5 s x,
   dev (.adopt (t3 (rs 1) zo zo zo .none 0)) (fun s => s.modTeam 0 0 fun t => { t with adopter := 9 }) fun s x =>
     match s.team? s.cur.core x.tslot with | some t => t.adopter != s.cur.strid | none => false,
   on (.cancel wF) tokReg fun s x => !isTok5 s x,
   (.cancel (t3 (rc 1) (rs 2) zo zo .none 1), bench tokReg (withTok .running), fun s x =>
     isTok5 s x && !(s.token 0 5).st.terminal),
   on (.prio (t3 (rc 1) (rs 2) (im 0) zo .none 0)) tokReg fun s x => !isTok5 s x && decide (uniOp s s.cur x (im 0) < 4),
   on (.prio (t3 (rc 1) (rs 2) (rs 4) zo .none 0)) (sr 4 4) fun s x => decide (4 ≤ uniOp s s.cur x (rs 4)),
   on (.tstat (t3 (rs 1) (rs 2) zo zo .none 0)) tokReg fun s x => !isTok5 s x]

theorem witness_TokenInstructions : ∀ e ∈ tokenCases, Shown e := shown_all (by decide +kernel)

/-- SPAWN with the address in s2; SUSPEND into queue 1 with the token in s2, of no registers. -/
def spawnF : T3 := t3 (rc 1) (rs 2) zo zo .none 0
def suspF (mask : Nat) : T3 := t3 zo (rs 2) (rv (if mask = 0 then 0 else 8)) zo .none (0x10000 + mask)

/-- Queue 1 owned, a task budget of 16 registers, and `n` free continuation blocks at 0x30000, each linked to the next. -/
def conts (n : Nat) (s : State) : State :=
  let s1 := (owned id s).modCtx 1 fun c => { c with tbud := 16, contbase := 0x30000, contsize := 64 }
  (List.range n).foldl (fun s i => stored (0x30000 + 128 * (i + 1) + 16) 4 (i + 2) s) (stored 0x30000 8 (n * 2 ^ 32 + 1) s1)

def suspOk (s : State) (x : Strand) : Bool :=
  match s.ctx? x.ctx with
  | some c => ownsQueue s x s.cur.core 1 && (overBudget 0 0 c.tbud).isNone && c.contsize != 0 &&
      settledNow (bookkept (.suspend (suspF 0)) s x) s.cycle
  | none => false

/-- The blocks taken and written, where enough are free. -/
def suspB (s : State) (x : Strand) : Bool :=
  let w := hwWho x.ctx s.cur.core
  let t : Word := BitVec.ofNat 32 (uniOp s s.cur x (rs 2))
  match flatRead (issued s s.cur x (.suspend (suspF 0))) w 0x30004 4 with
  | .ok u free => decide (x.activeLanes.length ≤ free) &&
      (match takeBlocks u w 0x30000 x.activeLanes.length with
      | .ok v bs => (match writeBlocks v w 0x30000 (blockNat (settle (bookkept (.suspend (suspF 0)) s x)) t 0 0) (bs.zip x.activeLanes) with
        | .ok v' _ => (contState v' s.cur.core x.slot t).isNone
        | _ => false)
      | _ => false)
  | _ => false

def spawnCases : List Case :=
  [on (.spawn spawnF) (base1 0x400) fun s x => vaOk (uniOp s s.cur x (rs 2)) && decide (uniOp s s.cur x (rs 2) % 256 = 0) &&
     (match flatRead (issued s s.cur x (.spawn spawnF)) (x.who s.cur) (uniOp s s.cur x (rs 2)) 256 with | .ok _ _ => true | _ => false),
   on (.spawn spawnF) (base1 0x480) fun s x => vaOk (uniOp s s.cur x (rs 2)) && decide (uniOp s s.cur x (rs 2) % 256 ≠ 0),
   on (.spawn spawnF) (base1 (2 ^ 56)) fun s x => !vaOk (uniOp s s.cur x (rs 2)),
   on (.suspend (suspF 0)) id fun s x => (s.ctx? x.ctx).isSome && !ownsQueue s x s.cur.core 1,
   dev (.suspend (suspF 0x0100)) (conts 1) fun s x => match s.ctx? x.ctx with
     | some c => ownsQueue s x s.cur.core 1 && overBudget 8 0x100 c.tbud == some 16
     | none => false,
   dev (.suspend (suspF 0)) (owned id) fun s x => match s.ctx? x.ctx with
     | some c => ownsQueue s x s.cur.core 1 && (overBudget 0 0 c.tbud).isNone && c.contsize == 0
     | none => false,
   dev (.suspend (suspF 0)) (conts 31) fun s x => suspOk s x &&
     (match flatRead (issued s s.cur x (.suspend (suspF 0))) (hwWho x.ctx s.cur.core) 0x30004 4 with
      | .ok _ free => decide (free < x.activeLanes.length)
      | _ => false),
   (.suspend (suspF 0), bench (fun x => { x with long := [lateLoad x] }) (conts 31),
     fun s x => (match s.ctx? x.ctx with
       | some c => ownsQueue s x s.cur.core 1 && (overBudget 0 0 c.tbud).isNone && c.contsize != 0
       | none => false) && !settledNow (bookkept (.suspend (suspF 0)) s x) s.cycle),
   (.suspend (suspF 0), bench (fun x => oneLane (tokReg { x with live := 1 })) (fun s => conts 1 (withTok .running s)),
     fun s x => suspOk s x && suspB s x && x.live &&& ~~~x.active == 0),
   (.suspend (suspF 0), bench (fun x => oneLane (tokReg { x with live := 3, rstk := [.div 9 3 4 2] }))
     (fun s => conts 1 (withTok .running s)),
     fun s x => suspOk s x && suspB s x && decide (x.live &&& ~~~x.active ≠ 0 ∧ (2 : Mask) &&& (x.live &&& ~~~x.active) ≠ 0 ∧
       (settle (bookkept (.suspend (suspF 0)) s x)).defer = []))]

theorem witness_SpawnAndSuspend : ∀ e ∈ spawnCases, Shown e := shown_all (by decide +kernel)

/-- SUSPEND as the last instruction of the range. -/
theorem witness_SuspendAtTheEnd :
    Acts (.suspend (suspF 0)) (lastPc 0) (strandOf (lastPc 0)) ∧
      ((lastPc 0).ctx? (strandOf (lastPc 0)).ctx).isSome = true ∧ 2 ^ 32 ≤ (strandOf (lastPc 0)).pc + 1 :=
  ⟨⟨issues_strandOf (by decide +kernel), by decide +kernel⟩, by decide +kernel, by decide +kernel⟩

def csrF (n : Nat) : I32 := i32 zo (rs 2) .none 0 n
def putB (i : Instr) (n : Nat) (s : State) (x : Strand) : Bool :=
  (csrPut (issued s s.cur x i) (csrAt s.cur x) n (BitVec.ofNat 64 (uniOp s s.cur x (rs 2))) (1 ≤ x.pl.toNat)).isSome
def putCase (i : Instr) (n v : Nat) (ok : Bool) : Case := on i (sr 2 v) fun s x => putB i n s x == ok

def csrCases : List Case :=
  onPlain ([0x000, 0x010, 0x017, 0x020, 0x022, 0x023, 0x030, 0x034, 0x038, 0x03B, 0x040, 0x042, 0x048, 0x057, 0x060, 0x070, 0x074, 0x078,
    0x080, 0x081].map fun n => .csrr (i32 (rs 1) zo .none 0 n)) ++
  [putCase (.csrw (csrF 0x070)) 0x070 64 true, putCase (.csrw (csrF 0x070)) 0x070 32 false,
   putCase (.csrw (csrF 0x071)) 0x071 0x80000000FFFFFFFF true, putCase (.csrw (csrF 0x071)) 0x071 0x100000000 false,
   putCase (.csrw (csrF 0x060)) 0x060 (2 ^ 10) true, putCase (.csrw (csrF 0x060)) 0x060 (2 ^ 10 - 1) false,
   putCase (.csrw (csrF 0x060)) 0x060 (2 ^ 40) true, putCase (.csrw (csrF 0x060)) 0x060 (2 ^ 40 + 1) false,
   putCase (.rcrClear (csrF 0x020)) 0x020 0 true, putCase (.chselWrite (csrF 0x022)) 0x022 0 true,
   putCase (.ringTailWrite (csrF 0x033)) 0x033 0 true, putCase (.ringTailWrite (csrF 0x033)) 0x033 1 false,
   putCase (.persistentMarkSet (csrF 0x073)) 0x073 0 true]

theorem witness_ControlRegisters : ∀ e ∈ csrCases, Shown e := shown_all (by decide +kernel)

/-- The descriptor of a basis, from its sixteen-bit halves. -/
def descriptor (hs : List Nat) : Nat := (hs.zipIdx.map fun e => e.1 * 2 ^ (16 * e.2)).sum
def goodBasis : List Nat := [256, 255, 253, 251, 247, 241, 239, 233, 257, 263, 8]
def badBasis : List Nat := [256, 254, 253, 251, 247, 241, 239, 233, 257, 263, 8]
def withBasis (hs : List Nat) (s : State) : State := stored 0x2000 32 (descriptor hs) s
def basF : I32 := csrF 0x000
def readBasis (s : State) (x : Strand) : Option Bool :=
  match flatDwords (issued s s.cur x (.basinstWrite basF)) (x.who s.cur) 0x2000 4 with
  | .ok _ ds => some (match checkBasis ds with | .ok _ => true | .error _ => false)
  | _ => none
def usesBasis0 (s : State) : State := s.setAcc 0 0 0 { AccSlot.reset with st := .live, bid := 0 }

def basisCases : List Case :=
  [on (.basinstWrite basF) (sr 2 0x2008) fun s x => decide (uniOp s s.cur x (rs 2) % 2 ^ 64 / 8 % 4 ≠ 0),
   (.basinstWrite basF, bench (sr 2 0x2000) usesBasis0, fun s x => basisInUse s x.ctx 0),
   (.basinstWrite basF, bench (sr 2 0x2007) (withBasis goodBasis), fun s x => !basisInUse s x.ctx 7 && readBasis s x == some true),
   (.basinstWrite basF, bench (sr 2 0x2001) (withBasis badBasis), fun s x => !basisInUse s x.ctx 1 && readBasis s x == some false),
   on (.invcmdWrite (csrF 0x081)) id fun s _ => (s.ctx? 0).isNone,
   (.invcmdWrite (csrF 0x081), bench (sr 2 (2 * 2 ^ 48)) (fun s => s.setCtx 2 { bootCtx with secure := false }), fun s x =>
     match s.ctx? 2 with | some c => c.secure != x.sec | none => false),
   on (.invcmdWrite (csrF 0x081)) (sr 2 (2 ^ 48)) fun s x => match s.ctx? 1 with | some c => c.secure == x.sec | none => false]

theorem witness_BasesAndInvalidation : ∀ e ∈ basisCases, Shown e := shown_all (by decide +kernel)

/-- Slot 1 of core 0 in the state given. -/
def slot1 (st : SlotSt) (s : State) : State := s.modSlot 0 1 fun q => { q with st := st }
def einjF (m : Nat) : T3 := t3 zo (rs 2) zo zo .none m
def accLive (s : State) : State := s.setAcc 0 0 0 { AccSlot.reset with st := .live, span := 8 }
def accOkB (s : State) (x : Strand) : Bool :=
  let a := uniOp s s.cur x (rs 2)
  let h := a / 2 ^ 16 % 16
  decide (a = a % 2 ^ 7 + a / 2 ^ 8 % 2 ^ 6 * 2 ^ 8 + h * 2 ^ 16 + a / 2 ^ 20 % 2 ^ 9 * 2 ^ 20 ∧
    (h < (s.acc s.cur.core x.slot 0).span ∨ h = 8 ∨ h = 9))
def obusOkB (s : State) (x : Strand) : Bool :=
  let a := uniOp s s.cur x (rs 2)
  decide (a < 2 ^ 14 ∧ a % 2 ^ 13 ≤ 6143 ∧ ¬(a / 2 ^ 13 % 2 = 1 ∧ a % 2 ^ 13 = 6143))

def swapCases : List Case :=
  ([SlotSt.frozen, .halted, .empty, .running, .shadow].map fun st =>
    dev (.swap ex) (slot1 st) fun s x => (s.slot s.cur.core (1 - x.slot)).st == st) ++
  onPlain [.clkr (t3 (rs 1) zo zo zo .none 0), .clkr (t3 (rs 2) zo zo zo .none 1)] ++
  [on (.einj (einjF 2)) (sr 2 6143) fun s x => obusOkB s x, on (.einj (einjF 2)) (sr 2 (2 ^ 13 + 6142)) fun s x => obusOkB s x,
   on (.einj (einjF 2)) (sr 2 6144) fun s x => !obusOkB s x, on (.einj (einjF 2)) (sr 2 (2 ^ 13 + 6143)) fun s x => !obusOkB s x,
   on (.einj (einjF 2)) (sr 2 (2 ^ 14)) fun s x => !obusOkB s x,
   (.einj (einjF 0), bench (sr 2 (127 + 63 * 2 ^ 8 + 7 * 2 ^ 16 + 511 * 2 ^ 20)) accLive, fun s x => accOkB s x),
   (.einj (einjF 1), bench (sr 2 (9 * 2 ^ 16)) accLive, fun s x => accOkB s x),
   (.einj (einjF 0), bench (sr 2 (10 * 2 ^ 16)) accLive, fun s x => !accOkB s x),
   (.einj (einjF 1), bench (sr 2 128) accLive, fun s x => !accOkB s x)]

theorem witness_SlotSwapClockAndInjection : ∀ e ∈ swapCases, Shown e := shown_all (by decide +kernel)

/-- A long-latency instruction outstanding, whose window covers 3 more. -/
def pending (x : Strand) : Strand :=
  { x with
    long := [newLong (.redux { t3 (rv 1) (rv 2) zo zo .i32 0 with hd := { hd with la := 3 } }) plain { core := 0, strid := 0 } x [] 0] }

/-- A result of fixed latency that is not available yet. -/
def notYet (x : Strand) : Strand := { x with avail := [(.v 1, 9)] }

theorem witness_ClkrWaits :
    let s := bench pending id
    let t := bench notYet id
    (s.strand? s.cur = some (strandOf s) ∧ mayRun s s.cur (strandOf s) = true ∧ (strandOf s).long ≠ [] ∧ (strandOf s).defer = []) ∧
      t.strand? t.cur = some (strandOf t) ∧ mayRun t t.cur (strandOf t) = true ∧
      (∃ e ∈ (strandOf t).avail, t.cycle < e.2) ∧ (strandOf t).defer = [] := by
  decide +kernel

/-! ## Engine instructions -/

/-- Each condition of a list holds. -/
def allOf (l : List Bool) : Prop := ∀ b ∈ l, b = true

theorem all_of {l : List Bool} (h : l.all id = true) : allOf l := fun b hb => by simpa using List.all_eq_true.1 h b hb

theorem pick_of {s : State} {core cls : Nat} (h : (candidates s core cls).isEmpty = false) : ∃ k, pickEntry s core cls = some k := by
  have h0 : 0 < (candidates s core cls).length := by
    cases hc : candidates s core cls with
    | nil => simp [hc] at h
    | cons a l => simp
  exact ⟨_, List.getElem?_eq_getElem (Nat.mod_lt _ h0)⟩

/-- A record of a rank-2 tensor: base, tag, format, space and extents. -/
def rec2 (base tag fmt space e0 e1 : Nat) : Nat :=
  base + 2 ^ 128 * tag + 2 ^ 256 * (2 ^ 3 + fmt * 2 ^ 24 + 2 * 2 ^ 34 + space * 2 ^ 37) + 2 ^ 384 * (e0 + e1 * 2 ^ 32)

/-- Records of an F32 tensor, two I8 tensors (one in the scratchpad), an N16 tensor, and a residue tensor in the scratchpad, at
0x20000 and every 128 bytes after it. -/
def records (s : State) : State :=
  [rec2 0x40000 0 0x12 0 8 4, rec2 0x41000 0 0x02 0 8 4, rec2 0x0 0 0x02 1 128 64, rec2 0x42000 0 0x0A 0 8 4,
    rec2 0x4000 3 0 1 64 64].zipIdx.foldl
    (fun s e => stored (0x20000 + 128 * e.2) 128 e.1 s) s

/-- Handles h0 to h4 for them, and a parameter block at s10 whose box is one element. -/
def handles (x : Strand) : Strand :=
  (List.range 5).foldl (fun x k => x.setH k { valid := true, addr := 0x20000 + 128 * k, cache := none })
    (x.setS 16 0x0001000100010001)

def blockAt (ops : Nat) : Nat := 10 * 2 ^ 22 + ops

abbrev Asker := State → Ref → Strand → Chk Asked

/-- Each engine instruction with what it asks. -/
def engineAsks : List (Instr × Asker) :=
  let cpl := ef (rv 2) (rv 4) (blockAt 0)
  let cpt := ef (rh 0) (rh 0) (blockAt 0)
  let cvb := ef (rh 1) (rh 0) (blockAt (2 ^ 20 + 8 * 2 ^ 15 + 2 ^ 14 + 3 * 2 ^ 10))
  let mzero := ef zo zo (blockAt 0)
  let mrl := ef (rh 4) zo (blockAt 0)
  let mma := ef (rh 2) (rh 2) (blockAt (2 ^ 14))
  let mdr := ef (rh 0) zo (blockAt (0x12 * 2 ^ 14))
  let coll := ef (rh 0) (rh 0) (blockAt (2 * 2 ^ 19))
  let relay := ef (rh 0) zo (blockAt 0)
  let mop := ef (rh 0) (rh 0) (10 * 2 ^ 17)
  [(.cpl cpl, cplReq cpl), (.cpt cpt, cptReq cpt), (.cpg cpt, cpgReq cpt), (.cvb cvb, cvbReq cvb), (.mzero mzero, mzeroReq mzero),
   (.mrl mrl, mrlReq mrl), (.mrs mrl, mrsReq mrl), (.mma mma, mmaReq mma false), (.mms mma, mmaReq mma true), (.mdr mdr, mdrReq mdr),
   (.coll coll, collReq coll), (.relay relay, relayReq relay), (.mop mop, mopReq mop)]

/-- The checks pass, an entry is free and the regions have room. -/
def asksB (i : Instr) (ask : Asker) (s : State) (x : Strand) : Bool :=
  match ask (issued s s.cur x i) s.cur (bookkept i s x) with
  | .ok ((u, y), q) => y == { bookkept i s x with h := y.h } && !(candidates u s.cur.core q.cls).isEmpty &&
      roomFor (u.slot s.cur.core x.slot) q.kind q.regions
  | .error _ => false

def engineCases : List Case := engineAsks.map fun e => (e.1, bench handles records, asksB e.1 e.2)

def asksTrap (i : Instr) (ask : Asker) (s : State) (x : Strand) : Bool :=
  match ask (issued s s.cur x i) s.cur (bookkept i s x) with
  | .error (.trap _ _) => true
  | _ => false

/-- The regions have no room. -/
def asksStall (i : Instr) (ask : Asker) (s : State) (x : Strand) : Bool :=
  match ask (issued s s.cur x i) s.cur (bookkept i s x) with
  | .ok ((u, y), q) => !roomFor (u.slot s.cur.core y.slot) q.kind q.regions
  | .error _ => false

/-- A check fails, and the regions have no room. That the checks pass is with `engineCases`, whose entry is then picked: `pick_of`. -/
def refusedCases : List Case :=
  (engineAsks.map fun e => (e.1, bench (sr 10 1) id, asksTrap e.1 e.2)) ++
  ((engineAsks.take 1).map fun e => (e.1, bench handles (fun s => s.modSlot 0 0 fun q => { q with
    ranges := List.replicate 256 { idx := 0, kind := 0, space := 1, lo := 0, hi := 1, wr := false, seq := 0 } }), asksStall e.1 e.2))

theorem witness_EngineInstructionsIssue : ∀ e ∈ engineCases, Shown e := shown_all (by decide +kernel)
theorem witness_EngineInstructionsIssue_refused : ∀ e ∈ refusedCases, Shown e := shown_all (by decide +kernel)

/-- The records of h0 to h4 and three more: one that is none, one of N16 elements in the scratchpad, and one of a basis that is not
valid. -/
def recordNo (k : Nat) : Nat :=
  [rec2 0x40000 0 0x12 0 8 4, rec2 0x41000 0 0x02 0 8 4, rec2 0x0 0 0x02 1 128 64, rec2 0x42000 0 0x0A 0 8 4, rec2 0x4000 3 0 1 64 64,
    0, rec2 0x0 0 0x0A 1 8 4, rec2 0x4000 (3 + 2 ^ 18) 0 1 64 64].getD k 0

/-- With the handles `hs` and the block registers `l`, counted from s10, the checks of `ask` fail with the cause and the detail. -/
def failsWith (hs : List Nat) (l : List (Nat × Nat)) (ask : Asker) (c : Cause) (n : Nat) : Bool :=
  let s := bench (fun x => l.foldl (fun x e => x.setS (10 + e.1) (BitVec.ofNat 64 e.2))
      (hs.foldl (fun x k => x.setH k { valid := true, addr := 0x20000 + 128 * k, cache := none }) (x.setS 16 0x0001000100010001)))
    fun s => hs.foldl (fun s k => stored (0x20000 + 128 * k) 80 (recordNo k) s) s
  match ask s s.cur (strandOf s) with
  | .error (.trap d i) => d == c && i == BitVec.ofNat 64 n
  | _ => false

def askOf (k : Nat) : Asker := (engineAsks[k]?.map (·.2)).getD fun _ _ _ => .error .stall

/-- The checks of R231 that only the parameter block decides, in their order. -/
def blockFails : List Bool :=
  ([(0, []), (1, [0]), (4, []), (5, [4]), (12, [0])].map fun e => failsWith e.2 [(0, 2 ^ 56 + 4), (1, 2 ^ 48)] (askOf e.1) .badCounter 0) ++
  [ failsWith [] [(0, 2 ^ 56), (1, 2 ^ 48)] (askOf 0) .badParam 1, failsWith [] [(0, 2 ^ 56)] (askOf 4) .vaRange (2 ^ 56)
  , failsWith [0] [(3, 1)] (askOf 1) .badParam 3, failsWith [0] [(5, 2 ^ 32)] (askOf 1) .badParam 5
  , failsWith [0] [(6, 0)] (askOf 1) .badParam 6
  , failsWith [0] [(3, 65536)] (askOf 2) .badParam 3, failsWith [0] [(2, 8)] (askOf 2) .misalign 8
  , failsWith [0, 1, 3] [(2, 4)] (askOf 3) .misalign 4
  , failsWith [4] [(2, 8)] (askOf 6) .misalign 8, failsWith [2] [(2, 32)] (askOf 7) .badParam 2
  , failsWith [2] [(3, 1)] (askOf 8) .badParam 3
  , failsWith [0] [(2, 1)] (askOf 9) .badParam 2, failsWith [0] [(3, 1)] (askOf 10) .badParam 3
  , failsWith [0] [(2, 32)] (askOf 10) .misalign 32
  , failsWith [0] [(3, 2 ^ 32)] (askOf 11) .badParam 3, failsWith [0] [(2, 64)] (askOf 11) .misalign 64
  , failsWith [0] [(4, 32)] (askOf 11) .misalign 32, failsWith [0] [(3, 3)] (askOf 11) .badFormat 3 ]

/-- The checks of R231 and R195 on handles and tensors. -/
def tensorFails : List Bool :=
  let cpt (a b ops : Nat) := cptReq (ef (rh a) (rh b) (blockAt ops))
  let mma (a b ops : Nat) := mmaReq (ef (rh a) (rh b) (blockAt (2 ^ 14 + ops))) false
  let mop (a b code : Nat) := mopReq (ef (rh a) (rh b) (code * 2 ^ 24 + 10 * 2 ^ 17))
  [ failsWith [0] [] (cpt 9 0 0) .badHandle 0, failsWith [0] [] (cpt 0 9 0) .badHandle 1, failsWith [0, 5] [] (cpt 0 5 0) .badTensor 1
  , failsWith [0, 1] [] (cpt 0 1 0) .badFormat 0, failsWith [0] [] (cpt 0 0 (2 ^ 18)) .badPlace 0
  , failsWith [0] [] (mrlReq (ef (rh 0) zo (blockAt 0))) .badFormat 0
  , failsWith [0] [] (mma 0 0 0) .badFormat 0, failsWith [1, 2] [] (mma 1 2 0) .badPlace 0
  , failsWith [2] [] (mma 2 2 (2 ^ 5 + 2 * 2 ^ 10)) .badFormat 2
  , failsWith [2, 6] [] (mma 2 2 (2 ^ 5 + 6 * 2 ^ 10)) .streamDesync 2, failsWith [2] [(3, 2 ^ 31)] (mma 2 2 4) .spRange (2 ^ 31)
  , failsWith [1] [] (mdrReq (ef (rh 1) zo (blockAt (0x12 * 2 ^ 14)))) .badFormat 0
  , failsWith [0] [] (collReq (ef (rh 0) (rh 0) (blockAt (3 * 2 ^ 16)))) .badFormat 0
  , failsWith [0, 3] [] (cvbReq (ef (rh 0) (rh 0) (blockAt (2 ^ 20 + 8 * 2 ^ 15 + 2 ^ 14 + 3 * 2 ^ 10)))) .badFormat 0
  , failsWith [0, 2] [] (mop 0 2 0) .badShape 0, failsWith [0, 1] [] (mop 0 1 0) .badFormat 0, failsWith [7] [] (mop 7 7 3) .badBasis 0 ]

/-- That the checks pass is with `EngineInstructionsIssue`. -/
theorem witness_EngineInstructionsRefused : allOf blockFails := all_of (by decide +kernel)
theorem witness_EngineInstructionsRefused_tensors : allOf tensorFails := all_of (by decide +kernel)

/-! ## The whole machine -/

theorem witness_Registers : (255 : Nat) < 256 ∧ (1023 : Nat) < 1024 ∧ (7 : Nat) < 256 := by decide

/-- A device about to fetch and execute a word. -/
def fetching (w : Nat) : State := State.reset.withFetchWord 96 w

/-- The state that the fetch of the selected strand sees. -/
def fetchState (s : State) : State :=
  { s with free := s.free + 1, sel := none, cur := { core := 0, strid := 0 } }

/-- The three units of the word are in the instruction cache. -/
def cachedWord (s : State) : State :=
  let s0 := fetchState s
  match translate s0 ((strandOf s0).who s0.cur) .fetch (codeAddr s0 (strandOf s0).ctx (strandOf s0).pc) with
  | .ok k _ => s.modCore 0 fun c => { c with icache := [{ units := [(k / 4, 0x7), (k / 4 + 1, 0), (k / 4 + 2, 0x600400000)] }] }
  | _ => s

def fetchConds : List Bool :=
  [(fetching 0, false), (fetching 0x06DC020201C00142000003E8, false), (cachedWord (fetching 0), true)].map (fun e =>
    let s1 := fetchState e.1
    e.1.sel == some { core := 0, strid := 0 } && s1.strand? s1.cur == some (strandOf s1) && mayRun s1 s1.cur (strandOf s1) &&
      decide ((strandOf s1).pc < 2 ^ 32) &&
      (match fetch s1 s1.cur (strandOf s1) with
      | .word v => (match decode v with | .ok _ => true | .error _ => false)
      | _ => false) &&
      (List.range 3).all fun j =>
        let va := codeAddr s1 (strandOf s1).ctx (strandOf s1).pc + 4 * j
        vaOk va && match translate s1 ((strandOf s1).who s1.cur) .fetch va with
          | .ok k _ => (cachedUnit s1 0 (k / 4)).isSome == e.2 && (e.2 || !uncLine s1 k 4)
          | _ => false) ++
  [(let s1 := fetchState (fetching (0xFFC * 2 ^ 84))
    match fetch s1 s1.cur (strandOf s1) with
    | .word v => (match decode v with | .ok _ => false | .error _ => true) && !owesTrap (strandOf s1) && (strandOf s1).long == []
    | _ => false),
   (let s1 := fetchState { fetching 0 with ctxs := [(1, { bootCtx with codebase := 2 ^ 57 })] }
    match fetch s1 s1.cur (strandOf s1) with | .halt _ _ _ => true | _ => false),
   Instr.isProgram (.heatRefill 0) == false, Instr.wellFormed (.heatRefill 0),
   (let s : State := { State.reset with agenda := [(0, .heatRefill 0)] }
    s.sel == none && claimPort (.heatRefill 0) == none && decide (0 ≤ s.cycle))]

theorem witness_StepRunsInstruction : allOf fetchConds := all_of (by decide +kernel)

theorem witness_EncodedInstructionsDecode :
    Instr.isProgram (.nop ex) = true ∧ Instr.wellFormed (.nop ex) = true ∧ Instr.isProgram (.mma (ef (rh 2) (rh 2) (blockAt (2 ^ 14)))) = true ∧
      Instr.wellFormed (.mma (ef (rh 2) (rh 2) (blockAt (2 ^ 14)))) = true := by decide +kernel

theorem witness_DecodedWordsEncode : ∃ i, decode 0x06DC020201C00142000003E8#96 = .ok i := ⟨_, rfl⟩

theorem witness_MemoryStaysCanonical :
    MemoryOk (fetching 0) ∧ ∃ t, step (fetching 0) = .next t :=
  ⟨by unfold MemoryOk; decide +kernel, next_of (by decide +kernel)⟩

/-! ## The device's own steps -/

def canEndB (s : State) : Bool :=
  let x := strandOf s
  s.strand? s.cur == some x && mayRun s s.cur { x with wait := .none } && decide ((loopNext x.pc x.lstk).1 < 2 ^ 32) && x.defer == []

/-- The strand waits; the device is changed by `f`. -/
def waiting (w : Wait) (g : Strand → Strand) (f : State → State) : State := bench (fun x => { g x with wait := w }) f
def tok5 : Word := tokWord 0 5 1

/-- A launch record: context 1, one team of one role of one group of 8 registers. -/
def aLaunch : List Dword := [1, 0x100000001, 1, 0x10000, 0, 0, 0x10100000000] ++ List.replicate 25 0
def launchBytes : List Byte := aLaunch.flatMap fun d => natBytes 8 d.toNat
def launches64 (s : State) : State :=
  { s with launches := (List.range 64).map fun i => (i, { ctx := 1, record := aLaunch, next := 0, teams := 0 }), nextId := 64 }

def submits (bytes : List Byte) (s : State) : Nat :=
  match submit s ((List.range 32).map fun j => BitVec.ofNat 64 (leNat bytes / 2 ^ (64 * j))) none with
  | .refused _ => 0
  | .busy => 1
  | .yes _ => 2

def invalBy (s : State) : State :=
  { s with invals := [{ ticket := 3, ctx := 1, base := 0, pages := 0, by_ := some { core := 0, strid := 0 } }] }

/-- An outstanding LD, changed by `g`, with an access at `ea` still to be made. -/
def replaying (ea : Nat) (g : LongOp → LongOp) (x : Strand) : Strand :=
  { x with long := [g { newLong (.ld ldU) plain { core := 0, strid := 0 } x [] 0 with todo := [laneAcc 0 ea 0 0], due := plain.cycle }] }

/-- The accesses of the outstanding instruction are made, or one of them halts. -/
def longB (s : State) (halts : Bool) (P : LongOp → Bool) : Bool :=
  s.strand? s.cur == some (strandOf s) && mayComplete s s.cur (strandOf s) && match (strandOf s).long[0]? with
  | some o => o.pops == [] && P o && (match doAll o.instr ((strandOf s).site s.cur) o.tn o.pc s (o.writes, o.trap) o.todo with
    | (_, _, [], none) => !halts
    | (u, _, left, some (.halt c i d)) => halts &&
        (match stopOf o.instr ((strandOf s).site s.cur) o.tn u left (some (.halt c i d)) with | some (.halt _ _ _) => true | _ => false)
    | _ => false)
  | none => false

def waitsEndConds : List Bool :=
  [(let s := waiting (.token tok5 (rc 1)) id (withTok .done)
    canEndB s && (match resolve s 0 0 tok5 with | .current k => (s.token 0 k).st.terminal | _ => false)),
   (let s := waiting (.token tok5 (rc 1)) id (withTok .running)
    canEndB s && (match resolve s 0 0 tok5 with | .current k => !(s.token 0 k).st.terminal | _ => false)),
   (let s := waiting (.token (tokWord 0 5 2) (rc 1)) id (withTok .running)
    canEndB s && (match resolve s 0 0 (tokWord 0 5 2) with | .stale => true | _ => false)),
   (let s := waiting (.count 2 1) (fun x => x.addCount 2 1) id; canEndB s && decide ((strandOf s).count 2 ≤ 1)),
   (let s := waiting (.count 2 0) (fun x => x.addCount 2 1) id; canEndB s && decide (0 < (strandOf s).count 2)),
   (let s := waiting (.counter 0x400 0) id id
    canEndB s && (match flatRead s ((strandOf s).who s.cur) 0x400 8 with | .ok _ n => n == 0 | _ => false)),
   (let s := waiting (.counter 0x400 1) id id
    canEndB s && (match flatRead s ((strandOf s).who s.cur) 0x400 8 with | .ok _ n => n == 0 | _ => false)),
   (let s := waiting (.token (tokWord 1 5 1) (rc 1)) id id
    canEndB s && (match resolve s 0 0 (tokWord 1 5 1) with | .foreign => true | _ => false)),
   (let s := waiting (.cancel tok5 (rc 1)) id (withTok .cancelled); canEndB s && (s.token 0 (tokIdx tok5)).st.terminal),
   (let s := waiting (.cancel tok5 (rc 1)) id (withTok .running); canEndB s && !(s.token 0 (tokIdx tok5)).st.terminal),
   (let s := waiting (.spawn (List.replicate 256 1) (rc 1)) id id; canEndB s && submits (List.replicate 256 1) s == 0),
   (let s := waiting (.spawn launchBytes (rc 1)) id launches64; canEndB s && submits launchBytes s == 1),
   (let s := waiting (.spawn launchBytes (rc 1)) id id; canEndB s && submits launchBytes s == 2),
   (let s := waiting (.grow 256 (rc 1) 0) (fun x => { x with budget := 8 }) id
    canEndB s && (match grantable s 0 0 with | some (i, x, n, _) => i == 0 && x == strandOf s && n == 256 | none => false)),
   (let s := waiting (.inval 3) id invalBy
    canEndB s && (s.invals.find? fun v => v.ticket == 3).isSome && (mgmtOf s 3).isNone),
   (let s := waiting (.grow 256 (rc 1) 0) (fun x => { x with budget := 8 }) (fun s => s.modSlot 0 0 fun q => { q with rf := 0 })
    !(runningStrands s 0).isEmpty && (runningStrands s 0).all (fun e => e.2.gp) && (grantable s 0 0).isNone && (grantable s 0 1).isNone),
   (let s := bench pending id; longB s false fun o => decide (s.cycle < o.due)),
   (let s := bench (replaying 0x400 fun o => { o with todo := [] }) id
    longB s false fun o => decide (o.due ≤ s.cycle ∧ o.left = 0 ∧ o.todo = [] ∧ (strandOf s).wait ≠ .syncg ∧
      (completeOne { strandOf s with long := (strandOf s).long.eraseIdx 0 } o).defer = [])),
   (let s := bench (replaying 0x400 id) id; longB s false fun o => decide (o.due ≤ s.cycle ∧ o.left = 0)),
   (let s := bench (replaying 0x400 fun o => { o with left := 2 }) id
    longB s false fun o => decide (o.due ≤ s.cycle ∧ o.left ≠ 0 ∧ o.arrived = false)),
   (let s := bench (replaying 0x400 fun o => { o with left := 2, arrived := true }) id
    longB s false fun o => decide (o.due ≤ s.cycle ∧ o.left ≠ 0 ∧ o.arrived = true)),
   (let s := bench (replaying 0x400 fun o => { o with left := 2, instr := .hld hldF }) id
    longB s false fun o => decide (o.due ≤ s.cycle ∧ o.left ≠ 0) && Instr.isHld o.instr),
   (let s := bench (replaying 0x400 id) (stored 0x12000 8 (3 + 2 ^ 52 + 2 ^ 56 + 2 ^ 58))
    s.strand? s.cur == some (strandOf s) && mayComplete s s.cur (strandOf s) && match (strandOf s).long[0]? with
    | some o => (match doAll o.instr ((strandOf s).site s.cur) o.tn o.pc s (o.writes, o.trap) o.todo with
      | (_, _, _, some .wait) => true
      | _ => false)
    | none => false),
   (let s := waiting .syncg (fun x => { x with held := [owedStore] }) id; canEndB s && lanesOwe (strandOf s)),
   (let s := waiting .syncg id id; canEndB s && !lanesOwe (strandOf s)),
   (let s := bench (replaying (2 ^ 30) id) id; longB s true fun o => decide (o.due ≤ s.cycle))]

theorem witness_WaitsEnd : allOf waitsEndConds := all_of (by decide +kernel)

/-- A tensor as an operation holds it. -/
def tnOf (n : Nat) : Tn := { va := 0x20000, pa := 0x20000, dw := dwordsOf n, dw0 := dwordsOf n }

/-- An entry of context 1 with an operation. -/
def entry (cls : Nat) (st : TokSt) (op : Op) : Token :=
  { Token.free with gen := 1, ctx := 1, pl := 2, cls := cls, st := st, started := st != .pending, op := op }
def withOp (e : Token) (s : State) : State := s.modCore 0 fun k => { k with tokens := [(5, e)] }
def zeroing (st : TokSt) : Token := entry 2 st (.mzero 0 0 0)
/-- A second entry, 6, that the first waits for. -/
def after (st : TokSt) (s : State) : State :=
  (withOp { zeroing .pending with pred := tokWord 0 6 1 } s).modCore 0 fun k => { k with tokens := k.tokens ++ [(6, { zeroing st with seq := 1 })] }

def startB (s : State) : Bool :=
  let e := s.token 0 5
  e.gen != 0 && e.st == .pending && e.work.fault.isNone && !e.stuck && !e.cancel && slotLets s 0 e && earlierStarted s 0 e

def f32T : Tn := tnOf (rec2 0x40000 0 0x12 0 8 4)
/-- A residue tensor of basis entry 1, which is not valid. -/
def badT : Tn := tnOf (rec2 0x40000 (3 + 2 ^ 18) 0 0 8 4)
def collE (st : TokSt) : Token := entry 4 st (.coll 3 0 f32T f32T 0x6000 0)
/-- A descriptor of a group of one, and of a group of two, at 0x6000 with its list at 0x6100. -/
def groupDesc (p : Nat) (s : State) : State := stored 0x6100 4 0x10000 (stored 0x6000 16 (7 * 2 ^ 48 + p * 2 ^ 16 + 0x6100 * 2 ^ 64) s)
def relayE (st : TokSt) : Token := entry 5 st (.relay f32T 0x60000 0 0x7000 false)

def ringFull (s : State) : State := s.modCtx 1 fun c => { c with frsize := 1, frbase := 0x8000 }
/-- The leaf of the mapped gibibyte, with its MIG bit set. -/
def migrating (s : State) : State := stored 0x12000 8 (3 + 2 ^ 52 + 2 ^ 53 + 2 ^ 54 + 2 ^ 55 + 2 ^ 56 + 2 ^ 58) s

/-- A conversion, stopped or not, whose counts go to a page that migrates. -/
def converting (s : State) : State :=
  migrating (withOp { entry 1 .running (.cvb 0 0 false [f32T] f32T [] 0x400) with work := { Work.zero with prog := 1 } } s)
def mod5 (f : Token → Token) (s : State) : State := s.modToken 0 5 f
def faulted5 (e : Token) : Token := { e with work := { e.work with fault := some (.badBasis, 0, false) } }
def cancelled5 (e : Token) : Token := { e with cancel := true }
def resTo : Tn := tnOf (rec2 0x40000 3 0 0 8 4)
def twoBases : Token := entry 0 .pending (.cpt badT resTo [0, 0, 0, 0] [0, 0, 0, 0] [1, 1, 1, 1] 0)
def ended5 (e : Token) : Token := { e with caddr := 0, work := { e.work with accepted := true } }

/-- A collective of a group of two whose first messages go over the fabric; `f` changes the device. -/
def pairColl (f : State → State) : State := bench id (fun s => f (groupDesc 2 (withOp (collE .pending) s)))
/-- The members of the operation, once it has its group. -/
def startedB (s : State) (q : State → List Nat → Bool) : Bool :=
  startB s && predecessor s 0 (s.token 0 5) == some true && !badBasisAtStart (s.token 0 5) && (s.token 0 5).work.group == [] &&
    match collStart s 0 (s.token 0 5) with
    | .ok s1 (some (g, true)) => (keptAbort s (g.getD 0 0) (g.getD 1 0)).isNone &&
      (let s2 := startedToken s1 0 5 fun w => { w with group := g, heard := s.time }; q s2 ((s2.token 0 5).peers s2))
    | _ => false
/-- The link to the peer of the group of two, device 1. -/
def pairLink (l : LinkSt) (s : State) : State := { s with links := [(Config.peerPort 1, l)] }

def lifeConds : List Bool :=
  [(let s := bench id (after .running); startB s && (predecessor s 0 (s.token 0 5)).isNone),
   (let s := bench id (after .faulted); startB s && predecessor s 0 (s.token 0 5) == some false),
   (let s := bench id (fun s => mod5 cancelled5 ((after .faulted s).modCtx 1 fun c => { c with killed := true }))
    (s.token 0 5).st == .pending && predecessor s 0 (s.token 0 5) == some false && (s.token 0 5).cancel),
   (let s := bench id (fun s => mod5 cancelled5 (after .done s))
    (s.token 0 5).st == .pending && predecessor s 0 (s.token 0 5) == some true && (s.token 0 5).cancel),
   (let s := bench id (after .done)
    startB s && predecessor s 0 (s.token 0 5) == some true && !badBasisAtStart (s.token 0 5) && mayResume s 0 5 (s.token 0 5)),
   (let s := bench id (withOp { twoBases with started := true })
    startB s && predecessor s 0 (s.token 0 5) == some true && (s.token 0 5).started && mayResume s 0 5 (s.token 0 5)),
   (let s := bench id (withOp twoBases)
    startB s && predecessor s 0 (s.token 0 5) == some true && badBasisAtStart (s.token 0 5) && !(s.token 0 5).started),
   (let s := bench id (withOp (relayE .pending))
    startB s && predecessor s 0 (s.token 0 5) == some true && !(s.token 0 5).work.accepted &&
      (match relayStart s 0 5 (s.token 0 5) with | .ok _ _ => true | _ => false)),
   (let s := bench id (fun s => mod5 (fun e => { e with work := { e.work with accepted := true } }) (withOp (relayE .pending) s))
    startB s && predecessor s 0 (s.token 0 5) == some true && (s.token 0 5).work.accepted),
   (let s := bench id (fun s => mod5 (fun e => { e with work := { e.work with group := [7, 0, 1, 0, 0] } }) (withOp (collE .pending) s))
    startB s && predecessor s 0 (s.token 0 5) == some true && (s.token 0 5).work.group != []),
   startedB (bench id (fun s => groupDesc 1 (withOp (collE .pending) s))) fun s ms => ms.all fun m => linkTo s m == .up,
   startedB (pairColl id) fun s ms => ms != [] && ms.all fun m => linkTo s m == .up] ++
  ([.lost, .retraining 0].map fun l =>
    startedB (pairColl (pairLink l)) fun s ms => ms == [1] && s.links.length == 1 && (s.links.map (·.2)) == [l]) ++
  ([(id, 0), (fun s => { s with aborts := [{ gid := 7, seq := 0, origin := 1, at_ := 0 }] }, 1),
      (fun s => mod5 (fun e => { e with op := .coll 1 0 f32T f32T 0x6000 5 }) s, 2)].map
      fun (c : (State → State) × Nat) =>
    let s := pairColl c.1
    startB s && predecessor s 0 (s.token 0 5) == some true && match collStart s 0 (s.token 0 5) with
      | .ok _ none => false
      | .ok _ (some (g, f)) => (keptAbort s (g.getD 0 0) (g.getD 1 0)).isSome == (c.2 == 1) && f == (c.2 != 2)
      | _ => false) ++
  ([(fun s => withOp (collE .pending) s, true), (fun s => mod5 (fun e => { e with op := .coll 3 0 f32T f32T (2 ^ 30) 0 })
      (withOp (collE .pending) s), false)].map fun (c : (State → State) × Bool) =>
    let s := bench id c.1
    startB s && predecessor s 0 (s.token 0 5) == some true && match collStart s 0 (s.token 0 5) with
      | .ok _ none => c.2
      | .bad c1 i _ => !c.2 && !haltsContext s ((s.token 0 5).site 0).who c1 i
      | _ => false) ++
  ([(0x400, fun s => s), (2 ^ 30, fun s => s), (0x408, migrating)].map fun (a : Nat × (State → State)) =>
    let s := bench id (fun s => a.2 (withOp { zeroing .running with
      caddr := BitVec.ofNat 64 a.1, cinc := 1, work := { Work.zero with accepted := true } } s))
    let e := s.token 0 5
    e.active && opFinished s e && (match (convCounts s 0 e).bind fun s1 _ => relayFinish s1 0 e with
      | .ok s2 _ => (match addCounter s2 0 e with
        | .ok _ _ => a.1 == 0x400 | .bad _ _ _ => a.1 == 2 ^ 30 | .wait => a.1 == 0x408)
      | _ => false)) ++
  ([(0x400, migrating), (2 ^ 30, fun s => s)].map fun (c : Nat × (State → State)) =>
    let s := bench id (fun s => c.2 (withOp { entry 1 .running (.cvb 0 0 false [f32T] f32T [] c.1) with
      work := { Work.zero with prog := 8 } } s))
    let e := s.token 0 5
    e.active && opFinished s e && match (convCounts s 0 e).bind fun s1 _ => relayFinish s1 0 e with
      | .ok _ _ => false | .wait => c.1 == 0x400 | .bad _ _ _ => c.1 == 2 ^ 30) ++
  ([(fun s => withOp (zeroing .running) s, true, true), (fun s => migrating (ringFull (withOp (zeroing .running) s)), false, true),
      (converting, true, false)].map fun (f : (State → State) × Bool × Bool) =>
    let s := bench id (fun s => mod5 faulted5 (f.1 s))
    let e := s.token 0 5
    e.gen != 0 && e.st == .running && match recordFault s 0 5 e .badBasis 0 with
      | some s1 => f.2.1 && (stopShort s1 0 e false).isSome == f.2.2
      | none => !f.2.1) ++
  ([(fun s => withOp (zeroing .pending) s, false, true), (fun s => withOp (ended5 (zeroing .running)) s, true, true),
      (converting, false, false)].map fun (f : (State → State) × Bool × Bool) =>
    let s := bench id (fun s => mod5 cancelled5 (f.1 s))
    let e := s.token 0 5
    e.gen != 0 && e.cancel && !e.st.terminal && e.work.fault.isNone &&
      (predFailed s 0 e || canEnd s 0 5 e || e.active && lineBegun e) == f.2.1 &&
      (stopShort s 0 e true).isSome == f.2.2) ++
  [((bench id (withOp (zeroing .done))).token 0 5).st.terminal,
   (let s := bench id (withOp (zeroing .running))
    let q := s.slot 0 (s.token 0 5).cslot
    (s.ctx? (s.token 0 5).ctx).isSome && q.ctx == (s.token 0 5).ctx && q.st == .running && runsSomewhere s (s.token 0 5).ctx)]

theorem witness_OperationLife : allOf lifeConds := all_of (by decide +kernel)

/-- The links that the start of a collective meets: lost, and retraining. -/
theorem witness_OperationLife_links (l : LinkSt) : linkTo (pairColl (pairLink l)) 1 = l := by
  simp [linkTo, show (pairColl (pairLink l)).links = [(Config.peerPort 1, l)] from rfl, mget, mfind]

/-! ## The matrix column -/

def resT : Tn := tnOf (rec2 0x4000 3 0 1 64 64)
def resT1 : Tn := tnOf (rec2 0x4000 (3 + 2 ^ 18) 0 1 64 64)
def i8T : Tn := tnOf (rec2 0 0 0x02 1 128 64)
def mmaOp (sp : Nat) : Op := .mma false 0 1 i8T i8T none none sp 0 0 0 0
def drainOp (fmt epi : Nat) : Op := .mdr 0 fmt epi false false (if fmt = 0 then resT else f32T) none 0 0 0
def acc0 (st : AccSt) (s : State) : State := s.setAcc 0 0 0 { zeroAcc AccSlot.reset defaultBasis 0 0 with st := st }
def onOp (cls : Nat) (op : Op) (w : Work) (f : State → State) : State := bench id fun s => f (withOp { entry cls .running op with work := w } s)
def acceptedW (n : Nat) : Work := { Work.zero with accepted := true, prog := n }
def downCol (s : State) : State := s.modCol 0 fun k => { k with down := true }
def acceptB (s : State) : Bool := let e := s.token 0 5; e.active && acceptable s 0 e
/-- The column's turn comes to the operation; its turn among those that could be accepted comes. -/
def turnB (s : State) : Bool :=
  let e := s.token 0 5
  acceptB s && takesTurn s 0 5 e (turnRivals s 0 e) && mayTurn s 0 e.cslot s.cycle (some 5)
def rivalB (s : State) : Bool := let e := s.token 0 5; acceptB s && takesTurn s 0 5 e (acceptRivals s 0 e)
/-- A residue tensor of a whole tile, in the scratchpad, and one that has no element left to be read. -/
def oneTile : Tn := tnOf (rec2 0x4000 3 0 1 128 64)
def noTile : Tn := tnOf (rec2 0x4000 3 0 1 0 64)
def resOp : Op := .mma false 0 1 resT resT none none 0 0 8 8 0

/-- An operation that could be accepted: its class, and the turn that it needs. -/
def acceptCases : List (Nat × Op × (State → State) × Bool × (State → Bool)) :=
  let down (s : State) : Bool := (s.core 0).col.down
  let st (s : State) : AccSt := (s.acc 0 0 0).st
  let noBasis (s : State) : State := s.modCtx 1 fun c => { c with bases := [] }
  [(2, .mzero 0 0 0, downCol, true, down), (2, .mzero 0 0 0, noBasis, true, fun s => !down s && (basisOf s 1 0).isNone),
   (2, .mzero 0 0 0, id, true, fun s => !down s && (basisOf s 1 0).isSome),
   (2, .mrl 0 0 noTile 0, downCol, true, fun s => down s && ((s.token 0 5).unread noTile.dw (tileCoords 0 0)).isEmpty),
   (2, .mrl 0 0 noTile 0, noBasis, true, fun s => !down s && (basisOf s 1 (tagBid (tTag noTile.dw))).isNone),
   (2, .mrl 0 0 noTile 0, id, true, fun s => !down s && (basisOf s 1 (tagBid (tTag noTile.dw))).isSome),
   (2, mmaOp 0, downCol, false, down), (2, mmaOp 0, id, false, fun s => !down s && st s == .invalid),
   (2, resOp, fun s => s.setAcc 0 0 0 { s.acc 0 0 0 with st := .live, bid := 3 }, false,
     fun s => !down s && st s != .invalid && !sameBasis (s.acc 0 0 0) resT),
   (2, resOp, acc0 .live, false, fun s => !down s && st s != .invalid && sameBasis (s.acc 0 0 0) resT),
   (3, drainOp 0x12 0, id, false, fun s => drainFree s 0 5 && st s == .invalid),
   (3, drainOp 0 0, fun s => s.setAcc 0 0 0 { s.acc 0 0 0 with st := .live, bid := 3 }, false,
     fun s => drainFree s 0 5 && st s != .invalid && !sameBasis (s.acc 0 0 0) resT),
   (3, drainOp 0x12 0, acc0 .live, false, fun s => drainFree s 0 5 && st s != .invalid),
   (3, drainOp 0 0, acc0 .live, false, fun s => drainFree s 0 5 && st s != .invalid && sameBasis (s.acc 0 0 0) resT),
   (3, .mrs 0 oneTile 0, id, false, fun s => drainFree s 0 5 && st s == .invalid),
   (3, .mrs 0 oneTile 0, fun s => s.setAcc 0 0 0 { s.acc 0 0 0 with st := .live, bid := 3 }, false,
     fun s => drainFree s 0 5 && st s != .invalid && !sameBasis (s.acc 0 0 0) oneTile),
   (3, .mrs 0 oneTile 0, acc0 .live, false, fun s => drainFree s 0 5 && st s != .invalid && sameBasis (s.acc 0 0 0) oneTile)]

def acceptConds : List Bool :=
  (acceptCases.map fun c =>
    let s := onOp c.1 c.2.1 Work.zero c.2.2.1
    (if c.2.2.2.1 then turnB s else rivalB s) && !rangeBlocked s 0 5 (s.token 0 5) && c.2.2.2.2 s) ++
  ([AccSt.live, .held].map fun st =>
    let s := bench id fun s => (acc0 st s).modCore 0 fun k => { k with
      einjq := [{ owner := 0, cslot := 0, seq := 0, wire := false, acc := 0, key := 0, chan := 0, delta := 1 }] }
    match (s.core 0).einjq[0]? with | some j => einjReady s 0 j == (st == .live) | none => false)

theorem witness_SequencerAcceptance : allOf acceptConds := all_of (by decide +kernel)

/-- The outcome of a unit: performed, bad or waiting. -/
def memKind {α : Type} : Mem α → Nat
  | .ok _ _ => 0
  | .bad _ _ _ => 1
  | .wait => 2

/-- A tensor of one element, read as one part: its read is performed, bad without a page table, and waits while its page migrates. -/
def mopT : Tn := tnOf (rec2 0x40000 0 0x12 0 1 1)
def readCases : List ((State → State) × Nat) :=
  [(id, 0), (fun s => s.modCtx 1 fun c => { c with root := 0x200000 }, 1), (migrating, 2)]
def mrlS (f : State → State) : State := onOp 2 (.mrl 0 0 mopT 0) Work.zero f

theorem inside_mopT (i j : Nat) : isInside mopT.dw [(i : Int), (j : Int)] = (decide (i = 0) && decide (j = 0)) := by
  have hr : tRank mopT.dw = 2 := by decide +kernel
  have h0 : tExt mopT.dw 0 = 1 := by decide +kernel
  have h1 : tExt mopT.dw 1 = 1 := by decide +kernel
  simp only [isInside, boxCoord, inExtents, hr, List.zipIdx_cons, List.zipIdx_nil, List.all_cons, List.all_nil, h0, h1,
    List.take_succ_cons, List.take_nil, List.drop_succ_cons, List.drop_nil, List.length_cons, List.length_nil, if_true, Nat.zero_add]
  rcases i with _ | i <;> rcases j with _ | j <;> simp

theorem unread_mopT {e : Token} (h : e.work.got = []) : e.unread mopT.dw (tileCoords 0 0) = [0] := by
  have h1 : (tileCoords 0 0).zipIdx.filter (fun c => isInside mopT.dw c.1) = [([0, 0], 0)] := by
    have : (tileCoords 0 0).zipIdx.filter (fun c => isInside mopT.dw c.1) =
        (tileCoords 0 0).zipIdx.filter fun c => decide (c.2 = 0) := by
      refine List.filter_congr fun c hc => ?_
      obtain ⟨h1, h2⟩ := List.mem_zipIdx' hc
      simp only [tileCoords, List.getElem_map, List.getElem_range, Int.zero_add] at h2
      rw [h2, inside_mopT]
      by_cases h : c.2 = 0
      · simp [h]
      · simp [h]; omega
    rw [this]; decide +kernel
  simp only [Token.unread, h, h1]; decide +kernel

theorem witness_SequencerAcceptance_reads : ∀ c ∈ readCases, let s := mrlS c.1; let e := s.token 0 5
    e.active = true ∧ e.work.accepted = false ∧ rangeBlocked s 0 5 e = false ∧ e.unread mopT.dw (tileCoords 0 0) ≠ [] ∧
      memKind (readPiece s (e.site 0) e mopT.dw (tileCoords 0 0)) = c.2 := by
  have h : readCases.all (fun c => let s := mrlS c.1; let e := s.token 0 5
      e.active && !e.work.accepted && !rangeBlocked s 0 5 e && e.work.got.isEmpty) = true := by decide +kernel
  intro c hc
  have h1 := List.all_eq_true.1 h c hc
  simp only [Bool.and_eq_true, Bool.not_eq_true', List.isEmpty_iff] at h1
  obtain ⟨⟨⟨h1, h2⟩, h3⟩, h4⟩ := h1
  have h0 := unread_mopT h4
  refine ⟨h1, h2, h3, by rw [h0]; simp, ?_⟩
  simp only [readPiece, h0, List.length_singleton, Nat.mod_one]
  clear h h0 h1 h2 h3 h4; revert c; decide +kernel

/-- A step of an MMA whose masks are empty, with its inputs read. -/
def stepS (f : State → State) : State := onOp 2 (mmaOp 1) (acceptedW 0) fun s => f (acc0 .held s)

/-- The inputs of a step: the pairs and the masks, and what the checks of the step say. -/
def stepReads (sa : Option Tn) (s : State) : Option (Option (Cause × Dword)) :=
  let w := (s.token 0 5).site 0
  match readPairs s w sa 0 128 with
  | .ok s1 pa => (match readPairs s1 w none 0 1 with
    | .ok s2 pb => (match readMasks s2 w 1 0 0 with
      | .ok _ ms => some (stepFault {
          j := 0, a := sideOf i8T 0, b := sideOf i8T 0, pa := pa, pb := pb.headD 0, masks := ms, sparse := 1, nc := 0,
          eacc := 0 })
      | _ => none)
    | _ => none)
  | _ => none

/-- A mask of 16 ones, which a step of `nc` 0 does not take. -/
def dense (s : State) : State := s.modSlot 0 0 fun q => setLocal q 1 (Memory.putNat (localMem q 1) 0 8 0xFFFF)

/-- A step of these inputs. -/
def aStep (pa : List Nat) : StepIn :=
  { j := 0, a := sideOf i8T 0, b := sideOf i8T 0, pa := pa, pb := 0x7F00, masks := [0, 0], sparse := 1, nc := 0, eacc := 0 }
def inFlight (t : Nat) (s : State) : State := s.modToken 0 5 fun e => { e with work := { e.work with flight := some t } }

def stepConds : List Bool :=
  [(let s := stepS id
    let e := s.token 0 5
    e.work.flight.isNone && kReady s (0, 5, e) && mayTurn s 0 0 e.work.heard (some 5) && takesTurn s 0 5 e (turnRivals s 0 e) &&
      (basisOf s 1 (s.acc 0 0 0).bid).isSome && stepReads none s == some none)] ++
  ([(fun s => inFlight 0 s, true), (fun s => inFlight 0 (dense s), false)].map fun (f : (State → State) × Bool) =>
    let s := stepS f.1
    let e := s.token 0 5
    (match e.work.flight with | some t => decide (t ≤ s.cycle) | none => false) && e.gen != 0 && e.st == .running &&
      e.work.fault.isNone && (basisOf s 1 (s.acc 0 0 0).bid).isSome && (match stepReads none s with
        | some none => f.2
        | some (some _) => !f.2
        | none => false)) ++
  [stepKs 1 0 0 [0, 0] == [],
   (match stepElems (stepS id) (((stepS id).token 0 5).site 0) (aStep []) [] with | .ok _ (ea, eb) => ea == [] && eb == [] | _ => false),
   (laneFault (aStep (List.replicate 128 0x7F00)) (aStep []).ks.length #[] #[]).isNone,
   decide (heatNow (stepS fun s => s.modCol 0 fun k => { k with heat := 0 }) 0 < 1) && decide (0 < stepCost (aStep []) 8 32),
   decide (stepCost (aStep []) 8 32 ≤ heatNow (stepS id) 0) && ((stepS id).core 0).col.armed == [],
   ((stepS id).token 0 5).work.first == none, (({ acceptedW 0 with first := some 64 } : Work).first == some 64),
   [0, 9].all fun h => decide (0 < defaultBasis.mod h) && defaultBasis.modulus h == some (defaultBasis.mod h)]

theorem witness_MatrixStep : allOf stepConds := all_of (by decide +kernel)

def beatS (fmt epi n : Nat) : State := onOp 3 (drainOp fmt epi) (acceptedW n) (acc0 .held)
def beatB (s : State) : Bool :=
  let e := s.token 0 5
  e.active && e.work.accepted && decide (e.work.prog < 8192) && !rangeBlocked s 0 5 e
def wiresAt (n : Nat) : State := bench id fun s => s.modCol 0 fun k => { k with wires := [(144 * 9 + 143, n)] }

def obusAt (n spares : Nat) (pend : List Nat) : State :=
  bench id fun s => s.modCol 0 fun k => { k with obWires := [(4, n)], obSpares := spares, obPend := pend }

def beatConds : List Bool :=
  [(let s := onOp 3 (drainOp 0x12 0) (acceptedW 0) fun s => s.setAcc 0 0 0 { AccSlot.reset with st := .held, bid := 3 }
    beatB s && (basisOf s 1 (s.acc 0 0 0).bid).isNone),
   (let s := beatS 0 0 0; beatB s && (basisOf s 1 (s.acc 0 0 0).bid).isSome),
   (let s := beatS 0x12 0 8176; beatB s && (basisOf s 1 (s.acc 0 0 0).bid).isSome),
   (let s := beatS 0x12 3 32; beatB s && decide ((s.token 0 5).work.prog / 16 % 4 < 3)),
   (let s := beatS 0x12 3 48; beatB s && decide ((s.token 0 5).work.prog / 16 % 4 = 3)),
   (let k := ((obusAt 16 63 []).core 0).col
    decide (16 ≤ mget 0 k.obWires 4) && !k.obPend.contains 4 && decide (k.obSpares + k.obPend.length < 64)),
   (let k := ((obusAt 15 0 []).core 0).col; decide (mget 0 k.obWires 4 < 16)),
   ((obusAt 16 0 [4]).core 0).col.obPend.contains 4,
   (let k := ((obusAt 16 63 [5]).core 0).col; decide (64 ≤ k.obSpares + k.obPend.length)),
   (let k := ((wiresAt 64).core 0).col
    decide (64 ≤ mget 0 k.wires (144 * 9 + 143)) && k.pendSpare == [] && k.pendErase == [] && k.erased == []),
   decide (mget 0 ((wiresAt 63).core 0).col.wires (144 * 9 + 143) < 64)] ++
  ([(0, AccSlot.reset, false), (8176, zeroAcc AccSlot.reset defaultBasis 0 0, true),
      (8176, { AccSlot.reset with st := .held, bid := 3 }, false)].map fun (c : Nat × AccSlot × Bool) =>
    let s := onOp 3 (.mrs 0 oneTile 0x400) (acceptedW c.1) fun s => s.setAcc 0 0 0 c.2.1
    beatB s && ((basisOf s 1 (s.acc 0 0 0).bid).isSome == (c.2.1.bid == 0)) &&
      (!c.2.2 || (match flatWrite s ((s.token 0 5).site 0).who 0x400 16 (accWord (s.acc 0 0 0)) with | .ok _ _ => true | _ => false))) ++
  [defaultBasis.live.all fun h => decide (0 < defaultBasis.mod h)]

theorem witness_DrainBeats : allOf beatConds := all_of (by decide +kernel)

/-- A beat of an MRS is written, whatever the digits. -/
theorem witness_DrainBeats_mrs (g : Nat → Nat) : let s := onOp 3 (.mrs 0 oneTile 0x400) (acceptedW 0) id
    ∃ u, writeMany s ((s.token 0 5).site 0) oneTile ((List.range 16).map fun k => ([((k / 64 : Nat) : Int), ((k % 64 : Nat) : Int)], g k))
      = .ok u () := by
  refine Laws.writeMany_local (by decide +kernel) (by decide +kernel) (by decide +kernel) fun x hx => ?_
  obtain ⟨k, hk, rfl⟩ := List.mem_map.1 hx
  have h : ((List.range 16).all fun k => isInside oneTile.dw [((k / 64 : Nat) : Int), ((k % 64 : Nat) : Int)]) = true := by
    decide +kernel
  exact List.all_eq_true.1 h k hk

/-- The default basis, and the tuples of 0, of a wrong digit and of a wrong redundant pair. -/
theorem witness_BasisOk : BasisOk defaultBasis := by unfold BasisOk; decide

theorem witness_Names : (∀ v ∈ [0, 1, -1], Names defaultBasis defaultBasis.live (fun h => digit v (defaultBasis.mod h)) v) ∧
    Names defaultBasis (defaultBasis.live.filter (· != 3)) (fun h => if h = 3 then 1 else 0) 0 := by
  unfold Names; decide +kernel

theorem prod_dvd {x : Int} : ∀ {l : List Nat}, l.Pairwise Nat.Coprime → (∀ m ∈ l, (m : Int) ∣ x) → ((l.prod : Nat) : Int) ∣ x
  | [], _, _ => by simp
  | m :: l, hp, hd => by
    rw [List.pairwise_cons] at hp
    rw [List.prod_cons, Nat.cast_mul]
    refine IsCoprime.mul_dvd ?_ (hd m (by simp)) (prod_dvd hp.2 fun n hn => hd n (by simp [hn]))
    exact Nat.isCoprime_iff_coprime.2 (Nat.coprime_list_prod_right_iff.2 hp.1)

/-- The one number that the moduli of `chans` leave is `v0`, which lies outside the legitimate range. -/
def awayB (b : Basis) (chans : List Nat) (r : Nat → Nat) (v0 : Int) : Bool :=
  let ms := chans.map b.mod
  decide (ms.Pairwise Nat.Coprime) && chans.all (fun h => (r h - v0) % (b.mod h : Int) == 0) &&
    decide (((b.range + 1) / 2 : Nat) + v0.natAbs ≤ ms.prod) && decide (b.range / 2 + v0.natAbs < ms.prod) &&
    !decide (-((b.range / 2 : Nat) : Int) ≤ v0 ∧ v0 < ((b.range + 1) / 2 : Nat))

theorem not_names {b : Basis} {chans : List Nat} {r : Nat → Nat} {v0 : Int} (h : awayB b chans r v0 = true) (v : Int) :
    ¬Names b chans r v := by
  simp only [awayB, Bool.and_eq_true, decide_eq_true_eq, List.all_eq_true, beq_iff_eq, Bool.not_eq_true', decide_eq_false_iff_not] at h
  obtain ⟨⟨⟨⟨hc, hr⟩, h1⟩, h2⟩, h3⟩ := h
  rintro ⟨l1, l2, l3⟩
  have hd : (((chans.map b.mod).prod : Nat) : Int) ∣ v - v0 := prod_dvd hc fun m hm => by
    obtain ⟨k, hk, rfl⟩ := List.mem_map.1 hm
    have a := hr k hk; have c := l3 k hk
    rw [← c] at a
    have := Int.emod_emod_of_dvd v (dvd_refl (b.mod k : Int))
    exact Int.dvd_of_emod_eq_zero (by rw [Int.sub_emod] at a ⊢; rwa [Int.emod_emod_of_dvd _ (dvd_refl _)] at a)
  have := Int.eq_zero_of_abs_lt_dvd hd (by rw [abs_lt]; omega)
  apply h3
  have : v0 = v := by omega
  subst this; exact ⟨l1, l2⟩

/-- The digits of 0, with one of them wrong, and with two. -/
def oneWrong (h : Nat) : Nat := if h = 3 then 1 else 0
def twoWrong (h : Nat) : Nat := if h = 3 ∨ h = 4 then 1 else 0

/-- The live channels but one. -/
def but (h : Nat) : List Nat := defaultBasis.live.filter (· != h)
/-- One wrong digit, and two: no legitimate number has them, the first is told apart by one channel alone, the second by none. -/
theorem witness_NoNames : (∀ v, ¬Names defaultBasis defaultBasis.live oneWrong v) ∧
    (∀ j ∈ defaultBasis.live, j ≠ 3 → ∀ v, ¬Names defaultBasis (but j) oneWrong v) ∧
    ∀ j ∈ defaultBasis.live, ∀ v, ¬Names defaultBasis (but j) twoWrong v := by
  refine ⟨not_names (v0 := (projection defaultBasis defaultBasis.live oneWrong).1) (by decide +kernel),
    fun j hj hn => not_names (v0 := (projection defaultBasis (but j) oneWrong).1) ?_,
    fun j hj => not_names (v0 := (projection defaultBasis (but j) twoWrong).1) ?_⟩
  · revert j; decide +kernel
  · revert j; decide +kernel

/-- What the unit answers for those tuples: each outcome comes about. -/
def reconConds : List Bool :=
  [reconstruct defaultBasis none false (fun h => digit (-1) (defaultBasis.mod h)) == .ok (-1),
   reconstruct defaultBasis none false oneWrong == .corrected 0 3, reconstruct defaultBasis none true oneWrong == .overflow,
   reconstruct defaultBasis none false twoWrong == .uncorrectable, reconstruct defaultBasis (some 3) false oneWrong == .ok 0,
   reconstruct defaultBasis (some 3) false twoWrong == .uncorrectable]

theorem test_reconstruct : allOf reconConds := all_of (by decide +kernel)

/-! ## The units of the engines -/

/-- Operation 5 of core 0 is alone on its engine, ready, and has one unit or more left. -/
def aloneB (s : State) : Bool :=
  let e := s.token 0 5
  e.active && copyReady s (0, 5, e) && (contenders s e.cls).all fun t => t.1 == 0 && t.2.1 == 5

theorem takesTurn_alone {s : State} {core idx : Nat} {e : Token} {l : List OpAt}
    (h : ∀ t ∈ l, t.1 = core ∧ t.2.1 = idx) : takesTurn s core idx e l = true := by
  have : othersOf core idx l = [] := by
    rw [othersOf, List.filter_eq_nil_iff]; intro t ht; simp [h t ht]
  simp [takesTurn, this]

theorem takes_alone {s : State} (h : aloneB s = true) :
    (s.token 0 5).active = true ∧ copyReady s (0, 5, s.token 0 5) = true ∧
      takesTurn s 0 5 (s.token 0 5) (copyRivals s 0 (s.token 0 5)) = true := by
  simp only [aloneB, Bool.and_eq_true] at h
  obtain ⟨⟨h1, h2⟩, h3⟩ := h
  refine ⟨h1, h2, takesTurn_alone fun t ht => ?_⟩
  have hc : t ∈ contenders s (s.token 0 5).cls := by
    simp only [copyRivals, List.mem_filter] at ht
    obtain ⟨ht, -⟩ := ht
    split at ht
    · rename_i h6; rw [h6]; exact (List.mem_filter.1 ht).1
    · simp only [onEngine, List.mem_filter] at ht; exact ht.1
  simpa using List.all_eq_true.1 h3 t hc

/-- One part left: the operation comes to it, whatever it chooses. -/
theorem pick_single {e : Token} {ks : List Nat} {k : Nat} (h : ks = [k]) : e.pick ks = some k := by
  subst h; simp [Token.pick, Nat.mod_one]

def cplS (a : Nat) (f : State → State) : State := onOp 0 (.cpl false 4 0 [(a, 0)]) Work.zero f

def cplConds : List Bool :=
  ([(0x400, id, 0), (2 ^ 30, id, 1), (0x400, migrating, 2)] : List (Nat × (State → State) × Nat)).map fun c =>
    let s := cplS c.1 c.2.1
    aloneB s && memKind (cplUnit s 0 (s.token 0 5) false 4 [(c.1, 0)]) == c.2.2

/-- A bank-side operation on two tensors of one element. -/
def mopS : State := onOp 6 (.mop 1 mopT mopT 0 false) Work.zero id

theorem witness_EngineUnits_mop : aloneB mopS = true ∧ memKind (mopUnit mopS 0 (mopS.token 0 5) 1 mopT mopT 0) = 0 := by
  refine ⟨by decide +kernel, ?_⟩
  have h : mopLeft mopS (mopS.token 0 5) mopT = [0] := by decide +kernel
  unfold mopUnit
  rw [pick_single h]
  decide +kernel

def ones : List Nat := [1, 1, 1, 1]
def at0 : List Int := [0, 0, 0, 0]
def cptS (f : State → State) : State := onOp 0 (.cpt f32T f32T at0 at0 ones 0) Work.zero f
/-- A gather of one block, before its list entry is read and after. -/
def cpgS (w : Work) : State := onOp 0 (.cpg false 0 0 mopT f32T 0x400 1) w id
def entryRead : Work := { Work.zero with buf := [(0, 0), (1, 0), (2, 0), (3, 0)] }

theorem cptUnit_single {s : State} {core mc k : Nat} {e : Token} {dst src : Tn} {so dor : List Int} {box : List Nat}
    (h : e.left (boxCount box) (elemParts dst.dw) = [k]) :
    cptUnit s core e dst src so dor box mc = movePiece s core e mc (cptMoves dst src so dor box) [k] k := by
  have h1 : e.left (cptMoves dst src so dor box).count (elemParts dst.dw) = [k] := h
  simp only [cptUnit, h1, pick_single rfl]

theorem cpgUnit_single {s : State} {core br bc list count k : Nat} {e : Token} {sc : Bool} {dst src : Tn}
    (h : e.left (count * 2 ^ (br + bc)) (elemParts dst.dw) = [k]) :
    cpgUnit s core e sc br bc dst src list count = match entryDue s (e.site core) e sc br bc dst count [k] k with
      | some i => readEntry s (e.site core) list i e.work
      | none => movePiece s core e 0 (cpgMoves e.work sc br bc dst src count)
          ([k].filter fun i => (e.work.entry (i / 16 / 2 ^ (br + bc))).isSome) k := by
  simp only [cpgUnit, h, pick_single rfl] <;> rfl

/-- A copy of one element: performed, bad without a page table, waiting while its page migrates; and a gather of one block. -/
theorem witness_EngineUnits_copies :
    (∀ c ∈ readCases, aloneB (cptS c.1) = true ∧
      memKind (cptUnit (cptS c.1) 0 ((cptS c.1).token 0 5) f32T f32T at0 at0 ones 0) = c.2) ∧
      ∀ w ∈ [Work.zero, entryRead], aloneB (cpgS w) = true ∧
        memKind (cpgUnit (cpgS w) 0 ((cpgS w).token 0 5) false 0 0 mopT f32T 0x400 1) = 0 := by
  have h : readCases.all (fun c => let s := cptS c.1; aloneB s && (s.token 0 5).left 1 (elemParts f32T.dw) == [0] &&
      memKind (movePiece s 0 (s.token 0 5) 0 (cptMoves f32T f32T at0 at0 ones) [0] 0) == c.2) = true := by
    decide +kernel
  have h1 : [Work.zero, entryRead].all (fun w => let s := cpgS w; let e := s.token 0 5
      aloneB s && e.left (1 * 2 ^ (0 + 0)) (elemParts mopT.dw) == [0] &&
        memKind (match entryDue s (e.site 0) e false 0 0 mopT 1 [0] 0 with
          | some i => readEntry s (e.site 0) 0x400 i e.work
          | none => movePiece s 0 e 0 (cpgMoves e.work false 0 0 mopT f32T 1)
              ([0].filter fun i => (e.work.entry (i / 16 / 2 ^ (0 + 0))).isSome) 0) == 0) = true := by
    decide +kernel
  refine ⟨fun c hc => ?_, fun w hw => ?_⟩
  · have h := List.all_eq_true.1 h c hc
    simp only [Bool.and_eq_true, beq_iff_eq] at h
    exact ⟨h.1.1, by rw [cptUnit_single h.1.2]; exact h.2⟩
  · have h := List.all_eq_true.1 h1 w hw
    simp only [Bool.and_eq_true, beq_iff_eq] at h
    exact ⟨h.1.1, by rw [cpgUnit_single h.1.2]; exact h.2⟩

/-- A conversion of one element, which it reads first. -/
def cvbS : State := onOp 1 (.cvb 1 8 false [tnOf (rec2 0x41000 0 0x02 0 1 1)] mopT [tnOf (rec2 0x42000 0 0x0A 0 1 1)] 0) Work.zero id

theorem witness_EngineUnits_cvb : aloneB cvbS = true ∧ memKind (cvbUnit cvbS 0 (cvbS.token 0 5) 1 8 false
    [tnOf (rec2 0x41000 0 0x02 0 1 1)] mopT [tnOf (rec2 0x42000 0 0x0A 0 1 1)]) = 0 := by
  let cs := (cvbCells false (tExt mopT.dw 0) (tExt mopT.dw 1) (cvbBlock (cvbS.token 0 5) false mopT)).2
  have h : aloneB cvbS = true ∧ (cvbS.token 0 5).work.pend = [] ∧ (cvbS.token 0 5).unread mopT.dw cs = [0] := by decide +kernel
  refine ⟨h.1, ?_⟩
  have h1 : cvbUnit cvbS 0 (cvbS.token 0 5) 1 8 false [tnOf (rec2 0x41000 0 0x02 0 1 1)] mopT [tnOf (rec2 0x42000 0 0x0A 0 1 1)] =
      readPiece cvbS ((cvbS.token 0 5).site 0) (cvbS.token 0 5) mopT.dw cs := by
    simp only [cvbUnit]
    exact if_pos (by rw [h.2.1, h.2.2]; rfl)
  rw [h1]
  simp only [readPiece, h.2.2, List.length_singleton, Nat.mod_one]
  decide +kernel

def relayS : State := onOp 5 (.relay f32T 0x60000 0 0x7000 false) { acceptedW 0 with counts := [0] } id
def theColl : CollOp := { kind := 3, rop := 0, dst := mopT, src := mopT, root := 0 }
def collS (p : Nat) (w : Work) (f : State → State) : State :=
  onOp 4 (.coll 3 0 mopT mopT 0x6000 0) { w with group := [7, 0, p, 0] ++ List.range p } f
def collB (s : State) : Bool :=
  let e := s.token 0 5
  e.active && e.work.group != [] && decide (e.work.prog < collTotal e) && !rangeBlocked s 0 5 e &&
    (contenders s e.cls).all fun t => t.1 == 0 && t.2.1 == 5

theorem collB_turn {s : State} (h : collB s = true) :
    takesTurn s 0 5 (s.token 0 5) ((onEngine s 0 (s.token 0 5)).filter (collReady s)) = true := by
  simp only [collB, Bool.and_eq_true] at h
  refine takesTurn_alone fun t ht => ?_
  have hc : t ∈ contenders s (s.token 0 5).cls := by
    simp only [List.mem_filter, onEngine] at ht; exact ht.1.1
  simpa using List.all_eq_true.1 h.2 t hc

/-- The first message of the collective, as bytes. -/
def theFirst (s : State) : List Byte := (firstMessage s 1 theColl).flatMap fun d => natBytes 8 d.toNat

def unitConds : List Bool :=
  cplConds ++
  [(let e := relayS.token 0 5
    e.active && e.work.accepted && relayReady relayS (0, 5, e) && takesTurn relayS 0 5 e ((onEngine relayS 0 e).filter (relayReady relayS)) &&
      memKind (relayUnit relayS 0 e f32T.dw) == 0 &&
      match flatRead relayS (e.site 0).who (tMapp f32T.dw) 1 with | .ok _ x => !x.testBit 0 | _ => false)] ++
  (([(collS 1 { Work.zero with got := [(0, 7)] } id, [], 0), (collS 1 (acceptedW 0) id, [], 0)] :
      List (State × List Byte × Nat)).map fun c => collB c.1 && memKind (collUnit c.1 0 (c.1.token 0 5) theColl c.2.1) == c.2.2) ++
  [collB (collS 2 Work.zero id), (collS 2 Work.zero id).token 0 5 |>.unmets (collS 2 Work.zero id) |> (· == [1])] ++
  ([([], 2), ([0], 1), (theFirst (collS 2 Work.zero id), 0)] : List (List Byte × Nat)).map fun c =>
    memKind (takeFirst (collS 2 Work.zero id) ((collS 2 Work.zero id).token 0 5) theColl 1 c.1) == c.2

theorem witness_EngineUnits : allOf unitConds := all_of (by decide +kernel)

/-- The first message that comes next is the only one awaited. -/
theorem witness_EngineUnits_first (data : List Byte) : let s := collS 2 Work.zero id
    collUnit s 0 (s.token 0 5) theColl data = takeFirst s (s.token 0 5) theColl 1 data := by
  have h : ((collS 2 Work.zero id).token 0 5).unmets (collS 2 Work.zero id) = [1] ∧
      ((collS 2 Work.zero id).token 0 5).work.pend = [] := by decide +kernel
  have hu : ((collS 2 Work.zero id).token 0 5).unmet (collS 2 Work.zero id) = some 1 := by
    simp [Token.unmet, h.1, Nat.mod_one]
  simp [collUnit, h.2, hu]

/-- A multicast to two cores, a bank of lanes, a wide range and rings that the clauses on content speak of. -/
theorem witness_EngineUnits_content :
    copySites (cptS id) 0 ((cptS id).token 0 5) 3 = [((cptS id).token 0 5).site 0] ∧
      (boxCoord mopT.dw at0 = some [0, 0] ∧ boxCoord mopT.dw [1, 0, 0, 0] = none) ∧ elemParts mopT.dw = 1 ∧ tFlt mopT.dw = false ∧
      entryRead.entry 0 = some [0, 0, 0, 0] ∧ (8 : Nat) ∈ defaultBasis.live ∧
      byteWinner (zeroing .running) 4 [0, 2] 5 = some 1 := by
  refine ⟨by decide +kernel, by decide +kernel, by decide +kernel, by decide +kernel, by decide +kernel, by decide +kernel, ?_⟩
  have h : (List.range 2).filter (fun j => decide ([0, 2].getD j 0 ≤ 5) && decide (5 < [0, 2].getD j 0 + 4)) = [1] := by decide
  simp only [byteWinner, List.length_cons, List.length_nil, Nat.zero_add, Nat.reduceAdd, h, Nat.mod_one]
  rfl

/-- A member that has met the other and is about to send to it, through a port in state `st`. -/
def sending (st : LinkSt) : State :=
  collS 2 { acceptedW 0 with met := [1] } fun s => { s with links := [(Config.peerPort 1, st)] }

theorem linkTo_sending (st : LinkSt) : linkTo (sending st) 1 = st := by
  simp [linkTo, show (sending st).links = [(Config.peerPort 1, st)] from rfl, mget, mfind]

/-- The step that it comes to is a send over that link. -/
theorem witness_EngineUnits_links (st : LinkSt) : linkTo (sending st) (((sending st).token 0 5).members.getD 1 0) = st ∧
    chunkStepOf theColl.kind 2 0 theColl.root 0 = .send 1 0 2 := by
  refine ⟨?_, by decide⟩
  have h : ((sending st).token 0 5).members.getD 1 0 = 1 := rfl
  rw [h]; exact linkTo_sending st

/-! ## Launches, issue slots, halts and slots -/

def pairAt1 : Pair := { core := 1, slot := 0, pbase := 0, psize := 40, savebase := 0 }
/-- Launch 0 with `next` teams placed, of which `teams` have not retired; the context has a free pair. -/
def launched (next teams : Nat) (s : State) : State :=
  { (s.modCtx 1 fun c => { c with pairs := [pairAt1] }) with
    launches := [(0, { ctx := 1, record := aLaunch, next := next, teams := teams })] }

def noMembers (s : State) : State := s.modTeam 0 0 fun t => { t with members := [] }
/-- An orphan of team 0, and an orphan ring without room. -/
def orphanLeft (s : State) : State :=
  (withOp { zeroing .done with orph := true } s).modCtx 1 fun c => { c with orsize := 1, orhead := 1, orbase := 0x8000 }

/-- A task queue of context 1 with a ring at 0x9000. -/
def queueIs (f : Queue → Queue) (s : State) : State :=
  s.modQueue 0 0 fun _ => f { Queue.reset with owner := some 1, size := 64, base := 0x9000 }
def taskRec : List Word := [0, 0x80000000, 0, 0, 0, 0, 0, 0]
def oneGroup (k : Queue) : Queue := { k with dispatch := true, forming := [{ epc := 0, core := 0, recs := [taskRec], closed := true, at_ := 0 }] }
def tasks (s : State) : State := s.modCtx 1 fun c => { c with tbud := 8 }

def launchConds : List Bool :=
  [(let s := bench id (launched 0 0)
    match mfind s.launches 0, s.ctx? 1 with
    | some l, some c =>
      (s.launches.all fun e => !(decide (e.1 < 0) && e.2.ctx == l.ctx && decide (e.2.next < lTeams e.2.record))) &&
        decide (l.next < lTeams l.record) && l.ctx == 1 && c.killed == false && c.halt == none && c.haltQ == [] &&
        (match nextPair s c l.record with
        | some p => (teamNumber s p.core p.slot l.record).isSome && mget 0 s.placedAt (dieOf p.core) != s.cycle + 1
        | none => false)
    | _, _ => false),
   (let s := bench id (launched 1 0)
    match mfind s.launches 0 with | some l => l.next == lTeams l.record && l.teams == 0 | none => false)] ++
  ([(id, true), (orphanLeft, false)].map fun f =>
    let s := bench id fun s => f.1 (noMembers s)
    match s.team? 0 0 with
    | some t => t.members == [] && ((s.slot 0 t.slot).st == .running && !(s.slot 0 t.slot).line && !(s.slot 0 t.slot).freezing) &&
        (teamOrphans (pushOrphans s 0 0 t (teamOrphans s 0 0 t)) 0 0 t).isEmpty == f.2
    | none => false) ++
  ([[], [({ core := 0, strid := 0 }, 0, 0)]].map fun cl =>
    let s := bench id (queueIs fun k => { k with tail := 1, claims := cl })
    let k := s.queue 0 0
    k.owner == some 1 && (match s.ctx? 1 with | some c => c.halt == none && c.haltQ == [] | none => false) && k.ringCount != 0 &&
      k.size != 0 && (k.claims != [] || decide (k.recs.length < 32)) && vaOk (k.ringAddr k.head) && k.claims == cl &&
      decide (k.refillAt ≤ s.cycle) && k.pushedAt != s.cycle + 1 &&
      (match flatRead s (hwWho 1 (ringPlace s 0 1).1) (k.ringAddr k.head) 32 with | .ok _ _ => true | _ => false)) ++
  ([(64, 0), (0, 32)].map fun z =>
    let s := bench id (queueIs fun k => { k with size := z.1, waiting := [.cont 1 0 tok5 taskRec], recs := List.replicate z.2 (taskRec, 0) })
    let k := s.queue 0 0
    k.owner == some 1 && (match s.ctx? 1 with | some c => c.halt == none && c.haltQ == [] | none => false) &&
      k.waiting == [.cont 1 0 tok5 taskRec] &&
      (match push s 0 0 (ringPlace s 0 1).1 taskRec with | .ok _ => z.1 == 64 | .full => z.1 == 0 | _ => false)) ++
  [(let s := bench id fun s => tasks (queueIs (fun k => { k with dispatch := true, recs := [(taskRec, 0)] }) s)
    nextServed s 0 == some 0 && (s.cluster 0).dispatchAt != s.cycle + 1),
   (let s := bench id id; nextServed s 0 != some 0),
   (let s := bench id fun s => s.modCluster 0 fun c => { c with dispatchAt := s.cycle + 1 }
    (s.cluster 0).dispatchAt == s.cycle + 1),
   (let s := bench id (queueIs fun k => { k with refillAt := 5 }); decide (s.cycle < (s.queue 0 0).refillAt)),
   (let s := bench id fun s => queueIs (fun k => { k with pushedAt := s.cycle + 1 }) s; (s.queue 0 0).pushedAt == s.cycle + 1),
   (let s := bench id fun s => tasks { queueIs oneGroup s with cycle := 12 }
    let k := s.queue 0 0
    match k.forming, s.ctx? 1 with
    | g :: _, some c => k.owner == some 1 && c.halt == none && c.haltQ == [] && g.closed && decide (g.at_ + 12 ≤ s.cycle) && taskEligible s 1 g.core &&
        (match freeStrid s g.core, (List.range 32).find? fun t => !mhas (s.core g.core).teams t with
        | some _, some t =>
          (match restoreAll s (hwWho 1 g.core) c.contbase
              (freshStrand (some c) 1 0 t 0 1 c.tbud g.epc (Mask.ofPred 32 fun l => decide (l < g.recs.length))) g.recs.zipIdx with
          | .ok _ _ => true
          | _ => false)
        | _, _ => false)
    | _, _ => false)]

theorem witness_LaunchesAndTasks : allOf launchConds := all_of (by decide +kernel)

/-- A strand waiting in an issue slot for `n` cycles, of an age. -/
def queued (n age : Nat) : Strand := { (strandOf plain) with waits := n, age := age }

def worked (n : Nat) (s : State) : State := s.modCore 0 fun k => { k with islots := mput k.islots 0 { mget ISlot.reset k.islots 0 with worked := n } }
/-- A device in cycle 1,024 whose first cluster has no power allowance, with a lane instruction withheld since cycle 0. -/
def starved (s : State) : State :=
  let s1 : State := { State.modCluster s 0 fun k => { k with pa := -(10 ^ 9 : Int), paAt := 1024 } with cycle := 1024 }
  fillLine s1 ((strandOf s1).who s1.cur) (codeAddr s1 (strandOf s1).ctx 0)

def selectConds : List Bool :=
  [(let u := bench id (worked 1); (mget ISlot.reset (u.core 0).islots 0).worked == u.cycle + 1),
   (bench id fun s => { s with sel := some { core := 0, strid := 0 } }).sel.isSome,
   resultsDue (bench (replaying 0x400 fun o => { o with arrived := true }) id) 0, resultsDue (bench id (worked 0)) 0 == false,
   ((bench id fun s => gateCluster s 5).cluster 5).gated,
   (let u := bench id (worked 0); (mget ISlot.reset (u.core 0).islots 0).worked != u.cycle + 1 && u.sel == none),
   pickStrand true { ISlot.reset with order := [3] } [(3, queued 0 0)] == some 3,
   ([(3, queued 0 0), (4, queued 1023 1)].all fun (y : Nat × Strand) => decide (y.2.waits < 1024)),
   pickStrand false { ISlot.reset with greedy := some 4 } [(3, queued 0 0), (4, queued 1023 1)] == some 4,
   pickStrand false { ISlot.reset with greedy := some 5 } [(3, queued 0 1), (4, queued 1023 0)] == some 4,
   pickStrand true ISlot.reset [(3, queued 0 1), (4, queued 1024 2)] == some 4,
   (let s := bench (fun x => { x with withheldAt := some 0 }) starved
    (s.cluster 0).owed == none && ((clusterStrands s 0).find? fun e => heldByPower s e.1 e.2 &&
        match e.2.withheldAt with | some t => decide (t + 1024 ≤ s.cycle) | none => false).isSome),
   (let s := bench id id; (clusterStrands s 0).all fun e => heldByPower s e.1 e.2 == false),
   (let s := bench id fun s => { s with time := 64 * microsecond }
    clusterIdle s 5 && (s.cluster 5).gated == false && decide ((s.cluster 5).busyAt + 64 * microsecond ≤ s.time)),
   clusterIdle (bench id id) 0 == false,
   (let s := bench id id; decide (s.time < (s.cluster 5).busyAt + 64 * microsecond))]

theorem witness_IssueSelection : allOf selectConds := all_of (by decide +kernel)

def aCause : HaltReq := { cause := .kill, tinfo := 0, src := 0, core := 0, slot := 0, dm := false }
def aHalt (t : Nat) : HaltInfo :=
  { cause := .kill, tinfo := 0, src := 0, core := 0, slot := 0, dm := false, later := 0, fatal := false, since := t }
def halting (f : Slot → Slot) (s : State) : State :=
  (s.modCtx 1 fun c => { c with halt := some (aHalt 0) }).modSlot 0 0 f
/-- A FREEZE of slot 0 of core 0 by the first port under way. -/
def freezeBy (s : State) : State :=
  { s with mgmt := [{ ticket := 9, port := 0, seq := 0, head := 0x20, ctx := 1, core := 0, slot := 0, args := [0x20] }] }

theorem foldl_keeps {α β : Type} (f : State → α) (g : State → β → State) (h : ∀ s b, f (g s b) = f s) (l : List β) (s : State) :
    f (l.foldl g s) = f s := by
  induction l generalizing s with
  | nil => rfl
  | cons b r ih => rw [List.foldl_cons, ih, h]

theorem writeImage_keeps {α : Type} (f : State → α) (h : ∀ s a b, f (storeBytes s a b) = f s) (s : State) (c i n : Nat) :
    f (writeImage s c i n) = f s := by
  have put (p : Prop) [Decidable p] (t : State) (a : Nat) (b : List Byte) : f (if p then t else storeBytes t a b) = f t := by
    split <;> simp [h]
  simp only [writeImage, put]
  rw [foldl_keeps f _ fun s b => put _ _ _ _, put, foldl_keeps f _ fun s b => put _ _ _ _]

theorem emptySlot_mgmt (s : State) (c i : Nat) : (emptySlot s c i).mgmt = s.mgmt :=
  foldl_keeps State.mgmt (fun s (e : Nat × Strand) => unbindStrand s { core := c, strid := e.1 } e.2.islot) (fun _ _ => rfl) _ s

theorem modSlot_mgmt (s : State) (c i : Nat) (f : Slot → Slot) : (s.modSlot c i f).mgmt = s.mgmt := rfl

theorem modCtx_mgmt (s : State) (n : Nat) (f : Ctx → Ctx) : (s.modCtx n f).mgmt = s.mgmt := rfl

theorem charge_mgmt (s : State) (c k n : Nat) : (charge s c k n).mgmt = s.mgmt := rfl

theorem saveSlot_mgmt (s : State) (c i : Nat) : (saveSlot s c i).mgmt = s.mgmt := by
  simp only [saveSlot, moveSusps, modCtx_mgmt, modSlot_mgmt, emptySlot_mgmt, writeImage_keeps State.mgmt fun _ _ _ => rfl, charge_mgmt]

theorem freezeRequest_saveSlot (s : State) (c i : Nat) : freezeRequest (saveSlot s c i) c i = freezeRequest s c i := by
  simp only [freezeRequest, saveSlot_mgmt]

/-- Both issue slots of core 0 have worked in this cycle. -/
def bothWorked (s : State) : State :=
  s.modCore 0 fun k => { k with islots := [0, 1].foldl (fun m i => mput m i { mget ISlot.reset m i with worked := s.cycle + 1 }) k.islots }

def haltConds : List Bool :=
  [(let s := bench id fun s => s.modCtx 1 fun c => { c with haltQ := [aCause] }
    match s.ctx? 1 with
    | some c => c.haltQ == [aCause] && c.halt == none && runsSomewhere s 1 &&
        (slotsIn s 1 fun q => q.st == .shadow || q.st == .frozen || q.st == .halted) == []
    | none => false),
   (let s := bench id fun s => (s.modCtx 1 fun c => { c with haltQ := [aCause] }).modSlot 0 0 fun q => { q with st := .frozen }
    match s.ctx? 1 with | some c => c.haltQ == [aCause] && c.halt == none && !runsSomewhere s 1 | none => false)] ++
  ([id, freezeBy].zipIdx.map fun f =>
    let s := bench id fun s => halting id (f.1 s)
    let q := s.slot 0 0
    q.st == .running && !q.line && q.actedAt != s.cycle + 1 && (match s.ctx? q.ctx with | some c => c.halt.isSome | none => false) &&
      (freezeRequest (lineArrives s 0 0) 0 0).isSome == (f.2 == 1)) ++
  ([(zeroing .done, true), (zeroing .running, false)].map fun e =>
    let s := bench id fun s => withOp e.1 (halting (fun q => { q with line := true }) s)
    let q := s.slot 0 0
    q.st == .running && q.line && opsStopped s 0 0 q.ctx == e.2) ++
  [(let q := (bench id fun s => s.modSlot 0 0 fun q => { q with freezing := true }).slot 0 0; q.st == .running && q.freezing)] ++
  ([id, freezeBy].zipIdx.map fun f =>
    let s := bench id fun s => f.1 (s.modSlot 0 0 fun q => { q with st := .frozen, savebase := 0x200000 })
    let q := s.slot 0 0
    q.st == .frozen && saveReady s 0 0 q.ctx && (freezeRequest s 0 0).isSome == (f.2 == 1)) ++
  [(let s := bench id fun s => withOp { entry 0 .running (.cpl false 4 0 [(0x400, 0)]) with cancel := true }
        (s.modSlot 0 0 fun q => { q with
          st := .frozen, ranges := [{ idx := 5, kind := 0, space := 1, lo := 0, hi := 4, wr := true, seq := 0 }] })
    let q := s.slot 0 0
    q.st == .frozen && saveReady s 0 0 q.ctx == false),
   (let s := bench id fun s => s.modSlot 0 0 fun q => { q with actedAt := s.cycle + 1 }; (s.slot 0 0).actedAt == s.cycle + 1),
   (let s := bench id fun s => (s.modCtx 1 fun c => { c with ending := some 4 }).modCore 0 fun k => { k with strands := [], teams := [] }
    let q := s.slot 0 0
    match s.ctx? q.ctx with
    | some c => q.st != .empty && c.ending.isSome && c.killed == false && endsNow s 0 0 q.ctx && (freezeRequest (emptySlot s 0 0) 0 0).isNone
    | none => false)] ++
  ([id, freezeBy].zipIdx.map fun f =>
    let s := bench id fun s => halting (fun q => { q with st := .halted }) (f.1 (s.modCtx 1 fun c => { c with killed := true }))
    let q := s.slot 0 0
    match s.ctx? q.ctx with
    | some c => q.st != .empty && c.killed && deadNow s 0 0 q.ctx c &&
        (freezeRequest (emptySlot (dropOwed s q.ctx) 0 0) 0 0).isSome == (f.2 == 1)
    | none => false) ++
  ([0, 20 * microsecond].map fun t =>
    let s := bench id fun s => { halting id s with time := t }
    match s.ctx? 1 with
    | some c => c.halt == some (aHalt 0) && !(slotsIn s 1 fun q => q.st == .running).isEmpty && c.killed == false &&
        (decide (t < 20 * microsecond) || decide ((aHalt 0).since + 20 * microsecond ≤ s.time))
    | none => false) ++
  ([2 ^ 24, 2 ^ 24 - 1].map fun n =>
    let s := bench (fun x => { x with wait := .bar 1 0 }) fun s => bothWorked { s with cycle := n }
    match s.team? 0 0 with
    | some t => barWaiters s 0 t 1 == [0] && !slotsToWork s 0 && ((s.slot 0 t.slot).st == .running && !(s.slot 0 t.slot).line && !(s.slot 0 t.slot).freezing) && (match s.ctx? t.ctx with
        | some c => decide ((mget Bar.zero t.bars 1).first + c.bwdog ≤ s.cycle) == (n == 2 ^ 24)
        | none => false)
    | none => false) ++
  [slotsToWork (bench id id) 0]

theorem witness_HaltsAndSlots : allOf haltConds := all_of (by decide +kernel)

/-- Slot 0 of core 0 was saved at 0x200000. -/
def saved (s : State) : State :=
  { (stored 0x22A000 8 (imageWord 0 0 1 false none) (emptySlot s 0 0)).modCtx 1 fun c => { c with
      pairs := [{ core := 0, slot := 0, pbase := 0, psize := 40, savebase := 0x200000 }] } with images := [controlOf s 0 0 1] }

/-- Every strand of slot 0 of core 0 is the strand of its number, with nothing outstanding. -/
def quietB (s : State) : Bool :=
  (slotStrands s 0 0).all fun e => s.strand? { core := 0, strid := e.1 } == some e.2 && e.2.long == [] && e.2.held == [] && e.2.wait != .syncg
/-- The image word at 0x200000 is `w`, in a device whose slot is saved. -/
def wordIs (w : Nat) (s : State) : State := stored 0x22A000 8 w (saved s)
def restores (f : State → State) (P : State → Nat → Bool) : Bool := let s := bench id f; P s (loadNat s 0x22A000 8)
def pairIs (n : Nat) (s : State) : State := (saved s).modCtx 1 fun c => { c with
  pairs := if n = 0 then [] else [{ core := 0, slot := 0, pbase := 0, psize := n, savebase := 0x200000 }] }

def contentConds : List Bool :=
  -- the line arrives at a slot with a strand and an operation, and the slot is halted
  [(let s := bench id fun s => withOp (zeroing .running) (halting (fun q => { q with savebase := 0x200000 }) s)
    slotTokens s 0 0 1 == [5] && (s.token 0 5).cls != 1 && (slotStrands s 0 0).length == 1 && physOk (0x200000 + 64) &&
      (match s.ctx? 1 with | some c => c.halt.isSome | none => false)),
   (let s := bench id fun s => halting (fun q => { q with savebase := 0x200000, line := true, lineOps := [5] }) s
    (s.slot 0 0).lineOps[0]? == some 5 && physOk (0x200000 + 64 * 2) && physOk (0x200000 + 64 * 0))] ++
  -- an operation that parks, one that does not, and one whose step lands first
  ([(.running, none, true), (.done, none, false), (.running, some 9, true)] : List (TokSt × Option Nat × Bool)).map (fun c =>
    let s := bench id (withOp { zeroing c.1 with work := { Work.zero with flight := c.2.1 } })
    let e := s.token 0 5
    e.cls != 1 && parks s 0 5 e == c.2.2 && e.work.flight == c.2.1) ++
  -- a freeze
  [(let s := bench id id
    quietB s && (slotStrands s 0 0).length == 1 && slotTokens s 0 0 1 == [] && (s.slot 0 0).st == .running && !(s.slot 0 0).line &&
      (match s.ctx? 1 with | some c => c.halt.isNone | none => false))] ++
  -- a slot runs again, marked or not, in a context that has halted or not
  ([(none, none), (some (.kill, false), none), (some (.kill, false), some (aHalt 0))] : List (Option (Cause × Bool) × Option HaltInfo)).map (fun c =>
    let s := bench id fun s => (s.modSlot 0 0 fun q => { q with st := .shadow, marked := c.1 }).modCtx 1 fun k => { k with halt := c.2 }
    quietB s && (s.slot 0 0).marked == c.1 && match s.ctx? 1 with | some k => k.halt == c.2 | none => false) ++
  -- a save
  [(let s := bench id fun s => s.modSlot 0 0 fun q => { q with st := .frozen, savebase := 0x200000, sp := 1 }
    ((slotStrands s 0 0).all fun e => decide (e.1 < 64 ∧ e.2.rstk.length ≤ 32)) && ((s.slot 0 0).accs.all fun a => decide (a.1 < 4)) &&
      physOk (0x200000 + 0x2A000) && physOk (0x200000 + (0xBA000 + 16384 * (s.slot 0 0).rf)) && (s.slot 0 0).sp == 1)] ++
  -- a kill, with an operation of the context and one that has ended
  [.running, .done].map (fun st =>
    let s := bench id (withOp (zeroing st))
    (s.ctx? 1).isSome && (s.token 0 5).gen != 0 && (s.token 0 5).ctx == 1 && (s.token 0 5).st.terminal == (st == .done)) ++
  -- a resume, with an operation that is parked
  [(let s := bench id fun s => withOp (zeroing .parked) (halting (fun q => { q with st := .halted }) s)
    (slotsIn s 1 fun q => q.st == .halted) == [(0, 0)] && quietB s && slotTokens s 0 0 1 == [5] &&
      (s.clusters.all fun k => k.2.queues.all fun q => q.2.owner != some 1 || !q.2.stuck) &&
      match s.ctx? 1 with | some c => c.haltQ == [] && c.heldRecs == [] && c.susp == [] | none => false)] ++
  -- a restore: into a slot that is not empty, of an image word that is bad, absent or of another core, and of an image without a pair,
  -- with another part, and as it was saved
  [restores id fun s _ => (s.slot 0 0).st != .empty,
   restores (wordIs (imageWord 0 0 1 true none)) fun _ w => w / 2 ^ 63 == 1 && w / 2 ^ 62 % 2 == 1,
   restores (wordIs (imageWord 1 0 1 false none)) fun _ w => w / 2 ^ 63 == 1 && w / 2 ^ 37 % 256 != 0,
   restores (wordIs (imageWord 0 0 2 false none)) fun s w => w / 2 ^ 63 == 1 && (findImage s 0 w).isNone,
   restores (wordIs 0) fun s w => w / 2 ^ 63 != 1 && s.flash == [],
   restores (pairIs 0) fun s w => match findImage s 0 w with | some g => (pairOf s g.ctx 0 0).isNone | none => false,
   restores (pairIs 39) fun s w => match findImage s 0 w with
     | some g => (match pairOf s g.ctx 0 0 with | some p => p.psize != g.data.psize | none => false)
     | none => false,
   restores saved fun s w => w / 2 ^ 63 == 1 && (findImage s 0 w).isSome && (restoreSlot s 0 0 0x200000 true).isSome,
   restores (wordIs (imageWord 0 0 1 false (some (.kill, false)))) fun s w =>
     w / 2 ^ 61 % 2 == 1 && (Cause.ofCode (w / 2 ^ 45 % 2 ^ 16)).isSome && (restoreSlot s 0 0 0x200000 true).isSome]

theorem witness_SlotContents : allOf contentConds := all_of (by decide +kernel)

/-! ## Hosts and the management processor -/

def frameOf (port typ ctx : Nat) (ds : List Nat) : Frame :=
  { port := port, typ := BitVec.ofNat 8 typ, rpl := false, len := BitVec.ofNat 16 (8 * ds.length), seq := 0, node := 7,
    ctxid := BitVec.ofNat 16 ctx, rsvd := false, pa := 0, payload := ds.flatMap (natBytes 8), tag := 0 }
def frameAt (port typ pa : Nat) (ds : List Nat) : Frame := { frameOf port typ 0 ds with pa := BitVec.ofNat 64 pa }

/-- The two hosts are authenticated, and the node on the first port owns the device. -/
def hosts (s : State) : State :=
  (({ s with owner := some 7 } : State).modPort 0 fun p => { p with node := some 7 }).modPort 1 fun p => { p with node := some 8 }

/-- A frame is heard when its tag verifies, which the model leaves open (log entry 18), or when its port is not yet
authenticated. -/
theorem hear_of {s : State} {fr : Frame} (hp : fr.port < 2) (hu : (s.port fr.port).up = true)
    (ht : (s.port fr.port).node = none ∨ Config.tagOk (s.port fr.port).key (frameBytes fr) fr.tag = true) (hf : frameOk fr = true)
    (hs : fr.seq.toNat = (s.port fr.port).rx) :
    hear s fr = .taken (s.modPort fr.port fun p => { p with rx := (p.rx + 1) % 2 ^ 32 }) := by
  rcases ht with ht | ht <;> simp [hear, Nat.not_le.2 hp, hu, ht, hf, hs]

def taken (s : State) (fr : Frame) : State := s.modPort fr.port fun p => { p with rx := (p.rx + 1) % 2 ^ 32 }

/-- All that `hear_of` asks but for the tag, and the sender may ask. -/
def heardB (s : State) (fr : Frame) (who : Sender) : Bool :=
  decide (fr.port < 2) && (s.port fr.port).up && frameOk fr && decide (fr.seq.toNat = (s.port fr.port).rx) && mayAsk (taken s fr) fr.port who

theorem heard_of {s : State} {fr : Frame} {who : Sender} (h : heardB s fr who = true)
    (ht : (s.port fr.port).node = none ∨ Config.tagOk (s.port fr.port).key (frameBytes fr) fr.tag = true) :
    hear s fr = .taken (taken s fr) ∧ mayAsk (taken s fr) fr.port who = true := by
  simp only [heardB, Bool.and_eq_true, decide_eq_true_eq] at h
  obtain ⟨⟨⟨⟨h1, h2⟩, h3⟩, h4⟩, h5⟩ := h
  exact ⟨hear_of h1 h2 ht h3 h4, h5⟩

def hosted (f : State → State) : State := bench id fun s => hosts (f s)
def launchDs : List Nat := aLaunch.map BitVec.toNat
def okLaunch (s : State) : State := s
def submits' (s : State) (fr : Frame) : Nat :=
  match submit (taken s fr) ((List.range 32).map (dwordAt fr.payload)) none with
  | .refused _ => 0
  | .busy => 1
  | .yes _ => 2
def haltedS : State := hosted fun s => halting (fun q => { q with st := .halted }) s

def hostConds : List Bool :=
  ([(launched 0 0, launchDs, 2), (fun s => launches64 (launched 0 0 s), launchDs, 1), (id, List.replicate 32 0, 0)] :
      List ((State → State) × List Nat × Nat)).map (fun c =>
    let fr := frameOf 0 0x01 0 c.2.1
    heardB (hosted c.1) fr .owner && fr.payload.length == 256 && submits' (hosted c.1) fr == c.2.2) ++
  [(let fr := frameOf 0 0x02 1 []; heardB haltedS fr .owner && fr.payload == [] && resumable (taken haltedS fr) 1),
   (let fr := frameOf 0 0x02 1 []; heardB (hosted id) fr .owner && resumable (taken (hosted id) fr) 1 == false),
   (let fr := frameOf 0 0x03 1 []; heardB (hosted id) fr .owner && ((taken (hosted id) fr).ctx? 1).isSome),
   (let s := hosted fun s => killContext s 1 .kill 0
    heardB s (frameOf 0 0x03 1 []) .owner && (match (taken s (frameOf 0 0x03 1 [])).ctx? 1 with | some c => c.killed | none => false))] ++
  ([(0x400, 4096, 0), (0x2FFFFFF000, 4096, 0), (0x7FFFFFF000, 4096, 2), (0xF000000000000, 4096, 1), (0xFFFFFFFFFFFF8, 8, 1),
    (0x3000000000, 8, 2)] : List (Nat × Nat × Nat)).map (fun c =>
    let fr := frameAt 1 0x05 c.1 [c.2.1]
    let size := (dwordAt fr.payload 0).toNat
    heardB (hosted id) fr .member && fr.payload.length == 8 && decide (size ≤ 4096) && fr.pa.toNat == c.1 &&
      (if memRange c.1 size then 0 else if deviceRange c.1 size then 1 else 2) == c.2.2) ++
  ([(0x400, 0), (0xF000000000000, 1), (0x3000000000, 2)] : List (Nat × Nat)).map (fun c =>
    let fr := frameAt 0 0x06 c.1 [5]
    heardB (hosted id) fr .owner &&
      (if memRange c.1 fr.payload.length then 0 else if deviceRange c.1 fr.payload.length then 1 else 2) == c.2) ++
  [(let fr := frameOf 0 0x07 0 [5]; heardB (hosted id) fr .owner && fr.payload.length == 8),
   (let fr := frameOf 0 0x09 0 [8]
    let u := taken (hosted id) fr
    heardB (hosted id) fr .owner && decide (2 ≤ fr.payload.length) && ((dwordAt fr.payload 0).extractLsb' 0 16).toNat == 8 &&
      u.owner != some 8 && u.ports.any fun p => p.2.up && p.2.node == some 8)] ++
  ([0, 250000 * microsecond].map fun t =>
    let fr := frameOf 1 0x0A 0 []
    let s := hosted fun s => { s with time := t }
    heardB s fr .reader && ((taken s fr).port 1).node == some 8 &&
      decide ((taken s fr).lastBeat + 250000 * microsecond ≤ (taken s fr).time) == (t != 0)) ++
  [(let fr := frameOf 0 0x0B 0 [1]; let s := bench id id
    heardB s fr .any && ((taken s fr).port 0).node == none && (s.port 0).node == none),
   (let fr := frameOf 0 0x7F 0 []; let s := bench id id; heardB s fr .any && (s.port 0).node == none),
   (let fr := frameOf 1 0x01 0 launchDs; let s := bench id id
    heardB s fr .any && (s.port 1).node == none && !mayAsk (taken s fr) 1 .owner),
   (match hear (bench id id) (frameOf 2 0x01 0 []) with | .dropped _ => true | .taken _ => false)] ++
  -- a port that is not yet authenticated, and the SEQ of the frame: the next, one after it and one before it
  ([(0, true, false), (1, false, true), (2 ^ 32 - 1, false, false)] : List (Nat × Bool × Bool)).map (fun c =>
    let s := bench id id
    let fr := { frameOf 0 0x07 0 [5] with seq := BitVec.ofNat 32 c.1 }
    (s.port 0).up && (s.port 0).node == none && frameOk fr && (fr.seq.toNat == (s.port 0).rx) == c.2.1 &&
      (c.1 == 0 || seqGap (s.port 0) fr.seq.toNat == c.2.2))

theorem witness_HostRequests : allOf hostConds := all_of (by decide +kernel)

/-- R396: a claim on port 1 stands first, and the frames of port 0 of the same cycle, with a claim among them, come before it. -/
def twoClaims : State :=
  { State.reset with agenda := [(0, .claim (frameOf 1 0x0A 0 [])), (0, .beat (frameOf 1 0x08 0 [])), (0, .beat (frameOf 0 0x08 0 [])),
    (0, .claim (frameOf 0 0x0A 0 []))] }

theorem witness_StepRunsInstruction_claims : allOf [
    twoClaims.sel.isNone, claimPort (.claim (frameOf 1 0x0A 0 [])) == some 1,
    twoClaims.agenda.tail.any fun e => decide (e.1 ≤ twoClaims.cycle) && claimPort e.2 == some 0,
    (twoClaims.agenda.tail.findIdx? fun e => arrivesAt twoClaims e == some 0) == some 1,
    (match twoClaims.agenda.tail[1]? with | some j => !j.2.isProgram && j.2.wellFormed | none => false)] := all_of (by decide +kernel)

def bodyFrame (sarg : Nat) (ds : List Nat) : Frame := frameOf 0 0x04 0 (sarg * 2 ^ 16 :: ds)

/-- What a body gives: carried out, refused or under way. -/
def bodyKind (f : MBody) (s : State) (fr : Frame) : Nat :=
  match f s s.nextId fr with
  | .done _ _ => 0
  | .fail _ _ => 1
  | .wait _ _ _ _ _ => 2

def zeroB (fr : Frame) (i lo k : Nat) : Bool := (List.range k).all fun j => (bodyDw fr i).getLsbD (lo + j) == false
def lenB (fr : Frame) (k : Nat) : Bool := fr.payload.length == 8 + 8 * k

def ticket (code : Nat) (s : State) : State :=
  { s with mgmt := [{ ticket := 3, port := 0, seq := 0, head := BitVec.ofNat 64 code, ctx := 1, core := 0, slot := 0, args := [0x400, 0x500, 4] }],
           invals := [{ ticket := 3, ctx := 1, base := 0, pages := 0, by_ := none }] }

def mgmtConds : List Bool :=
  ([(createBody, 0, [2, 0, 0], 0), (createBody, 0, [1, 0, 0], 1), (invalBody, 0, [1, 0, 1], 2)] : List (MBody × Nat × List Nat × Nat)).map (fun c =>
    let fr := bodyFrame c.2.1 c.2.2.1
    heardB (hosted id) fr .owner && bodyKind c.1 (taken (hosted id) fr) fr == c.2.2.2 && (taken (hosted id) fr).mgmt == []) ++
  [(let fr := bodyFrame 0 []; heardB (hosted freezeBy) fr .owner && (taken (hosted freezeBy) fr).mgmt.any fun m => m.port == fr.port)] ++
  [0x10, 0x11, 0x12].map fun code =>
    match mgmtOf (bench id (ticket code)) 3 with
    | some m => m.code == code && (match (bench id (ticket code)).invals.find? fun v => v.ticket == 3 with
        | some v => v.by_ == none
        | none => false)
    | none => false

theorem witness_ManagementRequests : allOf mgmtConds := all_of (by decide +kernel)

def ended (s : State) : State := s.modSlot 0 0 fun _ => Slot.reset
def isBody (n : Nat) (r : MRes) : Bool :=
  match r with | .done _ _ => n == 0 | .fail st _ => n == 100 + st | .wait _ _ _ _ _ => n == 2

/-- The state in which a request of the owner is carried out, and that it is heard and none of its port is under way. -/
def asked (f : State → State) (fr : Frame) : State := taken (hosted f) fr
def askedB (f : State → State) (fr : Frame) : Bool := heardB (hosted f) fr .owner && (asked f fr).mgmt == []
def placing (s : State) : State := { s with secure := [1] }

/-- A request in a device, the condition on both, and what its body must give. -/
def effect (b : MBody) (f : State → State) (fr : Frame) (k : Nat) (r : Nat) (cond : State → Bool) : Bool :=
  askedB f fr && lenB fr k && cond (asked f fr) && isBody r (b (asked f fr) (asked f fr).nextId fr)

/-- A persistent context whose slot leaves the flash no room. -/
def flashFull (s : State) : State :=
  (s.modSlot 0 0 fun q => { q with rf := 2 ^ 15 }).modCtx 1 fun c => { c with
    persistent := true, pairs := [{ core := 0, slot := 0, pbase := 0, psize := 40, savebase := 0x200000 }] }

def createConds : List Bool :=
  ([([2, 0, 0], 0, id), ([1, 0, 0], 104, id), ([2 + 2 ^ 19, 0, 0], 0, id),
    ([2 + 2 ^ 19, 0, 0], 104, flashFull)] : List (List Nat × Nat × (State → State))).map fun c =>
    let fr := bodyFrame 0 c.1
    effect createBody c.2.2 fr 3 c.2.1 fun s =>
      fr.sarg == 0 && bodyNat fr 0 17 2 != 3 && zeroB fr 0 20 44 && bodyNat fr 1 0 64 % 64 == 0 && bodyNat fr 2 0 64 % 4096 == 0 &&
        decide (bodyNat fr 2 0 64 < 2 ^ 52) && (s.ctx? (bodyNat fr 0 0 16)).isSome == (c.1 == [1, 0, 0]) &&
        (c.2.1 != 104 || c.1 == [1, 0, 0] || !flashFits s 0)

def csrConds : List Bool :=
  ([(0x030, [1, 0], 0), (0x030, [1, 7], 101), (0x081, [1, 2 ^ 48], 2)] : List (Nat × List Nat × Nat)).map fun c =>
    let fr := bodyFrame c.1 c.2.1
    let k := bodyNat fr 0 16 8
    let l := bodyNat fr 0 24 1
    effect csrsetBody saved fr 2 c.2.2 fun s => match s.ctx? 1 with
      | none => false
      | some x => csrAssigned fr.sarg && (if ofContext fr.sarg then k == 0 else x.pairs.any fun p => p.core == k) &&
          (if ofSlot fr.sarg then x.pairs.any fun p => p.core == k && p.slot == l else l == 0) && zeroB fr 0 25 39 &&
          (fr.sarg != 0x081 || (s.ctx? ((bodyDw fr 1).extractLsb' 48 16).toNat).any fun t => t.secure == x.secure)

def effectConds : List Bool :=
  [(let fr := bodyFrame 1 [1, 1 + 40 * 2 ^ 24, 0x300000, 0]
    let ps := (List.range fr.sarg).map (pairAt fr)
    effect placeBody placing fr (2 * fr.sarg + 2) 0 fun s => zeroB fr 0 16 48 && zeroB fr (2 * fr.sarg + 1) 0 64 &&
      pairError fr ps 0 == none && fr.sarg == 1 &&
      (match s.ctx? 1 with
        | some c => pairConflict s fr ps c.secure 0 == none && c.ending == none && !c.killed && !c.persistent
        | none => false)),
   (let fr := bodyFrame 0 [1]; effect teardownBody ended fr 1 0 fun s => zeroB fr 0 16 48 && contextGone s 1),
   (let fr := bodyFrame 0 [1]; effect teardownBody id fr 1 2 fun s => contextGone s 1 == false),
   effect invalBody id (bodyFrame 0 [1, 0x10000, 1]) 3 2 fun _ => true,
   effect quiesceBody id (bodyFrame 0 [1, 0x400]) 2 2 fun _ => vaOk 0x400,
   effect pcopyBody id (bodyFrame 0 [0x400, 0x20000, 0x10000]) 3 2 fun _ => memRange 0x400 0x10000 && memRange 0x20000 0x10000,
   effect freezeBody id (bodyFrame 0 [0]) 1 2 fun s => (s.slot 0 0).st == .running && !(s.slot 0 0).line && !(s.slot 0 0).freezing,
   effect freezeBody id (bodyFrame 0 [191]) 1 104 fun s => (s.slot 191 0).st != .running,
   (let fr := bodyFrame 0 [1, 0x200000]
    effect restoreBody id fr 2 104 fun s => zeroB fr 0 10 54 && (restoreSlot s 1 0 0x200000 false).isNone),
   (let fr := bodyFrame 0 [0, 0x200000]; effect restoreBody saved fr 2 0 fun s => (restoreSlot s 0 0 0x200000 false).isSome),
   effect qbindBody id (bodyFrame 5 [2 ^ 16]) 1 0 fun s => queueIdle (s.queue 0 1),
   effect qunbindBody id (bodyFrame 8 [0]) 1 0 fun s => queueIdle (s.queue 0 0),
   effect qunbindBody (queueIs oneGroup) (bodyFrame 8 [0]) 1 104 fun s => !queueIdle (s.queue 0 0),
   effect policyBody id (bodyFrame 1 [191]) 1 0 fun _ => true,
   effect devnumBody (fun s => { s with ctxs := [] }) (bodyFrame 1023 []) 0 0 fun s => s.ctxs == [],
   effect devnumBody id (bodyFrame 1023 []) 0 104 fun s => s.ctxs != [],
   [800, 3000].all fun w => effect powercapBody id (bodyFrame w []) 0 0 fun _ => true,
   [799, 3001].all fun w => effect powercapBody id (bodyFrame w []) 0 101 fun _ => true,
   [800, 3000].all fun w => effect stepcapBody id (bodyFrame w [7]) 1 0 fun _ => true,
   effect ballastReadBody id (bodyFrame 0 []) 0 0 fun _ => true,
   (let fr := bodyFrame 1 [2 ^ 31 + 3000 * 2 ^ 16]; effect ballastWriteBody id fr 1 0 fun _ => decide (bodyNat fr 0 16 12 ≤ 3000)),
   effect energyBody id (bodyFrame 0 [0xFFFF]) 1 0 fun _ => true,
   effect energyBody id (bodyFrame 0 [1]) 1 0 fun s => (s.ctx? 1).isSome,
   askedB id (bodyFrame 0 [1, 2, 3, 4]) && lenB (bodyFrame 0 [1, 2, 3, 4]) 4 && decide ((asked id (bodyFrame 0 [1, 2, 3, 4])).lmsIndex < 2 ^ 20),
   (let f := fun s : State => { s with lmsIndex := 2 ^ 20 }
    askedB f (bodyFrame 0 [1, 2, 3, 4]) && decide (2 ^ 20 ≤ (asked f (bodyFrame 0 [1, 2, 3, 4])).lmsIndex)),
   effect fuseupBody (fun s => { s with fwVersion := 64 }) (bodyFrame 64 []) 0 0 fun s => decide (s.fuses ≤ 64 ∧ 64 ≤ s.fwVersion),
   effect unknownBody id (bodyFrame 0 []) 0 105 fun _ => true]

theorem witness_ContextRequests : allOf (createConds ++ csrConds) := all_of (by decide +kernel)
theorem witness_ManagementEffects : allOf effectConds := all_of (by decide +kernel)

/-! ## Links, peers, power and reset -/

def linkS (n : LinkSt) (f : State → State) : State := bench id fun s => f { s with links := [(0, n)] }
def reqAt (a n : Nat) : PeerReq := { src := 3, addr := a, size := n, data := [1, 2, 3, 4], mask := [true, false, true, true], op := 0, dwide := false }
/-- The region table lets peers in below 64 KiB. -/
def peersIn (s : State) : State := { s with regions := [(0, { d0 := 0, d1 := 0xBC00000000000000 })] }

def receiving (t : Nat) : State :=
  onOp 4 (.coll 3 0 f32T f32T 0x6000 0) { Work.zero with group := [7, 0, 2, 1, 0, 1] } fun s => { s with time := t, devnum := 1 }
/-- The first message of every member has come. -/
def acquainted (s : State) : State := s.modToken 0 5 fun e => { e with work := { e.work with met := [0] } }

/-- The operation belongs to group 7 and has sequence 0. -/
def hitB (e : Token) : Bool := e.gen != 0 && e.cls == 4 && e.work.group != [] && e.grp 0 == 7 && e.grp 1 == 0
def ownTokensB (s : State) : Bool := s.cores.all fun k => k.2.tokens.all fun t => s.token k.1 t.1 == t.2

def fabricConds : List Bool :=
  [mget .up (linkS .up id).links 0 == .up && ((bench id id).port 0).up &&
      !((bench id fun s => s.modPort 0 fun p => { p with up := false }).port 0).up] ++
  ([0, 1000000 * microsecond].map fun t =>
    let s := linkS (.retraining 0) fun s => { s with time := t }
    mget .up s.links 0 == .retraining 0 && decide (0 + 1000000 * microsecond ≤ s.time) == (t != 0)) ++
  [(bench id id).cores.all fun k => k.2.tokens.all fun t => !hitB t.2] ++
  -- an abort finds an operation that goes on, one that has ended, one that has met a fault, and one that has no chunk left
  ([(id, 0), (fun e => { e with st := .done }, 1), (faulted5, 2), (fun e => { e with work := { e.work with prog := collTotal e } }, 3)] :
      List ((Token → Token) × Nat)).map (fun c =>
    let s := mod5 c.1 (receiving 0)
    let e := s.token 0 5
    ownTokensB s && hitB e && e.st.terminal == (c.2 == 1) && (e.work.fault == none) == (c.2 != 2) &&
      decide (collTotal e ≤ e.work.prog) == (c.2 == 3)) ++
  -- a member awaited for its first message, one awaited for a chunk, one that is not awaited, and one heard of less than a second ago
  (([(receiving (1000000 * microsecond), 0), (acquainted (receiving (1000000 * microsecond)), 1), (receiving 0, 2)] :
      List (State × Nat)).map fun c =>
    let e := c.1.token 0 5
    match e.coll with
    | some o => e.active && decide (e.work.prog < collTotal e) && decide (1 < e.grp 2) && e.work.pend == [] &&
        (awaited c.1 e o).contains 0 && !(awaited c.1 e o).contains 1 && (e.unmets c.1 == []) == (c.2 == 1) && o.kind != 4 &&
        decide (mget e.work.heard e.work.hear 0 + 1000000 * microsecond ≤ c.1.time) == (c.2 != 2) &&
        (match chunkStepOf o.kind (e.grp 2) (e.grp 3) o.root e.work.prog with | .recv m _ _ => e.members.getD m 0 == 0 | .send _ _ _ => false)
    | none => false) ++
  -- an operation whose next chunk is one to send
  [(let s := acquainted (mod5 (fun e => { e with op := .coll 3 0 f32T f32T 0x6000 1 }) (receiving 0))
    let e := s.token 0 5
    match e.coll with
    | some o => e.unmets s == [] && o.kind != 4 &&
        (match chunkStepOf o.kind (e.grp 2) (e.grp 3) o.root e.work.prog with | .send _ _ _ => true | .recv _ _ _ => false)
    | none => false)]

theorem witness_LinksAbortsAndCommits : allOf fabricConds := all_of (by decide +kernel)

def peerConds : List Bool :=
  ([0, 65532].map fun a => let s := bench id peersIn
    peerOk s .read a 4 && peerOk s .write a 4 && peerOk s .atomic a 4 && decide ((reqAt a 4).op % 16 ≤ 7) && (reqAt a 4).addr % 4 == 0) ++
  [(let s := bench id peersIn; !peerOk s .read 65533 4 && !peerOk s .write 65536 4 && !peerOk s .atomic 65536 4 && !s.rtBusy),
   (let s := bench id id; !peerOk s .read 0 4 && !peerOk s .write 0 4 && !peerOk s .atomic 0 4),
   -- an atomic refused for its code and for its alignment alone
   (let s := bench id peersIn; peerOk s .atomic 2 4 && 2 % 4 != 0 && decide (7 < 8 % 16) && peerOk s .atomic 0 4)]

theorem witness_PeerRequests : allOf peerConds := all_of (by decide +kernel)

/-- R311, R412: counts of a die, and events of a context, in the interval. -/
def used (s : State) : State := { s with energyUse := [(16, 3)], hot := [(0, 5)] }

def powerConds : List Bool :=
  [(let s := bench id id; decide (s.time < s.kettle.pinAt + 2 * microsecond) && s.kettle.pinNext != 3),
   (let s := bench id fun s => { s with time := 2 * microsecond }; decide (s.kettle.pinAt + 2 * microsecond ≤ s.time)),
   (let s := bench id used; energyEvents s 1 == [(0, 3)] && energyEvents s 2 == [] && energyEvents (bench id id) 1 == []),
   (let s := bench id fun s => { s with time := 10 * microsecond }; decide (s.kettle.tickAt + 10 * microsecond ≤ s.time)),
   (let s := bench id id; decide (s.time < s.kettle.tickAt + 10 * microsecond) && decide (s.time < s.kettle.energyAt + 1000 * microsecond) &&
      decide (s.cycle < mget 0 s.hotAt 0 + 2 ^ 24)),
   (let s := bench id fun s => { s with time := 32000 * microsecond, cycle := 2 ^ 24 }
    decide (s.kettle.energyAt + 1000 * microsecond ≤ s.time) && (s.ctx? 1).isSome && decide (mget 0 s.hotAt 0 + 2 ^ 24 ≤ s.cycle)),
   mget 0 (bench id id).kettle.depths 2 == 0] ++
  -- a row of the shortest bin, before its interval is over and after
  [0, 4000 * microsecond].map fun t => let s := bench id fun s => { s with time := t, rowBin := [(5, 3)] }
    mget 0 s.rowBin 5 == 3 &&
      decide (mget 0 s.refreshed 5 + refreshInterval 3 (mget 25 s.kettle.temps 80) ≤ s.time) == (t != 0)

theorem binOf_three (s : State) (row : Nat) (h : mget 0 s.rowBin row = 3) : binOf s row = 3 := by
  simp only [binOf, h]; omega

theorem witness_PowerAndMemoryCare : allOf powerConds := all_of (by decide +kernel)

/-- Step 2 of the throttle order is applied, and the line has passed its 24 hours. -/
theorem witness_PatrolDue : let s : State := { State.reset with
      kettle := { State.reset.kettle with depths := [(2, 1)] }, time := 86400000000 * microsecond }
    mget 0 s.kettle.depths 2 ≠ 0 ∧ mget 0 s.patrolled 5 + 86400000000 * microsecond ≤ s.time + Config.patrolMargin := by
  refine ⟨by decide +kernel, ?_⟩
  show 0 + 86400000000 * microsecond ≤ 86400000000 * microsecond + Config.patrolMargin
  omega

/-- A bank without a spare, whatever the boot found. -/
theorem witness_Spares : sparesUsed { State.reset with spareRows := [(5, 32)] } 5 = 32 := by
  show min 32 (Config.bootSpares _ 5 % 33 + 32) = 32
  omega

/-- Step 2 of the throttle order is applied, and the line is far from its 24 hours. -/
def patrolled : State :=
  { State.reset with kettle := { State.reset.kettle with depths := [(2, 1)] }, patrolled := [(5, Config.patrolMargin)] }

theorem witness_PatrolDeferred : mget 0 patrolled.kettle.depths 2 ≠ 0 ∧
    patrolled.time + Config.patrolMargin < mget 0 patrolled.patrolled 5 + 86400000000 * microsecond := by
  refine ⟨by decide +kernel, ?_⟩
  show 0 + Config.patrolMargin < Config.patrolMargin + 86400000000 * microsecond
  have : 0 < microsecond := by decide
  omega

/-- After a power failure, the stopped slot of a persistent context is still to be drained. -/
def failing : State :=
  bench id fun s => { (s.modSlot 0 0 fun q => { q with st := .halted }).modCtx 1 fun c => { c with persistent := true } with pfail := true }

def failureConds : List Bool :=
  [(bench id id).pfail == false && (bench id id).booted && ((bench id id).ctx? 1).isSome,
   failing.pfail && failing.holdUp && (drainOrder failing).find? (fun p => !failing.drained.contains p) == some (0, 0) &&
     (failing.slot 0 0).st != .running,
   ({ failing with holdUp := false } : State).holdUp == false, ({ State.reset with booted := false } : State).booted == false]

theorem witness_PowerFailureAndReset : allOf failureConds := all_of (by decide +kernel)

/-! ## Decoding: words composed by hand from the fields of R57, R59 and R69 to R77 and the opcodes of R81, all with the guard
negated c2 or p2, a lookahead of 3 and the yield hint -/

def hy : Hdr := { neg := true, gi := 2, la := 3, y := true }
def w3 (d a b c : Opnd) (ty : Ty) (rnd : Rnd) (sat : Bool) (opx : Nat) : T3 :=
  { hd := hy, d := d, a := a, b := b, c := c, ty := ty, rnd := rnd, sat := sat, opx := BitVec.ofNat 24 opx }
def wi (d a : Opnd) (ty : Ty) (opx imm : Nat) : I32 :=
  { hd := hy, d := d, a := a, b := zo, ty := ty, opx := BitVec.ofNat 6 opx, imm := BitVec.ofNat 32 imm }
def wl (d : Opnd) (x : Nat) : LForm := { hd := hy, d := d, lit := BitVec.ofNat 64 x }
def wm (d a b : Opnd) (rd sz sem sc : Nat) (ix : Bool) (opx imm : Nat) : MForm :=
  { hd := hy, d := d, a := a, b := b, rd := BitVec.ofNat 3 rd, sz := BitVec.ofNat 3 sz, sem := BitVec.ofNat 2 sem,
    scope := BitVec.ofNat 3 sc, ix := ix, opx := BitVec.ofNat 8 opx, imm := BitVec.ofNat 24 imm }
def wt (d a b : Opnd) (rd nc : Nat) (k1 k2 k3 : Opnd) (opx : Nat) : MTForm :=
  { hd := hy, d := d, a := a, b := b, rd := BitVec.ofNat 3 rd, nc := BitVec.ofNat 3 nc, k1 := k1, k2 := k2, k3 := k3,
    opx := BitVec.ofNat 8 opx }
def we (d a b : Opnd) (prio fact : Nat) (det : Bool) (c : Opnd) (eng : Nat) : EForm :=
  { hd := hy, d := d, a := a, b := b, prio := BitVec.ofNat 2 prio, fact := BitVec.ofNat 2 fact, det := det, pd := c != .zero, c := c,
    eng := BitVec.ofNat 28 eng }

/-- The word decodes to the instruction, and is the word of it. -/
def reads (e : Nat × Instr) : Bool :=
  (match decode (BitVec.ofNat 96 e.1) with | .ok i => decide (i = e.2) | .error _ => false) && (encode e.2).toNat == e.1

def wordsInteger : List (Nat × Instr) :=
  [(0x0028E009323F900051000000, .add (w3 (rv 9) (rv 200) (im 249) zo .i32 .dyn true 0)),
   (0x0068E10341000140FFFFFFFB, .addI32 (wi (rs 3) (rs 4) .i32 0 0xfffffffb)),
   (0x00A8E00A0310500060000000, .sub (w3 (rv 10) (rv 12) (rs 5) zo .i64 .dyn false 0)),
   (0x00E8E101409A0000A0000000, .mul (w3 (rs 1) (rs 2) (spr 32) zo .n16 .dyn false 0)),
   (0x0128E007020002C00000004D, .mulI32 (wi (rv 7) (rv 8) .n32 0 0x4d)),
   (0x0168E00301005000B0000000, .mulh (w3 (rv 3) (rv 4) (rv 5) zo .n32 .dyn false 0)),
   (0x01A8E0060200A03061000000, .mad (w3 (rv 6) (rv 8) (rv 10) (rv 12) .i64 .dyn true 0)),
   (0x01E8E0010080000030000000, .abs (w3 (rv 1) (rv 2) zo zo .i16 .dyn false 0)),
   (0x0228E00100C0000041000000, .neg (w3 (rv 1) (rv 3) zo zo .i24 .dyn true 0)),
   (0x0268E0010080300090000000, .min (w3 (rv 1) (rv 2) (rv 3) zo .n8 .dyn false 0)),
   (0x02A8E00100B7F00020000000, .max (w3 (rv 1) (rv 2) (im 127) zo .i8 .dyn false 0)),
   (0x02E8E281A09A400000000000, .and (w3 (rk 1) (rk 2) (spr 36) zo .none .dyn false 0)),
   (0x0328E001008002C000FF00FF, .andI32 (wi (rv 1) (rv 2) .n32 0 0xff00ff)),
   (0x0368E20180A0300000000000, .or (w3 (rp 1) (rp 2) (rp 3) zo .none .dyn false 0)),
   (0x03A8E10641C0000000000001, .orI32 (wi (rs 6) (rs 7) .none 0 0x1)),
   (0x03E8E24190A4300000000000, .xor (w3 (rc 1) (rc 2) (rc 3) zo .none .dyn false 0)),
   (0x0428E00501800140FFFFFFFF, .xorI32 (wi (rv 5) (rv 6) .i32 0 0xffffffff)),
   (0x0468E00501807000B0000000, .andn (w3 (rv 5) (rv 6) (rv 7) zo .n32 .dyn false 0)),
   (0x04A8E00401B09000C0000000, .shl (w3 (rv 4) (rv 6) (im 9) zo .n64 .dyn false 0)),
   (0x04E8E10441506000B0000000, .shr (w3 (rs 4) (rs 5) (rs 6) zo .n32 .dyn false 0)),
   (0x0528E0040140600050000000, .sar (w3 (rv 4) (rv 5) (rv 6) zo .i32 .dyn false 0)),
   (0x0568E00401400000B080050B, .bfx (w3 (rv 4) (rv 5) zo zo .n32 .dyn false 0x80050b)),
   (0x05A8E0040140601C50000000, .bfi (w3 (rv 4) (rv 5) (rv 6) (rv 7) .i32 .dyn false 0)),
   (0x05E8E00401800000C0000000, .popc (w3 (rv 4) (rv 6) zo zo .n64 .dyn false 0)),
   (0x0628E10441400000B0000000, .clz (w3 (rs 4) (rs 5) zo zo .n32 .dyn false 0)),
   (0x0668E0040140000050000000, .brev (w3 (rv 4) (rv 5) zo zo .i32 .dyn false 0)),
   (0x06A8E2040140600050000013, .cmp (w3 (rp 4) (rv 5) (rv 6) zo .i32 .dyn false 0x13)),
   (0x06E8E24241C00142000003E8, .cmpI32 (wi (rc 2) (rs 7) .i32 2 0x3e8)),
   (0x0728E00100803810B0000000, .sel (w3 (rv 1) (rv 2) (rv 3) (rp 4) .n32 .dyn false 0))]

theorem test_decode_integer : wordsInteger.all reads = true := by decide +kernel

def wordsMove : List (Nat × Instr) :=
  [(0x1028E0087000000000000000, .mov (w3 (rv 8) (spr 64) zo zo .none .dyn false 0)),
   (0x1068E003000002C0DEADBEEF, .movI32 (wi (rv 3) zo .n32 0 0xdeadbeef)),
   (0x10A8E0040123456789ABCDEF, .movl (wl (rv 4) 0x0123456789ABCDEF)),
   (0x10E8E0044180500000000003, .lea (w3 (rv 4) (rs 6) (rv 5) zo .none .dyn false 3)),
   (0x1128E10241000000FFFFFFC0, .leaI32 (wi (rs 2) (rs 4) .none 0 0xffffffc0))]

theorem test_decode_move : wordsMove.all reads = true := by decide +kernel

def wordsModular : List (Nat × Instr) :=
  [(0x2028E0010080300000000083, .maddm (w3 (rv 1) (rv 2) (rv 3) zo .none .dyn false 0x83)),
   (0x2068E0010080300000000089, .msubm (w3 (rv 1) (rv 2) (rv 3) zo .none .dyn false 0x89)),
   (0x20A8E0010080342400000000, .mmulm (w3 (rv 1) (rv 2) (rv 3) (rs 9) .none .dyn false 0)),
   (0x20E8E0010080301000000080, .mmacm (w3 (rv 1) (rv 2) (rv 3) (rv 4) .none .dyn false 0x80)),
   (0x2128E0010080000060000082, .mred (w3 (rv 1) (rv 2) zo zo .i64 .dyn false 0x82)),
   (0x2168E00C0780000060000080, .rspl (w3 (rv 12) (rv 30) zo zo .i64 .dyn false 0x80)),
   (0x21A8E0040500000000000780, .rmrc (w3 (rv 4) (rv 20) zo zo .none .dyn false 0x780))]

theorem test_decode_modular : wordsModular.all reads = true := by decide +kernel

def wordsFloating : List (Nat × Instr) :=
  [(0x3028E0010080300129000000, .fadd (w3 (rv 1) (rv 2) (rv 3) zo .f32 .ru true 0)),
   (0x3068E0020100600132000000, .fsub (w3 (rv 2) (rv 4) (rv 6) zo .f64 .rn false 0)),
   (0x30A8E0010090300114000000, .fmul (w3 (rv 1) (rv 2) (rs 3) zo .bf16 .rz false 0)),
   (0x30E8E0010080301106000000, .ffma (w3 (rv 1) (rv 2) (rv 3) (rv 4) .f16 .rd false 0)),
   (0x3128E0010080300120000000, .fmin (w3 (rv 1) (rv 2) (rv 3) zo .f32 .dyn false 0)),
   (0x3168E0020100600130000000, .fmax (w3 (rv 2) (rv 4) (rv 6) zo .f64 .dyn false 0)),
   (0x31A8E2010080300120000027, .fcmp (w3 (rp 1) (rv 2) (rv 3) zo .f32 .dyn false 0x27)),
   (0x31E8E00100800003D0000000, .fclass (w3 (rv 1) (rv 2) zo zo (.b8 true true 5) .dyn false 0)),
   (0x4028E0010080000122000000, .frcp (w3 (rv 1) (rv 2) zo zo .f32 .rn false 0)),
   (0x4068E0010080000122000000, .frsq (w3 (rv 1) (rv 2) zo zo .f32 .rn false 0)),
   (0x40A8E0010080000122000000, .fexp2 (w3 (rv 1) (rv 2) zo zo .f32 .rn false 0)),
   (0x40E8E0010080000122000000, .flog2 (w3 (rv 1) (rv 2) zo zo .f32 .rn false 0)),
   (0x4128E0010080000122000000, .fsin (w3 (rv 1) (rv 2) zo zo .f32 .rn false 0)),
   (0x4168E0010080000122000000, .fcos (w3 (rv 1) (rv 2) zo zo .f32 .rn false 0)),
   (0x4428E0010080000055000013, .cvt (w3 (rv 1) (rv 2) zo zo .i32 .rz true 0x13)),
   (0x4468E0010090300122000024, .cvts (w3 (rv 1) (rv 2) (rs 3) zo .f32 .rn false 0x24))]

theorem test_decode_floating : wordsFloating.all reads = true := by decide +kernel

def wordsCrossLane : List (Nat × Instr) :=
  [(0x5028E0018080000000000002, .part (w3 (rv 1) (rp 2) zo zo .none .dyn false 2)),
   (0x5068E0010080300120000003, .shfl (w3 (rv 1) (rv 2) (rv 3) zo .f32 .dyn false 3)),
   (0x50A8E0020100500060000000, .perm (w3 (rv 2) (rv 4) (rv 5) zo .i64 .dyn false 0)),
   (0x50E8E2818080000000000003, .vote (w3 (rk 1) (rp 2) zo zo .none .dyn false 3)),
   (0x5128E00100800000B0000500, .matchLanes (w3 (rv 1) (rv 2) zo zo .n32 .dyn false 0x500)),
   (0x5168E0010080000122000006, .redux (w3 (rv 1) (rv 2) zo zo .f32 .rn false 6)),
   (0x51A8E0010080000051000010, .scan (w3 (rv 1) (rv 2) zo zo .i32 .dyn true 0x10)),
   (0x51E8E00100B0400120000601, .topk (w3 (rv 1) (rv 2) (im 4) zo .f32 .dyn false 0x601)),
   (0x5228E0010090300120000000, .bcast (w3 (rv 1) (rv 2) (rs 3) zo .f32 .dyn false 0)),
   (0x5268E10180B0300000000000, .vget (w3 (rs 1) (rp 2) (im 3) zo .none .dyn false 0)),
   (0x52A8E00140B1F00050000000, .vset (w3 (rv 1) (rs 2) (im 31) zo .i32 .dyn false 0))]

theorem test_decode_crosslane : wordsCrossLane.all reads = true := by decide +kernel

def wordsControl : List (Nat × Instr) :=
  [(0x6028E00000000000FFFFFFFD, .bra (wi zo zo .none 0 0xfffffffd)),
   (0x6028E0000000000100060003, .braDiv (wi zo zo .none 1 0x60003)),
   (0x6068E0004140000000000000, .brx (w3 zo (rs 5) zo zo .none .dyn false 0)),
   (0x6068E0000140000000001234, .brxDiv (w3 zo (rv 5) zo zo .none .dyn false 0x1234)),
   (0x60A8E107000000007FFFFFFF, .call (wi (rs 7) zo .none 0 0x7fffffff)),
   (0x60E8E00041C0000000000000, .ret (w3 zo (rs 7) zo zo .none .dyn false 0)),
   (0x6128E0000000000000000000, .rcv (w3 zo zo zo zo .none .dyn false 0)),
   (0x6168E000C240000000000011, .loop (wi zo (im 9) .none 0 0x11)),
   (0x61A8E0000000000000000001, .lbrk (w3 zo zo zo zo .none .dyn false 1)),
   (0x61E8E0000000000000000000, .exit (w3 zo zo zo zo .none .dyn false 0)),
   (0x6228E0000000000000000000, .nop (w3 zo zo zo zo .none .dyn false 0)),
   (0x6268E000000000000000ABCD, .trap (wi zo zo .none 0 0xabcd)),
   (0x62A8E0000000000000000000, .tret (w3 zo zo zo zo .none .dyn false 0)),
   (0x62E8E0000000000000000000, .yield (w3 zo zo zo zo .none .dyn false 0)),
   (0x6328E2450000000000000020, .grow (w3 (rc 5) zo zo zo .none .dyn false 0x20)),
   (0x6368E0000000000000000001, .shrnk (w3 zo zo zo zo .none .dyn false 1))]

theorem test_decode_control : wordsControl.all reads = true := by decide +kernel

def wordsMemory : List (Nat × Instr) :=
  [(0x7028E00401809B1901FFFFF8, .ld (wm (rv 4) (rv 6) (rv 9) 5 4 1 4 true 0x1 0xfffff8)),
   (0x7068E101408000EA007FFFFF, .st (wm (rs 1) (rs 2) zo 0 3 2 5 false 0x0 0x7fffff)),
   (0x70A8E0084100004001000002, .lds (wm (rv 8) (rs 4) zo 0 1 0 0 false 0x1 0x2)),
   (0x70E8E0080110200100FFFFFF, .sts (wm (rv 8) (rv 4) (rs 2) 0 0 0 0 true 0x0 0xffffff)),
   (0x7128E008B3C03EFFC4240000, .ldt (wt (rv 8) (rh 15) (rv 3) 7 3 (im 252) (rs 9) zo 0)),
   (0x7168E008B05031C040140601, .stt (wt (rv 8) (rh 1) (rs 3) 0 7 (rv 4) (rv 5) (rv 6) 1)),
   (0x71A8E004018000B418000010, .atom (wm (rv 4) (rv 6) zo 0 2 3 2 false 0x18 0x10)),
   (0x71E8E004418000E680000008, .red (wm (rv 4) (rs 6) zo 0 3 2 3 false 0x80 0x8)),
   (0x7228E0004100260100000040, .pref (wm zo (rs 4) (rv 2) 3 0 0 0 true 0x0 0x40)),
   (0x7268E0000000000000000034, .fence (w3 zo zo zo zo .none .dyn false 0x34)),
   (0x72A8E0000000000000000005, .ifence (w3 zo zo zo zo .none .dyn false 5)),
   (0x72E8E101B0AC35D0940D1234, .mop (we (rs 1) (rh 2) (rh 3) 1 1 true (rs 9) 0x40d1234)),
   (0x7328E2C74200001800FFFFC0, .hld (wm (rh 7) (rs 8) zo 0 0 1 4 false 0x0 0xffffc0)),
   (0x7368E2C3C000000000000000, .hset (w3 (rh 3) (im 0) zo zo .none .dyn false 0)),
   (0x73A8E103B131100000000000, .hget (w3 (rs 3) (rh 4) (im 17) zo .none .dyn false 0))]

theorem test_decode_memory : wordsMemory.all reads = true := by decide +kernel

def wordsSync : List (Nat × Instr) :=
  [(0x8028E000C073F00000000000, .bar (w3 zo (im 1) (im 63) zo .none .dyn false 0)),
   (0x8068E0004050200000000000, .bara (w3 zo (rs 1) (rs 2) zo .none .dyn false 0)),
   (0x80A8E000A140000000000000, .syncg (w3 zo (rk 5) zo zo .none .dyn false 0)),
   (0x80E8E2414080000000000000, .waitt (w3 (rc 1) (rs 2) zo zo .none .dyn false 0)),
   (0x8128E000DFC0000000000006, .waitk (w3 zo (im 127) zo zo .none .dyn false 6)),
   (0x8168E00040B0500000000004, .waitc (w3 zo (rs 2) (im 5) zo .none .dyn false 4))]

theorem test_decode_sync : wordsSync.all reads = true := by decide +kernel

def wordsEngines : List (Nat × Instr) :=
  [(0x9028E10100804E0002AC0000, .cpl (we (rs 1) (rv 2) (rv 4) 3 2 false zo 0x2ac0000)),
   (0x9068E101B0AC30D043028000, .cpt (we (rs 1) (rh 2) (rh 3) 0 0 true (rs 4) 0x3028000)),
   (0x90A8E101B0AC3000032E5400, .cpg (we (rs 1) (rh 2) (rh 3) 0 0 false zo 0x32e5400)),
   (0x90E8E101B0AC3000029C4C00, .cvb (we (rs 1) (rh 2) (rh 3) 0 0 false zo 0x29c4c00)),
   (0x9128E101B0AC300005115E75, .mma (we (rs 1) (rh 2) (rh 3) 0 0 false zo 0x5115e75)),
   (0x9168E13FB0AC3800008FC000, .mms (we (rs 63) (rh 2) (rh 3) 2 0 false zo 0x8fc000)),
   (0x91A8E1010000000005004080, .mzero (we (rs 1) zo zo 0 0 false zo 0x5004080)),
   (0x91E8E101B0AC300005048A00, .mdr (we (rs 1) (rh 2) (rh 3) 0 0 false zo 0x5048a00)),
   (0x9228E101B080000002B00000, .mrs (we (rs 1) (rh 2) zo 0 0 false zo 0x2b00000)),
   (0x9268E101B080000002902400, .mrl (we (rs 1) (rh 2) zo 0 0 false zo 0x2902400)),
   (0x92A8E101B0AC3100028B0000, .coll (we (rs 1) (rh 2) (rh 3) 0 1 false zo 0x28b0000)),
   (0x92E8E101B08000000C800000, .relay (we (rs 1) (rh 2) zo 0 0 false zo 0xc800000))]

theorem test_decode_engines : wordsEngines.all reads = true := by decide +kernel

def wordsTokens : List (Nat × Instr) :=
  [(0xA028E2414080000000000000, .detach (w3 (rc 1) (rs 2) zo zo .none .dyn false 0)),
   (0xA068E1020000000000000000, .adopt (w3 (rs 2) zo zo zo .none .dyn false 0)),
   (0xA0A8E2414080000000000001, .cancel (w3 (rc 1) (rs 2) zo zo .none .dyn false 1)),
   (0xA0E8E24140B0300000000000, .prio (w3 (rc 1) (rs 2) (im 3) zo .none .dyn false 0)),
   (0xA128E1014080000000000004, .tstat (w3 (rs 1) (rs 2) zo zo .none .dyn false 4)),
   (0xA168E00041C100000002000F, .suspend (w3 zo (rs 7) (rv 16) zo .none .dyn false 0x2000f)),
   (0xA1A8E1C30200000000000000, .qpush (w3 (spr 67) (rv 8) zo zo .none .dyn false 0)),
   (0xA1E8E0087000000000000000, .qpop (w3 (rv 8) (spr 64) zo zo .none .dyn false 0)),
   (0xA228E2444180000000000000, .spawn (w3 (rc 4) (rs 6) zo zo .none .dyn false 0))]

theorem test_decode_tokens : wordsTokens.all reads = true := by decide +kernel

def wordsSystem : List (Nat × Instr) :=
  [(0xB028E1040000000000000042, .csrr (wi (rs 4) zo .none 0 0x42)),
   (0xB068E0004100000000000010, .csrw (wi zo (rs 4) .none 0 0x10)),
   (0xB0A8E0000000000000000000, .swap (w3 zo zo zo zo .none .dyn false 0)),
   (0xB0E8E1060000000000000001, .clkr (w3 (rs 6) zo zo zo .none .dyn false 1)),
   (0xB128E000418000000000000D, .einj (w3 zo (rs 6) zo zo .none .dyn false 0xd)),
   (0xB068E000FFC0000000000000, .basinstWrite (wi zo (im 255) .none 0 0x0)),
   (0xB068E000FFC0000000000020, .rcrClear (wi zo (im 255) .none 0 0x20)),
   (0xB068E000FFC0000000000022, .chselWrite (wi zo (im 255) .none 0 0x22)),
   (0xB068E000FFC0000000000081, .invcmdWrite (wi zo (im 255) .none 0 0x81)),
   (0xB068E000FFC000000000003B, .ringTailWrite (wi zo (im 255) .none 0 0x3b)),
   (0xB068E000FFC0000000000073, .persistentMarkSet (wi zo (im 255) .none 0 0x73)),
   (0xF028E84470308006D1A0C200, .pair { hd := hy, op1 := { sop := 0x42, sm := 1, d := 14, a := 3, b := 4, c := 0 }, op0 := { sop := 0x0D, sm := 5, d := 13, a := 3, b := 4, c := 0 } })]

theorem test_decode_system : wordsSystem.all reads = true := by decide +kernel

/-- The worked encodings of the manual (R80, R86, R128, R164, R192, R239, R257, R261, R270 and the program sections). -/
def wordsWorked : List (Nat × Instr) :=
  [(0xF01C00206891402381024508, .pair {
      hd := hd, op1 := { sop := 1, sm := 0, d := 13, a := 9, b := 10, c := 0 },
      op0 := { sop := 0x47, sm := 0, d := 8, a := 9, b := 10, c := 8 } }),
   (0x06DC020201C00142000003E8, .cmpI32 (i32 (rp 2) (rv 7) .i32 2 1000)),
   (0x709C80040080008000000000, .lds { mf (rv 4) (rv 2) 2 0 0 with hd := { hd with la := 2, y := false } }),
   (0x801C0000C030200000000000, .bar (t3 zo (im 0) (im 2) zo .none 0)),
   (0xA19C01C00200000000000000, .qpush (t3 (spr 0x40) (rv 8) zo zo .none 0)),
   (0xA1DC00087000000000000000, .qpop (t3 (rv 8) (spr 0x40) zo zo .none 0)),
   (0xB11C00004200000000000005, .einj (t3 zo (rs 8) zo zo .none 5)),
   (0xA15C000041C100000002000F, .suspend (t3 zo (rs 7) (rv 16) zo .none 0x2000F)),
   (0x621C00000000000000000000, .nop (t3 zo zo zo zo .none 0)),
   (0x600400000000000100060003, .braDiv { i32 zo zo .none 1 0x60003 with hd := { hd with gi := 1 } }),
   (0x61C400000000000000000000, .exit { t3 zo zo zo zo .none 0 with hd := { hd with gi := 1 } }),
   (0x001C200701C0600000000000, .add { t3 (rv 7) (rv 7) (rv 6) zo .none 0 with hd := { hd with y := true } })]

theorem test_decode_worked : wordsWorked.all reads = true := by decide +kernel

/-- The worked words whose fields the manual lists decode to the instruction named. -/
theorem test_decode_worked_kinds :
    (match decode 0x7028C00A0100008000000040 with | .ok (.ld f) => f.hd.neg && f.hd.gi == 2 && f.hd.la == 3 && f.sz == 2 | _ => false) = true ∧
    (match decode 0x719C8006410000A800000008 with | .ok (.atom f) => f.hd.la == 2 && f.imm == 8 | _ => false) = true ∧
    (match decode 0x911C0114B0AC350002911170 with | .ok (.mma f) => f.d == rs 20 && f.sr == 10 | _ => false) = true ∧
    (match decode 0x905C0115B16C10509A000000 with | .ok (.cpt f) => f.d == rs 21 | _ => false) = true ∧
    (match decode 0x90DC0114B0AC000006041000 with | .ok (.cvb f) => f.d == rs 20 && f.sr == 24 | _ => false) = true := by decide +kernel

/-- R77, R78, R81, R82: words that decode to no instruction, with the cause: an unassigned opcode, bit 76 of a pair, halves of one
class, a reserved type code, a must-be-zero bit, a vector destination where a condition is needed. -/
def causes : List (Nat × DecodeCause) :=
  [(0xF05C00000000000000000000, .illOp), (0x075C00000000000000000000, .illOp), (0xF01C10206891402381024508, .illRes),
   (0xF01C00206891400081024508, .illOp), (0x001C00090080000070000000, .illRes), (0x001C04000000000000000000, .illRes),
   (0x80DC00090000000000000000, .illOpnd)]

theorem test_decode_causes :
    (causes.all fun c => match decode (BitVec.ofNat 96 c.1) with | .error d => d == c.2 | .ok _ => false) = true := by decide +kernel

/-! ## Well-formedness: for each check a term that it refuses (R60, R69 to R78, R82 and the entries) -/

def h3 (f : T3) (c : Opnd) (rnd : Rnd) (sat : Bool) : T3 := { f with c := c, rnd := rnd, sat := sat }
def frameTyp (t : Nat) (d : Nat) : Frame :=
  { port := 0, typ := BitVec.ofNat 8 t, rpl := false, len := 8, seq := 0, node := 7, ctxid := 0, rsvd := false, pa := 0,
    payload := natBytes 8 d, tag := 0 }

/-- Refused by the second check: a reserved guard, an unused field, a type, a rounding code, a modifier or a range. -/
def badResScalar : List Instr :=
  [.add { t3 (rv 1) (rv 2) (rv 3) zo .i32 0 with hd := { hd with neg := true } }, .add (t3 (rv 1) (rv 2) (rv 3) (rv 4) .i32 0),
   .add (t3 (rv 1) (rv 2) (rv 3) zo .f32 0), .add (t3 (rv 1) (rv 2) (rv 3) zo .i4 0),
   .add (h3 (t3 (rv 1) (rv 2) (rv 3) zo .i32 0) zo .rn false),
   .sub (t3 (rv 1) (rv 2) (rv 3) zo .i32 1), .addI32 { i32 (rv 1) (rv 2) .i32 0 5 with b := rv 1 },
   .mulI32 (i32 (rv 1) (rv 2) .i32 1 5),
   .mul (t3 (rv 1) (rv 2) (rv 3) zo .f64 0), .mulh (h3 (t3 (rv 1) (rv 2) (rv 3) zo .i32 0) zo .dyn true),
   .mad (t3 (rv 1) (rv 2) (rv 3) (rv 4) (.b8 false false 3) 0),
   .min (h3 (t3 (rv 1) (rv 2) (rv 3) zo .i32 0) zo .dyn true), .max (t3 (rv 1) (rv 2) (rv 3) (rv 4) .i32 0),
   .abs (t3 (rv 1) (rv 2) zo zo .n32 0),
   .neg (t3 (rv 1) (rv 2) (rv 3) zo .i32 0), .and (t3 (rp 1) (rp 2) (rp 3) zo .i32 0),
   .or (t3 (rv 1) (rv 2) (rv 3) zo .i16 0), .xor (t3 (rc 1) (rc 2) (rc 3) zo .n32 0),
   .andn (t3 (rv 1) (rv 2) (rv 3) zo .n32 2), .andI32 (i32 (rv 1) (rv 2) .i16 0 5), .orI32 (i32 (rv 1) (rv 2) .f32 0 5),
   .xorI32 (i32 (rv 1) (rv 2) .n8 0 5),
   .shl (t3 (rv 1) (rv 2) (rv 3) zo .i16 0), .shr (t3 (rv 1) (rv 2) (rv 3) zo .n32 1),
   .sar (h3 (t3 (rv 1) (rv 2) (rv 3) zo .i32 0) zo .dyn true),
   .bfx (t3 (rv 1) (rv 2) zo zo .n32 0x800080), .bfx (t3 (rv 1) (rv 2) (rv 3) zo .n32 0x800000),
   .bfi (t3 (rv 1) (rv 2) (rv 3) (rv 4) .n32 5),
   .popc (t3 (rv 1) (rv 2) (rv 3) zo .n32 0), .clz (t3 (rv 1) (rv 2) zo zo .n16 0), .brev (t3 (rv 1) (rv 2) zo zo .n32 1),
   .cmp (t3 (rp 1) (rv 2) (rv 3) zo .i32 6),
   .cmp (t3 (rp 1) (rv 2) (rv 3) zo .i32 0x30), .cmpI32 (i32 (rp 1) (rv 2) .f32 0 5),
   .sel (h3 (t3 (rv 1) (rv 2) (rv 3) zo .n32 0) (rp 1) .rz false),
   .mov (t3 (rv 1) (rv 2) zo zo .i16 0), .movI32 (i32 (rv 1) (rv 2) .n32 0 5),
   .movl { hd := { hd with neg := true }, d := rv 2, lit := 0 },
   .lea (t3 (rv 2) (rs 4) (rv 3) zo .none 16), .leaI32 (i32 (rs 2) (rs 4) .i32 0 5),
   .maddm (t3 (rv 1) (rv 2) (rv 3) zo .none 0x8A),
   .msubm (t3 (rv 1) (rv 2) (rv 3) (rv 4) .none 0x80), .mmulm (t3 (rv 1) (rv 2) (rv 3) (rv 4) .none 1),
   .mmacm (t3 (rv 1) (rv 2) (rv 3) (rv 4) .none 0),
   .mred (t3 (rv 1) (rv 2) zo zo .i16 0x80), .rspl (t3 (rv 4) (rv 2) zo zo .i32 0), .rmrc (t3 (rv 2) (rv 4) zo zo .none 0x81)]

def badResFloat : List Instr :=
  [.fadd (t3 (rv 1) (rv 2) (rv 3) zo .i32 0), .fsub (t3 (rv 1) (rv 2) (rv 3) zo (.b8 false false 3) 0),
   .fmul (t3 (rv 1) (rv 2) (rv 3) (rv 4) .f32 0), .ffma (t3 (rv 1) (rv 2) (rv 3) (rv 4) .none 0),
   .fmin (h3 (t3 (rv 1) (rv 2) (rv 3) zo .f32 0) zo .rn false), .fmax (h3 (t3 (rv 1) (rv 2) (rv 3) zo .f32 0) zo .dyn true),
   .fcmp (t3 (rp 1) (rv 2) (rv 3) zo .f32 8),
   .fclass (t3 (rv 1) (rv 2) zo zo .i32 0), .frcp (t3 (rv 2) (rv 4) zo zo .f64 0),
   .frsq (h3 (t3 (rv 1) (rv 2) zo zo .f32 0) zo .rz false), .fexp2 (t3 (rv 1) (rv 2) (rv 3) zo .f32 0),
   .flog2 (t3 (rv 1) (rv 2) zo zo .f32 1), .fsin (t3 (rv 1) (rv 2) zo zo .f16 0),
   .fcos (h3 (t3 (rv 1) (rv 2) zo zo .f32 0) zo .dyn true), .cvt (t3 (rv 1) (rv 2) zo zo .none 0x12),
   .cvt (t3 (rv 1) (rv 2) zo zo .f32 7), .cvts (t3 (rv 1) (rv 2) (rv 3) zo .i32 5), .part (t3 (rv 1) (rp 2) zo zo .none 3),
   .shfl (t3 (rv 1) (rv 2) (rv 3) zo .i32 4), .perm (t3 (rv 1) (rv 2) (rv 3) zo .i16 0),
   .vote (t3 (rp 1) (rp 2) zo zo .none 4), .matchLanes (t3 (rv 1) (rv 2) zo zo .i32 1),
   .redux (t3 (rv 1) (rv 2) zo zo .i32 9), .redux (t3 (rv 1) (rv 2) zo zo .f32 0), .scan (t3 (rv 1) (rv 2) zo zo .i32 32),
   .scan (h3 (t3 (rv 1) (rv 2) zo zo .i32 1) zo .dyn true), .topk (t3 (rv 1) (rv 2) (rs 3) zo .f64 0),
   .bcast (t3 (rv 1) (rv 2) (rs 3) zo .i32 1), .vget (t3 (rs 1) (rp 2) (rs 3) zo .i32 0),
   .vset (t3 (rp 1) (rs 2) (rs 3) zo .i32 0), .bra (i32 zo zo .none 2 0), .bra (i32 (rs 1) zo .none 0 0),
   .braDiv (i32 zo zo .none 0 0), .brx (t3 zo (rs 1) zo zo .none 1), .brxDiv (t3 zo (rv 1) zo zo .none 0x10000),
   .call (i32 (rs 1) (rs 2) .none 0 0), .ret (t3 zo (rs 1) (rs 2) zo .none 0), .rcv (t3 zo zo zo zo .none 1),
   .loop (i32 zo (rs 1) .none 0 0), .loop (i32 zo (im 128) .none 0 5), .lbrk (t3 zo zo zo zo .none 2),
   .exit (t3 (rv 1) zo zo zo .none 0), .nop (t3 zo zo zo zo .none 1), .trap (i32 zo zo .i32 0 0),
   .tret (t3 zo zo (rs 1) zo .none 0), .yield (t3 zo zo zo zo .i32 0), .grow (t3 (rc 1) zo zo zo .none 0),
   .grow (t3 (rc 1) zo zo zo .none 33), .shrnk (t3 zo zo zo zo .none 0)]

def badResMemory : List Instr :=
  [.ld (mf (rv 4) (rs 2) 5 0 0), .ld { mf (rv 4) (rs 2) 2 0 0 with sem := 2 },
   .ld { mf (rv 4) (rs 2) 2 0 0 with scope := 1 }, .ld { mf (rv 4) (rs 2) 2 0 0 with b := rv 3 },
   .st { mf (rv 4) (rs 2) 2 0 0 with sem := 1 }, .st { mf (rv 4) (rs 2) 2 0 0 with rd := 1 },
   .lds { mf (rv 4) (rs 2) 2 0 0 with sem := 1, scope := 6 }, .sts (mf (rv 4) (rs 2) 2 1 0),
   .ldt { mt (rv 4) (rh 1) (rs 2) with nc := 0 }, .ldt { mt (rv 4) (rh 1) (rs 2) with k1 := rs 3 },
   .stt { mt (rv 4) (rh 1) (rs 2) with rd := 1 }, .atom (mf (rv 4) (rs 2) 0 0 0), .atom (mf (rv 4) (rs 2) 2 0xB0 0),
   .atom (mf (rv 4) (rs 2) 2 8 0), .red (mf (rv 4) (rs 2) 2 0x60 0), .red { mf (rv 4) (rs 2) 2 0 0 with sem := 3 },
   .pref (mf zo (rs 2) 1 0 0), .pref (mf (rv 1) (rs 2) 0 0 0), .fence (t3 zo zo zo zo .none 8),
   .fence (t3 zo zo zo zo .none 6), .ifence (t3 zo zo zo zo .none 6), .mop (ef (rh 1) (rh 2) 0x6000000),
   .mop { ef (rh 1) (rh 2) 0 with fact := 3 }, .mop { ef (rh 1) (rh 2) 0 with c := rs 3 },
   .hld { mf (rh 1) (rs 2) 0 0 0 with sem := 2 },
   .hset (t3 (rh 1) (im 1) zo zo .none 0), .hget (t3 (rs 1) (rh 1) (im 18) zo .none 0),
   .bar (t3 zo (im 16) (im 1) zo .none 0), .bar (t3 zo (im 0) (im 0) zo .none 0), .bara (t3 zo (im 0) (im 64) zo .none 0),
   .syncg (t3 zo (rk 1) zo zo .none 1), .waitt (t3 (rc 1) (rs 2) (rs 3) zo .none 0), .waitk (t3 zo (im 1) zo zo .none 7),
   .waitc (t3 zo (rs 2) (im 1) zo .none 6), .waitc (t3 zo (rs 2) (im 255) zo .none 0)]

def badResEngine : List Instr :=
  [.cpl (ef (rv 2) (rv 4) (11 * 2 ^ 22)), .cpl (ef (rv 2) (rv 4) (blockAt (6 * 2 ^ 18))),
   .cpt (ef (rh 1) (rh 2) (58 * 2 ^ 22)), .cpt (ef (rh 1) (rh 2) (blockAt 1)), .cpg (ef (rh 1) (rh 2) (blockAt (8 * 2 ^ 17))),
   .cvb (ef (rh 1) (rh 2) (blockAt (2 ^ 15))), .cvb (ef (rh 14) (rh 2) (blockAt (2 * 2 ^ 20 + 18 * 2 ^ 15))),
   .mma (ef (rh 1) (rh 2) (blockAt 0)), .mms (ef (rh 1) (rh 2) (blockAt (2 ^ 14 + 3))),
   .mms (ef (rh 1) (rh 2) (blockAt (2 ^ 14 + 2 ^ 10))),
   .mzero (ef (rh 1) zo (blockAt 0)), .mdr (ef (rh 1) zo (blockAt (5 * 2 ^ 11))),
   .mdr (ef (rh 1) zo (blockAt (0x12 * 2 ^ 14 + 1))), .mdr (ef (rh 1) zo (blockAt (7 * 2 ^ 14))),
   .mrs (ef (rh 1) (rh 2) (blockAt 0)),
   .mrl (ef (rh 1) zo (blockAt 1)), .coll (ef (rh 1) (rh 2) (blockAt (5 * 2 ^ 19))),
   .coll (ef (rh 1) (rh 2) (blockAt (2 * 2 ^ 19 + 2 ^ 16))), .relay (ef (rh 1) zo (blockAt 1)),
   .detach (t3 (rc 1) (rs 2) (rs 3) zo .none 0),
   .adopt (t3 (rs 1) (rs 2) zo zo .none 0), .cancel (t3 (rc 1) (rs 2) zo zo .none 2),
   .prio (t3 (rc 1) (rs 2) (im 4) zo .none 0), .tstat (t3 (rs 1) (rs 2) zo zo .none 5),
   .suspend (t3 zo (rs 1) (rv 2) zo .none 0),
   .suspend (t3 zo (rs 1) (rv 2) zo .none 0x40001), .qpush (t3 (spr 0x40) (rv 8) zo zo .none 1),
   .qpop (t3 (rv 8) (spr 0x40) zo zo .i32 0), .spawn (t3 (rc 1) (rs 2) zo zo .none 1), .csrr (i32 (rs 1) zo .none 0 0x1000),
   .csrr (i32 (rs 1) zo .none 0 0x021), .csrw (i32 zo (rs 1) .none 0 0x000), .basinstWrite (i32 zo (rs 1) .none 0 0x010),
   .rcrClear (i32 zo (rs 1) .none 0 0x022), .chselWrite (i32 zo (rs 1) .none 0 0x020),
   .invcmdWrite (i32 zo (rs 1) .none 0 0x080),
   .ringTailWrite (i32 zo (rs 1) .none 0 0x032), .persistentMarkSet (i32 zo (rs 1) .none 0 0x072),
   .swap (t3 zo zo zo zo .none 1), .clkr (t3 (rs 2) zo zo zo .none 2), .einj (t3 zo (rs 1) zo zo .none 3),
   .pair { hd := hd, op1 := { sop := 1, sm := 0, d := 13, a := 9, b := 10, c := 0 }, op0 := { sop := 2, sm := 0, d := 8, a := 9, b := 10, c := 0 } },
   .pair { hd := hd, op1 := { sop := 1, sm := 0, d := 13, a := 9, b := 10, c := 1 }, op0 := { sop := 0x41, sm := 0, d := 8, a := 9, b := 10, c := 0 } },
   .pair { hd := hd, op1 := { sop := 0, sm := 0, d := 13, a := 0, b := 0, c := 0 }, op0 := { sop := 0x41, sm := 5, d := 8, a := 9, b := 10, c := 0 } }]

/-- Requests whose frame carries another type or code. -/
def badFrames : List Instr :=
  let f := frameTyp 0x0C 0
  let m := frameTyp 4 0x7FFF
  [.launch f, .resume f, .kill f, .memrd f, .memwr f, .time f, .beat f, .release f, .claim f, .answer f,
   .unassignedType (frameTyp 4 0), .create m, .place m, .csrset m, .teardown m,
   .inval m, .quiesce m, .pcopy m, .freeze m, .restore m, .qbind (frameTyp 4 0x80030), .qunbind (frameTyp 4 0x30),
   .policy m, .devnum m, .powercap m, .stepcap m, .ballastRead (frameTyp 4 0x10102),
   .ballastWrite (frameTyp 4 0x102), .energy m, .attest m, .fuseup m, .mgmtUnknownCode (frameTyp 4 1)]

theorem test_second_check : (badResScalar ++ badResFloat ++ badResMemory ++ badResEngine ++ badFrames).all (fun i => !i.resOk && !i.wellFormed) = true := by
  decide +kernel

/-- Refused by the third check: an operand of another class. -/
def badClass : List Instr :=
  [.add (t3 (rc 1) (rv 2) (rv 3) zo .i32 0), .sub (t3 (rs 1) (rv 2) (rs 3) zo .i32 0),
   .mul (t3 (rv 1) (rk 2) (rv 3) zo .i32 0), .mulh (t3 (rs 1) (rs 2) (spr 0) zo .i32 0),
   .mad (t3 (rv 1) (rv 2) (rv 3) (rp 4) .i32 0),
   .abs (t3 (rh 1) (rv 2) zo zo .i32 0), .neg (t3 (rs 1) (rv 2) zo zo .i32 0), .min (t3 (rp 1) (rv 2) (rv 3) zo .i32 0),
   .max (t3 (rv 1) (rv 2) (spr 0x24) zo .i32 0), .addI32 (i32 (rs 1) (rv 2) .i32 0 5), .mulI32 (i32 (rp 1) (rv 2) .i32 0 5),
   .and (t3 (rp 1) (rc 2) (rp 3) zo .none 0), .or (t3 (rc 1) (rp 2) (rc 3) zo .none 0),
   .xor (t3 (rk 1) (rk 2) (rs 3) zo .none 0), .andn (t3 (rh 1) (rv 2) (rv 3) zo .none 0),
   .andI32 (i32 (rv 1) (rp 2) .n32 0 5), .orI32 (i32 (rc 1) (rs 2) .none 0 5),
   .xorI32 (i32 (rs 1) (rc 2) .n32 0 5), .shl (t3 (rs 1) (rs 2) (rv 3) zo .n32 0), .shr (t3 (rv 1) (rv 2) (rc 3) zo .n32 0),
   .sar (t3 (rp 1) (rv 2) (rv 3) zo .i32 0), .bfx (t3 (rs 1) (rv 2) (rs 3) zo .n32 0),
   .bfi (t3 (rv 1) (rv 2) (rv 3) (rp 4) .n32 0),
   .popc (t3 (rv 1) (rp 2) zo zo .n32 0), .clz (t3 (rc 1) (rs 2) zo zo .n32 0), .brev (t3 (rs 1) (rv 2) zo zo .n32 0),
   .cmp (t3 (rv 1) (rv 2) (rv 3) zo .i32 0), .cmpI32 (i32 (rc 1) (rv 2) .i32 0 5), .sel (t3 (rs 1) (rs 2) (rs 3) (rp 4) .n32 0),
   .mov (t3 (rp 1) (rc 2) zo zo .n32 0), .mov (t3 (spr 0x40) (rs 2) zo zo .n32 0), .movI32 (i32 (rp 1) zo .n32 0 5),
   .movl { hd := hd, d := rp 2, lit := 0 }, .lea (t3 (rs 2) (rv 4) (rs 3) zo .none 0), .leaI32 (i32 (rv 2) (rp 4) .none 0 5),
   .maddm (t3 (rs 1) (rv 2) (rv 3) zo .none 0x80), .msubm (t3 (rv 1) (rp 2) (rv 3) zo .none 0x80),
   .mmulm (t3 (rv 1) (rv 2) (rc 3) zo .none 0x80), .mmacm (t3 (rv 1) (rv 2) (rv 3) (rk 4) .none 0x80),
   .mred (t3 (rv 1) (rp 2) zo zo .i32 0x80),
   .rspl (t3 (rs 4) (rv 2) zo zo .i32 0x80), .rmrc (t3 (rv 2) (rs 4) zo zo .none 0x80),
   .fadd (t3 (rs 1) (rs 2) (rs 3) zo .f32 0), .fsub (t3 (rv 1) (rp 2) (rv 3) zo .f32 0),
   .fmul (t3 (rv 1) (rv 2) (rh 3) zo .f32 0),
   .ffma (t3 (rv 1) (rv 2) (rv 3) (rp 4) .f32 0), .fmin (t3 (rp 1) (rv 2) (rv 3) zo .f32 0),
   .fmax (t3 (rv 1) (rc 2) (rv 3) zo .f32 0), .fcmp (t3 (rv 1) (rv 2) (rv 3) zo .f32 0),
   .fclass (t3 (rp 1) (rv 2) zo zo .f32 0), .frcp (t3 (rs 1) (rs 2) zo zo .f32 0),
   .frsq (t3 (rv 1) (rp 2) zo zo .f32 0), .fexp2 (t3 (rp 1) (rv 2) zo zo .f32 0), .flog2 (t3 (rv 1) (rc 2) zo zo .f32 0),
   .fsin (t3 (rs 1) (rv 2) zo zo .f32 0), .fcos (t3 (rv 1) (rk 2) zo zo .f32 0), .cvt (t3 (rs 1) (rs 2) zo zo .f32 5),
   .cvts (t3 (rv 1) (rv 2) (rp 3) zo .f32 2), .part (t3 (rv 1) (rs 2) zo zo .none 0),
   .shfl (t3 (rv 1) (rs 2) (rv 3) zo .i32 0), .perm (t3 (rs 1) (rv 2) (rv 3) zo .i32 0),
   .vote (t3 (rv 1) (rp 2) zo zo .none 0), .matchLanes (t3 (rs 1) (rv 2) zo zo .i32 0),
   .redux (t3 (rv 1) (rs 2) zo zo .i32 0), .scan (t3 (rs 1) (rv 2) zo zo .i32 0), .topk (t3 (rv 1) (rv 2) (rv 3) zo .i32 0),
   .bcast (t3 (rv 1) (rv 2) (rv 3) zo .i32 0), .vget (t3 (rv 1) (rv 2) (rs 3) zo .i32 0),
   .vset (t3 (rs 1) (rs 2) (rs 3) zo .i32 0),
   .brx (t3 zo (rc 1) zo zo .none 0), .call (i32 (rv 1) zo .none 0 0), .ret (t3 zo (rv 1) zo zo .none 0),
   .loop (i32 zo (rv 1) .none 0 5), .grow (t3 (rp 1) zo zo zo .none 1)]

def badClassMemory : List Instr :=
  [.ld (mf (rp 4) (rs 2) 2 0 0), .st (mf (rs 4) (rv 2) 2 0 0), .lds (mf (rs 4) (rs 2) 2 0 0), .sts (mf (rv 4) (rh 2) 2 0 0),
   .ldt (mt (rv 4) (rs 1) (rs 2)), .stt { mt (rv 4) (rh 1) (rs 2) with nc := 5, k1 := rs 1, k2 := rs 1, k3 := im 4 },
   .ldt { mt (rv 4) (rh 1) (rs 2) with nc := 7, k1 := rs 1, k2 := rs 1, k3 := rs 61 }, .atom (mf (rs 3) (rs 2) 2 0x70 0),
   .red (mf (rs 4) (rs 2) 2 0 0), .pref (mf zo (rh 2) 0 0 0), .mop (ef (rs 1) (rh 2) 0), .hld (mf (rs 1) (rs 2) 0 0 0),
   .hset (t3 (rs 1) (rs 2) zo zo .none 0), .hget (t3 (rs 1) (rs 1) (im 1) zo .none 0),
   .bar (t3 zo (rv 1) (im 1) zo .none 0), .bara (t3 zo (im 0) (rv 1) zo .none 0), .syncg (t3 zo (rp 1) zo zo .none 0),
   .waitt (t3 (rp 1) (rs 2) zo zo .none 0),
   .waitk (t3 zo (rv 1) zo zo .none 0), .waitc (t3 zo (im 2) (im 1) zo .none 0), .cpl (ef (rh 2) (rv 4) (blockAt 0)),
   .cpt (ef (rh 2) (rs 4) (blockAt 0)), .cpg (ef (rv 2) (rh 4) (blockAt 0)), .cvb (ef (rh 2) (rs 4) (blockAt (2 * 2 ^ 15))),
   .mma (ef (rs 1) (rh 2) (blockAt (2 ^ 14))), .mms { ef (rh 1) (rh 2) (blockAt (2 ^ 14)) with d := rv 0 },
   .mzero { ef zo zo (blockAt 0) with d := rv 1 }, .mdr (ef (rs 1) zo (blockAt (0x12 * 2 ^ 14))),
   .mrs (ef (rs 1) zo (blockAt 0)),
   .mrl (ef (rv 1) zo (blockAt 0)), .coll (ef (rh 1) (rs 2) (blockAt 0)),
   .relay { ef (rh 1) zo (blockAt 0) with pd := true, c := rv 1 }, .detach (t3 (rs 1) (rs 2) zo zo .none 0),
   .adopt (t3 (rc 1) zo zo zo .none 0), .cancel (t3 (rc 1) (rv 2) zo zo .none 0),
   .prio (t3 (rc 1) (rs 2) (rv 3) zo .none 0), .tstat (t3 (rc 1) (rs 2) zo zo .none 0),
   .suspend (t3 zo (rs 1) (rs 2) zo .none 1), .qpush (t3 (rv 1) (rv 8) zo zo .none 0),
   .qpop (t3 (rv 8) (rv 1) zo zo .none 0), .spawn (t3 (rs 1) (rs 2) zo zo .none 0),
   .csrr (i32 (rv 1) zo .none 0 0x010), .csrw (i32 zo (rv 1) .none 0 0x010), .basinstWrite (i32 zo (rv 1) .none 0 0),
   .rcrClear (i32 zo (rv 1) .none 0 0x20), .chselWrite (i32 zo (rv 1) .none 0 0x22), .invcmdWrite (i32 zo (rv 1) .none 0 0x81),
   .ringTailWrite (i32 zo (rv 1) .none 0 0x33), .persistentMarkSet (i32 zo (rv 1) .none 0 0x73),
   .clkr (t3 (rs 1) zo zo zo .none 1), .einj (t3 zo (rv 1) zo zo .none 0),
   .pair { hd := hd, op1 := { sop := 1, sm := 0, d := 12, a := 9, b := 10, c := 0 }, op0 := { sop := 0x47, sm := 0, d := 8, a := 9, b := 10, c := 8 } },
   .pair { hd := hd, op1 := { sop := 1, sm := 0, d := 13, a := 9, b := 12, c := 0 }, op0 := { sop := 0x47, sm := 0, d := 8, a := 9, b := 10, c := 8 } }]

/-- Refused for a vector register that does not begin its pair, quad or octet. -/
def badAligned : List Instr :=
  [.add (t3 (rv 1) (rv 2) (rv 4) zo .i64 0), .addI32 (i32 (rv 2) (rv 3) .i64 0 5), .shl (t3 (rv 2) (rv 5) (rv 3) zo .n64 0),
   .mov (t3 (spr 0x40) (rv 4) zo zo .none 0), .movl { hd := hd, d := rv 3, lit := 0 },
   .lea (t3 (rv 3) (rs 4) (rv 3) zo .none 0), .mred (t3 (rv 1) (rv 3) zo zo .i64 0x80),
   .rspl (t3 (rv 2) (rv 2) zo zo .i32 0x80), .rmrc (t3 (rv 2) (rv 6) zo zo .none 0x80), .ld (mf (rv 6) (rs 2) 4 0 0),
   .st (mf (rv 4) (rv 3) 2 0 0),
   .lds (mf (rv 3) (rs 2) 3 0 0), .atom (mf (rv 3) (rs 2) 2 0x70 0), .pref (mf zo (rv 3) 0 0 0),
   .cpl (ef (rv 3) (rv 4) (blockAt 0)), .qpush (t3 (spr 0x40) (rv 4) zo zo .none 0), .qpop (t3 (rv 4) (spr 0x40) zo zo .none 0)]

theorem test_third_check : (badClass ++ badClassMemory ++ badAligned).all (fun i => i.resOk && !i.opndOk && !i.wellFormed) = true := by
  decide +kernel

/-! ## Single steps: the expected values are worked out by hand from the rules, or are the manual's examples -/

/-- The strand after `i` on a device, and what `P` says of it. -/
def yields (i : Instr) (s : State) (P : State → Strand → Bool) : Bool :=
  match exec i s with
  | .next t => (match t.strand? s.cur with | some x => P t x | none => false)
  | _ => false

/-- The bench with vector registers of lane 0 set. -/
def regs (l : List (Nat × Nat)) (x : Strand) : Strand := l.foldl (fun x e => x.setV 0 e.1 (BitVec.ofNat 32 e.2)) x
def laneOf (i : Instr) (l : List (Nat × Nat)) (P : Strand → Bool) : Bool := yields i (bench (regs l) id) fun _ x => P x
/-- Register `r` of lane 0 after `i` with the registers `l`. -/
def gives (i : Instr) (l : List (Nat × Nat)) (r v : Nat) : Bool := laneOf i l fun x => x.vreg 0 r == BitVec.ofNat 32 v

/-- R92, R93, R123: addition wraps, or saturates; subtraction of a pair borrows; the high half of an unsigned product. -/
theorem test_integer :
    gives (.add (t3 (rv 1) (rv 2) (rv 3) zo .i32 0)) [(2, 0x7FFFFFFF), (3, 1)] 1 0x80000000 ∧
    gives (.add (h3 (t3 (rv 1) (rv 2) (rv 3) zo .i32 0) zo .dyn true)) [(2, 0x7FFFFFFF), (3, 1)] 1 0x7FFFFFFF ∧
    laneOf (.sub (t3 (rv 4) (rv 6) (rv 8) zo .i64 0)) [(8, 1)] (fun x => x.vpair 0 4 == BitVec.allOnes 64) ∧
    gives (.mulh (t3 (rv 1) (rv 2) (rv 2) zo .n32 0)) [(2, 0xFFFFFFFF)] 1 0xFFFFFFFE := by decide +kernel

/-- R125: a count of the width or more gives 0, or copies of the sign; R126: a field is clipped to the width and sign-extended. -/
theorem test_shift :
    gives (.shl (t3 (rv 1) (rv 2) (rv 3) zo .n32 0)) [(2, 1), (3, 32)] 1 0 ∧
    gives (.shl (t3 (rv 1) (rv 2) (rv 3) zo .n32 0)) [(2, 1), (3, 31)] 1 0x80000000 ∧
    gives (.sar (t3 (rv 1) (rv 2) (rv 3) zo .i32 0)) [(2, 0x80000000), (3, 0xFFFFFFFF)] 1 0xFFFFFFFF ∧
    gives (.bfx (t3 (rv 1) (rv 2) (rv 3) zo .i32 0)) [(2, 0xF0000000), (3, 0x081C)] 1 0xFFFFFFFF ∧
    gives (.bfi (t3 (rv 1) (rv 2) (rv 3) (rv 4) .n32 0)) [(2, 5), (3, 0x0404), (4, 0xFFFFFFFF)] 1 0xFFFFFF5F := by decide +kernel

/-- R128: a signed and an unsigned comparison of −1 and 1,000. -/
theorem test_compare :
    laneOf (.cmpI32 (i32 (rp 2) (rv 7) .i32 2 1000)) [(7, 0xFFFFFFFF)] (fun x => x.pbit 0 2) ∧
    laneOf (.cmpI32 (i32 (rp 2) (rv 7) .n32 2 1000)) [(7, 0xFFFFFFFF)] (fun x => !x.pbit 0 2) := by decide +kernel

/-- Basis 1 of the example of R133. -/
def basis1 (s : State) : State := s.modCtx 1 fun c => { c with bases := [(0, defaultBasis), (1, { prim := [5, 7, 9], q0 := 11, q1 := 13 })] }

/-- R133, R134: the manual's example: the digits of −24, and −24 again from its digits; a wrong digit gives −114 and no match. -/
theorem test_residue :
    yields (.rspl (t3 (rv 12) (rv 3) zo zo .i32 0x90)) (bench (regs [(3, 0xFFFFFFE8)]) basis1) (fun _ x =>
      x.vreg 0 12 == 0x00030401 && x.vreg 0 13 == 0 && x.vreg 0 14 == 0x00020009 && x.vreg 0 15 == 0) ∧
    yields (.rmrc (t3 (rv 20) (rv 12) zo zo .none 0x190)) (bench (regs [(12, 0x00030401), (14, 0x00020009)]) basis1) (fun _ x =>
      x.vpair 0 20 == 0xFFFFFFFFFFFFFFE8 && x.pbit 0 1) ∧
    yields (.rmrc (t3 (rv 20) (rv 12) zo zo .none 0x190)) (bench (regs [(12, 0x00030501), (14, 0x00020009)]) basis1) (fun _ x =>
      x.vpair 0 20 == BitVec.ofInt 64 (-114) && !x.pbit 0 1) := by decide +kernel

/-- R96, R102, R104: 1 + 2^−24 is a tie and goes to the even significand; 300 overflows the format b8p4.sx. -/
theorem test_floating :
    gives (.fadd (h3 (t3 (rv 1) (rv 2) (rv 3) zo .f32 0) zo .rn false)) [(2, 0x3F800000), (3, 0x33800000)] 1 0x3F800000 ∧
    gives (.fadd (h3 (t3 (rv 1) (rv 2) (rv 3) zo .f32 0) zo .ru false)) [(2, 0x3F800000), (3, 0x33800000)] 1 0x3F800001 ∧
    gives (.cvt (h3 (t3 (rv 1) (rv 2) zo zo (.b8 false false 4) 0x12) zo .rn false)) [(2, 0x43960000)] 1 0x7F ∧
    gives (.cvt (h3 (t3 (rv 1) (rv 2) zo zo (.b8 false false 4) 0x12) zo .rn true)) [(2, 0x43960000)] 1 0x7E := by decide +kernel

/-- R142: the manual's example: −0.75 with the pair 0x7A05 is −19, and 4.0 saturates to 127. -/
theorem test_quantise :
    gives (.cvts (t3 (rv 1) (rv 2) (rv 3) zo .i8 0x12)) [(2, 0xBF400000), (3, 0x7A05)] 1 0xFFFFFFED ∧
    gives (.cvts (t3 (rv 1) (rv 2) (rv 3) zo .i8 0x12)) [(2, 0x40800000), (3, 0x7A05)] 1 127 := by decide +kernel

/-- R62: p0 clear guards an instruction off, and the strand goes on. R162: a branch is relative to its own PC. R163: the worked
`BRA.div` with lane 0 negative, whose path, at +3, runs first. -/
theorem test_control :
    laneOf (.add { t3 (rv 1) (rv 2) (rv 3) zo .i32 0 with hd := { hd with gi := 0 } }) [(2, 5)] (fun x => x.vreg 0 1 == 0 && x.pc == 2) ∧
    laneOf (.bra (i32 zo zo .none 0 0xFFFFFFFF)) [] (fun x => x.pc == 0) ∧
    yields (.braDiv { i32 zo zo .none 1 0x60003 with hd := { hd with gi := 1 } }) (bench (fun x => x.setPbit 0 1 true) id) (fun _ x =>
      x.pc == 4 && x.active == 1 && x.rstk.length == 1) := by decide +kernel

/-- R173, R370, R375: a software trap enters the handler at 64 in handler mode and keeps the PC that follows. -/
theorem test_trap :
    yields (.trap (i32 zo zo .none 0 0xABCD)) (bench id handled) (fun _ x =>
      x.pc == 64 && x.hm && x.tinfo == 0xABCD && x.rstk.length == 1) := by decide +kernel

/-- R57, R353, R354: the first step from a placed word runs it: here −8 is added to s3. -/
theorem test_step :
    (match step (State.reset.withFetchWord 96 0x005C010340C00140FFFFFFF8) with
    | .next t => (match t.strand? { core := 0, strid := 0 } with | some x => x.sreg 3 == BitVec.ofInt 64 (-8) && x.pc == 1 | none => false)
    | _ => false) = true := by decide +kernel

end Sys2Proof.Tests
end

section
/-! SUPPORT. The guard of an instruction (R62): when it passes, that its reserved code is the decode cause ILL_RES in every form,
and that an instruction which is guarded off only counts. -/

namespace Sys2Proof.Guard

open Sys2Proof.Machine Sys2Proof.Safety Sys2Proof.Laws

/-! ## When the guard passes -/

theorem mem_acting {x : Strand} {hd : Hdr} {l : Nat} :
    l ∈ x.acting hd ↔ l < x.nlanes ∧ Mask.bit x.active l = true ∧ x.pbit l hd.gi.toNat ≠ hd.neg := by
  simp only [Strand.acting, Strand.activeLanes, Mask.lanes, Strand.laneGuard, List.mem_filter, List.mem_range, bne_iff_ne, and_assoc]

theorem passes_lane_iff {i : Instr} (x : Strand) (h : i.isLane = true) :
    x.passes i = true ↔ ∃ l, l < x.nlanes ∧ Mask.bit x.active l = true ∧ x.pbit l i.hdr.gi.toNat ≠ i.hdr.neg := by
  have acts : x.passes i = true ↔ ∃ l, l ∈ x.acting i.hdr := by
    rw [Strand.passes, if_pos h, Bool.not_eq_true', List.isEmpty_eq_false_iff_exists_mem]
  simp only [acts, mem_acting]

theorem passes_uniform_iff {i : Instr} (x : Strand) (h : i.isLane = false) :
    x.passes i = true ↔ x.creg i.hdr.gi.toNat ≠ i.hdr.neg := by
  simp [Strand.passes, h, Strand.condGuard]

/-! ## The reserved guard -/

theorem hdrOk_reserved {h : Hdr} (hn : h.neg = true) (hg : h.gi = 7) : h.ok = false := by simp [Hdr.ok, hn, hg]

/-! R82: the second check of each form starts with the header, so that a reserved guard fails it. -/

theorem t3Res_reserved {f : T3} (h : f.hd.ok = false) (u : T3Use) (ty opx : Bool) : f.res u ty opx = false := by
  simp [T3.res, h]

theorem t3Plain_reserved {f : T3} (h : f.hd.ok = false) (u : T3Use) (opx : Bool) : f.plain u opx = false :=
  t3Res_reserved h u _ opx

theorem i32Res_reserved {f : I32} (h : f.hd.ok = false) (d a ty opx : Bool) : f.res d a ty opx = false := by
  simp [I32.res, h]

theorem csrRes_reserved {f : I32} (h : f.hd.ok = false) (d a : Bool) : csrRes f d a = false := by
  simp [csrRes, i32Res_reserved h]

theorem mRes_reserved {f : MForm} (h : f.hd.ok = false) (sz sem rd0 : Bool) : f.res sz sem rd0 = false := by
  simp [MForm.res, h]

theorem eRes_reserved {f : EForm} (h : f.hd.ok = false) (a b : Bool) : f.res a b = false := by simp [EForm.res, h]

theorem pairRes_reserved {f : PairForm} (h : f.hd.ok = false) : f.res = false := by simp [PairForm.res, h]

/-- R62: no program instruction with a reserved guard passes the second check: each entry asks it of the form it is encoded in. -/
theorem resOk_reserved {i : Instr} (hp : i.isProgram = true) (h : i.hdr.ok = false) : i.resOk = false := by
  cases i
  all_goals simp only [Instr.isProgram, Bool.false_eq_true] at hp
  all_goals
    simp only [Instr.hdr, Instr.form, Form.hdr] at h
    simp only [Instr.resOk, h, t3Res_reserved, t3Plain_reserved, i32Res_reserved, csrRes_reserved, mRes_reserved, eRes_reserved,
      pairRes_reserved, Bool.false_and]

theorem staticCause_reserved {i : Instr} (hp : i.isProgram = true) (hn : i.hdr.neg = true) (hg : i.hdr.gi = 7) :
    i.staticCause = some .illRes := by
  simp [Instr.staticCause, resOk_reserved hp (hdrOk_reserved hn hg)]

/-! ## An instruction that is guarded off -/

/-- What an instruction that issues and is guarded off answers: it completes with no flags, and its body is not asked. -/
theorem issue_guardedOff {i : Instr} {s : State} {x : Strand} (h : Issues i s x) (hg : x.passes i = false)
    (body : State → Ref → Strand → Res) :
    issue i s body = .next (finishDone s x s.cur (issued s s.cur x i) 0) := by
  obtain ⟨cur, run, defer, window, decode, handler, dbl⟩ := h
  have owes : owesTrap x = false := by rcases defer with h | h <;> simp [owesTrap, h]
  have lane : (x.hm && i.isLane) = false := by rcases handler with h | h <;> simp [h]
  unfold issue
  rw [cur]
  simp only [run, owes, window, decode, lane, dbl, hg, Bool.not_true, Bool.false_eq_true, if_false]

/-- R62, R161: the strand is past an instruction that is guarded off, and nothing else has changed. -/
theorem becomes_past_of_guardedOff {i : Instr} {s : State} {x : Strand} (hp : i.isProgram = true) (hi : Issues i s x)
    (hg : x.passes i = false) (hn : NextPcOk x) : Becomes i s s (past i s x) := by
  obtain ⟨body, he⟩ := exec_issue i hp
  have ⟨_, _, defer, _⟩ := hi
  have done : finishDone s x s.cur (issued s s.cur x i) 0 = (issued s s.cur x i).setStrand s.cur (past i s x) := by
    rw [finishDone_quiet (strand_issued s s.cur x i) hn (by simp [fpTraps, conditions]) defer, addFlags_zero]; rfl
  refine ⟨(issued s s.cur x i).setStrand s.cur (past i s x), ?_, strand_setStrand_same _ _ _,
    agree_trans (agree_issued s s.cur x i) (agree_setStrand _ _ _)⟩
  rw [he, issue_guardedOff hi hg, done]

/-- Settles O16: the tests of the guard lane by lane and once, the reserved guard, and the frame of an instruction guarded off. -/
theorem guardedOff : Obligations.GuardedOff := by
  unfold Obligations.GuardedOff
  exact fun _ _ x => ⟨passes_lane_iff x, passes_uniform_iff x, staticCause_reserved, becomes_past_of_guardedOff⟩

end Sys2Proof.Guard
end

section
/-! SUPPORT. Entering the handler (R368): what settling and the issue of an instruction leave of the conditions of a trap, and the
software trap (R173), which takes its trap after it has issued. -/

namespace Sys2Proof.SoftwareTrap

open Sys2Proof.Machine Sys2Proof.Safety Sys2Proof.Laws

/-! ## Settling changes registers only -/

theorem regWApply_frame (w : RegW) (x : Strand) :
    w.apply x = { x with v := (w.apply x).v, s := (w.apply x).s, p := (w.apply x).p, h := (w.apply x).h,
                         dbl := (w.apply x).dbl } := by
  cases w with
  | p l r b => simp only [RegW.apply, Strand.setPbit, Strand.setPreg]; split <;> rfl
  | _ => rfl

theorem regWsApply_frame (ws : List RegW) (x : Strand) :
    ws.foldl (fun y w => w.apply y) x =
      { x with v := (ws.foldl (fun y w => w.apply y) x).v, s := (ws.foldl (fun y w => w.apply y) x).s,
               p := (ws.foldl (fun y w => w.apply y) x).p, h := (ws.foldl (fun y w => w.apply y) x).h,
               dbl := (ws.foldl (fun y w => w.apply y) x).dbl } := by
  induction ws generalizing x with
  | nil => rfl
  | cons w ws ih => rw [List.foldl_cons, ih, regWApply_frame w x]

theorem completeOne_frame (x : Strand) (o : LongOp) :
    completeOne x o =
      { x with v := (completeOne x o).v, s := (completeOne x o).s, p := (completeOne x o).p, h := (completeOne x o).h,
               dbl := (completeOne x o).dbl, fpsr := (completeOne x o).fpsr, defer := (completeOne x o).defer } := by
  unfold completeOne addFlags
  dsimp only
  rw [regWsApply_frame]

theorem completeAll_frame (os : List LongOp) (x : Strand) :
    os.foldl completeOne x =
      { x with v := (os.foldl completeOne x).v, s := (os.foldl completeOne x).s, p := (os.foldl completeOne x).p,
               h := (os.foldl completeOne x).h, dbl := (os.foldl completeOne x).dbl,
               fpsr := (os.foldl completeOne x).fpsr, defer := (os.foldl completeOne x).defer } := by
  induction os generalizing x with
  | nil => rfl
  | cons o os ih => rw [List.foldl_cons, ih, completeOne_frame x o]

/-- R66, R68: settling writes v, s, p and h registers, with the marks of the v registers, and FPSR, and makes traps due. -/
theorem settle_frame (x : Strand) :
    settle x = { x with v := (settle x).v, s := (settle x).s, p := (settle x).p, h := (settle x).h, dbl := (settle x).dbl,
                        fpsr := (settle x).fpsr, defer := (settle x).defer, long := [] } := by
  unfold settle
  rw [completeAll_frame]

theorem settle_keeps (x : Strand) :
    (settle x).rstk = x.rstk ∧ (settle x).ctx = x.ctx ∧ (settle x).slot = x.slot ∧ (settle x).live = x.live ∧
      (settle x).k = x.k := by
  rw [settle_frame]
  exact ⟨rfl, rfl, rfl, rfl, rfl⟩

/-! ## The mark of a trap in its slot -/

/-- R380: the change that `actIn` makes in its core. -/
def markActed (cycle k : Nat) (q : Core) : Core :=
  { q with slots := mput q.slots k { mget Slot.reset q.slots k with actedAt := cycle + 1 } }

theorem actIn_eq_modCore (s : State) (c k : Nat) : actIn s c k = s.modCore c (markActed s.cycle k) := rfl

@[simp] theorem strand_actIn (s : State) (c k : Nat) (r : Ref) : (actIn s c k).strand? r = s.strand? r := by
  unfold State.strand?
  rw [actIn_eq_modCore, core_modCore]
  split
  · rename_i h; rw [h]; rfl
  · rfl

theorem agree_actIn {r : Ref} {u t : State} (h : Agree r u t) (c k : Nat) : Agree r (actIn u c k) (actIn t c k) := by
  have cycle : t.cycle = u.cycle := by rw [h.1]
  rw [actIn_eq_modCore, actIn_eq_modCore, cycle]
  exact agree_modCore h c (markActed u.cycle k) (fun _ _ => rfl) fun _ => rfl

/-! ## The conditions of a trap -/

/-- R368: a trap that finds a handler, a strand that can settle and room on the stack enters the handler. -/
theorem takeTrap_enters {s : State} {r : Ref} {x : Strand} {pc : Nat} (hm : x.hm = false) (handler : handlerOf s x = some pc)
    (settles : canSettle x = true) (room : pushFails s r (settle x) = none) (tpc : Nat) (m : Mask) (c : Cause) (info : Dword) :
    takeTrap s r x tpc m c info =
      actIn (s.setStrand r (enterHandler (settle x) (settledAt x s.cycle) tpc m c info pc)) r.core x.slot := by
  unfold takeTrap
  simp only [hm, handler, settles, room, Bool.false_eq_true, if_false, Bool.not_true]

/-- R369: a trap outside handler mode halts a context that has no handler. -/
theorem takeTrap_halts {s : State} {r : Ref} {x : Strand} (hm : x.hm = false) (handler : handlerOf s x = none)
    (tpc : Nat) (m : Mask) (c : Cause) (info : Dword) : takeTrap s r x tpc m c info = haltStrand s r x c info false := by
  unfold takeTrap
  simp only [hm, handler, Bool.false_eq_true, if_false]

/-- An issue changes of the outstanding instructions only how far off the ends of their windows are. -/
theorem canSettle_tick (s : State) (r : Ref) (x : Strand) (i : Instr) : canSettle (tick s r x i) = canSettle x := by
  simp only [canSettle, accessesOwed, tick, List.any_map, List.all_map]; rfl

/-- R39, R40: what stops a push is told by the stack's depth and by which of its addresses can be spilled to. -/
theorem pushFails_congr {s t : State} {r : Ref} {x y : Strand} (rstk : y.rstk = x.rstk)
    (addr : ∀ k, stackAddr t r y k = stackAddr s r x k) (spill : ∀ a, spillOk t y.ctx a = spillOk s x.ctx a) :
    pushFails t r y = pushFails s r x := by
  unfold pushFails
  rw [rstk]
  simp only [addr, spill]

theorem pushFails_settle (s : State) (r : Ref) (x : Strand) : pushFails s r (settle x) = pushFails s r x := by
  obtain ⟨rstk, ctx, slot, _⟩ := settle_keeps x
  exact pushFails_congr rstk (fun k => by rw [stackAddr, slot]; rfl) fun a => by rw [ctx]

/-- R40: no strand, issue slot, allowance or count says whether a spill succeeds. -/
theorem spillOk_of_agree {r : Ref} {u t : State} (h : Agree r u t) (ctx a : Nat) : spillOk t ctx a = spillOk u ctx a := by
  obtain ⟨same, _⟩ := h
  have ctxs : t.ctx? ctx = u.ctx? ctx := by rw [same]; rfl
  have free : t.free = u.free := by rw [same]
  have busy : t.rtBusy = u.rtBusy := by rw [same]
  have table : t.regions = u.regions := by rw [same]
  have tableOld : t.regionsOld = u.regionsOld := by rw [same]
  unfold spillOk spillFaults regionAllows regionAllowsBy oldTable
  rw [ctxs, free, busy, table, tableOld]

theorem pushFails_issued (s : State) (r : Ref) (x : Strand) (i : Instr) :
    pushFails (issued s r x i) r (tick s r x i) = pushFails s r x :=
  pushFails_congr rfl (fun k => by rw [stackAddr, slot_of_agree (agree_issued s r x i)]; rfl)
    (spillOk_of_agree (agree_issued s r x i) x.ctx)

/-! ## TRAP -/

theorem pcOk_succ {n : Nat} (h : n + 1 < 2 ^ 32) : pcOk ((n + 1 : Nat) : Int) = true := by
  simp only [pcOk, Bool.and_eq_true, decide_eq_true_eq]; omega

/-- R173: a TRAP that acts issues and then takes SW_TRAP, with the next PC and its immediate, where that trap need not
wait for the strand to settle. -/
theorem exec_trap_takes {f : I32} {s : State} {x : Strand} (ha : Acts (.trap f) s x) (hp : x.pc + 1 < 2 ^ 32)
    (ready : trapWaits (issued s s.cur x (.trap f)) (tick s s.cur x (.trap f)) = false) :
    exec (.trap f) s = .next (takeTrap (issued s s.cur x (.trap f)) s.cur (bookkept (.trap f) s x) (x.pc + 1) x.active .swTrap
      (f.imm.setWidth 64)) := by
  have pc : (tick s s.cur x (.trap f)).pc = x.pc := rfl
  have he : exec (.trap f) s = execTrap f s := rfl
  rw [he, execTrap, issue_acts ha]
  simp only [Res.outcome, pc, pcOk_succ hp, if_true, strand_issued, ready, Bool.false_eq_true, if_false, Int.toNat_natCast]
  rfl

theorem exec_trap_enters {f : I32} {s : State} {x : Strand} {pc : Nat} (ha : Acts (.trap f) s x) (hm : x.hm = false)
    (handler : handlerOf s x = some pc) (settles : canSettle x = true) (room : pushFails s s.cur x = none)
    (hp : x.pc + 1 < 2 ^ 32) :
    exec (.trap f) s = .next (actIn ((issued s s.cur x (.trap f)).setStrand s.cur
      (enterHandler (settle (bookkept (.trap f) s x)) (settledAt (bookkept (.trap f) s x) s.cycle) (x.pc + 1) x.active .swTrap
        (f.imm.setWidth 64) pc)) s.cur.core x.slot) := by
  have hm' : (bookkept (.trap f) s x).hm = false := hm
  have handler' : handlerOf (issued s s.cur x (.trap f)) (bookkept (.trap f) s x) = some pc := handler
  have settles' : canSettle (bookkept (.trap f) s x) = true := (canSettle_tick s s.cur x _).trans settles
  have room' : pushFails (issued s s.cur x (.trap f)) s.cur (settle (bookkept (.trap f) s x)) = none := by
    rw [pushFails_settle, bookkept, pushFails_issued, room]
  have ready : trapWaits (issued s s.cur x (.trap f)) (tick s s.cur x (.trap f)) = false := by
    simp [trapWaits, canSettle_tick, settles]
  rw [exec_trap_takes ha hp ready, takeTrap_enters hm' handler' settles' room']
  rfl

theorem exec_trap_halts {f : I32} {s : State} {x : Strand} (ha : Acts (.trap f) s x) (hm : x.hm = false)
    (handler : handlerOf s x = none) (hp : x.pc + 1 < 2 ^ 32) :
    exec (.trap f) s = .next (haltStrand (issued s s.cur x (.trap f)) s.cur (bookkept (.trap f) s x) .swTrap
      (f.imm.setWidth 64) false) := by
  have hm' : (bookkept (.trap f) s x).hm = false := hm
  have handler' : handlerOf (issued s s.cur x (.trap f)) (bookkept (.trap f) s x) = none := handler
  have ready : trapWaits (issued s s.cur x (.trap f)) (bookkept (.trap f) s x) = false := by simp [trapWaits, handler']
  rw [exec_trap_takes ha hp ready, takeTrap_halts hm' handler']

/-- Settles O14: with a handler TRAP enters it past itself, and without one it halts with SW_TRAP. -/
theorem softwareTrap : Obligations.SoftwareTrap := by
  unfold Obligations.SoftwareTrap
  refine ⟨fun f s x pc ha hm handler settles room hp => ?_, fun f s x => exec_trap_halts⟩
  obtain ⟨rstk, _, _, live, k⟩ := settle_keeps (bookkept (.trap f) s x)
  refine ⟨_, _, exec_trap_enters ha hm handler settles room hp, (strand_actIn _ _ _ _).trans (strand_setStrand_same _ _ _),
    agree_actIn (agree_trans (agree_issued s s.cur x _) (agree_setStrand _ _ _)) _ _, rfl, rfl, rfl, rfl, rfl, rfl, live, k,
    (settle (bookkept (.trap f) s x)).ssw, ?_⟩
  exact congrArg _ rstk

end Sys2Proof.SoftwareTrap
end
